-- ==== Sys2Proof/Word.lean ====
section
/-! DEFINITION. The word types of the block (00_scope.md R9, R10): every value is unsigned, bit 0 is the least significant. -/

namespace Sys2Proof

/-- A byte of a port transfer, of a dictionary entry or of an operand. -/
abbrev Byte := BitVec 8

/-- A command word or a response word (00_scope.md R9). -/
abbrev Word := BitVec 32

/-- A 24-bit number: an operand field, the DATA field of a response, an LZW code or a dictionary size (R9, R41, R44). -/
abbrev Code := BitVec 24

/-- A fault field or the CODE field of a response (10_state.md R20, 30_encoding.md R44). -/
abbrev FaultBits := BitVec 6

end Sys2Proof
end

