-- ==== Sys2Proof/Syntax.lean ====
section
/-! DEFINITION. The 26 commands of the opcode map (30_encoding.md R46), with the operand of each form at its exact width (R42). -/

namespace Sys2Proof

/-- A command of the block: one constructor per row of spec/opcode_table.json. -/
inductive Instr where
  /-- `NOP` (40_control.md R62). -/
  | nop
  /-- `RESET` (R63). -/
  | reset
  /-- `REG.RD r` (R64). -/
  | regRd (r : BitVec 5)
  /-- `CRC.RST` (41_crc.md R67). -/
  | crcRst
  /-- `CRC.UPD b` (R68). -/
  | crcUpd (b : Byte)
  /-- `CRC.VAL` (R69). -/
  | crcVal
  /-- `BU.SETW n` (42_bitstream.md R72). -/
  | buSetw (n : BitVec 5)
  /-- `BU.INCW` (R73). -/
  | buIncw
  /-- `BU.RD` (R74). -/
  | buRd
  /-- `BU.CLR` (R75). -/
  | buClr
  /-- `BP.SETW n` (R78). -/
  | bpSetw (n : BitVec 5)
  /-- `BP.INCW` (R79). -/
  | bpIncw
  /-- `BP.WR v` (R80). -/
  | bpWr (v : Code)
  /-- `BP.CLOSE` (R81). -/
  | bpClose
  /-- `LZD.RD` (43_lzw_decoder.md R91). -/
  | lzdRd
  /-- `LZD.CLR` (R92). -/
  | lzdClr
  /-- `LZE.WR b` (44_lzw_encoder.md R96). -/
  | lzeWr (b : Byte)
  /-- `LZE.CLR` (R97). -/
  | lzeClr
  /-- `LZE.FLUSH` (R98). -/
  | lzeFlush
  /-- `RLD.RD` (45_rle.md R102). -/
  | rldRd
  /-- `RLD.ESC e` (R103). -/
  | rldEsc (e : Byte)
  /-- `RLD.RST` (R104). -/
  | rldRst
  /-- `RLD.SRC s` (R105). -/
  | rldSrc (src : BitVec 1)
  /-- `RLE.WR b` (R107). -/
  | rleWr (b : Byte)
  /-- `RLE.FLUSH` (R108). -/
  | rleFlush
  /-- `RLE.ESC e` (R109). -/
  | rleEsc (e : Byte)
  deriving DecidableEq, Repr

/-- The operand forms of 30_encoding.md R42. -/
inductive Form where
  /-- No operand. -/
  | none
  /-- A byte, `OPD[7:0]`. -/
  | b8
  /-- A width or a register number, `OPD[4:0]`. -/
  | n5
  /-- A one-bit selector, `OPD[0]`. -/
  | s1
  /-- A code or bit-field value, `OPD[23:0]`. -/
  | v24
  deriving DecidableEq, Repr

end Sys2Proof
end

