-- ==== Sys2Proof/Decode.lean ====
section
/-! DEFINITION. Command words (30_encoding.md R41-R48): the decoder, total on every 32-bit word and rejecting by name, the
encoder, and the opcode map with its match and mask. -/

namespace Sys2Proof

/-- Why a command word is no command (30_encoding.md R43). The block answers ILLEGAL_COMMAND to both. -/
inductive IllegalWord where
  /-- `OPC` is not in the opcode map. -/
  | unassignedOpcode
  /-- A bit of `OPD` outside the form's used bits is 1. -/
  | strayOperandBit
  deriving DecidableEq, Repr

/-- The `OPD` bits a form uses, as a mask (`usedbits` of R46). -/
def Form.usedBits : Form → Code
  | .none => 0x000000#24
  | .b8 => 0x0000FF#24
  | .n5 => 0x00001F#24
  | .s1 => 0x000001#24
  | .v24 => 0xFFFFFF#24

/-- The field `OPC` of a command word, bits 31:24 (R41). -/
def opcOf (w : Word) : BitVec 8 := w.extractLsb' 24 8

/-- The field `OPD` of a command word, bits 23:0 (R41). -/
def opdOf (w : Word) : Code := w.extractLsb' 0 24

/-- A command whose operand field is `opd`, if no bit outside the form is set (R43, R48). -/
def withForm (f : Form) (opd : Code) (i : Instr) : Except IllegalWord Instr :=
  if opd &&& ~~~f.usedBits = 0#24 then .ok i else .error .strayOperandBit

/-- The operand of form `b8` (R42): `OPD[7:0]`. -/
def operandB8 (opd : Code) : Byte := opd.extractLsb' 0 8

/-- The operand of form `n5` (R42): `OPD[4:0]`. -/
def operandN5 (opd : Code) : BitVec 5 := opd.extractLsb' 0 5

/-- The operand of form `s1` (R42): `OPD[0]`. -/
def operandS1 (opd : Code) : BitVec 1 := opd.extractLsb' 0 1

/-- `decode` of R48, on the two fields, by the opcode map of R46. -/
def decodeFields (opc : BitVec 8) (opd : Code) : Except IllegalWord Instr :=
  match opc.toNat with
  | 0x00 => withForm .none opd .nop
  | 0x01 => withForm .none opd .reset
  | 0x02 => withForm .n5 opd (.regRd (operandN5 opd))
  | 0x10 => withForm .none opd .crcRst
  | 0x11 => withForm .b8 opd (.crcUpd (operandB8 opd))
  | 0x12 => withForm .none opd .crcVal
  | 0x20 => withForm .n5 opd (.buSetw (operandN5 opd))
  | 0x21 => withForm .none opd .buIncw
  | 0x22 => withForm .none opd .buRd
  | 0x23 => withForm .none opd .buClr
  | 0x28 => withForm .n5 opd (.bpSetw (operandN5 opd))
  | 0x29 => withForm .none opd .bpIncw
  | 0x2A => withForm .v24 opd (.bpWr opd)
  | 0x2B => withForm .none opd .bpClose
  | 0x30 => withForm .none opd .lzdRd
  | 0x31 => withForm .none opd .lzdClr
  | 0x38 => withForm .b8 opd (.lzeWr (operandB8 opd))
  | 0x39 => withForm .none opd .lzeClr
  | 0x3A => withForm .none opd .lzeFlush
  | 0x40 => withForm .none opd .rldRd
  | 0x41 => withForm .b8 opd (.rldEsc (operandB8 opd))
  | 0x42 => withForm .none opd .rldRst
  | 0x43 => withForm .s1 opd (.rldSrc (operandS1 opd))
  | 0x48 => withForm .b8 opd (.rleWr (operandB8 opd))
  | 0x49 => withForm .none opd .rleFlush
  | 0x4A => withForm .b8 opd (.rleEsc (operandB8 opd))
  | _ => .error .unassignedOpcode

/-- The decoder of R48: total on 32-bit words. -/
def decode (w : Word) : Except IllegalWord Instr := decodeFields (opcOf w) (opdOf w)

/-- The command word with the given fields (R41, R54). -/
def commandWord (opc : BitVec 8) (opd : Code) : Word := opc ++ opd

/-- The encoder: `(OPC << 24) | operand` (R54), from the opcode map of R46. -/
def encode : Instr → Word
  | .nop => commandWord 0x00#8 0#24
  | .reset => commandWord 0x01#8 0#24
  | .regRd r => commandWord 0x02#8 (r.setWidth 24)
  | .crcRst => commandWord 0x10#8 0#24
  | .crcUpd b => commandWord 0x11#8 (b.setWidth 24)
  | .crcVal => commandWord 0x12#8 0#24
  | .buSetw n => commandWord 0x20#8 (n.setWidth 24)
  | .buIncw => commandWord 0x21#8 0#24
  | .buRd => commandWord 0x22#8 0#24
  | .buClr => commandWord 0x23#8 0#24
  | .bpSetw n => commandWord 0x28#8 (n.setWidth 24)
  | .bpIncw => commandWord 0x29#8 0#24
  | .bpWr v => commandWord 0x2A#8 v
  | .bpClose => commandWord 0x2B#8 0#24
  | .lzdRd => commandWord 0x30#8 0#24
  | .lzdClr => commandWord 0x31#8 0#24
  | .lzeWr b => commandWord 0x38#8 (b.setWidth 24)
  | .lzeClr => commandWord 0x39#8 0#24
  | .lzeFlush => commandWord 0x3A#8 0#24
  | .rldRd => commandWord 0x40#8 0#24
  | .rldEsc e => commandWord 0x41#8 (e.setWidth 24)
  | .rldRst => commandWord 0x42#8 0#24
  | .rldSrc src => commandWord 0x43#8 (src.setWidth 24)
  | .rleWr b => commandWord 0x48#8 (b.setWidth 24)
  | .rleFlush => commandWord 0x49#8 0#24
  | .rleEsc e => commandWord 0x4A#8 (e.setWidth 24)

/-- One row of the opcode map of R46. -/
structure OpcodeRow where
  /-- The opcode. -/
  opc : BitVec 8
  /-- The operand form. -/
  form : Form
  deriving DecidableEq, Repr

/-- `match` of a row (R46): `OPC << 24`. -/
def OpcodeRow.fixedBits (r : OpcodeRow) : Word := commandWord r.opc 0#24

/-- `mask` of a row (R46): `0xFF000000 | (~usedbits & 0x00FFFFFF)`. -/
def OpcodeRow.maskBits (r : OpcodeRow) : Word := commandWord 0xFF#8 (~~~r.form.usedBits)

/-- A word is of a row when `word & mask = match` (R46). -/
abbrev OpcodeRow.accepts (r : OpcodeRow) (w : Word) : Prop := w &&& r.maskBits = r.fixedBits

/-- The opcode map of R46, in its order. -/
def opcodeMap : List OpcodeRow :=
  [⟨0x00#8, .none⟩, ⟨0x01#8, .none⟩, ⟨0x02#8, .n5⟩,
   ⟨0x10#8, .none⟩, ⟨0x11#8, .b8⟩, ⟨0x12#8, .none⟩,
   ⟨0x20#8, .n5⟩, ⟨0x21#8, .none⟩, ⟨0x22#8, .none⟩, ⟨0x23#8, .none⟩,
   ⟨0x28#8, .n5⟩, ⟨0x29#8, .none⟩, ⟨0x2A#8, .v24⟩, ⟨0x2B#8, .none⟩,
   ⟨0x30#8, .none⟩, ⟨0x31#8, .none⟩,
   ⟨0x38#8, .b8⟩, ⟨0x39#8, .none⟩, ⟨0x3A#8, .none⟩,
   ⟨0x40#8, .none⟩, ⟨0x41#8, .b8⟩, ⟨0x42#8, .none⟩, ⟨0x43#8, .s1⟩,
   ⟨0x48#8, .b8⟩, ⟨0x49#8, .none⟩, ⟨0x4A#8, .b8⟩]

/-- The 32-bit word that an `nbits`-bit number of the opcode table stands for: a command is one word on a word-wide port
with no byte order (R41, 20_memory.md R35 (d); log 10), and the bits the table does not give are 0. -/
def tableWord (nbits w : Nat) : Word := BitVec.ofNat 32 (w % 2 ^ nbits)

/-- What the decoder reads from the table's number `w` of `nbits` bits; nothing where it refuses the word. -/
def decodeTableWord (nbits w : Nat) : Option Instr := (decode (tableWord nbits w)).toOption

end Sys2Proof
end

