-- ==== Sys2Proof/Config.lean ====
section
/-! DEFINITION. The constants of 00_scope.md R7 and the two open parameters of R8. -/

namespace Sys2Proof

/-- `W_MIN` of R7: the least legal bit-stream width. -/
abbrev wMin : Nat := 1

/-- `W_MAX` of R7: the greatest legal bit-stream width. -/
abbrev wMax : Nat := 24

/-- `W_LZW0` of R7: the width the LZW codes start at. -/
abbrev wLzw0 : BitVec 5 := 9#5

/-- `CLEAR_CODE` of R7. -/
abbrev clearCode : Code := 0x100#24

/-- `DICT_INIT` of R7: the entries a dictionary has after an initialisation, the placeholder 0x100 included. -/
abbrev dictInit : Nat := 257

/-- `ESC_DEFAULT` of R7. -/
abbrev escDefault : Byte := 0xDB#8

/-- `RUN_MAX` of R7: the longest run one escape sequence encodes. -/
abbrev runMax : Nat := 256

/-- `CRC_POLY` of R7. -/
abbrev crcPoly : BitVec 16 := 0x1021#16

/-- `CRC_INIT` of R7. -/
abbrev crcInit : BitVec 16 := 0x0000#16

/-- The parameters that 00_scope.md R8 leaves open. They are fixed for a machine: no command and no host turn changes
them. They stand beside the state, so that a statement about every state is a statement about every value of them
(log 5, log 6). -/
structure Config where
  /-- `DICT_CAP`: the most entries either LZW dictionary can hold, the 257 initial ones included. -/
  dictCap : Nat
  /-- `IN_DEPTH`: how many bytes the DIN FIFO holds. -/
  inDepth : Nat
  deriving DecidableEq, Repr

/-- The constraints R8 puts on the parameters. -/
abbrev Config.legal (c : Config) : Prop :=
  258 ≤ c.dictCap ∧ c.dictCap ≤ 2 ^ 24 - 1 ∧ 1 ≤ c.inDepth

/-- The parameters of the reset state. DESIGN CHOICE, unsafe for a statement about the reset state only (log 5, log 6):
`DICT_CAP` is the value R8 gives a model that follows the source exactly; `IN_DEPTH` is 4096. -/
def Config.default : Config := { dictCap := 2 ^ 24 - 1, inDepth := 4096 }

end Sys2Proof
end

