-- ==== Sys2Proof/Machine/State.lean ====
section
/-! DEFINITION. The state of the block (10_state.md R17-R25), the command in progress, the ports and the host's side of them
(60_exceptions.md R117), as plain data; the reasons a step can stop; the state after reset (70_reset_and_hazards.md R119). -/

namespace Sys2Proof.Machine

/-- The bit unpacker (10_state.md R18). -/
structure Bu where
  /-- `BU.WIDTH`, legal 1..24. -/
  width : BitVec 5
  /-- `BU.ACC`: the bits pulled and not yet read. -/
  acc : BitVec 32
  /-- `BU.CNT`: how many bits `acc` holds. -/
  cnt : BitVec 6
  deriving DecidableEq, Repr

/-- The bit packer (R19). -/
structure Bp where
  /-- `BP.WIDTH`, legal 1..24. -/
  width : BitVec 5
  /-- `BP.ACC`: the bits written and not yet emitted. -/
  acc : BitVec 32
  /-- `BP.CNT`: how many bits `acc` holds. -/
  cnt : BitVec 6
  deriving DecidableEq, Repr

/-- The LZW decoder (R20). -/
structure Lzd where
  /-- The entries of `LZD.DICT` from code 0x101 on, in code order. The entries below are the initial dictionary, which no
  rule changes (R28 (d); log 7). -/
  built : List (List Byte)
  /-- `LZD.SIZE`: the next code to be assigned. -/
  size : Code
  /-- `LZD.W`: the code of the sequence emitted last. -/
  w : Code
  /-- `LZD.FRESH`: no code has been taken since the last initialisation. -/
  fresh : Bool
  /-- `LZD.PEND`: decoded bytes not yet returned. -/
  pend : List Byte
  /-- `LZD.FLT`: the latched fault, 0 for none. -/
  flt : FaultBits
  deriving DecidableEq, Repr

/-- The LZW encoder (R21). -/
structure Lze where
  /-- The strings of `LZE.DICT` inserted since the initialisation, oldest first, each with its code. The initial map sends
  each one-byte string to its byte (log 7). -/
  built : List (List Byte × Code)
  /-- `LZE.SIZE`: the next code to be assigned. -/
  size : Code
  /-- `LZE.HASW`: a prefix w is held. -/
  hasw : Bool
  /-- `LZE.WSEQ`: the longest prefix matched so far. -/
  wseq : List Byte
  /-- `LZE.FLT`: the latched fault, 0 for none. -/
  flt : FaultBits
  deriving DecidableEq, Repr

/-- Where the RLE decoder takes its bytes from: `RLD.SRC` of R22. -/
inductive ByteSource where
  /-- 0: the DIN port. -/
  | din
  /-- 1: the LZW decoder's output. -/
  | lzd
  deriving DecidableEq, Repr

/-- The RLE decoder (R22). -/
structure Rld where
  /-- `RLD.ESC`: the escape byte. -/
  esc : Byte
  /-- `RLD.SRC`: the byte source. -/
  src : ByteSource
  /-- `RLD.RB`: the repeated byte of the sequence being replayed. -/
  rb : Byte
  /-- `RLD.REM`: copies of `rb` still to be returned. -/
  rem : BitVec 9
  /-- `RLD.FLT`: the latched fault, 0 for none. -/
  flt : FaultBits
  deriving DecidableEq, Repr

/-- The RLE encoder (R23). -/
structure Rle where
  /-- `RLE.ESC`: the escape byte. -/
  esc : Byte
  /-- `RLE.RB`: the byte of the buffered run. -/
  rb : Byte
  /-- `RLE.LEN`: the length of the buffered run. -/
  len : BitVec 9
  deriving DecidableEq, Repr

/-- The DIN port (R24, 20_memory.md R29, R30). -/
structure Din where
  /-- `DIN.FIFO`: bytes pushed and not yet pulled, oldest first. -/
  fifo : List Byte
  /-- `DIN.EOF`: the host has signalled end of source. -/
  eof : Bool
  deriving DecidableEq, Repr

/-- The point before a port transfer at which a command stands between two steps, with what it still needs (20_memory.md R31, R33,
R36): it holds there while the port does not allow the transfer. Every other value the command needs is in the unit's own state, as
its pseudocode has left it. -/
inductive Hold where
  /-- BU_READ, in `BuRead`. -/
  | buRead
  /-- LZD_READ, in the `BuRead` of `LzdStep`. -/
  | lzdRead
  /-- RLD_READ, taking the byte at a sequence boundary. -/
  | rldFirst
  /-- RLD_READ, taking the repeated byte. -/
  | rldRepeat
  /-- RLD_READ, taking the count byte; `r` is the repeated byte. -/
  | rldCount (r : Byte)
  /-- BP_WRITE, in the loop of `BpWrite`. -/
  | bpWrite
  /-- BP_CLOSE, in `BpClose`. -/
  | bpClose
  /-- LZE_WRITE of `b`, in the `BpWrite` of `LzeEmitW`. -/
  | lzeWrite (b : Byte)
  /-- LZE_CLEAR, in the `BpWrite` of `LzeEmitW`. -/
  | lzeClearW
  /-- LZE_CLEAR, in `BpWrite(0x100)`. -/
  | lzeClearCode
  /-- LZE_FLUSH, in the `BpWrite` of code(w). -/
  | lzeFlushW
  /-- LZE_FLUSH, in `BpClose`. -/
  | lzeFlushClose
  /-- RLE_WRITE, writing a full run; `rest` are the bytes still to be pushed. -/
  | rleFull (rest : List Byte)
  /-- RLE_WRITE of `b`, writing the run that `b` ends. -/
  | rleNew (b : Byte) (rest : List Byte)
  /-- RLE_FLUSH, writing the run. -/
  | rleFlush (rest : List Byte)
  /-- RLE_SETESC of `e`, writing the run. -/
  | rleSetEsc (e : Byte) (rest : List Byte)
  deriving DecidableEq, Repr

/-- The command sequencer (10_state.md R15, 20_memory.md R36; log 1). -/
inductive Sequencer where
  /-- No command executes. -/
  | idle
  /-- The host has sent a command word, which the block's next step starts. -/
  | arrived (w : Word)
  /-- A command is in progress, at a point before a port transfer. -/
  | holding (h : Hold)
  deriving DecidableEq, Repr

/-- How many DOUT bytes the host will accept without a further act of its own (20_memory.md R33; log 4). -/
inductive Ready where
  /-- Every byte, at once. -/
  | always
  /-- The next `n` bytes. -/
  | count (n : Nat)
  deriving DecidableEq, Repr

/-- A turn the host takes (60_exceptions.md R117, 70_reset_and_hazards.md R120; log 3). -/
inductive HostTurn where
  /-- The host lets the block move. -/
  | yield
  /-- It sends a command word. -/
  | send (w : Word)
  /-- It takes the response. -/
  | take
  /-- It pushes a DIN byte. -/
  | push (b : Byte)
  /-- It signals end of source. -/
  | signalEof
  /-- It sets how many DOUT bytes it will accept. -/
  | accept (r : Ready)
  /-- It asserts the reset signal. -/
  | resetSignal
  deriving DecidableEq, Repr

/-- The host's side of the ports: the MODEL's own fields, none of them the block's (log 3, log 4). -/
structure HostSide where
  /-- The turns the host is about to take, the next one first. -/
  agenda : List HostTurn
  /-- How many DOUT bytes it will accept now. -/
  ready : Ready
  /-- The DOUT bytes it has accepted, oldest first. -/
  dout : List Byte
  /-- The responses it has taken, oldest first. -/
  taken : List Word
  deriving DecidableEq, Repr

/-- The machine: the parameters of R8, the block's state of R17-R24, the command in progress, the response port, and
the host's side. -/
structure State where
  /-- The parameters `DICT_CAP` and `IN_DEPTH`. -/
  cfg : Config
  /-- `CRC.VALUE` (R17). -/
  crc : BitVec 16
  /-- The bit unpacker (R18). -/
  bu : Bu
  /-- The bit packer (R19). -/
  bp : Bp
  /-- The LZW decoder (R20). -/
  lzd : Lzd
  /-- The LZW encoder (R21). -/
  lze : Lze
  /-- The RLE decoder (R22). -/
  rld : Rld
  /-- The RLE encoder (R23). -/
  rle : Rle
  /-- The DIN port (R24). -/
  din : Din
  /-- `STATUS.CMDERR` (R24). -/
  cmdErr : Bool
  /-- The command sequencer. -/
  seq : Sequencer
  /-- RSP: the response issued and not yet taken. -/
  rsp : Option Word
  /-- The host's side of the ports. -/
  env : HostSide
  deriving DecidableEq, Repr

/-- Why the machine stops with a fault. Each names a state that the spec says never exists, and that no run from reset
reaches: the block's own errors are responses, not stops (60_exceptions.md R112-R114; log 8). -/
inductive Fault where
  /-- Raised by the LZW decoder when a code below `LZD.SIZE` or the code `LZD.W` has no entry, or an empty one, against
  10_state.md R20 and R28 (d), (e). Safe: the model stops where the spec gives no state to go on from. -/
  | noSuchEntry
  /-- Raised by the LZW encoder and by REG_READ of LZE_W when `LZE.HASW` = 1 and `LZE.WSEQ` is no key of `LZE.DICT`,
  against R21. Safe, for the same reason. -/
  | noSuchString
  /-- Raised when the loop of `LzdStep` outlasts the bits it can still read, which no state allows. Safe. -/
  | decoderLoop
  deriving DecidableEq, Repr

/-- Why a command is refused by the model: only for want of a meaning, and every command has one. -/
inductive Refusal where
  /-- Raised by an arm of `exec` that has no meaning yet. Safe. -/
  | notModelled (mnemonic : String)
  deriving DecidableEq, Repr

/-! ## Named updates -/

/-- `s` with another `CRC.VALUE`. -/
def State.setCrc (s : State) (v : BitVec 16) : State := { s with crc := v }

/-- `s` with another bit unpacker. -/
def State.setBu (s : State) (v : Bu) : State := { s with bu := v }

/-- `s` with another bit packer. -/
def State.setBp (s : State) (v : Bp) : State := { s with bp := v }

/-- `s` with another LZW decoder. -/
def State.setLzd (s : State) (v : Lzd) : State := { s with lzd := v }

/-- `s` with another LZW encoder. -/
def State.setLze (s : State) (v : Lze) : State := { s with lze := v }

/-- `s` with another RLE decoder. -/
def State.setRld (s : State) (v : Rld) : State := { s with rld := v }

/-- `s` with another RLE encoder. -/
def State.setRle (s : State) (v : Rle) : State := { s with rle := v }

/-- `s` with another DIN port. -/
def State.setDin (s : State) (v : Din) : State := { s with din := v }

/-- `s` with another `STATUS.CMDERR`. -/
def State.setCmdErr (s : State) (v : Bool) : State := { s with cmdErr := v }

/-- `s` with another command in progress. -/
def State.setSeq (s : State) (v : Sequencer) : State := { s with seq := v }

/-- `s` with another response on the port. -/
def State.setRsp (s : State) (v : Option Word) : State := { s with rsp := v }

/-- `s` with another host's side. -/
def State.setEnv (s : State) (v : HostSide) : State := { s with env := v }

/-! ## Reset -/

/-- The bit unpacker after reset (R18, R119). -/
def Bu.reset : Bu := { width := wLzw0, acc := 0#32, cnt := 0#6 }

/-- The bit packer after reset (R19, R119). -/
def Bp.reset : Bp := { width := wLzw0, acc := 0#32, cnt := 0#6 }

/-- The LZW decoder after reset (R20, R119). -/
def Lzd.reset : Lzd := { built := [], size := 257#24, w := 0#24, fresh := true, pend := [], flt := 0#6 }

/-- The LZW encoder after reset (R21, R119). -/
def Lze.reset : Lze := { built := [], size := 257#24, hasw := false, wseq := [], flt := 0#6 }

/-- The RLE decoder after reset (R22, R119). -/
def Rld.reset : Rld := { esc := escDefault, src := .din, rb := 0#8, rem := 0#9, flt := 0#6 }

/-- The RLE encoder after reset (R23, R119). -/
def Rle.reset : Rle := { esc := escDefault, rb := 0#8, len := 0#9 }

/-- The DIN port after reset (R24, R119). -/
def Din.reset : Din := { fifo := [], eof := false }

/-- The host's side at the start of a run: nothing planned, nothing received, every DOUT byte accepted at once.
DESIGN CHOICE (log 3, log 4). -/
def HostSide.start : HostSide := { agenda := [], ready := .always, dout := [], taken := [] }

/-- The machine right after reset (R119): no command executes and no response waits (R120). -/
def State.reset : State :=
  { cfg := Config.default
    crc := crcInit
    bu := Bu.reset
    bp := Bp.reset
    lzd := Lzd.reset
    lze := Lze.reset
    rld := Rld.reset
    rle := Rle.reset
    din := Din.reset
    cmdErr := false
    seq := .idle
    rsp := none
    env := HostSide.start }

end Sys2Proof.Machine
end

