-- ==== Sys2Proof/Machine/Flags.lean ====
section
/-! DEFINITION. The status flags, the fault codes and the response words: 10_state.md R25, R26; 30_encoding.md R44;
60_exceptions.md R111. -/

namespace Sys2Proof.Machine

/-- The fault codes of 60_exceptions.md R111. -/
inductive FaultCode where
  /-- 1: an unknown opcode or a stray operand bit. -/
  | illegalCommand
  /-- 2: a reserved register number, a width outside 1..24, an INCW at width 24. -/
  | illegalOperand
  /-- 3: an invalid LZW code. -/
  | corruptStream
  /-- 4: the source ends inside an RLE escape sequence. -/
  | endOfData
  /-- 5: the width growth would take the code width past 24. -/
  | widthOverflow
  /-- 6: a new entry is due while the dictionary holds `DICT_CAP` entries. -/
  | dictOverflow
  deriving DecidableEq, Repr

/-- The number of a fault code (R111). -/
def faultBits : FaultCode → FaultBits
  | .illegalCommand => 1#6
  | .illegalOperand => 2#6
  | .corruptStream => 3#6
  | .endOfData => 4#6
  | .widthOverflow => 5#6
  | .dictOverflow => 6#6

/-- How a command ends, as its response word reports it (30_encoding.md R44, 60_exceptions.md R112). -/
inductive Response where
  /-- Done: END = 0, ERR = 0, the result in DATA. -/
  | done (data : Code)
  /-- A read found no more data: END = 1. -/
  | ended
  /-- The command failed: ERR = 1, the code in CODE. -/
  | failed (code : FaultBits)
  deriving DecidableEq, Repr

/-- A response word from its four fields (R44): END 31, ERR 30, CODE 29:24, DATA 23:0. -/
def responseFields (endBit errBit : BitVec 1) (code : FaultBits) (data : Code) : Word := endBit ++ errBit ++ code ++ data

/-- The response word of an outcome (R44). -/
def responseWord : Response → Word
  | .done data => responseFields 0#1 0#1 0#6 data
  | .ended => responseFields 1#1 0#1 0#6 0#24
  | .failed code => responseFields 0#1 1#1 code 0#24

/-- A flag as a 24-bit number with the flag at bit `n`. -/
def flagAt (n : Nat) (b : Bool) : Code := if b then 1#24 <<< n else 0#24

/-- A fault field that is not 0 is latched (60_exceptions.md R114). -/
def latched (flt : FaultBits) : Bool := flt != 0#6

/-- `STATUS` (10_state.md R25), assembled when read. -/
def statusRegister (s : State) : Code :=
  flagAt 0 s.cmdErr ||| flagAt 1 s.din.eof ||| flagAt 2 (latched s.lzd.flt) ||| flagAt 3 (latched s.lze.flt)
    ||| flagAt 4 (latched s.rld.flt) ||| flagAt 5 s.lzd.fresh ||| flagAt 6 s.lze.hasw ||| flagAt 7 (s.rld.src == .lzd)

/-- `FCODES` (R26), assembled when read. -/
def fcodesRegister (s : State) : Code := 0#6 ++ s.rld.flt ++ s.lze.flt ++ s.lzd.flt

end Sys2Proof.Machine
end

