-- ==== Sys2Proof/WellFormed.lean ====
section
/-! DEFINITION. Which commands are well formed: every operand fits its form by its type (30_encoding.md R42), and its value is
one the command accepts (R58). An ill-formed command still has a meaning: it answers ILLEGAL_OPERAND (log 19). -/

namespace Sys2Proof

/-- A width operand the width commands accept (42_bitstream.md R72, R78): 1..24. -/
abbrev widthOperandOk (n : BitVec 5) : Prop := wMin ≤ n.toNat ∧ n.toNat ≤ wMax

/-- A register number REG_READ accepts (40_control.md R64): 0x00..0x12. -/
abbrev registerOperandOk (r : BitVec 5) : Prop := r.toNat ≤ 0x12

/-- The command's operand value is legal (30_encoding.md R58): no ILLEGAL_OPERAND follows from the word alone. -/
abbrev Instr.WellFormed : Instr → Prop
  | .regRd r => registerOperandOk r
  | .buSetw n => widthOperandOk n
  | .bpSetw n => widthOperandOk n
  | .nop | .reset | .crcRst | .crcUpd _ | .crcVal | .buIncw | .buRd | .buClr | .bpIncw | .bpWr _ | .bpClose
  | .lzdRd | .lzdClr | .lzeWr _ | .lzeClr | .lzeFlush | .rldRd | .rldEsc _ | .rldRst | .rldSrc _
  | .rleWr _ | .rleFlush | .rleEsc _ => True

end Sys2Proof
end

