-- ==== Sys2Proof/Machine/Operands.lean ====
section
/-! DEFINITION. Operand values and the values derived from the state: the active mask, the growth tests, the dictionary look-ups
and the register map (00_scope.md R14, 10_state.md R20, R21, R27). -/

namespace Sys2Proof.Machine

/-- The mask of a width, `(1 << width) - 1` (00_scope.md R14). -/
def widthMask (w : BitVec 5) : BitVec 32 := (1#32 <<< w.toNat) - 1#32

/-- The byte source a selector bit names (45_rle.md R105). -/
def sourceOf (sel : BitVec 1) : ByteSource := if sel = 1#1 then .lzd else .din

/-- `LZD.DICT[c]` (10_state.md R20): the literal of a code below 0x100, the empty placeholder at 0x100, and an entry built
since the initialisation from 0x101 on. -/
def lzdEntry (d : Lzd) (c : Code) : Option (List Byte) :=
  if c.toNat < 256 then some [c.setWidth 8]
  else if c.toNat = 256 then some []
  else d.built[c.toNat - dictInit]?

/-- `LZE.DICT[str]` (R21): the byte itself for a string of one byte, and the code given at its insertion for every other
string of the map. -/
def lzeCode (d : Lze) (str : List Byte) : Option Code :=
  match str with
  | [c] => some (c.setWidth 24)
  | _ => (d.built.find? fun entry => entry.1 == str).map Prod.snd

/-- A dictionary of `size` entries has filled the range of width `w`: `size = (1 << w) - 1` (43_lzw_decoder.md R87). -/
def fillsWidth (size : Nat) (w : BitVec 5) : Bool := size == (widthMask w).toNat

/-- `LzeGrowOK` of 44_lzw_encoder.md R95: false when growth would pass width 24. -/
def lzeGrowOk (s : State) : Bool := !(fillsWidth s.lze.size.toNat s.bp.width && s.bp.width == 24#5)

/-- A count in a 24-bit register, saturated at 0xFFFFFF (10_state.md R27, D44). -/
def saturate24 (n : Nat) : Code := BitVec.ofNat 24 (min n 0xFFFFFF)

/-- The value of read-only register `r` (R27). It is `none` for a reserved number, and for LZE_W in a state that R21
excludes, where `LZE.WSEQ` is no key (log 8). -/
def registerValue (s : State) (r : BitVec 5) : Option Code :=
  match r.toNat with
  | 0x00 => some (statusRegister s)
  | 0x01 => some (fcodesRegister s)
  | 0x02 => some (s.crc.setWidth 24)
  | 0x03 => some (s.bu.width.setWidth 24)
  | 0x04 => some (s.bu.cnt.setWidth 24)
  | 0x05 => some (s.bu.acc.setWidth 24)
  | 0x06 => some (s.bp.width.setWidth 24)
  | 0x07 => some (s.bp.cnt.setWidth 24)
  | 0x08 => some (s.bp.acc.setWidth 24)
  | 0x09 => some s.lzd.size
  | 0x0A => some (saturate24 s.lzd.pend.length)
  | 0x0B => some s.lzd.w
  | 0x0C => some s.lze.size
  | 0x0D => if s.lze.hasw then lzeCode s.lze s.lze.wseq else some 0#24
  | 0x0E => some (s.rld.esc.setWidth 24)
  | 0x0F => some (0#8 ++ s.rld.rem.setWidth 8 ++ s.rld.rb)
  | 0x10 => some (s.rle.esc.setWidth 24)
  | 0x11 => some (0#8 ++ s.rle.len.setWidth 8 ++ s.rle.rb)
  | 0x12 => some (saturate24 s.din.fifo.length)
  | _ => none

end Sys2Proof.Machine
end

