-- ==== Sys2Proof/Machine/Ops.lean ====
section
/-! DEFINITION. The operations the commands share: responding, holding, the two kinds of error, reset, and the port primitives
(00_scope.md R12, 20_memory.md R31, R33, 60_exceptions.md R112-R114, 70_reset_and_hazards.md R119). -/

namespace Sys2Proof.Machine

/-- The outcome of a command or of a step. -/
abbrev Result := Host.Outcome State Fault Refusal

/-! ## How a command ends -/

/-- `s` with the response issued and no command executing (60_exceptions.md R112). -/
def answered (r : Response) (s : State) : State := (s.setRsp (some (responseWord r))).setSeq .idle

/-- The command ends with this response (00_scope.md R12 `Respond`, `RespondEnd`). -/
def respond (r : Response) (s : State) : Result := .next (answered r s)

/-- `Respond(data)` of R12. -/
def respondData (data : Code) (s : State) : Result := respond (.done data) s

/-- `Respond()` of R12. -/
def respondOk (s : State) : Result := respondData 0#24 s

/-- `RespondEnd()` of R12. -/
def respondEnd (s : State) : Result := respond .ended s

/-- The command holds at `h` (20_memory.md R31, R33): nothing else changes and no response is issued. -/
def holdAt (h : Hold) (s : State) : Result := .next (s.setSeq (.holding h))

/-! ## Errors: what the block does in place of taking an exception (60_exceptions.md R113, R114, R116) -/

/-- `raise CmdError(code)` (R113): CMDERR is set, the code is the response, nothing else changes. -/
def raiseCmdError (code : FaultCode) (s : State) : Result := respond (.failed (faultBits code)) (s.setCmdErr true)

/-- The units with a fault latch (R114). -/
inductive FaultUnit where
  /-- The LZW decoder. -/
  | lzd
  /-- The LZW encoder. -/
  | lze
  /-- The RLE decoder. -/
  | rld
  deriving DecidableEq, Repr

/-- `code` in the fault field of unit `u`. -/
def latchFault (u : FaultUnit) (code : FaultBits) (s : State) : State :=
  match u with
  | .lzd => s.setLzd { s.lzd with flt := code }
  | .lze => s.setLze { s.lze with flt := code }
  | .rld => s.setRld { s.rld with flt := code }

/-- `raise UnitFault(u, code)` (R114): the code is latched in the unit and is the response. -/
def raiseUnitFault (u : FaultUnit) (code : FaultBits) (s : State) : Result := respond (.failed code) (latchFault u code s)

/-- The fault field of unit `u`. -/
def faultField (u : FaultUnit) (s : State) : FaultBits :=
  match u with
  | .lzd => s.lzd.flt
  | .lze => s.lze.flt
  | .rld => s.rld.flt

/-- A command of unit `u`: while the unit's fault is latched it fails with the latched code and does nothing else (R114). -/
def unlessLatched (u : FaultUnit) (s : State) (command : Result) : Result :=
  if latched (faultField u s) then raiseUnitFault u (faultField u s) s else command

/-! ## Reset -/

/-- `LzdInit()` of 43_lzw_decoder.md R84. -/
def lzdInit (s : State) : State :=
  (s.setLzd { s.lzd with built := [], size := 257#24, fresh := true, w := 0#24 }).setBu { s.bu with width := wLzw0 }

/-- `LzeInit()` of 44_lzw_encoder.md R94. -/
def lzeInit (s : State) : State :=
  s.setLze { s.lze with built := [], size := 257#24, hasw := false, wseq := [] }

/-- `ApplyReset()` of 70_reset_and_hazards.md R119, in its order. The parameters, the sequencer, the response port and the
host's side are no part of it. -/
def applyReset (s : State) : State :=
  let s := s.setCrc crcInit
  let s := s.setBu { s.bu with acc := 0#32, cnt := 0#6 }
  let s := s.setBp { width := wLzw0, acc := 0#32, cnt := 0#6 }
  let s := lzdInit s
  let s := s.setLzd { s.lzd with pend := [], flt := 0#6 }
  let s := lzeInit s
  let s := s.setLze { s.lze with flt := 0#6 }
  let s := s.setRld { esc := escDefault, src := .din, rb := 0#8, rem := 0#9, flt := 0#6 }
  let s := s.setRle { esc := escDefault, rb := 0#8, len := 0#9 }
  let s := s.setDin { fifo := [], eof := false }
  s.setCmdErr false

/-! ## Taking input -/

/-- What an operation that takes input comes to: a value; the end of the data; a hold on DIN; a fault of the LZW decoder
with its code; or a state the spec excludes. Each carries the state as the operation has left it. -/
inductive Supply (α : Type) where
  /-- A value was taken. -/
  | got (a : α) (s : State)
  /-- The source is exhausted (`EOD`). -/
  | eod (s : State)
  /-- DIN is empty and no end of source is signalled. -/
  | waits (s : State)
  /-- `raise UnitFault(LZD, code)`. -/
  | faulted (code : FaultBits) (s : State)
  /-- The state is one the spec excludes. -/
  | broken (f : Fault)
  deriving DecidableEq, Repr

/-- Go on with the value taken, if one was. -/
def Supply.andThen {α β : Type} (x : Supply α) (k : α → State → Supply β) : Supply β :=
  match x with
  | .got a s => k a s
  | .eod s => .eod s
  | .waits s => .waits s
  | .faulted code s => .faulted code s
  | .broken f => .broken f

/-- End the command on what was taken: `k` on a value, `atEnd` on the end of the data; a hold is a hold at `h`, and a fault of the
LZW decoder is raised (43_lzw_decoder.md R86, 45_rle.md R101). -/
def Supply.conclude {α : Type} (x : Supply α) (h : Hold) (atEnd : State → Result) (k : α → State → Result) : Result :=
  match x with
  | .got a s => k a s
  | .eod s => atEnd s
  | .waits s => holdAt h s
  | .faulted code s => raiseUnitFault .lzd code s
  | .broken f => .fault f

/-- `DinPull()` of 20_memory.md R31. -/
def dinPull (s : State) : Supply Byte :=
  match s.din.fifo with
  | b :: rest => .got b (s.setDin { s.din with fifo := rest })
  | [] => if s.din.eof then .eod s else .waits s

/-! ## Giving output -/

/-- What an operation that pushes to DOUT comes to: all bytes accepted, or a hold with the bytes still to be offered. -/
inductive Push where
  /-- Every byte was accepted. -/
  | sent (s : State)
  /-- The host does not accept the first of `rest` yet. -/
  | waits (rest : List Byte) (s : State)
  deriving DecidableEq, Repr

/-- Go on once every byte is accepted; until then the command holds at `h`. -/
def Push.andThen (p : Push) (h : List Byte → Hold) (k : State → Result) : Result :=
  match p with
  | .sent s => k s
  | .waits rest s => holdAt (h rest) s

/-- The host accepts byte `b`: it is the host's from now on (20_memory.md R33). -/
def acceptByte (b : Byte) (ready : Ready) (s : State) : State :=
  s.setEnv { s.env with ready := ready, dout := s.env.dout ++ [b] }

/-- `DoutPush(b)` of 20_memory.md R33: the state after the transfer, or nothing while the host does not accept. -/
def doutPush (b : Byte) (s : State) : Option State :=
  match s.env.ready with
  | .always => some (acceptByte b .always s)
  | .count 0 => none
  | .count (n + 1) => some (acceptByte b (.count n) s)

/-- `DoutPush` of each byte in turn. -/
def pushAll : List Byte → State → Push
  | [], s => .sent s
  | b :: rest, s =>
    match doutPush b s with
    | some s' => pushAll rest s'
    | none => .waits (b :: rest) s

end Sys2Proof.Machine
end

