-- ==== Sys2Proof/Machine/BitPacker.lean ====
section
/-! DEFINITION. The bit packer: BpWrite, BpClose, BP_SETW, BP_INCW, BP_WRITE, BP_CLOSE (42_bitstream.md section 2). -/

namespace Sys2Proof.Machine

/-- `BP.WIDTH <- n`. -/
def bpSetWidth (n : BitVec 5) (s : State) : State := s.setBp { s.bp with width := n }

/-- The first two lines of `BpWrite(v)` (R76): the value, masked to the width, goes above the buffered bits. -/
def bpPut (v : Code) (s : State) : State :=
  s.setBp { s.bp with
    acc := s.bp.acc ||| ((v.setWidth 32 &&& widthMask s.bp.width) <<< s.bp.cnt.toNat)
    cnt := s.bp.cnt + s.bp.width.setWidth 6 }

/-- The byte the packer offers: `BP.ACC & 0xFF`. -/
def bpLowByte (s : State) : Byte := s.bp.acc.setWidth 8

/-- A byte the host has accepted leaves the packer (R76). -/
def bpShift (s : State) : State := s.setBp { s.bp with acc := s.bp.acc >>> 8, cnt := s.bp.cnt - 8#6 }

/-- The loop of `BpWrite` (R76), at most `n` turns of it: complete bytes leave, the low one first. -/
def bpEmit : Nat → State → Push
  | 0, s => .sent s
  | n + 1, s =>
    if 8 ≤ s.bp.cnt.toNat then
      match doutPush (bpLowByte s) s with
      | some s' => bpEmit n (bpShift s')
      | none => .waits [bpLowByte s] s
    else .sent s

/-- The whole loop of `BpWrite` (R76). A count has 6 bits, so seven bytes are always enough. -/
def bpDrain (s : State) : Push := bpEmit 7 s

/-- The last line of `BpClose` (R77). -/
def bpEmpty (s : State) : State := s.setBp { s.bp with acc := 0#32, cnt := 0#6 }

/-- `BpClose()` of R77. -/
def bpCloseByte (s : State) : Push :=
  if s.bp.cnt = 0#6 then .sent (bpEmpty s)
  else
    match doutPush (bpLowByte s) s with
    | some s' => .sent (bpEmpty s')
    | none => .waits [bpLowByte s] s

/-- BP_WRITE from the loop of `BpWrite` on. -/
def bpWriteRest (s : State) : Result := (bpDrain s).andThen (fun _ => .bpWrite) respondOk

/-- BP_CLOSE, from its start or from a hold. -/
def bpCloseRest (s : State) : Result := (bpCloseByte s).andThen (fun _ => .bpClose) respondOk

/-- `BP_SETW n` (R78). -/
def execBpSetw (n : BitVec 5) (s : State) : Result :=
  if widthOperandOk n then respondOk (bpSetWidth n s) else raiseCmdError .illegalOperand s

/-- `BP_INCW` (R79). -/
def execBpIncw (s : State) : Result :=
  if s.bp.width = 24#5 then raiseCmdError .illegalOperand s else respondOk (bpSetWidth (s.bp.width + 1#5) s)

/-- `BP_WRITE v` (R80). -/
def execBpWr (v : Code) (s : State) : Result := bpWriteRest (bpPut v s)

/-- `BP_CLOSE` (R81). -/
def execBpClose (s : State) : Result := bpCloseRest s

end Sys2Proof.Machine
end

