-- ==== Sys2Proof/Machine/BitUnpacker.lean ====
section
/-! DEFINITION. The bit unpacker: BuRead, BU_SETW, BU_INCW, BU_READ, BU_CLEAR (42_bitstream.md section 1). -/

namespace Sys2Proof.Machine

/-- `BU.WIDTH <- n`. -/
def buSetWidth (n : BitVec 5) (s : State) : State := s.setBu { s.bu with width := n }

/-- A new byte goes above the buffered bits (R71, 20_memory.md R35 (a)). -/
def buAppend (b : Byte) (s : State) : State :=
  s.setBu { s.bu with acc := s.bu.acc ||| (b.setWidth 32 <<< s.bu.cnt.toNat), cnt := s.bu.cnt + 8#6 }

/-- The loop of `BuRead` (R71), at most `n` turns of it. -/
def buFill : Nat → State → Supply Unit
  | 0, s => .got () s
  | n + 1, s =>
    if s.bu.cnt.toNat < s.bu.width.toNat then (dinPull s).andThen fun b s' => buFill n (buAppend b s')
    else .got () s

/-- The low `BU.WIDTH` bits are returned and retired (R71). -/
def buTake (s : State) : Supply Code :=
  .got ((s.bu.acc &&& widthMask s.bu.width).setWidth 24)
    (s.setBu { s.bu with acc := s.bu.acc >>> s.bu.width.toNat, cnt := s.bu.cnt - s.bu.width.setWidth 6 })

/-- `BuRead()` of R71. A width has 5 bits, so four bytes are always enough. -/
def buRead (s : State) : Supply Code := (buFill 4 s).andThen fun _ s' => buTake s'

/-- `BU_SETW n` (R72). -/
def execBuSetw (n : BitVec 5) (s : State) : Result :=
  if widthOperandOk n then respondOk (buSetWidth n s) else raiseCmdError .illegalOperand s

/-- `BU_INCW` (R73). -/
def execBuIncw (s : State) : Result :=
  if s.bu.width = 24#5 then raiseCmdError .illegalOperand s else respondOk (buSetWidth (s.bu.width + 1#5) s)

/-- `BU_READ` (R74). A hold keeps the bytes pulled in `BU.ACC`, so that going on is reading again. -/
def execBuRd (s : State) : Result := (buRead s).conclude .buRead respondEnd respondData

/-- `BU_CLEAR` (R75). -/
def execBuClr (s : State) : Result := respondOk (s.setBu { s.bu with acc := 0#32, cnt := 0#6 })

end Sys2Proof.Machine
end

