-- ==== Sys2Proof/Machine/Control.lean ====
section
/-! DEFINITION. The control commands NOP, RESET and REG_READ (40_control.md). -/

namespace Sys2Proof.Machine

/-- `NOP` (R62). -/
def execNop (s : State) : Result := respondOk s

/-- `RESET` (R63): `ApplyReset`, then the response. A latched fault does not stop it. -/
def execReset (s : State) : Result := respondOk (applyReset s)

/-- `REG_READ r` (R64): ILLEGAL_OPERAND for a reserved number, else the register of 10_state.md R27. -/
def execRegRd (r : BitVec 5) (s : State) : Result :=
  if registerOperandOk r then
    match registerValue s r with
    | some v => respondData v s
    | none => .fault .noSuchString
  else raiseCmdError .illegalOperand s

end Sys2Proof.Machine
end

