-- ==== Sys2Proof/Machine/Crc.lean ====
section
/-! DEFINITION. The CRC-16 unit: CRC_RESET, CRC_UPDATE, CRC_VALUE (41_crc.md). -/

namespace Sys2Proof.Machine

/-- One turn of the loop of `CrcTable` (R66): shift left, and take in the polynomial where bit 15 was 1. -/
def crcShift (c : BitVec 16) : BitVec 16 := if c.msb then (c <<< 1) ^^^ crcPoly else c <<< 1

/-- `n` turns of that loop. -/
def crcShifts : Nat → BitVec 16 → BitVec 16
  | 0, c => c
  | n + 1, c => crcShifts n (crcShift c)

/-- `CrcTable(i)` of R66. -/
def crcTable (i : Byte) : BitVec 16 := crcShifts 8 (i.setWidth 16 <<< 8)

/-- `CrcStep(crc, b)` of R66. -/
def crcStep (crc : BitVec 16) (b : Byte) : BitVec 16 := (crc <<< 8) ^^^ crcTable ((crc >>> 8).setWidth 8 ^^^ b)

/-- `CRC_RESET` (R67). -/
def execCrcRst (s : State) : Result := respondOk (s.setCrc crcInit)

/-- `CRC_UPDATE b` (R68). -/
def execCrcUpd (b : Byte) (s : State) : Result := respondOk (s.setCrc (crcStep s.crc b))

/-- `CRC_VALUE` (R69). -/
def execCrcVal (s : State) : Result := respondData (s.crc.setWidth 24) s

end Sys2Proof.Machine
end

