-- ==== Sys2Proof/Machine/LzwDecoder.lean ====
section
/-! DEFINITION. The LZW decoder: LzdStep, LzdNextByte, LZD_READ, LZD_CLEAR (43_lzw_decoder.md). LzdInit stands in Machine/Ops.lean,
beside reset. -/

namespace Sys2Proof.Machine

/-- The width growth of R87, after an entry was made. -/
def lzdGrow (s : State) : State :=
  if fillsWidth s.lzd.size.toNat s.bu.width then buSetWidth (s.bu.width + 1#5) s else s

/-- The new entry w ++ [x], its code assigned (R86). -/
def lzdAssign (entry : List Byte) (s : State) : State :=
  s.setLzd { s.lzd with built := s.lzd.built ++ [entry], size := s.lzd.size + 1#24 }

/-- Code `c` becomes w and its sequence `e` is to be returned (R86). -/
def lzdEmit (c : Code) (e : List Byte) (s : State) : State := s.setLzd { s.lzd with w := c, pend := e }

/-- R86 from the capacity check on: code `c` with the sequence `e`. Both limits are checked before anything is written (R90); the
new entry is w followed by the first byte of `e`. -/
def lzdExtend (c : Code) (e : List Byte) (s : State) : Supply Unit :=
  if s.lzd.size.toNat = s.cfg.dictCap then .faulted (faultBits .dictOverflow) s
  else if fillsWidth (s.lzd.size.toNat + 1) s.bu.width ∧ s.bu.width = 24#5 then .faulted (faultBits .widthOverflow) s
  else
    match lzdEntry s.lzd s.lzd.w, e with
    | some wSeq, x :: _ => .got () (lzdEmit c e (lzdGrow (lzdAssign (wSeq ++ [x]) s)))
    | _, _ => .broken .noSuchEntry

/-- The KwK case (R88): the sequence of the code about to be assigned, w followed by its own first byte. -/
def lzdKwk (s : State) : Option (List Byte) :=
  match lzdEntry s.lzd s.lzd.w with
  | some (x :: rest) => some (x :: rest ++ [x])
  | _ => none

/-- R86 for a code that is not the clear code and not the first after an initialisation: an entry, the KwK case (R88), or
corrupt (R85). -/
def lzdLookUp (c : Code) (s : State) : Supply Unit :=
  if c.toNat < s.lzd.size.toNat then
    match lzdEntry s.lzd c with
    | some e => lzdExtend c e s
    | none => .broken .noSuchEntry
  else if c = s.lzd.size then
    match lzdKwk s with
    | some e => lzdExtend c e s
    | none => .broken .noSuchEntry
  else .faulted (faultBits .corruptStream) s

/-- The first code after an initialisation (R89): a literal is emitted and becomes w; any other is corrupt. -/
def lzdFirst (c : Code) (s : State) : Supply Unit :=
  if c.toNat < 0x100 then
    .got () (s.setLzd { s.lzd with pend := [c.setWidth 8], w := c, fresh := false })
  else .faulted (faultBits .corruptStream) s

/-- A code that is not the clear code (R85). -/
def lzdCode (c : Code) (s : State) : Supply Unit := if s.lzd.fresh then lzdFirst c s else lzdLookUp c s

/-- `LzdStep()` of R86, at most `n` turns of its loop: each clear code initialises and reads on. -/
def lzdLoop : Nat → State → Supply Unit
  | 0, _ => .broken .decoderLoop
  | n + 1, s => (buRead s).andThen fun c s' => if c = clearCode then lzdLoop n (lzdInit s') else lzdCode c s'

/-- `LzdStep()` of R86. A clear code takes at least 9 bits, so there are fewer turns than bits to read. -/
def lzdStep (s : State) : Supply Unit := lzdLoop (s.bu.cnt.toNat + 8 * s.din.fifo.length + 1) s

/-- The first byte of `LZD.PEND` is returned (R91). -/
def lzdPop (s : State) : Supply Byte :=
  match s.lzd.pend with
  | b :: rest => .got b (s.setLzd { s.lzd with pend := rest })
  | [] => .broken .noSuchEntry

/-- `LzdNextByte()` of R91. -/
def lzdNextByte (s : State) : Supply Byte :=
  if latched s.lzd.flt then .faulted s.lzd.flt s
  else if s.lzd.pend = [] then (lzdStep s).andThen fun _ s' => lzdPop s'
  else lzdPop s

/-- `LZD_READ` (R91). A hold keeps the bits pulled and the clear codes taken in the state, so that going on is reading again. -/
def execLzdRd (s : State) : Result :=
  (lzdNextByte s).conclude .lzdRead respondEnd fun b s' => respondData (b.setWidth 24) s'

/-- `LZD_CLEAR` (R92). -/
def execLzdClr (s : State) : Result := unlessLatched .lzd s (respondOk (lzdInit s))

end Sys2Proof.Machine
end

