-- ==== Sys2Proof/Machine/LzwEncoder.lean ====
section
/-! DEFINITION. The LZW encoder: LzeEmitW, LZE_WRITE, LZE_CLEAR, LZE_FLUSH (44_lzw_encoder.md). LzeInit stands in Machine/Ops.lean,
beside reset. -/

namespace Sys2Proof.Machine

/-- The width growth of `LzeEmitW` (R95), before the insert. -/
def lzeGrow (s : State) : State :=
  if fillsWidth s.lze.size.toNat s.bp.width then bpSetWidth (s.bp.width + 1#5) s else s

/-- The string w ++ [b] gets the next code, and `b` becomes w (R96). -/
def lzeInsert (b : Byte) (s : State) : State :=
  s.setLze { s.lze with
    built := s.lze.built ++ [(s.lze.wseq ++ [b], s.lze.size)]
    size := s.lze.size + 1#24
    wseq := [b] }

/-- w becomes `seq` and is held (R96). -/
def lzeHold (seq : List Byte) (s : State) : State := s.setLze { s.lze with wseq := seq, hasw := true }

/-- `BpWrite(LZE.DICT[LZE.WSEQ])` up to its loop (R95), then `rest`. -/
def lzePutW (rest : State → Result) (s : State) : Result :=
  match lzeCode s.lze s.lze.wseq with
  | some c => rest (bpPut c s)
  | none => .fault .noSuchString

/-- LZE_WRITE of `b` from the loop of `BpWrite` on (R95, R96). -/
def lzeWriteRest (b : Byte) (s : State) : Result :=
  (bpDrain s).andThen (fun _ => .lzeWrite b) fun s' => respondOk (lzeInsert b (lzeGrow s'))

/-- A fresh encoder and a fresh width, and the response (R97, R98). -/
def lzeFinish (s : State) : Result := respondOk (bpSetWidth wLzw0 (lzeInit s))

/-- LZE_CLEAR from the loop of `BpWrite(0x100)` on (R97). -/
def lzeClearCodeRest (s : State) : Result := (bpDrain s).andThen (fun _ => .lzeClearCode) lzeFinish

/-- LZE_CLEAR from the loop of the `BpWrite` of code(w) on (R97). -/
def lzeClearWRest (s : State) : Result :=
  (bpDrain s).andThen (fun _ => .lzeClearW) fun s' => lzeClearCodeRest (bpPut clearCode (lzeGrow s'))

/-- LZE_FLUSH from `BpClose` on (R98). -/
def lzeFlushCloseRest (s : State) : Result := (bpCloseByte s).andThen (fun _ => .lzeFlushClose) lzeFinish

/-- LZE_FLUSH from the loop of the `BpWrite` of code(w) on (R98). -/
def lzeFlushWRest (s : State) : Result := (bpDrain s).andThen (fun _ => .lzeFlushW) lzeFlushCloseRest

/-- `LZE_WRITE b` (R96): both limits are checked before any output. -/
def execLzeWr (b : Byte) (s : State) : Result :=
  unlessLatched .lze s
    (if !s.lze.hasw then respondOk (lzeHold [b] s)
    else if (lzeCode s.lze (s.lze.wseq ++ [b])).isSome then respondOk (lzeHold (s.lze.wseq ++ [b]) s)
    else if s.lze.size.toNat = s.cfg.dictCap then raiseUnitFault .lze (faultBits .dictOverflow) s
    else if !lzeGrowOk s then raiseUnitFault .lze (faultBits .widthOverflow) s
    else lzePutW (lzeWriteRest b) s)

/-- `LZE_CLEAR` (R97). -/
def execLzeClr (s : State) : Result :=
  unlessLatched .lze s
    (if !s.lze.hasw then lzeClearCodeRest (bpPut clearCode s)
    else if !lzeGrowOk s then raiseUnitFault .lze (faultBits .widthOverflow) s
    else lzePutW lzeClearWRest s)

/-- `LZE_FLUSH` (R98). -/
def execLzeFlush (s : State) : Result :=
  unlessLatched .lze s
    (if !s.lze.hasw then lzeFlushCloseRest s
    else if !lzeGrowOk s then raiseUnitFault .lze (faultBits .widthOverflow) s
    else lzePutW lzeFlushWRest s)

end Sys2Proof.Machine
end

