-- ==== Sys2Proof/Machine/RleDecoder.lean ====
section
/-! DEFINITION. The RLE decoder: RLD_READ, RLD_SETESC, RLD_RESET, RLD_SRC (45_rle.md section 1). -/

namespace Sys2Proof.Machine

/-- `RldSrcByte()` of R101. -/
def rldSrcByte (s : State) : Supply Byte :=
  match s.rld.src with
  | .din => dinPull s
  | .lzd => lzdNextByte s

/-- The source ended inside an escape sequence (R102). -/
def rldTruncated (s : State) : Result := raiseUnitFault .rld (faultBits .endOfData) s

/-- A byte is returned (R102). -/
def rldRespond (b : Byte) (s : State) : Result := respondData (b.setWidth 24) s

/-- RLD_READ from the count byte on: `k + 1` copies of `r`, one of them returned now (R102). -/
def rldCountRest (r : Byte) (s : State) : Result :=
  (rldSrcByte s).conclude (.rldCount r) rldTruncated fun k s' =>
    rldRespond r (s'.setRld { s'.rld with rb := r, rem := k.setWidth 9 })

/-- RLD_READ from the repeated byte on (R102). -/
def rldRepeatRest (s : State) : Result :=
  (rldSrcByte s).conclude .rldRepeat rldTruncated fun r s' => rldCountRest r s'

/-- RLD_READ from the byte at a sequence boundary on (R102). -/
def rldFirstRest (s : State) : Result :=
  (rldSrcByte s).conclude .rldFirst respondEnd fun b s' =>
    if b = s'.rld.esc then rldRepeatRest s' else rldRespond b s'

/-- `RLD_READ` (R102). -/
def execRldRd (s : State) : Result :=
  unlessLatched .rld s
    (if s.rld.rem = 0#9 then rldFirstRest s
    else rldRespond s.rld.rb (s.setRld { s.rld with rem := s.rld.rem - 1#9 }))

/-- `RLD_SETESC e` (R103). -/
def execRldEsc (e : Byte) (s : State) : Result := unlessLatched .rld s (respondOk (s.setRld { s.rld with esc := e }))

/-- `RLD_RESET` (R104). -/
def execRldRst (s : State) : Result :=
  unlessLatched .rld s (respondOk (s.setRld { s.rld with rem := 0#9, rb := 0#8 }))

/-- `RLD_SRC` (R105). -/
def execRldSrc (sel : BitVec 1) (s : State) : Result :=
  unlessLatched .rld s (respondOk (s.setRld { s.rld with src := sourceOf sel }))

end Sys2Proof.Machine
end

