-- ==== Sys2Proof/Machine/RleEncoder.lean ====
section
/-! DEFINITION. The RLE encoder: RleFlushRun, RLE_WRITE, RLE_FLUSH, RLE_SETESC (45_rle.md section 2). -/

namespace Sys2Proof.Machine

/-- The bytes `RleFlushRun` pushes (R106): none for an empty run, the byte itself for one byte that is not the escape byte, the
escape sequence for every other run. -/
def rleRunBytes (r : Rle) : List Byte :=
  if r.len = 0#9 then []
  else if r.len = 1#9 ∧ r.rb ≠ r.esc then [r.rb]
  else [r.esc, r.rb, (r.len - 1#9).setWidth 8]

/-- `RLE.LEN <- 0`: the run is written (R106). -/
def rleEndRun (s : State) : State := s.setRle { s.rle with len := 0#9 }

/-- RLE_WRITE of the byte that filled the run, with `bytes` still to be pushed (R107). -/
def rleFullRest (bytes : List Byte) (s : State) : Result :=
  (pushAll bytes s).andThen .rleFull fun s' => respondOk (rleEndRun s')

/-- RLE_WRITE of a byte that ends the buffered run and starts a new one (R107). -/
def rleNewRest (b : Byte) (bytes : List Byte) (s : State) : Result :=
  (pushAll bytes s).andThen (.rleNew b) fun s' => respondOk (s'.setRle { s'.rle with rb := b, len := 1#9 })

/-- RLE_FLUSH, with `bytes` still to be pushed (R108). -/
def rleFlushRest (bytes : List Byte) (s : State) : Result :=
  (pushAll bytes s).andThen .rleFlush fun s' => respondOk (rleEndRun s')

/-- RLE_SETESC of `e`, with `bytes` still to be pushed (R109). -/
def rleSetEscRest (e : Byte) (bytes : List Byte) (s : State) : Result :=
  (pushAll bytes s).andThen (.rleSetEsc e) fun s' => respondOk (s'.setRle { s'.rle with len := 0#9, esc := e })

/-- The run is one byte longer (R107). -/
def rleLengthen (s : State) : State := s.setRle { s.rle with len := s.rle.len + 1#9 }

/-- `RLE_WRITE b` (R107): a run that reaches 256 is written at once. -/
def execRleWr (b : Byte) (s : State) : Result :=
  if s.rle.len ≠ 0#9 ∧ b = s.rle.rb then
    if (rleLengthen s).rle.len = 256#9 then rleFullRest (rleRunBytes (rleLengthen s).rle) (rleLengthen s)
    else respondOk (rleLengthen s)
  else rleNewRest b (rleRunBytes s.rle) s

/-- `RLE_FLUSH` (R108). -/
def execRleFlush (s : State) : Result := rleFlushRest (rleRunBytes s.rle) s

/-- `RLE_SETESC e` (R109): the run is written with the old escape byte first. -/
def execRleEsc (e : Byte) (s : State) : Result := rleSetEscRest e (rleRunBytes s.rle) s

end Sys2Proof.Machine
end

