-- ==== Sys2Proof/Machine/Dispatch.lean ====
section
/-! DEFINITION. One arm for each command of the opcode map (30_encoding.md R46). -/

namespace Sys2Proof.Machine

/-- What a command does, one meaning for each. -/
def exec (i : Instr) (s : State) : Host.Outcome State Fault Refusal :=
  match i with
  | .nop => Sys2Proof.Machine.execNop s
  | .reset => Sys2Proof.Machine.execReset s
  | .regRd r => Sys2Proof.Machine.execRegRd r s
  | .crcRst => Sys2Proof.Machine.execCrcRst s
  | .crcUpd b => Sys2Proof.Machine.execCrcUpd b s
  | .crcVal => Sys2Proof.Machine.execCrcVal s
  | .buSetw n => Sys2Proof.Machine.execBuSetw n s
  | .buIncw => Sys2Proof.Machine.execBuIncw s
  | .buRd => Sys2Proof.Machine.execBuRd s
  | .buClr => Sys2Proof.Machine.execBuClr s
  | .bpSetw n => Sys2Proof.Machine.execBpSetw n s
  | .bpIncw => Sys2Proof.Machine.execBpIncw s
  | .bpWr v => Sys2Proof.Machine.execBpWr v s
  | .bpClose => Sys2Proof.Machine.execBpClose s
  | .lzdRd => Sys2Proof.Machine.execLzdRd s
  | .lzdClr => Sys2Proof.Machine.execLzdClr s
  | .lzeWr b => Sys2Proof.Machine.execLzeWr b s
  | .lzeClr => Sys2Proof.Machine.execLzeClr s
  | .lzeFlush => Sys2Proof.Machine.execLzeFlush s
  | .rldRd => Sys2Proof.Machine.execRldRd s
  | .rldEsc e => Sys2Proof.Machine.execRldEsc e s
  | .rldRst => Sys2Proof.Machine.execRldRst s
  | .rldSrc src => Sys2Proof.Machine.execRldSrc src s
  | .rleWr b => Sys2Proof.Machine.execRleWr b s
  | .rleFlush => Sys2Proof.Machine.execRleFlush s
  | .rleEsc e => Sys2Proof.Machine.execRleEsc e s

end Sys2Proof.Machine
end

