-- ==== Sys2Proof/Machine/Sequencer.lean ====
section
/-! DEFINITION. The command sequencer and the host's turns: starting a command that has arrived, going on from a hold, and the steps of
60_exceptions.md R117 and 70_reset_and_hazards.md R120. -/

namespace Sys2Proof.Machine

/-- A command in progress goes on from the point it stands at (20_memory.md R31, R33, R36), to its response or its next hold. -/
def resume (h : Hold) (s : State) : Result :=
  match h with
  | .buRead => execBuRd s
  | .lzdRead => execLzdRd s
  | .rldFirst => rldFirstRest s
  | .rldRepeat => rldRepeatRest s
  | .rldCount r => rldCountRest r s
  | .bpWrite => bpWriteRest s
  | .bpClose => bpCloseRest s
  | .lzeWrite b => lzeWriteRest b s
  | .lzeClearW => lzeClearWRest s
  | .lzeClearCode => lzeClearCodeRest s
  | .lzeFlushW => lzeFlushWRest s
  | .lzeFlushClose => lzeFlushCloseRest s
  | .rleFull rest => rleFullRest rest s
  | .rleNew b rest => rleNewRest b rest s
  | .rleFlush rest => rleFlushRest rest s
  | .rleSetEsc e rest => rleSetEscRest e rest s

/-- The command word that has arrived and is not started yet, if there is one. The block fetches nothing itself: the host's send
has put the word on the command port (00_scope.md R6, 20_memory.md R40). -/
def fetchWord (s : State) : Option Word :=
  match s.seq with
  | .arrived w => some w
  | _ => none

/-- A command word is executed, to its response or its first hold: the command it decodes to, or ILLEGAL_COMMAND (30_encoding.md
R43, R48). -/
def execWord (w : Word) (s : State) : Result :=
  match decode w with
  | .ok i => exec i s
  | .error _ => raiseCmdError .illegalCommand s

/-! ## One port transfer in a step (20_memory.md R36) -/

/-- The commands that pull DIN bytes or push DOUT bytes (R31, R33). Every other command is one step (R36). -/
def transfers : Instr → Bool
  | .buRd | .bpWr _ | .bpClose | .lzdRd | .lzeWr _ | .lzeClr | .lzeFlush | .rldRd | .rleWr _ | .rleFlush | .rleEsc _ => true
  | .nop | .reset | .regRd _ | .crcRst | .crcUpd _ | .crcVal | .buSetw _ | .buIncw | .buClr | .bpSetw _ | .bpIncw
  | .lzdClr | .rldEsc _ | .rldRst | .rldSrc _ => false

/-- At most one DOUT byte of those the host will accept. -/
def Ready.one : Ready → Ready
  | .always => .count 1
  | .count n => .count (min n 1)

/-- What the host still accepts, where it accepted `before` and one step has left `left` of one byte. -/
def Ready.putBack (before left : Ready) : Ready :=
  match before, left with
  | .count n, .count k => .count (n - 1 + k)
  | r, _ => r

/-- The ports as one step of the block finds them: one DIN byte, with the end of source only where no byte stands behind it, and
one DOUT byte accepted, at most. -/
def onePort (s : State) : State :=
  (s.setDin { fifo := s.din.fifo.take 1, eof := s.din.eof && s.din.fifo.length ≤ 1 }).setEnv
    { s.env with ready := s.env.ready.one }

/-- `t`, which a step from `onePort s` has left, with what `s` has on its ports behind the first byte. -/
def putBack (s t : State) : State :=
  (t.setDin { fifo := t.din.fifo ++ s.din.fifo.drop 1, eof := s.din.eof }).setEnv
    { t.env with ready := s.env.ready.putBack t.env.ready }

/-- What `command` does up to its first port transfer, with that transfer and what follows it up to the next (R36; log 1). If there
is a next one, the command stands at the point before it, where it would hold. -/
def oneTransfer (command : State → Result) (s : State) : Result :=
  match command (onePort s) with
  | .next t => .next (putBack s t)
  | .fault f => .fault f
  | .refused r => .refused r

/-- The command that word `w` stands for makes port transfers. -/
def wordTransfers (w : Word) : Bool :=
  match decode w with
  | .ok i => transfers i
  | .error _ => false

/-- The first step of the command that has arrived (R36). -/
def startWord (w : Word) (s : State) : Result := if wordTransfers w then oneTransfer (execWord w) s else execWord w s

/-- The block's turn (R36): the first step of the command that has arrived, or the next step of the one in progress, or, where no
command executes, nothing (log 2). -/
def blockTurn (s : State) : Result :=
  match s.seq with
  | .idle => .next s
  | .arrived w => startWord w s
  | .holding h => oneTransfer (resume h) s

/-! ## The host's turns -/

/-- The command that has arrived is RESET: the host pushes no byte until it is over (60_exceptions.md R117 (b)). -/
def resetExecuting (s : State) : Bool :=
  match fetchWord s with
  | some w => (decode w).toOption == some .reset
  | none => false

/-- When the host may take a turn (60_exceptions.md R117). -/
def hostEnabled (t : HostTurn) (s : State) : Bool :=
  match t with
  | .yield => true
  | .send _ => s.seq == .idle && s.rsp == none
  | .take => s.rsp.isSome
  | .push _ => s.din.fifo.length < s.cfg.inDepth && !resetExecuting s
  | .signalEof => true
  | .accept _ => true
  | .resetSignal => true

/-- What a host turn does (R117; the reset signal, 70_reset_and_hazards.md R120: the command in progress is abandoned without a
response). A push after the end of source is ignored (20_memory.md R32). `yield` does nothing by itself. -/
def hostMove (t : HostTurn) (s : State) : State :=
  match t with
  | .yield => s
  | .send w => s.setSeq (.arrived w)
  | .take => (s.setEnv { s.env with taken := s.env.taken ++ s.rsp.toList }).setRsp none
  | .push b => if s.din.eof then s else s.setDin { s.din with fifo := s.din.fifo ++ [b] }
  | .signalEof => s.setDin { s.din with eof := true }
  | .accept r => s.setEnv { s.env with ready := r }
  | .resetSignal => (applyReset s).setSeq .idle

/-- `s` with another agenda for the host. -/
def withAgenda (agenda : List HostTurn) (s : State) : State := s.setEnv { s.env with agenda := agenda }

/-- One step of the machine: the host's next turn where it has one it may take, else the block's turn. A host whose next turn
is not enabled waits, and the block moves meanwhile (log 3). -/
def machineStep (s : State) : Result :=
  match s.env.agenda with
  | [] => blockTurn s
  | .yield :: rest => blockTurn (withAgenda rest s)
  | t :: rest => if hostEnabled t s then .next (hostMove t (withAgenda rest s)) else blockTurn s

end Sys2Proof.Machine
end

