-- ==== Sys2Proof/Machine/Step.lean ====
section
/-! DEFINITION. The step function of the machine, and the placing of a command word for its next step. -/

namespace Sys2Proof.Machine

/-- One step: the host's next turn, or the block's (Machine/Sequencer.lean). -/
def step (s : State) : Host.Outcome State Fault Refusal := machineStep s

/-- `s` after the host has sent the command word that the table's number `w` of `nbits` bits stands for, with no other turn
of the host before the block's next one: the very next step runs that command (log 9). -/
def State.withFetchWord (s : State) (nbits w : Nat) : State :=
  withAgenda [] (s.setSeq (.arrived (tableWord nbits w)))

end Sys2Proof.Machine
end

