-- ==== Sys2Proof/Safety.lean ====
section
/-! DEFINITION. What counts as a legal state and a safe run, in the terms the claims use: the legal values of 10_state.md R17-R24, the
invariants of R28, and what they come to while a command holds; the bit streams of 30_encoding.md R49 as numbers; and commands run one
after another (40_control.md R65). -/

namespace Sys2Proof.Machine

/-! ## Legal states -/

/-- A legal bit-stream width (42_bitstream.md R71; 00_scope.md R7). -/
abbrev legalWidth (w : BitVec 5) : Prop := wMin ≤ w.toNat ∧ w.toNat ≤ wMax

/-- R28 (a), (c): no stray bit above the count, at most 23 bits buffered, a legal width (R18). -/
def Bu.legal (b : Bu) : Prop := legalWidth b.width ∧ b.cnt.toNat ≤ 23 ∧ b.acc.toNat < 2 ^ b.cnt.toNat

/-- R19 and R28 (a): no stray bit above the count, and at most `n` bits buffered: 7 between commands (R28 (b)), 31 ever. -/
def Bp.legal (n : Nat) (b : Bp) : Prop := legalWidth b.width ∧ b.cnt.toNat ≤ n ∧ b.acc.toNat < 2 ^ b.cnt.toNat

/-- R28 (e): each string of `l` is one byte longer than a one-byte string or an earlier string of `l`. -/
def grown (l : List (List Byte)) : Prop :=
  ∀ k, (h : k < l.length) → ∃ q x, l[k] = q ++ [x] ∧ (q.length = 1 ∨ q ∈ l.take k)

/-- R20 and R28 (d), (e), (g): the decoder's dictionary, its size and w, with the fault codes R111 gives the unit. -/
structure Lzd.legal (dictCap : Nat) (d : Lzd) : Prop where
  /-- R28 (d): `LZD.SIZE = len(LZD.DICT)`. -/
  size_eq : d.size.toNat = dictInit + d.built.length
  /-- R20: at most `DICT_CAP` entries. -/
  size_le : d.size.toNat ≤ dictCap
  /-- R28 (e). -/
  grows : grown d.built
  /-- R20: w is a code below the size, never the placeholder. -/
  w_lt : d.w.toNat < d.size.toNat
  w_ne : d.w ≠ clearCode
  /-- R28 (g), and nothing is built before the first code. -/
  fresh_w : d.fresh = true → d.w = 0#24 ∧ d.built = []
  /-- R20 and 43_lzw_decoder.md R93 (d): pending output is no longer than the longest entry there can be. -/
  pend_le : d.pend.length + 256 ≤ dictCap
  /-- R111: the LZD's codes. -/
  flt_mem : d.flt = 0#6 ∨ d.flt = 3#6 ∨ d.flt = 5#6 ∨ d.flt = 6#6

/-- R21 and R28 (e), (g): the encoder's map, its size and w, with the fault codes R111 gives the unit. -/
structure Lze.legal (dictCap : Nat) (d : Lze) : Prop where
  /-- R21: the codes are assigned in order, 0x100 counted and left out. -/
  codes : ∀ k, (h : k < d.built.length) → d.built[k].2.toNat = dictInit + k
  size_eq : d.size.toNat = dictInit + d.built.length
  size_le : d.size.toNat ≤ dictCap
  /-- R28 (e). -/
  grows : grown (d.built.map Prod.fst)
  /-- R21: one code per sequence. -/
  keys : (d.built.map Prod.fst).Nodup
  /-- R28 (g). -/
  no_w : d.hasw = false → d.wseq = []
  /-- R21: w is a key. -/
  w_key : d.hasw = true → (lzeCode d d.wseq).isSome = true
  /-- R111: the LZE's codes. -/
  flt_mem : d.flt = 0#6 ∨ d.flt = 5#6 ∨ d.flt = 6#6

/-- R22 and R28 (f), with the fault code R111 gives the unit. -/
def Rld.legal (d : Rld) : Prop := d.rem.toNat ≤ 255 ∧ (d.flt = 0#6 ∨ d.flt = 4#6)

/-- A response word that 30_encoding.md R44 and 60_exceptions.md R111, R112 allow: done with any DATA, END alone, or ERR with
one of the codes 1..6 and no DATA. -/
def responseLegal (w : Word) : Prop :=
  (∃ data, w = responseWord (.done data)) ∨ w = responseWord .ended ∨ ∃ code, w = responseWord (.failed (faultBits code))

/-- What is true while no command executes (R28): the packer holds less than a byte, the run is not full. -/
def quiet (s : State) : Prop := Bp.legal 7 s.bp ∧ s.rle.len.toNat ≤ 255

/-- The packer has a byte to offer in the loop of `BpWrite` (42_bitstream.md R76). -/
def emitting (s : State) : Prop := Bp.legal 31 s.bp ∧ 8 ≤ s.bp.cnt.toNat ∧ s.rle.len.toNat ≤ 255

/-- The packer has its last byte to offer in `BpClose` (R77). -/
def closing (s : State) : Prop := quiet s ∧ s.bp.cnt ≠ 0#6

/-- The bytes `rest` are the end of what `RleFlushRun` writes for the run (45_rle.md R106). -/
def writingRun (rest : List Byte) (s : State) : Prop := rest ≠ [] ∧ rest <:+ rleRunBytes s.rle

/-- What is true of a command that stands at `h`, between two transfers or in a hold (20_memory.md R31, R33, R36): what its
pseudocode has tested and written so far. -/
def heldLegal (h : Hold) (s : State) : Prop :=
  match h with
  | .buRead => quiet s
  | .lzdRead => quiet s ∧ s.lzd.flt = 0#6 ∧ s.lzd.pend = []
  | .rldFirst | .rldRepeat | .rldCount _ => quiet s ∧ s.rld.flt = 0#6 ∧ s.rld.rem = 0#9
  | .bpWrite => emitting s
  | .bpClose => closing s
  | .lzeWrite b =>
    emitting s ∧ s.lze.flt = 0#6 ∧ s.lze.hasw = true ∧ lzeCode s.lze (s.lze.wseq ++ [b]) = none
      ∧ s.lze.size.toNat ≠ s.cfg.dictCap ∧ lzeGrowOk s = true
  | .lzeClearW => emitting s ∧ s.lze.flt = 0#6 ∧ s.lze.hasw = true ∧ lzeGrowOk s = true
  | .lzeClearCode => emitting s ∧ s.lze.flt = 0#6
  | .lzeFlushW => emitting s ∧ s.lze.flt = 0#6
  | .lzeFlushClose => closing s ∧ s.lze.flt = 0#6
  | .rleFull rest => Bp.legal 7 s.bp ∧ s.rle.len = 256#9 ∧ writingRun rest s
  | .rleNew _ rest | .rleFlush rest | .rleSetEsc _ rest => quiet s ∧ writingRun rest s

/-- What is true of the command in progress: no response waits until it is over (60_exceptions.md R117). -/
def seqLegal (s : State) : Prop :=
  match s.seq with
  | .idle => quiet s
  | .arrived _ => quiet s ∧ s.rsp = none
  | .holding h => heldLegal h s ∧ s.rsp = none

/-- The part of a legal state that no port and no command in progress has a say in: the constraints of 00_scope.md R8, the legal
values of 10_state.md R17-R24 and the invariants of R28. -/
structure UnitsLegal (s : State) : Prop where
  cfg : s.cfg.legal
  bu : s.bu.legal
  lzd : s.lzd.legal s.cfg.dictCap
  lze : s.lze.legal s.cfg.dictCap
  rld : s.rld.legal
  /-- R24: at most `IN_DEPTH` bytes in DIN. -/
  din : s.din.fifo.length ≤ s.cfg.inDepth

/-- A legal state between two commands, as R28 puts it: what a command finds when it starts. -/
def State.settled (s : State) : Prop := UnitsLegal s ∧ quiet s

/-- A legal state, whatever the sequencer does in it. -/
structure State.legal (s : State) : Prop where
  units : UnitsLegal s
  /-- R44: the response that waits is a response word. -/
  rsp : ∀ w, s.rsp = some w → responseLegal w
  seq : seqLegal s

/-! ## Bit streams as numbers (30_encoding.md R49) -/

/-- Bytes as one number, the first byte the least significant (20_memory.md R35). -/
def bytesValue : List Byte → Nat
  | [] => 0
  | b :: rest => b.toNat + 2 ^ 8 * bytesValue rest

/-- The bits the unpacker has still to read, as a number: those in `BU.ACC`, then those of DIN above them. -/
def unreadValue (s : State) : Nat := s.bu.acc.toNat + 2 ^ s.bu.cnt.toNat * bytesValue s.din.fifo

/-- How many bits the unpacker has still to read without the host. -/
def unreadBits (s : State) : Nat := s.bu.cnt.toNat + 8 * s.din.fifo.length

/-- The host accepts the next `n` DOUT bytes without a further act (20_memory.md R33). -/
def accepts (n : Nat) (s : State) : Prop :=
  match s.env.ready with
  | .always => True
  | .count k => n ≤ k

/-- How many bytes a `BuRead` pulls when the data suffice (42_bitstream.md R71): none if enough bits are buffered. -/
def pulledBytes (s : State) : Nat := (s.bu.width.toNat - s.bu.cnt.toNat + 7) / 8

/-- The code a `BuRead` returns when the data suffice: the low `BU.WIDTH` unread bits. -/
def nextCode (s : State) : Code := BitVec.ofNat 24 (unreadValue s % 2 ^ s.bu.width.toNat)

/-- `s` once a `BuRead` has returned a code: the bytes are pulled and the code's bits retired. -/
def afterRead (s : State) : State :=
  { s with
    bu := { s.bu with
      acc := BitVec.ofNat 32
        ((s.bu.acc.toNat + 2 ^ s.bu.cnt.toNat * bytesValue (s.din.fifo.take (pulledBytes s))) / 2 ^ s.bu.width.toNat)
      cnt := BitVec.ofNat 6 (s.bu.cnt.toNat + 8 * pulledBytes s - s.bu.width.toNat) }
    din := { s.din with fifo := s.din.fifo.drop (pulledBytes s) } }

/-- `s` once a `BuRead` has found too few bits: every DIN byte is pulled, and every bit stays buffered (R71). -/
def afterStarving (s : State) : State :=
  { s with
    bu := { s.bu with acc := BitVec.ofNat 32 (unreadValue s), cnt := BitVec.ofNat 6 (unreadBits s) }
    din := { s.din with fifo := [] } }

/-- The low `k` bytes of a number, the least significant first (20_memory.md R35 (b)). -/
def littleBytes : Nat → Nat → List Byte
  | 0, _ => []
  | k + 1, n => BitVec.ofNat 8 n :: littleBytes k (n / 256)

/-- What the host still accepts once it has accepted `k` bytes. -/
def Ready.after (r : Ready) (k : Nat) : Ready :=
  match r with
  | .always => .always
  | .count n => .count (n - k)

/-- `s` once the host has accepted `bytes` (20_memory.md R33). -/
def handedOver (bytes : List Byte) (s : State) : State :=
  { s with env := { s.env with ready := s.env.ready.after bytes.length, dout := s.env.dout ++ bytes } }

/-- The bits the packer holds once `v`, cut to the width, is above those buffered (42_bitstream.md R76). -/
def packedValue (v : Code) (s : State) : Nat :=
  s.bp.acc.toNat + 2 ^ s.bp.cnt.toNat * (v.toNat % 2 ^ s.bp.width.toNat)

/-- The complete bytes there are then. -/
def packedBytes (s : State) : Nat := (s.bp.cnt.toNat + s.bp.width.toNat) / 8

/-- `s` once `BpWrite(v)` has put `v` in place and `j` bytes have left, the low one first (R76). -/
def afterSending (j : Nat) (v : Code) (s : State) : State :=
  handedOver (littleBytes j (packedValue v s))
    { s with
      bp := { s.bp with
        acc := BitVec.ofNat 32 (packedValue v s / 2 ^ (8 * j))
        cnt := BitVec.ofNat 6 (s.bp.cnt.toNat + s.bp.width.toNat - 8 * j) } }

/-- `s` after `BpWrite(v)`, every complete byte accepted (R76). -/
def afterWrite (v : Code) (s : State) : State := afterSending (packedBytes s) v s

/-- The bytes `BpClose` pushes (R77): none, or the last partial byte. -/
def closingBytes (s : State) : List Byte := if s.bp.cnt.toNat = 0 then [] else [s.bp.acc.setWidth 8]

/-- `s` after `BpClose`, its byte accepted (R77). -/
def afterClose (s : State) : State :=
  handedOver (closingBytes s) { s with bp := { s.bp with acc := 0#32, cnt := 0#6 } }

/-! ## A row of the opcode map as the host sees it (30_encoding.md R43, R46) -/

/-- Every word with opcode `opc` is the command `i` of its operand field, if no bit outside the form is set; else it is refused with
ILLEGAL_COMMAND and changes `STATUS.CMDERR` only. -/
def rowMeans (opc : BitVec 8) (form : Form) (i : Code → Instr) : Prop :=
  ∀ w s, opcOf w = opc →
    execWord w s =
      if opdOf w &&& ~~~form.usedBits = 0#24 then exec (i (opdOf w)) s
      else .next { s with cmdErr := true, seq := .idle, rsp := some 0x41000000#32 }

/-! ## Holds (20_memory.md R31, R33) -/

/-- The unpacker lacks bits for the LZW decoder's next code, and the decoder would read one. -/
def lzdStarved (s : State) : Prop := s.lzd.flt = 0#6 ∧ s.lzd.pend = [] ∧ s.bu.cnt.toNat < s.bu.width.toNat

/-- The command that holds at `h` still lacks what it holds for, and only the host can give it: a DIN byte or the end of source, or
an acceptance on DOUT. -/
def stillBlocked (h : Hold) (s : State) : Prop :=
  match h with
  | .buRead => s.din.fifo = [] ∧ s.din.eof = false ∧ s.bu.cnt.toNat < s.bu.width.toNat
  | .lzdRead => s.din.fifo = [] ∧ s.din.eof = false ∧ lzdStarved s
  | .rldFirst | .rldRepeat | .rldCount _ => s.din.fifo = [] ∧ s.din.eof = false ∧ (s.rld.src = .lzd → lzdStarved s)
  | .bpWrite | .bpClose | .lzeWrite _ | .lzeClearW | .lzeClearCode | .lzeFlushW | .lzeFlushClose | .rleFull _ | .rleNew _ _
  | .rleFlush _ | .rleSetEsc _ _ => s.env.ready = .count 0

/-! ## Runs from reset -/

/-- The block right after reset, with any legal or illegal parameters (70_reset_and_hazards.md R119). -/
def freshBlock (c : Config) : State := { State.reset with cfg := c }

/-- The same with `bytes` pushed and the end of source signalled. -/
def freshBlockReading (c : Config) (bytes : List Byte) : State := { freshBlock c with din := { fifo := bytes, eof := true } }

/-- The widths are those of the schedule of 30_encoding.md R51: the decoder's is the length of `LZD.SIZE + 1` in bits, the encoder's
that of `LZE.SIZE` (43_lzw_decoder.md R87, 44_lzw_encoder.md R95). -/
def widthsFollow (s : State) : Prop :=
  s.bu.width.toNat = Nat.log2 (s.lzd.size.toNat + 1) + 1 ∧ s.bp.width.toNat = Nat.log2 s.lze.size.toNat + 1

/-! ## Commands one after another (40_control.md R65) -/

/-- The commands `is` run one after another, each to its response, from a state in which no command executes: the responses, and
the state at the end. There is none if a command holds or stops. -/
def runCommands : List Instr → State → Option (List Word × State)
  | [], s => some ([], s)
  | i :: rest, s =>
    match exec i s with
    | .next t =>
      match t.seq, t.rsp with
      | .idle, some r => (runCommands rest (t.setRsp none)).map fun out => (r :: out.1, out.2)
      | _, _ => none
    | _ => none

end Sys2Proof.Machine
end

