-- ==== Sys2Proof/Certificates/Slice0/Obligations.lean ====
section
/-! DEFINITION. The statements for the provers. Each docstring names the rules of spec/ it rests on. A state is written out as the
state before with the fields that change, so that every field not named is unchanged. -/

open Sys2Proof Sys2Proof.Machine

/-! ## Command words (30_encoding.md) -/

/-- R41, R42, R46, R54: every command is read back from its word, whatever its operand. -/
def Obligations.EncodeThenDecodeGivesTheCommand : Prop := ∀ i : Instr, decode (encode i) = .ok i

/-- R43, R48: a word that decodes is the word of its command, so no two words mean the same command. -/
def Obligations.DecodeThenEncodeGivesTheWord : Prop := ∀ w i, decode w = .ok i → encode i = w

/-- R46, R48: a word decodes exactly when a row of the opcode map matches it under its mask, and at most one row does. -/
def Obligations.DecodingFollowsTheOpcodeMap : Prop :=
  ∀ w : Word,
    ((∃ i, decode w = .ok i) ↔ ∃ r ∈ opcodeMap, r.accepts w) ∧
    (∀ r ∈ opcodeMap, ∀ r' ∈ opcodeMap, r.accepts w → r'.accepts w → r = r')

/-- R43, R47, R58, R113: an unassigned opcode and a stray operand bit are refused with ILLEGAL_COMMAND, a register number or a width
out of range with ILLEGAL_OPERAND; nothing but CMDERR changes. -/
def Obligations.IllegalWordsAreRefused : Prop :=
  ∀ (w : Word) (s : State),
    ((∀ r ∈ opcodeMap, opcOf w ≠ r.opc) ∨
        (∃ r ∈ opcodeMap, opcOf w = r.opc ∧ opdOf w &&& ~~~r.form.usedBits ≠ 0#24) →
      execWord w s = .next { s with cmdErr := true, seq := .idle, rsp := some 0x41000000#32 }) ∧
    (∀ i, decode w = .ok i → ¬ i.WellFormed →
      execWord w s = .next { s with cmdErr := true, seq := .idle, rsp := some 0x42000000#32 })

/-- R56 (the spec's own inference): the encoding examples, and the three illegal words. -/
def Obligations.EncodingExamplesDecode : Prop :=
  decode 0x11000031#32 = .ok (.crcUpd 0x31#8) ∧ decode 0x2000000C#32 = .ok (.buSetw 12#5) ∧
  decode 0x2A000ABC#32 = .ok (.bpWr 0xABC#24) ∧ decode 0x43000001#32 = .ok (.rldSrc 1#1) ∧
  decode 0x02000012#32 = .ok (.regRd 0x12#5) ∧ decode 0x30000000#32 = .ok .lzdRd ∧
  decode 0x00000001#32 = .error .strayOperandBit ∧ decode 0x11000100#32 = .error .strayOperandBit ∧
  decode 0x05000000#32 = .error .unassignedOpcode

/-! ## Steps of the block and of the host -/

/-- 20_memory.md R36, 30_encoding.md R43, R48: where the host does not move, or only lets the block move (`s'`), the step at a command
word that has arrived runs the command the word decodes to, whole if it is none of those that make port transfers, and with its
first transfer if it is; a word that decodes to no command is refused. A command in progress goes on with one more transfer, and an
idle block does nothing. The host's turns are the model's own (log 3), and so is the cut between two transfers (log 1). -/
def Obligations.StepRunsTheDecodedCommand : Prop :=
  ∀ s s' : State,
    ((s.env.agenda = [] ∨ ∃ t rest, s.env.agenda = t :: rest ∧ hostEnabled t s = false) ∧ s' = s) ∨
      (∃ rest, s.env.agenda = .yield :: rest ∧ s' = { s with env := { s.env with agenda := rest } }) →
    (∀ w, s.seq = .arrived w →
      (∀ i, decode w = .ok i → step s = if transfers i then oneTransfer (exec i) s' else exec i s') ∧
      (∀ e, decode w = .error e →
        step s = .next { s' with cmdErr := true, seq := .idle, rsp := some 0x41000000#32 })) ∧
    (∀ h, s.seq = .holding h → step s = oneTransfer (resume h) s') ∧
    (s.seq = .idle → step s = .next s')

/-- 20_memory.md R36, R39, 40_control.md R65, 60_exceptions.md R117: the steps of a command, one for each port transfer, come to what the
command comes to as a whole, be it over or blocked. A host that sends commands and takes each response gets, step by step, the
responses of the commands run one after another, and the machine ends where they end. The host's turns are the model's own
(log 3). -/
def Obligations.RunsOfStepsAreRunsOfCommands : Prop :=
  (∀ (i : Instr) (s t : State) (n : Nat), s.settled → s.rsp = none → s.env.agenda = [] → exec i s = .next t →
    1 + s.din.fifo.length + (t.env.dout.length - s.env.dout.length) ≤ n →
    Host.Core.run Sys2Proof.core n { s with seq := .arrived (encode i) } = .next t) ∧
  (∀ (is : List Instr) (s t : State) (rs : List Word) (n : Nat), s.legal → s.seq = .idle → s.rsp = none →
    runCommands is s = some (rs, t) →
    3 * is.length + s.din.fifo.length + (t.env.dout.length - s.env.dout.length) ≤ n →
    Host.Core.run Sys2Proof.core n
      { s with env := { s.env with agenda := is.flatMap fun i => [.send (encode i), .take] } } =
      .next { t with env := { t.env with agenda := [], taken := s.env.taken ++ rs } })

/-- 60_exceptions.md R117, 20_memory.md R29, R30, R32: each kind of host step, when it is enabled and what it does; where it is not
enabled the block moves (log 3), DOUT acceptance is a count (log 4), a response that waits holds back the next word (log 17), and
a push into a full FIFO waits (log 18): these are the model's choices. -/
def Obligations.HostStepsAreThoseOfTheInterface : Prop :=
  ∀ (s : State) (rest : List HostTurn),
    (∀ w, s.env.agenda = .send w :: rest →
      step s = if s.seq = .idle ∧ s.rsp = none then .next { s with seq := .arrived w, env := { s.env with agenda := rest } }
        else blockTurn s) ∧
    (s.env.agenda = .take :: rest →
      step s = match s.rsp with
        | some r => .next { s with rsp := none, env := { s.env with agenda := rest, taken := s.env.taken ++ [r] } }
        | none => blockTurn s) ∧
    (∀ b, s.env.agenda = .push b :: rest →
      step s = if s.din.fifo.length < s.cfg.inDepth ∧ s.seq ≠ .arrived 0x01000000#32 then
          .next { s with
            din := { s.din with fifo := if s.din.eof then s.din.fifo else s.din.fifo ++ [b] }
            env := { s.env with agenda := rest } }
        else blockTurn s) ∧
    (s.env.agenda = .signalEof :: rest →
      step s = .next { s with din := { s.din with eof := true }, env := { s.env with agenda := rest } }) ∧
    (∀ r, s.env.agenda = .accept r :: rest → step s = .next { s with env := { s.env with agenda := rest, ready := r } })

/-- 20_memory.md R31, R33, 40_control.md R65: a held command stays as it is, and so does the whole machine, until the host gives what
it holds for (log 2). -/
def Obligations.HeldCommandWaitsUnchanged : Prop :=
  ∀ (s : State) (h : Hold), s.legal → s.env.agenda = [] → s.seq = .holding h → stillBlocked h s → step s = .next s

/-- 70_reset_and_hazards.md R119, R120: the reset signal puts every element at its reset value and abandons the command in progress
without a response; bytes already transferred stay transferred. A response that waits stays (log 11). -/
def Obligations.ResetSignalAbandonsTheCommand : Prop :=
  ∀ (s : State) (rest : List HostTurn), s.env.agenda = .resetSignal :: rest →
    step s = .next { State.reset with cfg := s.cfg, rsp := s.rsp, env := { s.env with agenda := rest } }

/-- 20_memory.md R33, R36, R38, R39, 00_scope.md R8: a step moves at most one byte over the ports: a DOUT byte the host accepts, a DIN byte
the block pulls, or one the host pushes. No step takes back a byte the host has accepted or a response it has taken, and none changes
a parameter. Only a reset drops DIN bytes otherwise. -/
def Obligations.StepsKeepWhatTheHostHas : Prop :=
  ∀ s t, step s = .next t →
    s.env.dout <+: t.env.dout ∧ t.env.dout.length ≤ s.env.dout.length + 1 ∧ s.env.taken <+: t.env.taken ∧ t.cfg = s.cfg ∧
    ((∀ rest, s.env.agenda ≠ .resetSignal :: rest) → s.seq ≠ .arrived 0x01000000#32 →
      ∃ sent pulled pushed : List Byte, t.env.dout = s.env.dout ++ sent ∧ s.din.fifo ++ pushed = pulled ++ t.din.fifo ∧
        sent.length + pulled.length + pushed.length ≤ 1)

/-- 20_memory.md R33, R36, 70_reset_and_hazards.md R129: a host that accepts late changes nothing, however late each byte is accepted.
If a command comes to `t` where every byte is accepted at once, then where only `n` are, it comes to the same `t`, those it has not
used still to be accepted, or it holds with the `n` accepted; from there it comes to that `t` once the host accepts every byte, and once it accepts `m` more, to what it would
have where `n + m` had been accepted from the start. -/
def Obligations.LateAcceptanceChangesNothing : Prop :=
  ∀ (i : Instr) (s t : State) (n : Nat),
    exec i { s with env := { s.env with ready := .always } } = .next t →
    ∃ u, exec i { s with env := { s.env with ready := .count n } } = .next u ∧
      ((∃ k, k + t.env.dout.length = n + s.env.dout.length ∧ u = { t with env := { t.env with ready := .count k } }) ∨
      ∃ h, u.seq = .holding h ∧ u.env.ready = .count 0 ∧ u.env.dout.length = s.env.dout.length + n ∧
        resume h { u with env := { u.env with ready := .always } } = .next t ∧
        ∀ m, resume h { u with env := { u.env with ready := .count m } } =
          exec i { s with env := { s.env with ready := .count (n + m) } })

/-- 20_memory.md R31, R36, 70_reset_and_hazards.md R129: DIN bytes that come late change nothing. A read that finds only the bytes `a`
either ends as it would have with `b` behind them, `b` still unread, or holds with `a` used up and goes on with `b` as it
would have from the start. -/
def Obligations.LateInputChangesNothing : Prop :=
  ∀ (i : Instr) (s u : State) (a b : List Byte) (e : Bool),
    i = .buRd ∨ i = .lzdRd ∨ i = .rldRd →
    State.settled { s with din := { fifo := a, eof := false } } →
    exec i { s with din := { fifo := a, eof := false } } = .next u →
    (u.seq = .idle ∧
      exec i { s with din := { fifo := a ++ b, eof := e } } = .next { u with din := { fifo := u.din.fifo ++ b, eof := e } }) ∨
    ∃ h, u.seq = .holding h ∧ u.din.fifo = [] ∧
      resume h { u with din := { fifo := b, eof := e } } = exec i { s with din := { fifo := a ++ b, eof := e } }

/-! ## Responses and registers -/

/-- 30_encoding.md R44: the four fields of a response word, and END and ERR never both 1. -/
def Obligations.ResponseWordsHaveTheirFields : Prop :=
  ∀ (d : Code) (c : FaultBits),
    responseWord (.done d) = 0#8 ++ d ∧ responseWord .ended = 0x80000000#32 ∧
    (responseWord (.failed c)).extractLsb' 31 1 = 0#1 ∧ (responseWord (.failed c)).extractLsb' 30 1 = 1#1 ∧
    (responseWord (.failed c)).extractLsb' 24 6 = c ∧ (responseWord (.failed c)).extractLsb' 0 24 = 0#24

/-- 60_exceptions.md R112, R113, R114, 30_encoding.md R45: a command holds, or it is over with exactly one response: done, with DATA 0
but for the commands that return a value; END, for the three reads only; a CmdError that changes CMDERR alone; or a
UnitFault with its code 3..6 in the fault field of a unit. -/
def Obligations.CommandsHaveFiveOutcomes : Prop :=
  ∀ (i : Instr) (s t : State), s.settled → exec i s = .next t →
    (∃ h, t.seq = .holding h ∧ t.rsp = s.rsp) ∨
    (t.seq = .idle ∧
      ((∃ d, t.rsp = some (responseWord (.done d)) ∧
          (d = 0#24 ∨ (∃ r, i = .regRd r) ∨ i = .crcVal ∨ i = .buRd ∨ i = .lzdRd ∨ i = .rldRd)) ∨
       (t.rsp = some (responseWord .ended) ∧ (i = .buRd ∨ i = .lzdRd ∨ i = .rldRd)) ∨
       t = { s with cmdErr := true, seq := .idle, rsp := some 0x42000000#32 } ∨
       (∃ c : FaultBits, 3 ≤ c.toNat ∧ c.toNat ≤ 6 ∧ t.rsp = some (responseWord (.failed c)) ∧
          (t.lzd.flt = c ∨ t.lze.flt = c ∨ t.rld.flt = c))))

/-- 10_state.md R25: STATUS, bit by bit. -/
def Obligations.StatusBitsAreTheFlags : Prop :=
  (∀ s : State, ∃ v : Code,
    exec (.regRd 0x00#5) s = .next { s with seq := .idle, rsp := some (responseWord (.done v)) } ∧
    v.getLsbD 0 = s.cmdErr ∧ v.getLsbD 1 = s.din.eof ∧
    v.getLsbD 2 = decide (s.lzd.flt ≠ 0#6) ∧ v.getLsbD 3 = decide (s.lze.flt ≠ 0#6) ∧ v.getLsbD 4 = decide (s.rld.flt ≠ 0#6) ∧
    v.getLsbD 5 = s.lzd.fresh ∧ v.getLsbD 6 = s.lze.hasw ∧ v.getLsbD 7 = decide (s.rld.src = .lzd) ∧
    ∀ n, 8 ≤ n → v.getLsbD n = false) ∧
  ∃ t, exec (.regRd 0x00#5) State.reset = .next t ∧ t.rsp = some 0x00000020#32

/-- R26: FCODES, field by field. -/
def Obligations.FcodesFieldsAreTheFaults : Prop :=
  (∀ s : State, ∃ v : Code,
    exec (.regRd 0x01#5) s = .next { s with seq := .idle, rsp := some (responseWord (.done v)) } ∧
    v.extractLsb' 0 6 = s.lzd.flt ∧ v.extractLsb' 6 6 = s.lze.flt ∧ v.extractLsb' 12 6 = s.rld.flt ∧ v.extractLsb' 18 6 = 0#6) ∧
  ∃ t, exec (.regRd 0x01#5) State.reset = .next t ∧ t.rsp = some 0x00000000#32

/-- R27, 40_control.md R64: REG_READ returns the register of the map and changes nothing else; a reserved number is refused. -/
def Obligations.RegReadReturnsTheRegister : Prop :=
  rowMeans 0x02#8 .n5 (fun opd => .regRd (operandN5 opd)) ∧
  ∀ s : State,
    (∀ p ∈ [(0x00#5, statusRegister s), (0x01#5, fcodesRegister s), (0x02#5, 0#8 ++ s.crc),
        (0x03#5, s.bu.width.setWidth 24), (0x04#5, s.bu.cnt.setWidth 24), (0x05#5, s.bu.acc.extractLsb' 0 24),
        (0x06#5, s.bp.width.setWidth 24), (0x07#5, s.bp.cnt.setWidth 24), (0x08#5, s.bp.acc.extractLsb' 0 24),
        (0x09#5, s.lzd.size), (0x0A#5, BitVec.ofNat 24 (min s.lzd.pend.length 0xFFFFFF)), (0x0B#5, s.lzd.w),
        (0x0C#5, s.lze.size), (0x0E#5, s.rld.esc.setWidth 24), (0x0F#5, 0#8 ++ s.rld.rem.extractLsb' 0 8 ++ s.rld.rb),
        (0x10#5, s.rle.esc.setWidth 24), (0x11#5, 0#8 ++ s.rle.len.extractLsb' 0 8 ++ s.rle.rb),
        (0x12#5, BitVec.ofNat 24 (min s.din.fifo.length 0xFFFFFF))],
      exec (.regRd p.1) s = .next { s with seq := .idle, rsp := some (responseWord (.done p.2)) }) ∧
    (s.lze.hasw = false → exec (.regRd 0x0D#5) s = .next { s with seq := .idle, rsp := some (responseWord (.done 0#24)) }) ∧
    (∀ c, s.lze.hasw = true → lzeCode s.lze s.lze.wseq = some c →
      exec (.regRd 0x0D#5) s = .next { s with seq := .idle, rsp := some (responseWord (.done c)) }) ∧
    (∀ r : BitVec 5, 0x13 ≤ r.toNat →
      exec (.regRd r) s = .next { s with cmdErr := true, seq := .idle, rsp := some 0x42000000#32 })

/-! ## Control commands and the CRC unit -/

/-- 40_control.md R62. -/
def Obligations.NopOnlyResponds : Prop :=
  rowMeans 0x00#8 .none (fun _ => .nop) ∧
  ∀ s, exec .nop s = .next { s with seq := .idle, rsp := some 0x00000000#32 }

/-- 40_control.md R63, 70_reset_and_hazards.md R119: RESET puts every element at its reset value, whatever is latched, and keeps the
parameters and what the host has; after it the register map reads as R119 lists. -/
def Obligations.ResetSetsEveryElement : Prop :=
  rowMeans 0x01#8 .none (fun _ => .reset) ∧
  ∀ s, exec .reset s = .next
    { cfg := s.cfg, crc := 0x0000#16, bu := { width := 9#5, acc := 0#32, cnt := 0#6 },
      bp := { width := 9#5, acc := 0#32, cnt := 0#6 },
      lzd := { built := [], size := 257#24, w := 0#24, fresh := true, pend := [], flt := 0#6 },
      lze := { built := [], size := 257#24, hasw := false, wseq := [], flt := 0#6 },
      rld := { esc := 0xDB#8, src := .din, rb := 0#8, rem := 0#9, flt := 0#6 },
      rle := { esc := 0xDB#8, rb := 0#8, len := 0#9 }, din := { fifo := [], eof := false }, cmdErr := false,
      seq := .idle, rsp := some 0x00000000#32, env := s.env } ∧
    ∀ t, exec .reset s = .next t → ∀ r : BitVec 5, r.toNat ≤ 0x12 → ∃ u, exec (.regRd r) t = .next u ∧
      u.rsp = some (if r = 0x00#5 then 0x00000020#32
        else if r = 0x09#5 ∨ r = 0x0C#5 then 0x00000101#32
        else if r = 0x03#5 ∨ r = 0x06#5 then 0x00000009#32
        else if r = 0x0E#5 ∨ r = 0x10#5 then 0x000000DB#32
        else 0x00000000#32)

/-- 41_crc.md R67, R69. -/
def Obligations.CrcResetAndCrcValue : Prop :=
  rowMeans 0x10#8 .none (fun _ => .crcRst) ∧ rowMeans 0x12#8 .none (fun _ => .crcVal) ∧
  ∀ s, exec .crcRst s = .next { s with crc := 0x0000#16, seq := .idle, rsp := some 0x00000000#32 } ∧
    exec .crcVal s = .next { s with seq := .idle, rsp := some (0#16 ++ s.crc) }

/-- 41_crc.md R68, with the function of R66. -/
def Obligations.CrcUpdateFoldsTheByte : Prop :=
  rowMeans 0x11#8 .b8 (fun opd => .crcUpd (operandB8 opd)) ∧
  ∀ b s, exec (.crcUpd b) s = .next { s with crc := crcStep s.crc b, seq := .idle, rsp := some 0x00000000#32 }

/-- 41_crc.md R66, 20_memory.md R35 (c): the whole table, how its entries come about, and the update function over it, which is the
bit-by-bit one, most significant bit first. -/
def Obligations.CrcTableIsTheSpecsTable : Prop :=
  (List.range 256).map (fun i => crcTable (BitVec.ofNat 8 i)) =
    [0x0000#16, 0x1021#16, 0x2042#16, 0x3063#16, 0x4084#16, 0x50A5#16, 0x60C6#16, 0x70E7#16,
      0x8108#16, 0x9129#16, 0xA14A#16, 0xB16B#16, 0xC18C#16, 0xD1AD#16, 0xE1CE#16, 0xF1EF#16,
      0x1231#16, 0x0210#16, 0x3273#16, 0x2252#16, 0x52B5#16, 0x4294#16, 0x72F7#16, 0x62D6#16,
      0x9339#16, 0x8318#16, 0xB37B#16, 0xA35A#16, 0xD3BD#16, 0xC39C#16, 0xF3FF#16, 0xE3DE#16] ++
    [0x2462#16, 0x3443#16, 0x0420#16, 0x1401#16, 0x64E6#16, 0x74C7#16, 0x44A4#16, 0x5485#16,
      0xA56A#16, 0xB54B#16, 0x8528#16, 0x9509#16, 0xE5EE#16, 0xF5CF#16, 0xC5AC#16, 0xD58D#16,
      0x3653#16, 0x2672#16, 0x1611#16, 0x0630#16, 0x76D7#16, 0x66F6#16, 0x5695#16, 0x46B4#16,
      0xB75B#16, 0xA77A#16, 0x9719#16, 0x8738#16, 0xF7DF#16, 0xE7FE#16, 0xD79D#16, 0xC7BC#16] ++
    [0x48C4#16, 0x58E5#16, 0x6886#16, 0x78A7#16, 0x0840#16, 0x1861#16, 0x2802#16, 0x3823#16,
      0xC9CC#16, 0xD9ED#16, 0xE98E#16, 0xF9AF#16, 0x8948#16, 0x9969#16, 0xA90A#16, 0xB92B#16,
      0x5AF5#16, 0x4AD4#16, 0x7AB7#16, 0x6A96#16, 0x1A71#16, 0x0A50#16, 0x3A33#16, 0x2A12#16,
      0xDBFD#16, 0xCBDC#16, 0xFBBF#16, 0xEB9E#16, 0x9B79#16, 0x8B58#16, 0xBB3B#16, 0xAB1A#16] ++
    [0x6CA6#16, 0x7C87#16, 0x4CE4#16, 0x5CC5#16, 0x2C22#16, 0x3C03#16, 0x0C60#16, 0x1C41#16,
      0xEDAE#16, 0xFD8F#16, 0xCDEC#16, 0xDDCD#16, 0xAD2A#16, 0xBD0B#16, 0x8D68#16, 0x9D49#16,
      0x7E97#16, 0x6EB6#16, 0x5ED5#16, 0x4EF4#16, 0x3E13#16, 0x2E32#16, 0x1E51#16, 0x0E70#16,
      0xFF9F#16, 0xEFBE#16, 0xDFDD#16, 0xCFFC#16, 0xBF1B#16, 0xAF3A#16, 0x9F59#16, 0x8F78#16] ++
    [0x9188#16, 0x81A9#16, 0xB1CA#16, 0xA1EB#16, 0xD10C#16, 0xC12D#16, 0xF14E#16, 0xE16F#16,
      0x1080#16, 0x00A1#16, 0x30C2#16, 0x20E3#16, 0x5004#16, 0x4025#16, 0x7046#16, 0x6067#16,
      0x83B9#16, 0x9398#16, 0xA3FB#16, 0xB3DA#16, 0xC33D#16, 0xD31C#16, 0xE37F#16, 0xF35E#16,
      0x02B1#16, 0x1290#16, 0x22F3#16, 0x32D2#16, 0x4235#16, 0x5214#16, 0x6277#16, 0x7256#16] ++
    [0xB5EA#16, 0xA5CB#16, 0x95A8#16, 0x8589#16, 0xF56E#16, 0xE54F#16, 0xD52C#16, 0xC50D#16,
      0x34E2#16, 0x24C3#16, 0x14A0#16, 0x0481#16, 0x7466#16, 0x6447#16, 0x5424#16, 0x4405#16,
      0xA7DB#16, 0xB7FA#16, 0x8799#16, 0x97B8#16, 0xE75F#16, 0xF77E#16, 0xC71D#16, 0xD73C#16,
      0x26D3#16, 0x36F2#16, 0x0691#16, 0x16B0#16, 0x6657#16, 0x7676#16, 0x4615#16, 0x5634#16] ++
    [0xD94C#16, 0xC96D#16, 0xF90E#16, 0xE92F#16, 0x99C8#16, 0x89E9#16, 0xB98A#16, 0xA9AB#16,
      0x5844#16, 0x4865#16, 0x7806#16, 0x6827#16, 0x18C0#16, 0x08E1#16, 0x3882#16, 0x28A3#16,
      0xCB7D#16, 0xDB5C#16, 0xEB3F#16, 0xFB1E#16, 0x8BF9#16, 0x9BD8#16, 0xABBB#16, 0xBB9A#16,
      0x4A75#16, 0x5A54#16, 0x6A37#16, 0x7A16#16, 0x0AF1#16, 0x1AD0#16, 0x2AB3#16, 0x3A92#16] ++
    [0xFD2E#16, 0xED0F#16, 0xDD6C#16, 0xCD4D#16, 0xBDAA#16, 0xAD8B#16, 0x9DE8#16, 0x8DC9#16,
      0x7C26#16, 0x6C07#16, 0x5C64#16, 0x4C45#16, 0x3CA2#16, 0x2C83#16, 0x1CE0#16, 0x0CC1#16,
      0xEF1F#16, 0xFF3E#16, 0xCF5D#16, 0xDF7C#16, 0xAF9B#16, 0xBFBA#16, 0x8FD9#16, 0x9FF8#16,
      0x6E17#16, 0x7E36#16, 0x4E55#16, 0x5E74#16, 0x2E93#16, 0x3EB2#16, 0x0ED1#16, 0x1EF0#16] ∧
  (∀ i : Byte, crcTable i =
    Nat.iterate (fun c : BitVec 16 => if c.getLsbD 15 then (c <<< 1) ^^^ 0x1021#16 else c <<< 1) 8 (i ++ 0#8)) ∧
  ∀ (crc : BitVec 16) (b : Byte),
    crcStep crc b = (crc <<< 8) ^^^ crcTable ((crc >>> 8).setWidth 8 ^^^ b) ∧
    crcStep crc b = Nat.iterate (fun c : BitVec 16 => if c.getLsbD 15 then (c <<< 1) ^^^ 0x1021#16 else c <<< 1) 8
      (crc ^^^ (b ++ 0#8))

/-- 41_crc.md R70 (the spec's own inference), 30_encoding.md R53, R59: CRC_UPDATE of each byte in turn folds the sequence, so a
concatenation may be folded in pieces; the check value. -/
def Obligations.CrcOfASequenceInPieces : Prop :=
  (∀ (x y : List Byte) (s t : State),
    runCommands (x.map .crcUpd) s = some (x.map fun _ => 0#32, t) →
    runCommands ((x ++ y).map .crcUpd) s = (runCommands (y.map .crcUpd) t).map (fun out => (x.map (fun _ => 0#32) ++ out.1, out.2))) ∧
  (∀ (x : List Byte) (s : State), ∃ t,
    runCommands (x.map .crcUpd ++ [.crcVal]) s = some (x.map (fun _ => 0#32) ++ [0#16 ++ x.foldl crcStep s.crc], t) ∧
      t = { s with crc := x.foldl crcStep s.crc, seq := .idle, rsp := none }) ∧
  [0x31#8, 0x32#8, 0x33#8, 0x34#8, 0x35#8, 0x36#8, 0x37#8, 0x38#8, 0x39#8].foldl crcStep 0x0000#16 = 0x31C3#16

/-! ## The bit stream (42_bitstream.md) -/

/-- R72, R78: the two width commands; the bits buffered are kept. -/
def Obligations.SetWidthSetsALegalWidth : Prop :=
  rowMeans 0x20#8 .n5 (fun opd => .buSetw (operandN5 opd)) ∧ rowMeans 0x28#8 .n5 (fun opd => .bpSetw (operandN5 opd)) ∧
  ∀ (n : BitVec 5) (s : State),
    (1 ≤ n.toNat ∧ n.toNat ≤ 24 →
      exec (.buSetw n) s = .next { s with bu := { s.bu with width := n }, seq := .idle, rsp := some 0x00000000#32 } ∧
      exec (.bpSetw n) s = .next { s with bp := { s.bp with width := n }, seq := .idle, rsp := some 0x00000000#32 }) ∧
    (n.toNat < 1 ∨ 24 < n.toNat →
      exec (.buSetw n) s = .next { s with cmdErr := true, seq := .idle, rsp := some 0x42000000#32 } ∧
      exec (.bpSetw n) s = .next { s with cmdErr := true, seq := .idle, rsp := some 0x42000000#32 })

/-- R73, R79: the two increments, refused at width 24. -/
def Obligations.IncreaseWidthAddsOne : Prop :=
  rowMeans 0x21#8 .none (fun _ => .buIncw) ∧ rowMeans 0x29#8 .none (fun _ => .bpIncw) ∧
  ∀ s : State,
    (s.bu.width ≠ 24#5 →
      exec .buIncw s = .next { s with bu := { s.bu with width := s.bu.width + 1#5 }, seq := .idle, rsp := some 0x00000000#32 }) ∧
    (s.bu.width = 24#5 → exec .buIncw s = .next { s with cmdErr := true, seq := .idle, rsp := some 0x42000000#32 }) ∧
    (s.bp.width ≠ 24#5 →
      exec .bpIncw s = .next { s with bp := { s.bp with width := s.bp.width + 1#5 }, seq := .idle, rsp := some 0x00000000#32 }) ∧
    (s.bp.width = 24#5 → exec .bpIncw s = .next { s with cmdErr := true, seq := .idle, rsp := some 0x42000000#32 })

/-- R75: the buffered bits go, the width stays. -/
def Obligations.BuClearDropsTheBits : Prop :=
  rowMeans 0x23#8 .none (fun _ => .buClr) ∧
  ∀ s, exec .buClr s = .next { s with bu := { s.bu with acc := 0#32, cnt := 0#6 }, seq := .idle, rsp := some 0x00000000#32 }

/-- R71, R74, 20_memory.md R35 (a): with bits enough, BU_READ returns the low ones and retires them, pulling only the bytes it
needs, at most three. -/
def Obligations.BuReadReturnsTheNextBits : Prop :=
  rowMeans 0x22#8 .none (fun _ => .buRd) ∧
  ∀ s : State, s.bu.legal → s.bu.width.toNat ≤ unreadBits s →
    exec .buRd s = .next { afterRead s with seq := .idle, rsp := some (responseWord (.done (nextCode s))) } ∧
    pulledBytes s ≤ 3 ∧ (afterRead s).bu.legal ∧
    unreadBits (afterRead s) + s.bu.width.toNat = unreadBits s ∧
    unreadValue (afterRead s) * 2 ^ s.bu.width.toNat + (nextCode s).toNat = unreadValue s

/-- R71, R74: with too few bits, every DIN byte is pulled and every bit stays buffered; then END, or a hold while no end of source is
signalled. -/
def Obligations.BuReadEndsOrHolds : Prop :=
  ∀ s : State, s.bu.legal → unreadBits s < s.bu.width.toNat →
    (s.din.eof = true → exec .buRd s = .next { afterStarving s with seq := .idle, rsp := some 0x80000000#32 }) ∧
    (s.din.eof = false → exec .buRd s = .next { afterStarving s with seq := .holding .buRead }) ∧
    (afterStarving s).bu.legal ∧ unreadBits (afterStarving s) = unreadBits s ∧ unreadValue (afterStarving s) = unreadValue s

/-- R76, R80, 20_memory.md R35 (b): the value, cut to the width, goes above the bits buffered, and complete bytes leave, the low one
first; the response comes after the last of them. -/
def Obligations.BpWriteSendsCompleteBytes : Prop :=
  rowMeans 0x2A#8 .v24 (fun opd => .bpWr opd) ∧
  ∀ (v : Code) (s : State), s.bp.legal 7 → accepts (packedBytes s) s →
    exec (.bpWr v) s = .next { afterWrite v s with seq := .idle, rsp := some 0x00000000#32 } ∧ (afterWrite v s).bp.legal 7

/-- R76, 20_memory.md R33, R36: where the host accepts only `n` of the bytes, those `n` are transferred and BP_WRITE holds. -/
def Obligations.BpWriteHoldsAtAnUnacceptedByte : Prop :=
  ∀ (v : Code) (s : State) (n : Nat), s.bp.legal 7 → s.env.ready = .count n → n < packedBytes s →
    exec (.bpWr v) s = .next { afterSending n v s with seq := .holding .bpWrite }

/-- R77, R81: the last partial byte leaves, if there is one, with its high bits zero; the width stays. It holds while the host does
not accept that byte. -/
def Obligations.BpCloseSendsTheLastByte : Prop :=
  rowMeans 0x2B#8 .none (fun _ => .bpClose) ∧
  ∀ s : State, (accepts (closingBytes s).length s →
    exec .bpClose s = .next { afterClose s with seq := .idle, rsp := some 0x00000000#32 }) ∧
    (s.bp.cnt ≠ 0#6 → s.env.ready = .count 0 → exec .bpClose s = .next { s with seq := .holding .bpClose })

/-- R82 (the spec's own inference), 30_encoding.md R49: values packed at any legal widths, changing anywhere, are unpacked as they
were by a reader that changes width at the same places; and a further read gives END where the last width is more than 7. -/
def Obligations.PackedValuesAreReadBack : Prop :=
  ∀ (c : Config) (l : List (BitVec 5 × Code)), (∀ p ∈ l, widthOperandOk p.1 ∧ p.2.toNat < 2 ^ p.1.toNat) →
    ∃ rs t u,
      runCommands (l.flatMap (fun p => [.bpSetw p.1, .bpWr p.2]) ++ [.bpClose]) (freshBlock c) = some (rs, t) ∧
      runCommands (l.flatMap fun p => [.buSetw p.1, .buRd]) (freshBlockReading c t.env.dout) =
        some (l.flatMap (fun p => [0#32, responseWord (.done p.2)]), u) ∧
      ((∀ p, l.getLast? = some p → 7 < p.1.toNat) → ∃ v, exec .buRd u = .next v ∧ v.rsp = some 0x80000000#32)

/-! ## The LZW decoder (43_lzw_decoder.md) -/

/-- R91: pending output is drained one byte per command, and nothing is read. -/
def Obligations.LzdReadDrainsPendingOutput : Prop :=
  rowMeans 0x30#8 .none (fun _ => .lzdRd) ∧
  ∀ (s : State) (b : Byte) (rest : List Byte), s.lzd.flt = 0#6 → s.lzd.pend = b :: rest →
    exec .lzdRd s = .next { s with lzd := { s.lzd with pend := rest }, seq := .idle, rsp := some (0#24 ++ b) }

/-- R85, R89: the first code after an initialisation is a literal, which becomes w and makes no entry, or is corrupt. -/
def Obligations.LzdReadTakesTheFirstCode : Prop :=
  ∀ s : State, s.bu.legal → s.lzd.flt = 0#6 → s.lzd.pend = [] → s.lzd.fresh = true → s.bu.width.toNat ≤ unreadBits s →
    ((nextCode s).toNat < 0x100 →
      exec .lzdRd s = .next { afterRead s with
        lzd := { s.lzd with w := nextCode s, fresh := false }
        seq := .idle, rsp := some (responseWord (.done (nextCode s))) }) ∧
    (0x100 < (nextCode s).toNat →
      exec .lzdRd s = .next { afterRead s with lzd := { s.lzd with flt := 3#6 }, seq := .idle, rsp := some 0x43000000#32 })

/-- R85, R86, R87, R88: a code below the size is its entry, the code equal to the size is w with its own first byte after it. The
entry w ++ [e[0]] is made, the width grows by the test of R87, the code becomes w, and the first byte of e is returned. -/
def Obligations.LzdReadDecodesAnEntry : Prop :=
  ∀ (s : State) (wSeq : List Byte) (x : Byte) (rest : List Byte),
    s.settled → s.lzd.flt = 0#6 → s.lzd.pend = [] → s.lzd.fresh = false → s.bu.width.toNat ≤ unreadBits s →
    nextCode s ≠ 0x100#24 → lzdEntry s.lzd s.lzd.w = some wSeq →
    ((nextCode s).toNat < s.lzd.size.toNat ∧ lzdEntry s.lzd (nextCode s) = some (x :: rest)) ∨
      (nextCode s = s.lzd.size ∧ x :: rest = wSeq ++ wSeq.take 1) →
    s.lzd.size.toNat ≠ s.cfg.dictCap → ¬ (s.lzd.size.toNat + 1 = 2 ^ s.bu.width.toNat - 1 ∧ s.bu.width = 24#5) →
    exec .lzdRd s = .next { afterRead s with
      bu := { (afterRead s).bu with
        width := if s.lzd.size.toNat + 1 = 2 ^ s.bu.width.toNat - 1 then s.bu.width + 1#5 else s.bu.width }
      lzd := { s.lzd with
        built := s.lzd.built ++ [wSeq ++ [x]], size := s.lzd.size + 1#24, w := nextCode s, pend := rest }
      seq := .idle, rsp := some (0#24 ++ x) }

/-- R85, R86, R90, 60_exceptions.md R114, R115: a code above the size is corrupt, whatever the limits; an entry due at `DICT_CAP`, or
one whose growth would pass width 24, is refused, in that order. Only the code's bits are consumed, and the fault is latched. -/
def Obligations.LzdReadRefusesACode : Prop :=
  ∀ s : State, s.settled → s.lzd.flt = 0#6 → s.lzd.pend = [] → s.lzd.fresh = false → s.bu.width.toNat ≤ unreadBits s →
    nextCode s ≠ 0x100#24 →
    (s.lzd.size.toNat < (nextCode s).toNat →
      exec .lzdRd s = .next { afterRead s with lzd := { s.lzd with flt := 3#6 }, seq := .idle, rsp := some 0x43000000#32 }) ∧
    ((nextCode s).toNat ≤ s.lzd.size.toNat → s.lzd.size.toNat = s.cfg.dictCap →
      exec .lzdRd s = .next { afterRead s with lzd := { s.lzd with flt := 6#6 }, seq := .idle, rsp := some 0x46000000#32 }) ∧
    ((nextCode s).toNat ≤ s.lzd.size.toNat → s.lzd.size.toNat ≠ s.cfg.dictCap →
      s.lzd.size.toNat + 1 = 2 ^ s.bu.width.toNat - 1 → s.bu.width = 24#5 →
      exec .lzdRd s = .next { afterRead s with lzd := { s.lzd with flt := 5#6 }, seq := .idle, rsp := some 0x45000000#32 })

/-- R84, R85, R86, R93 (a): a clear code initialises the dictionary and the width, returns nothing, and the command reads on, as
from a fresh decoder at that bit position. -/
def Obligations.LzdReadGoesOnAfterAClearCode : Prop :=
  ∀ s : State, s.bu.legal → s.lzd.flt = 0#6 → s.lzd.pend = [] → s.bu.width.toNat ≤ unreadBits s → nextCode s = 0x100#24 →
    exec .lzdRd s = exec .lzdRd { afterRead s with
      bu := { (afterRead s).bu with width := 9#5 }
      lzd := { built := [], size := 257#24, w := 0#24, fresh := true, pend := [], flt := 0#6 } }

/-- R86, R91: with too few bits for a code, END, or a hold while no end of source is signalled; a partial code stays buffered. -/
def Obligations.LzdReadEndsOrHolds : Prop :=
  ∀ s : State, s.bu.legal → s.lzd.flt = 0#6 → s.lzd.pend = [] → unreadBits s < s.bu.width.toNat →
    (s.din.eof = true → exec .lzdRd s = .next { afterStarving s with seq := .idle, rsp := some 0x80000000#32 }) ∧
    (s.din.eof = false → exec .lzdRd s = .next { afterStarving s with seq := .holding .lzdRead })

/-- R84, R92: the initial dictionary and width 9; the pending output and the buffered bits stay. While a fault is latched it
fails with the latched code. -/
def Obligations.LzdClearInitialises : Prop :=
  rowMeans 0x31#8 .none (fun _ => .lzdClr) ∧
  ∀ s : State,
    (s.lzd.flt = 0#6 →
      exec .lzdClr s = .next { s with
        bu := { s.bu with width := 9#5 }
        lzd := { s.lzd with built := [], size := 257#24, w := 0#24, fresh := true }
        seq := .idle, rsp := some 0x00000000#32 }) ∧
    (s.lzd.flt ≠ 0#6 → exec .lzdClr s = .next { s with seq := .idle, rsp := some (responseWord (.failed s.lzd.flt)) })

/-! ## The LZW encoder (44_lzw_encoder.md) -/

/-- R96: the first byte, and a byte that extends the prefix to a known string, give no output. -/
def Obligations.LzeWriteExtendsThePrefix : Prop :=
  rowMeans 0x38#8 .b8 (fun opd => .lzeWr (operandB8 opd)) ∧
  ∀ (b : Byte) (s : State), s.lze.flt = 0#6 →
    (s.lze.hasw = false →
      exec (.lzeWr b) s = .next { s with
        lze := { s.lze with wseq := [b], hasw := true }, seq := .idle, rsp := some 0x00000000#32 }) ∧
    (s.lze.hasw = true → (lzeCode s.lze (s.lze.wseq ++ [b])).isSome = true →
      exec (.lzeWr b) s = .next { s with
        lze := { s.lze with wseq := s.lze.wseq ++ [b] }, seq := .idle, rsp := some 0x00000000#32 })

/-- R95, R96: a byte that makes a new string emits the code of w at the width in force, grows the width by the test on the size
before the insert, inserts the string under the next code, and becomes w. -/
def Obligations.LzeWriteEmitsACode : Prop :=
  ∀ (b : Byte) (s : State) (c : Code), s.settled → s.lze.flt = 0#6 → s.lze.hasw = true →
    lzeCode s.lze s.lze.wseq = some c → lzeCode s.lze (s.lze.wseq ++ [b]) = none → s.lze.size.toNat ≠ s.cfg.dictCap →
    ¬ (s.lze.size.toNat = 2 ^ s.bp.width.toNat - 1 ∧ s.bp.width = 24#5) → accepts (packedBytes s) s →
    exec (.lzeWr b) s = .next { afterWrite c s with
      bp := { (afterWrite c s).bp with
        width := if s.lze.size.toNat = 2 ^ s.bp.width.toNat - 1 then s.bp.width + 1#5 else s.bp.width }
      lze := { s.lze with
        built := s.lze.built ++ [(s.lze.wseq ++ [b], s.lze.size)], size := s.lze.size + 1#24, wseq := [b] }
      seq := .idle, rsp := some 0x00000000#32 }

/-- R96, R97, R98, 60_exceptions.md R115: the limits are checked before any output, DICT_OVERFLOW before WIDTH_OVERFLOW, and only the
latch changes. -/
def Obligations.LzeRefusesPastItsLimits : Prop :=
  ∀ (b : Byte) (s : State), s.lze.flt = 0#6 → s.lze.hasw = true →
    (lzeCode s.lze (s.lze.wseq ++ [b]) = none → s.lze.size.toNat = s.cfg.dictCap →
      exec (.lzeWr b) s = .next { s with lze := { s.lze with flt := 6#6 }, seq := .idle, rsp := some 0x46000000#32 }) ∧
    (s.lze.size.toNat = 2 ^ s.bp.width.toNat - 1 → s.bp.width = 24#5 →
      (lzeCode s.lze (s.lze.wseq ++ [b]) = none → s.lze.size.toNat ≠ s.cfg.dictCap →
        exec (.lzeWr b) s = .next { s with lze := { s.lze with flt := 5#6 }, seq := .idle, rsp := some 0x45000000#32 }) ∧
      exec .lzeClr s = .next { s with lze := { s.lze with flt := 5#6 }, seq := .idle, rsp := some 0x45000000#32 } ∧
      exec .lzeFlush s = .next { s with lze := { s.lze with flt := 5#6 }, seq := .idle, rsp := some 0x45000000#32 })

/-- R94, R97: code(w) if a prefix is held, the growth test, then the clear code at the width now in force, no padding; then a fresh
dictionary and width 9. -/
def Obligations.LzeClearWritesTheClearCode : Prop :=
  rowMeans 0x39#8 .none (fun _ => .lzeClr) ∧
  ∀ s : State, s.settled → s.lze.flt = 0#6 →
    (s.lze.hasw = false → accepts (packedBytes s) s →
      exec .lzeClr s = .next { afterWrite 0x100#24 s with
        bp := { (afterWrite 0x100#24 s).bp with width := 9#5 }
        lze := { built := [], size := 257#24, hasw := false, wseq := [], flt := 0#6 }
        seq := .idle, rsp := some 0x00000000#32 }) ∧
    (∀ c u, s.lze.hasw = true → lzeCode s.lze s.lze.wseq = some c →
      ¬ (s.lze.size.toNat = 2 ^ s.bp.width.toNat - 1 ∧ s.bp.width = 24#5) →
      u = { afterWrite c s with bp := { (afterWrite c s).bp with
        width := if s.lze.size.toNat = 2 ^ s.bp.width.toNat - 1 then s.bp.width + 1#5 else s.bp.width } } →
      accepts (packedBytes s + packedBytes u) s →
      exec .lzeClr s = .next { afterWrite 0x100#24 u with
        bp := { (afterWrite 0x100#24 u).bp with width := 9#5 }
        lze := { built := [], size := 257#24, hasw := false, wseq := [], flt := 0#6 }
        seq := .idle, rsp := some 0x00000000#32 })

/-- R94, R98: code(w) if a prefix is held, then the padding to a byte; then a fresh dictionary and width 9. -/
def Obligations.LzeFlushEndsTheStream : Prop :=
  rowMeans 0x3A#8 .none (fun _ => .lzeFlush) ∧
  ∀ s : State, s.settled → s.lze.flt = 0#6 →
    (s.lze.hasw = false → accepts (closingBytes s).length s →
      exec .lzeFlush s = .next { afterClose s with
        bp := { (afterClose s).bp with width := 9#5 }
        lze := { built := [], size := 257#24, hasw := false, wseq := [], flt := 0#6 }
        seq := .idle, rsp := some 0x00000000#32 }) ∧
    (∀ c u, s.lze.hasw = true → lzeCode s.lze s.lze.wseq = some c →
      ¬ (s.lze.size.toNat = 2 ^ s.bp.width.toNat - 1 ∧ s.bp.width = 24#5) → u = afterWrite c s →
      accepts (packedBytes s + (closingBytes u).length) s →
      exec .lzeFlush s = .next { afterClose u with
        bp := { (afterClose u).bp with width := 9#5 }
        lze := { built := [], size := 257#24, hasw := false, wseq := [], flt := 0#6 }
        seq := .idle, rsp := some 0x00000000#32 })

/-- 30_encoding.md R51 (the spec's own inference), 43_lzw_decoder.md R87, 44_lzw_encoder.md R95: while the host gives no width
command, both widths follow the dictionary sizes, before and after every command that answers. -/
def Obligations.WidthsFollowTheDictionarySizes : Prop :=
  ∀ (i : Instr) (s t : State),
    (match i with
      | .buSetw _ | .buIncw | .bpSetw _ | .bpIncw => False
      | _ => True) →
    s.settled → widthsFollow s → exec i s = .next t → t.seq = .idle → widthsFollow t

/-- R99 (the spec's own inference), R100: what the encoder writes for any bytes, with clears anywhere among them, the decoder reads
back exactly, with one END after it, if the encoder has met no fault. -/
def Obligations.LzwRoundTrip : Prop :=
  ∀ (c : Config) (x : List (Option Byte)) (rs : List Word) (t : State), c.legal →
    runCommands (x.map (fun o => o.elim .lzeClr .lzeWr) ++ [.lzeFlush]) (freshBlock c) = some (rs, t) →
    (∀ r ∈ rs, r = 0#32) →
    ∃ u, runCommands (List.replicate (x.reduceOption.length + 1) .lzdRd) (freshBlockReading c t.env.dout) =
      some (x.reduceOption.map (fun b => 0#24 ++ b) ++ [0x80000000#32], u)

/-! ## RLE (45_rle.md) -/

/-- R102: a pending repeat is returned before the source is touched, whatever the source. -/
def Obligations.RldReadReplaysTheRun : Prop :=
  rowMeans 0x40#8 .none (fun _ => .rldRd) ∧
  ∀ s : State, s.rld.flt = 0#6 → s.rld.rem ≠ 0#9 →
    exec .rldRd s = .next { s with
      rld := { s.rld with rem := s.rld.rem - 1#9 }, seq := .idle, rsp := some (0#24 ++ s.rld.rb) }

/-- R101, R102, 30_encoding.md R52: from DIN, a verbatim byte, an escape sequence of three bytes, the end at a sequence boundary,
the end inside a sequence, and the holds. -/
def Obligations.RldReadDecodesFromDin : Prop :=
  ∀ (s : State) (b r k : Byte) (rest : List Byte), s.rld.flt = 0#6 → s.rld.rem = 0#9 → s.rld.src = .din →
    (s.din.fifo = b :: rest → b ≠ s.rld.esc →
      exec .rldRd s = .next { s with din := { s.din with fifo := rest }, seq := .idle, rsp := some (0#24 ++ b) }) ∧
    (s.din.fifo = s.rld.esc :: r :: k :: rest →
      exec .rldRd s = .next { s with
        din := { s.din with fifo := rest }, rld := { s.rld with rb := r, rem := k.setWidth 9 }
        seq := .idle, rsp := some (0#24 ++ r) }) ∧
    (s.din.fifo = [] ∧ s.din.eof = true → exec .rldRd s = .next { s with seq := .idle, rsp := some 0x80000000#32 }) ∧
    ((s.din.fifo = [s.rld.esc] ∨ s.din.fifo = [s.rld.esc, r]) ∧ s.din.eof = true →
      exec .rldRd s = .next { s with
        din := { s.din with fifo := [] }, rld := { s.rld with flt := 4#6 }, seq := .idle, rsp := some 0x44000000#32 }) ∧
    (s.din.fifo = [] ∧ s.din.eof = false → exec .rldRd s = .next { s with seq := .holding .rldFirst }) ∧
    (s.din.fifo = [s.rld.esc] ∧ s.din.eof = false →
      exec .rldRd s = .next { s with din := { s.din with fifo := [] }, seq := .holding .rldRepeat }) ∧
    (s.din.fifo = [s.rld.esc, r] ∧ s.din.eof = false →
      exec .rldRd s = .next { s with din := { s.din with fifo := [] }, seq := .holding (.rldCount r) })

/-- R101, R102: through the LZW decoder, RLD_READ at a sequence boundary is the LZD_READ, its faults and its END included, but for
the escape byte: then two LZD_READs more give the repeated byte and the count. Where one of these holds, RLD_READ holds at it; where one
faults, the fault is latched in the LZW decoder and the RLE decoder's own elements keep their values; an END among them is
END_OF_DATA. -/
def Obligations.RldReadDecodesFromTheLzwDecoder : Prop :=
  ∀ s t : State, s.settled → s.rld.flt = 0#6 → s.rld.rem = 0#9 → s.rld.src = .lzd → exec .lzdRd s = .next t →
    (∀ h, t.seq = .holding h → exec .rldRd s = .next { t with seq := .holding .rldFirst }) ∧
    (t.seq = .idle → t.rsp ≠ some (0#24 ++ s.rld.esc) → exec .rldRd s = .next t ∧ t.rld = s.rld) ∧
    (∀ u, t.seq = .idle → t.rsp = some (0#24 ++ s.rld.esc) → exec .lzdRd t = .next u →
      (∀ h, u.seq = .holding h → exec .rldRd s = .next { u with seq := .holding .rldRepeat, rsp := s.rsp }) ∧
      (u.seq = .idle → u.rsp = some 0x80000000#32 →
        exec .rldRd s = .next { u with rld := { s.rld with flt := 4#6 }, rsp := some 0x44000000#32 }) ∧
      (∀ c, u.seq = .idle → u.rsp = some (responseWord (.failed c)) →
        exec .rldRd s = .next u ∧ u.lzd.flt = c ∧ u.rld = s.rld) ∧
      (∀ r v, u.seq = .idle → u.rsp = some (0#24 ++ r) → exec .lzdRd u = .next v →
        (∀ h, v.seq = .holding h → exec .rldRd s = .next { v with seq := .holding (.rldCount r), rsp := s.rsp }) ∧
        (v.seq = .idle → v.rsp = some 0x80000000#32 →
          exec .rldRd s = .next { v with rld := { s.rld with flt := 4#6 }, rsp := some 0x44000000#32 }) ∧
        (∀ c, v.seq = .idle → v.rsp = some (responseWord (.failed c)) →
          exec .rldRd s = .next v ∧ v.lzd.flt = c ∧ v.rld = s.rld) ∧
        (∀ k : Byte, v.seq = .idle → v.rsp = some (0#24 ++ k) →
          exec .rldRd s = .next { v with rld := { s.rld with rb := r, rem := k.setWidth 9 }, rsp := some (0#24 ++ r) })))

/-- R103, R104, R105: the escape byte, the pending repeat and the byte source; each fails with the latched code while one is. -/
def Obligations.RldSettingsAreSet : Prop :=
  rowMeans 0x41#8 .b8 (fun opd => .rldEsc (operandB8 opd)) ∧ rowMeans 0x42#8 .none (fun _ => .rldRst) ∧
  rowMeans 0x43#8 .s1 (fun opd => .rldSrc (operandS1 opd)) ∧
  ∀ (s : State) (e : Byte) (b : BitVec 1),
    (s.rld.flt = 0#6 →
      exec (.rldEsc e) s = .next { s with rld := { s.rld with esc := e }, seq := .idle, rsp := some 0x00000000#32 } ∧
      exec .rldRst s = .next { s with rld := { s.rld with rem := 0#9, rb := 0#8 }, seq := .idle, rsp := some 0x00000000#32 } ∧
      exec (.rldSrc 0#1) s = .next { s with rld := { s.rld with src := .din }, seq := .idle, rsp := some 0x00000000#32 } ∧
      exec (.rldSrc 1#1) s = .next { s with rld := { s.rld with src := .lzd }, seq := .idle, rsp := some 0x00000000#32 }) ∧
    (s.rld.flt ≠ 0#6 →
      ∀ i ∈ [.rldEsc e, .rldRst, .rldSrc b],
        exec i s = .next { s with seq := .idle, rsp := some (responseWord (.failed s.rld.flt)) })

/-- R106, R107: an equal byte makes the run longer, and the 256th writes it at once; another byte writes the buffered run and starts
its own. Where the host accepts only `n` of the bytes, it holds after them. -/
def Obligations.RleWriteBuffersARun : Prop :=
  rowMeans 0x48#8 .b8 (fun opd => .rleWr (operandB8 opd)) ∧
  ∀ (b : Byte) (s : State), s.rle.len.toNat ≤ 255 →
    (s.rle.len ≠ 0#9 → b = s.rle.rb → s.rle.len.toNat < 255 →
      exec (.rleWr b) s = .next { s with
        rle := { s.rle with len := s.rle.len + 1#9 }, seq := .idle, rsp := some 0x00000000#32 }) ∧
    (b = s.rle.rb → s.rle.len.toNat = 255 → accepts 3 s →
      exec (.rleWr b) s = .next { handedOver [s.rle.esc, b, 0xFF#8] s with
        rle := { s.rle with len := 0#9 }, seq := .idle, rsp := some 0x00000000#32 }) ∧
    (s.rle.len = 0#9 ∨ b ≠ s.rle.rb → accepts (rleRunBytes s.rle).length s →
      exec (.rleWr b) s = .next { handedOver (rleRunBytes s.rle) s with
        rle := { s.rle with rb := b, len := 1#9 }, seq := .idle, rsp := some 0x00000000#32 }) ∧
    (∀ n, s.env.ready = .count n →
      (b = s.rle.rb → s.rle.len.toNat = 255 → n < 3 →
        exec (.rleWr b) s = .next { handedOver ([s.rle.esc, b, 0xFF#8].take n) s with
          rle := { s.rle with len := 256#9 }, seq := .holding (.rleFull ([s.rle.esc, b, 0xFF#8].drop n)) }) ∧
      (s.rle.len = 0#9 ∨ b ≠ s.rle.rb → n < (rleRunBytes s.rle).length →
        exec (.rleWr b) s = .next { handedOver ((rleRunBytes s.rle).take n) s with
          seq := .holding (.rleNew b ((rleRunBytes s.rle).drop n)) }))

/-- R106, R108, R109: the buffered run is written, nothing for no run, a lone byte other than the escape byte as it is, every other
run as an escape sequence; RLE_SETESC writes it under the old escape byte. Where the host accepts only `n` of the bytes, it holds
after them. -/
def Obligations.RleFlushAndSetEscapeWriteTheRun : Prop :=
  rowMeans 0x49#8 .none (fun _ => .rleFlush) ∧ rowMeans 0x4A#8 .b8 (fun opd => .rleEsc (operandB8 opd)) ∧
  ∀ (s : State) (e : Byte) (bytes : List Byte),
    (s.rle.len = 0#9 ∧ bytes = []) ∨ (s.rle.len = 1#9 ∧ s.rle.rb ≠ s.rle.esc ∧ bytes = [s.rle.rb]) ∨
      (s.rle.len ≠ 0#9 ∧ (s.rle.len = 1#9 → s.rle.rb = s.rle.esc) ∧
        bytes = [s.rle.esc, s.rle.rb, BitVec.ofNat 8 (s.rle.len.toNat - 1)]) →
    (accepts bytes.length s →
      exec .rleFlush s = .next { handedOver bytes s with
        rle := { s.rle with len := 0#9 }, seq := .idle, rsp := some 0x00000000#32 } ∧
      exec (.rleEsc e) s = .next { handedOver bytes s with
        rle := { s.rle with len := 0#9, esc := e }, seq := .idle, rsp := some 0x00000000#32 }) ∧
    (∀ n, s.env.ready = .count n → n < bytes.length →
      exec .rleFlush s = .next { handedOver (bytes.take n) s with seq := .holding (.rleFlush (bytes.drop n)) } ∧
      exec (.rleEsc e) s = .next { handedOver (bytes.take n) s with seq := .holding (.rleSetEsc e (bytes.drop n)) })

/-- R110 (the spec's own inference): what the RLE encoder writes for any bytes under any escape byte, the RLE decoder reads back,
with one END after it. -/
def Obligations.RleRoundTrip : Prop :=
  ∀ (c : Config) (e : Byte) (x : List Byte), ∃ t u,
    runCommands (.rleEsc e :: x.map .rleWr ++ [.rleFlush]) (freshBlock c) = some (List.replicate (x.length + 2) 0#32, t) ∧
    runCommands (.rldEsc e :: List.replicate (x.length + 1) .rldRd) (freshBlockReading c t.env.dout) =
      some (0#32 :: x.map (fun b => 0#24 ++ b) ++ [0x80000000#32], u)

/-! ## Faults, frames and invariants of the whole machine -/

/-- 60_exceptions.md R114, R115: while a unit's fault is latched, each of its commands fails at once with the same code and changes
nothing else; RLD_READ also when it reaches a latched LZW decoder. -/
def Obligations.LatchedUnitsRefuseTheirCommands : Prop :=
  ∀ (s : State) (b : Byte) (sel : BitVec 1),
    (s.lzd.flt ≠ 0#6 → ∀ i ∈ [.lzdRd, .lzdClr],
      exec i s = .next { s with seq := .idle, rsp := some (responseWord (.failed s.lzd.flt)) }) ∧
    (s.lze.flt ≠ 0#6 → ∀ i ∈ [.lzeWr b, .lzeClr, .lzeFlush],
      exec i s = .next { s with seq := .idle, rsp := some (responseWord (.failed s.lze.flt)) }) ∧
    (s.rld.flt ≠ 0#6 → ∀ i ∈ [.rldRd, .rldEsc b, .rldRst, .rldSrc sel],
      exec i s = .next { s with seq := .idle, rsp := some (responseWord (.failed s.rld.flt)) }) ∧
    (s.rld.flt = 0#6 → s.rld.rem = 0#9 → s.rld.src = .lzd → s.lzd.flt ≠ 0#6 →
      exec .rldRd s = .next { s with seq := .idle, rsp := some (responseWord (.failed s.lzd.flt)) })

/-- 10_state.md R17-R24, R83 of 42_bitstream.md: each element is written only by the commands its table names, and no command but the
three reads and RESET touches DIN. -/
def Obligations.ElementsChangeOnlyUnderTheirCommands : Prop :=
  ∀ (i : Instr) (s t : State), exec i s = .next t →
    t.cfg = s.cfg ∧ t.env.agenda = s.env.agenda ∧ t.env.taken = s.env.taken ∧
    (match i with | .crcRst | .crcUpd _ | .reset => True | _ => t.crc = s.crc) ∧
    (match i with
      | .buSetw _ | .buIncw | .lzdRd | .lzdClr | .reset => True
      | .rldRd => s.rld.src = .lzd ∨ t.bu.width = s.bu.width
      | _ => t.bu.width = s.bu.width) ∧
    (match i with
      | .buRd | .buClr | .lzdRd | .reset => True
      | .rldRd => s.rld.src = .lzd ∨ (t.bu.acc = s.bu.acc ∧ t.bu.cnt = s.bu.cnt)
      | _ => t.bu.acc = s.bu.acc ∧ t.bu.cnt = s.bu.cnt) ∧
    (match i with
      | .bpSetw _ | .bpIncw | .lzeWr _ | .lzeClr | .lzeFlush | .reset => True
      | _ => t.bp.width = s.bp.width) ∧
    (match i with
      | .bpWr _ | .bpClose | .lzeWr _ | .lzeClr | .lzeFlush | .reset => True
      | _ => t.bp.acc = s.bp.acc ∧ t.bp.cnt = s.bp.cnt) ∧
    (match i with
      | .lzdRd | .lzdClr | .reset => True
      | .rldRd => s.rld.src = .lzd ∨ t.lzd = s.lzd
      | _ => t.lzd = s.lzd) ∧
    (match i with | .lzeWr _ | .lzeClr | .lzeFlush | .reset => True | _ => t.lze = s.lze) ∧
    (match i with | .rldRd | .rldEsc _ | .rldRst | .rldSrc _ | .reset => True | _ => t.rld = s.rld) ∧
    (match i with | .rleWr _ | .rleFlush | .rleEsc _ | .reset => True | _ => t.rle = s.rle) ∧
    (match i with
      | .reset => True
      | .buRd | .lzdRd | .rldRd => t.din.eof = s.din.eof ∧ ∃ k, t.din.fifo = s.din.fifo.drop k
      | _ => t.din = s.din) ∧
    (match i with
      | .regRd _ | .buSetw _ | .buIncw | .bpSetw _ | .bpIncw | .reset => True
      | _ => t.cmdErr = s.cmdErr) ∧
    (match i with
      | .bpWr _ | .bpClose | .lzeWr _ | .lzeClr | .lzeFlush | .rleWr _ | .rleFlush | .rleEsc _ => True
      | _ => t.env.dout = s.env.dout ∧ t.env.ready = s.env.ready)

/-- 10_state.md R24, 20_memory.md R30, 60_exceptions.md R113, R114: CMDERR, EOF and every latch stay as they are once set, step by
step, until a reset. -/
def Obligations.OnlyResetClearsErrorsAndEof : Prop :=
  ∀ s t : State, s.legal → step s = .next t →
    (∀ rest, s.env.agenda ≠ .resetSignal :: rest) → s.seq ≠ .arrived 0x01000000#32 →
    (s.cmdErr = true → t.cmdErr = true) ∧ (s.din.eof = true → t.din.eof = true) ∧
    (s.lzd.flt ≠ 0#6 → t.lzd.flt = s.lzd.flt) ∧ (s.lze.flt ≠ 0#6 → t.lze.flt = s.lze.flt) ∧
    (s.rld.flt ≠ 0#6 → t.rld.flt = s.rld.flt)

/-- 10_state.md R17-R24, R28 (the spec's own inference): the reset state is legal. Its parameters are the model's choice (logs 5,
6). -/
def Obligations.ResetStateIsLegal : Prop := State.reset.legal

/-- 10_state.md R17-R24, R28 (the spec's own inference), 60_exceptions.md R111, R112: every step from a legal state leaves a legal
state: legal values, dictionaries that grow by one byte at a time, no stray bits, and the points where a command may hold. -/
def Obligations.StepKeepsTheStateLegal : Prop := ∀ s t : State, s.legal → step s = .next t → t.legal

/-- 60_exceptions.md R112, R116, 40_control.md R65: no step from a legal state stops: the block's errors are responses, and a hang is
a state that stays. The model's own faults are raised only in states the spec excludes (log 8). -/
def Obligations.LegalStatesNeverStop : Prop := ∀ s : State, s.legal → ∃ t, step s = .next t
end

