-- ==== Sys2Proof/Laws/State.lean ====
section
/-! SUPPORT. One lemma per field per named update of the state. -/

namespace Sys2Proof.Machine

/-! ### `setCrc` -/

section
variable (s : State) (v : BitVec 16)

@[simp] theorem State.setCrc_cfg : (s.setCrc v).cfg = s.cfg := rfl
@[simp] theorem State.setCrc_crc : (s.setCrc v).crc = v := rfl
@[simp] theorem State.setCrc_bu : (s.setCrc v).bu = s.bu := rfl
@[simp] theorem State.setCrc_bp : (s.setCrc v).bp = s.bp := rfl
@[simp] theorem State.setCrc_lzd : (s.setCrc v).lzd = s.lzd := rfl
@[simp] theorem State.setCrc_lze : (s.setCrc v).lze = s.lze := rfl
@[simp] theorem State.setCrc_rld : (s.setCrc v).rld = s.rld := rfl
@[simp] theorem State.setCrc_rle : (s.setCrc v).rle = s.rle := rfl
@[simp] theorem State.setCrc_din : (s.setCrc v).din = s.din := rfl
@[simp] theorem State.setCrc_cmdErr : (s.setCrc v).cmdErr = s.cmdErr := rfl
@[simp] theorem State.setCrc_seq : (s.setCrc v).seq = s.seq := rfl
@[simp] theorem State.setCrc_rsp : (s.setCrc v).rsp = s.rsp := rfl
@[simp] theorem State.setCrc_env : (s.setCrc v).env = s.env := rfl

/-- Writing back what stands there changes nothing. -/
@[simp] theorem State.setCrc_self : s.setCrc s.crc = s := rfl

@[simp] theorem State.setCrc_setCrc (v' : BitVec 16) : (s.setCrc v).setCrc v' = s.setCrc v' := rfl

end

/-! ### `setBu` -/

section
variable (s : State) (v : Bu)

@[simp] theorem State.setBu_cfg : (s.setBu v).cfg = s.cfg := rfl
@[simp] theorem State.setBu_crc : (s.setBu v).crc = s.crc := rfl
@[simp] theorem State.setBu_bu : (s.setBu v).bu = v := rfl
@[simp] theorem State.setBu_bp : (s.setBu v).bp = s.bp := rfl
@[simp] theorem State.setBu_lzd : (s.setBu v).lzd = s.lzd := rfl
@[simp] theorem State.setBu_lze : (s.setBu v).lze = s.lze := rfl
@[simp] theorem State.setBu_rld : (s.setBu v).rld = s.rld := rfl
@[simp] theorem State.setBu_rle : (s.setBu v).rle = s.rle := rfl
@[simp] theorem State.setBu_din : (s.setBu v).din = s.din := rfl
@[simp] theorem State.setBu_cmdErr : (s.setBu v).cmdErr = s.cmdErr := rfl
@[simp] theorem State.setBu_seq : (s.setBu v).seq = s.seq := rfl
@[simp] theorem State.setBu_rsp : (s.setBu v).rsp = s.rsp := rfl
@[simp] theorem State.setBu_env : (s.setBu v).env = s.env := rfl

/-- Writing back what stands there changes nothing. -/
@[simp] theorem State.setBu_self : s.setBu s.bu = s := rfl

@[simp] theorem State.setBu_setBu (v' : Bu) : (s.setBu v).setBu v' = s.setBu v' := rfl

end

/-! ### `setBp` -/

section
variable (s : State) (v : Bp)

@[simp] theorem State.setBp_cfg : (s.setBp v).cfg = s.cfg := rfl
@[simp] theorem State.setBp_crc : (s.setBp v).crc = s.crc := rfl
@[simp] theorem State.setBp_bu : (s.setBp v).bu = s.bu := rfl
@[simp] theorem State.setBp_bp : (s.setBp v).bp = v := rfl
@[simp] theorem State.setBp_lzd : (s.setBp v).lzd = s.lzd := rfl
@[simp] theorem State.setBp_lze : (s.setBp v).lze = s.lze := rfl
@[simp] theorem State.setBp_rld : (s.setBp v).rld = s.rld := rfl
@[simp] theorem State.setBp_rle : (s.setBp v).rle = s.rle := rfl
@[simp] theorem State.setBp_din : (s.setBp v).din = s.din := rfl
@[simp] theorem State.setBp_cmdErr : (s.setBp v).cmdErr = s.cmdErr := rfl
@[simp] theorem State.setBp_seq : (s.setBp v).seq = s.seq := rfl
@[simp] theorem State.setBp_rsp : (s.setBp v).rsp = s.rsp := rfl
@[simp] theorem State.setBp_env : (s.setBp v).env = s.env := rfl

/-- Writing back what stands there changes nothing. -/
@[simp] theorem State.setBp_self : s.setBp s.bp = s := rfl

@[simp] theorem State.setBp_setBp (v' : Bp) : (s.setBp v).setBp v' = s.setBp v' := rfl

end

/-! ### `setLzd` -/

section
variable (s : State) (v : Lzd)

@[simp] theorem State.setLzd_cfg : (s.setLzd v).cfg = s.cfg := rfl
@[simp] theorem State.setLzd_crc : (s.setLzd v).crc = s.crc := rfl
@[simp] theorem State.setLzd_bu : (s.setLzd v).bu = s.bu := rfl
@[simp] theorem State.setLzd_bp : (s.setLzd v).bp = s.bp := rfl
@[simp] theorem State.setLzd_lzd : (s.setLzd v).lzd = v := rfl
@[simp] theorem State.setLzd_lze : (s.setLzd v).lze = s.lze := rfl
@[simp] theorem State.setLzd_rld : (s.setLzd v).rld = s.rld := rfl
@[simp] theorem State.setLzd_rle : (s.setLzd v).rle = s.rle := rfl
@[simp] theorem State.setLzd_din : (s.setLzd v).din = s.din := rfl
@[simp] theorem State.setLzd_cmdErr : (s.setLzd v).cmdErr = s.cmdErr := rfl
@[simp] theorem State.setLzd_seq : (s.setLzd v).seq = s.seq := rfl
@[simp] theorem State.setLzd_rsp : (s.setLzd v).rsp = s.rsp := rfl
@[simp] theorem State.setLzd_env : (s.setLzd v).env = s.env := rfl

/-- Writing back what stands there changes nothing. -/
@[simp] theorem State.setLzd_self : s.setLzd s.lzd = s := rfl

@[simp] theorem State.setLzd_setLzd (v' : Lzd) : (s.setLzd v).setLzd v' = s.setLzd v' := rfl

end

/-! ### `setLze` -/

section
variable (s : State) (v : Lze)

@[simp] theorem State.setLze_cfg : (s.setLze v).cfg = s.cfg := rfl
@[simp] theorem State.setLze_crc : (s.setLze v).crc = s.crc := rfl
@[simp] theorem State.setLze_bu : (s.setLze v).bu = s.bu := rfl
@[simp] theorem State.setLze_bp : (s.setLze v).bp = s.bp := rfl
@[simp] theorem State.setLze_lzd : (s.setLze v).lzd = s.lzd := rfl
@[simp] theorem State.setLze_lze : (s.setLze v).lze = v := rfl
@[simp] theorem State.setLze_rld : (s.setLze v).rld = s.rld := rfl
@[simp] theorem State.setLze_rle : (s.setLze v).rle = s.rle := rfl
@[simp] theorem State.setLze_din : (s.setLze v).din = s.din := rfl
@[simp] theorem State.setLze_cmdErr : (s.setLze v).cmdErr = s.cmdErr := rfl
@[simp] theorem State.setLze_seq : (s.setLze v).seq = s.seq := rfl
@[simp] theorem State.setLze_rsp : (s.setLze v).rsp = s.rsp := rfl
@[simp] theorem State.setLze_env : (s.setLze v).env = s.env := rfl

/-- Writing back what stands there changes nothing. -/
@[simp] theorem State.setLze_self : s.setLze s.lze = s := rfl

@[simp] theorem State.setLze_setLze (v' : Lze) : (s.setLze v).setLze v' = s.setLze v' := rfl

end

/-! ### `setRld` -/

section
variable (s : State) (v : Rld)

@[simp] theorem State.setRld_cfg : (s.setRld v).cfg = s.cfg := rfl
@[simp] theorem State.setRld_crc : (s.setRld v).crc = s.crc := rfl
@[simp] theorem State.setRld_bu : (s.setRld v).bu = s.bu := rfl
@[simp] theorem State.setRld_bp : (s.setRld v).bp = s.bp := rfl
@[simp] theorem State.setRld_lzd : (s.setRld v).lzd = s.lzd := rfl
@[simp] theorem State.setRld_lze : (s.setRld v).lze = s.lze := rfl
@[simp] theorem State.setRld_rld : (s.setRld v).rld = v := rfl
@[simp] theorem State.setRld_rle : (s.setRld v).rle = s.rle := rfl
@[simp] theorem State.setRld_din : (s.setRld v).din = s.din := rfl
@[simp] theorem State.setRld_cmdErr : (s.setRld v).cmdErr = s.cmdErr := rfl
@[simp] theorem State.setRld_seq : (s.setRld v).seq = s.seq := rfl
@[simp] theorem State.setRld_rsp : (s.setRld v).rsp = s.rsp := rfl
@[simp] theorem State.setRld_env : (s.setRld v).env = s.env := rfl

/-- Writing back what stands there changes nothing. -/
@[simp] theorem State.setRld_self : s.setRld s.rld = s := rfl

@[simp] theorem State.setRld_setRld (v' : Rld) : (s.setRld v).setRld v' = s.setRld v' := rfl

end

/-! ### `setRle` -/

section
variable (s : State) (v : Rle)

@[simp] theorem State.setRle_cfg : (s.setRle v).cfg = s.cfg := rfl
@[simp] theorem State.setRle_crc : (s.setRle v).crc = s.crc := rfl
@[simp] theorem State.setRle_bu : (s.setRle v).bu = s.bu := rfl
@[simp] theorem State.setRle_bp : (s.setRle v).bp = s.bp := rfl
@[simp] theorem State.setRle_lzd : (s.setRle v).lzd = s.lzd := rfl
@[simp] theorem State.setRle_lze : (s.setRle v).lze = s.lze := rfl
@[simp] theorem State.setRle_rld : (s.setRle v).rld = s.rld := rfl
@[simp] theorem State.setRle_rle : (s.setRle v).rle = v := rfl
@[simp] theorem State.setRle_din : (s.setRle v).din = s.din := rfl
@[simp] theorem State.setRle_cmdErr : (s.setRle v).cmdErr = s.cmdErr := rfl
@[simp] theorem State.setRle_seq : (s.setRle v).seq = s.seq := rfl
@[simp] theorem State.setRle_rsp : (s.setRle v).rsp = s.rsp := rfl
@[simp] theorem State.setRle_env : (s.setRle v).env = s.env := rfl

/-- Writing back what stands there changes nothing. -/
@[simp] theorem State.setRle_self : s.setRle s.rle = s := rfl

@[simp] theorem State.setRle_setRle (v' : Rle) : (s.setRle v).setRle v' = s.setRle v' := rfl

end

/-! ### `setDin` -/

section
variable (s : State) (v : Din)

@[simp] theorem State.setDin_cfg : (s.setDin v).cfg = s.cfg := rfl
@[simp] theorem State.setDin_crc : (s.setDin v).crc = s.crc := rfl
@[simp] theorem State.setDin_bu : (s.setDin v).bu = s.bu := rfl
@[simp] theorem State.setDin_bp : (s.setDin v).bp = s.bp := rfl
@[simp] theorem State.setDin_lzd : (s.setDin v).lzd = s.lzd := rfl
@[simp] theorem State.setDin_lze : (s.setDin v).lze = s.lze := rfl
@[simp] theorem State.setDin_rld : (s.setDin v).rld = s.rld := rfl
@[simp] theorem State.setDin_rle : (s.setDin v).rle = s.rle := rfl
@[simp] theorem State.setDin_din : (s.setDin v).din = v := rfl
@[simp] theorem State.setDin_cmdErr : (s.setDin v).cmdErr = s.cmdErr := rfl
@[simp] theorem State.setDin_seq : (s.setDin v).seq = s.seq := rfl
@[simp] theorem State.setDin_rsp : (s.setDin v).rsp = s.rsp := rfl
@[simp] theorem State.setDin_env : (s.setDin v).env = s.env := rfl

/-- Writing back what stands there changes nothing. -/
@[simp] theorem State.setDin_self : s.setDin s.din = s := rfl

@[simp] theorem State.setDin_setDin (v' : Din) : (s.setDin v).setDin v' = s.setDin v' := rfl

end

/-! ### `setCmdErr` -/

section
variable (s : State) (v : Bool)

@[simp] theorem State.setCmdErr_cfg : (s.setCmdErr v).cfg = s.cfg := rfl
@[simp] theorem State.setCmdErr_crc : (s.setCmdErr v).crc = s.crc := rfl
@[simp] theorem State.setCmdErr_bu : (s.setCmdErr v).bu = s.bu := rfl
@[simp] theorem State.setCmdErr_bp : (s.setCmdErr v).bp = s.bp := rfl
@[simp] theorem State.setCmdErr_lzd : (s.setCmdErr v).lzd = s.lzd := rfl
@[simp] theorem State.setCmdErr_lze : (s.setCmdErr v).lze = s.lze := rfl
@[simp] theorem State.setCmdErr_rld : (s.setCmdErr v).rld = s.rld := rfl
@[simp] theorem State.setCmdErr_rle : (s.setCmdErr v).rle = s.rle := rfl
@[simp] theorem State.setCmdErr_din : (s.setCmdErr v).din = s.din := rfl
@[simp] theorem State.setCmdErr_cmdErr : (s.setCmdErr v).cmdErr = v := rfl
@[simp] theorem State.setCmdErr_seq : (s.setCmdErr v).seq = s.seq := rfl
@[simp] theorem State.setCmdErr_rsp : (s.setCmdErr v).rsp = s.rsp := rfl
@[simp] theorem State.setCmdErr_env : (s.setCmdErr v).env = s.env := rfl

/-- Writing back what stands there changes nothing. -/
@[simp] theorem State.setCmdErr_self : s.setCmdErr s.cmdErr = s := rfl

@[simp] theorem State.setCmdErr_setCmdErr (v' : Bool) : (s.setCmdErr v).setCmdErr v' = s.setCmdErr v' := rfl

end

/-! ### `setSeq` -/

section
variable (s : State) (v : Sequencer)

@[simp] theorem State.setSeq_cfg : (s.setSeq v).cfg = s.cfg := rfl
@[simp] theorem State.setSeq_crc : (s.setSeq v).crc = s.crc := rfl
@[simp] theorem State.setSeq_bu : (s.setSeq v).bu = s.bu := rfl
@[simp] theorem State.setSeq_bp : (s.setSeq v).bp = s.bp := rfl
@[simp] theorem State.setSeq_lzd : (s.setSeq v).lzd = s.lzd := rfl
@[simp] theorem State.setSeq_lze : (s.setSeq v).lze = s.lze := rfl
@[simp] theorem State.setSeq_rld : (s.setSeq v).rld = s.rld := rfl
@[simp] theorem State.setSeq_rle : (s.setSeq v).rle = s.rle := rfl
@[simp] theorem State.setSeq_din : (s.setSeq v).din = s.din := rfl
@[simp] theorem State.setSeq_cmdErr : (s.setSeq v).cmdErr = s.cmdErr := rfl
@[simp] theorem State.setSeq_seq : (s.setSeq v).seq = v := rfl
@[simp] theorem State.setSeq_rsp : (s.setSeq v).rsp = s.rsp := rfl
@[simp] theorem State.setSeq_env : (s.setSeq v).env = s.env := rfl

/-- Writing back what stands there changes nothing. -/
@[simp] theorem State.setSeq_self : s.setSeq s.seq = s := rfl

@[simp] theorem State.setSeq_setSeq (v' : Sequencer) : (s.setSeq v).setSeq v' = s.setSeq v' := rfl

end

/-! ### `setRsp` -/

section
variable (s : State) (v : Option Word)

@[simp] theorem State.setRsp_cfg : (s.setRsp v).cfg = s.cfg := rfl
@[simp] theorem State.setRsp_crc : (s.setRsp v).crc = s.crc := rfl
@[simp] theorem State.setRsp_bu : (s.setRsp v).bu = s.bu := rfl
@[simp] theorem State.setRsp_bp : (s.setRsp v).bp = s.bp := rfl
@[simp] theorem State.setRsp_lzd : (s.setRsp v).lzd = s.lzd := rfl
@[simp] theorem State.setRsp_lze : (s.setRsp v).lze = s.lze := rfl
@[simp] theorem State.setRsp_rld : (s.setRsp v).rld = s.rld := rfl
@[simp] theorem State.setRsp_rle : (s.setRsp v).rle = s.rle := rfl
@[simp] theorem State.setRsp_din : (s.setRsp v).din = s.din := rfl
@[simp] theorem State.setRsp_cmdErr : (s.setRsp v).cmdErr = s.cmdErr := rfl
@[simp] theorem State.setRsp_seq : (s.setRsp v).seq = s.seq := rfl
@[simp] theorem State.setRsp_rsp : (s.setRsp v).rsp = v := rfl
@[simp] theorem State.setRsp_env : (s.setRsp v).env = s.env := rfl

/-- Writing back what stands there changes nothing. -/
@[simp] theorem State.setRsp_self : s.setRsp s.rsp = s := rfl

@[simp] theorem State.setRsp_setRsp (v' : Option Word) : (s.setRsp v).setRsp v' = s.setRsp v' := rfl

end

/-! ### `setEnv` -/

section
variable (s : State) (v : HostSide)

@[simp] theorem State.setEnv_cfg : (s.setEnv v).cfg = s.cfg := rfl
@[simp] theorem State.setEnv_crc : (s.setEnv v).crc = s.crc := rfl
@[simp] theorem State.setEnv_bu : (s.setEnv v).bu = s.bu := rfl
@[simp] theorem State.setEnv_bp : (s.setEnv v).bp = s.bp := rfl
@[simp] theorem State.setEnv_lzd : (s.setEnv v).lzd = s.lzd := rfl
@[simp] theorem State.setEnv_lze : (s.setEnv v).lze = s.lze := rfl
@[simp] theorem State.setEnv_rld : (s.setEnv v).rld = s.rld := rfl
@[simp] theorem State.setEnv_rle : (s.setEnv v).rle = s.rle := rfl
@[simp] theorem State.setEnv_din : (s.setEnv v).din = s.din := rfl
@[simp] theorem State.setEnv_cmdErr : (s.setEnv v).cmdErr = s.cmdErr := rfl
@[simp] theorem State.setEnv_seq : (s.setEnv v).seq = s.seq := rfl
@[simp] theorem State.setEnv_rsp : (s.setEnv v).rsp = s.rsp := rfl
@[simp] theorem State.setEnv_env : (s.setEnv v).env = v := rfl

/-- Writing back what stands there changes nothing. -/
@[simp] theorem State.setEnv_self : s.setEnv s.env = s := rfl

@[simp] theorem State.setEnv_setEnv (v' : HostSide) : (s.setEnv v).setEnv v' = s.setEnv v' := rfl

end

end Sys2Proof.Machine
end

