-- ==== Sys2Proof/Laws/Ops.lean ====
section
/-! SUPPORT. What each shared operation of Machine/Ops.lean can do, said once. -/

namespace Sys2Proof.Machine

/-! ## Ending a command -/

theorem respond_next {r : Response} {s t : State} : respond r s = .next t ↔ t = answered r s := by
  simp only [respond, Host.Outcome.next.injEq]
  exact eq_comm

theorem holdAt_next {h : Hold} {s t : State} : holdAt h s = .next t ↔ t = s.setSeq (.holding h) := by
  simp only [holdAt, Host.Outcome.next.injEq]
  exact eq_comm

section
variable (r : Response) (s : State)

@[simp] theorem answered_cfg : (answered r s).cfg = s.cfg := rfl
@[simp] theorem answered_crc : (answered r s).crc = s.crc := rfl
@[simp] theorem answered_bu : (answered r s).bu = s.bu := rfl
@[simp] theorem answered_bp : (answered r s).bp = s.bp := rfl
@[simp] theorem answered_lzd : (answered r s).lzd = s.lzd := rfl
@[simp] theorem answered_lze : (answered r s).lze = s.lze := rfl
@[simp] theorem answered_rld : (answered r s).rld = s.rld := rfl
@[simp] theorem answered_rle : (answered r s).rle = s.rle := rfl
@[simp] theorem answered_din : (answered r s).din = s.din := rfl
@[simp] theorem answered_cmdErr : (answered r s).cmdErr = s.cmdErr := rfl
@[simp] theorem answered_env : (answered r s).env = s.env := rfl
@[simp] theorem answered_seq : (answered r s).seq = .idle := rfl
@[simp] theorem answered_rsp : (answered r s).rsp = some (responseWord r) := rfl

end

/-- A raised fault latches again what is latched: the state is as it was but for the response (R114). -/
theorem latchFault_faultField (u : FaultUnit) (s : State) : latchFault u (faultField u s) s = s := by
  cases u <;> rfl

/-- A command of a latched unit fails with the latched code and changes nothing else (R114). -/
theorem unlessLatched_of_latched {u : FaultUnit} {s : State} (command : Result)
    (h : latched (faultField u s) = true) :
    unlessLatched u s command = respond (.failed (faultField u s)) s := by
  simp [unlessLatched, h, raiseUnitFault, latchFault_faultField]

theorem unlessLatched_of_clear {u : FaultUnit} {s : State} (command : Result) (h : faultField u s = 0#6) :
    unlessLatched u s command = command := by
  simp [unlessLatched, latched, h]

theorem latched_eq_false {f : FaultBits} : latched f = false ↔ f = 0#6 := by simp [latched]

theorem latched_eq_true {f : FaultBits} : latched f = true ↔ f ≠ 0#6 := by simp [latched]

/-! ## Reset -/

/-- `ApplyReset` leaves the block as it is at reset, and the parameters, the sequencer, the response port and the host's side as
they were (R119). -/
theorem applyReset_eq (s : State) :
    applyReset s = { State.reset with cfg := s.cfg, seq := s.seq, rsp := s.rsp, env := s.env } := rfl

/-! ## Input -/

theorem dinPull_got {s t : State} {b : Byte} :
    dinPull s = .got b t ↔ ∃ rest, s.din.fifo = b :: rest ∧ t = s.setDin { s.din with fifo := rest } := by
  unfold dinPull
  cases hf : s.din.fifo with
  | nil => cases s.din.eof <;> simp
  | cons c rest =>
    simp only [Supply.got.injEq, List.cons.injEq]
    constructor
    · rintro ⟨rfl, rfl⟩; exact ⟨rest, ⟨rfl, rfl⟩, rfl⟩
    · rintro ⟨r, ⟨rfl, rfl⟩, rfl⟩; exact ⟨rfl, rfl⟩

theorem dinPull_cons {s : State} {b : Byte} {rest : List Byte} (h : s.din.fifo = b :: rest) :
    dinPull s = .got b (s.setDin { s.din with fifo := rest }) := by simp [dinPull, h]

theorem dinPull_eod {s : State} (h : s.din.fifo = []) (he : s.din.eof = true) : dinPull s = .eod s := by
  simp [dinPull, h, he]

theorem dinPull_waits {s : State} (h : s.din.fifo = []) (he : s.din.eof = false) : dinPull s = .waits s := by
  simp [dinPull, h, he]

/-- Everything `DinPull` can come to. -/
theorem dinPull_cases (s : State) :
    (∃ b rest, s.din.fifo = b :: rest ∧ dinPull s = .got b (s.setDin { s.din with fifo := rest })) ∨
    (s.din.fifo = [] ∧ s.din.eof = true ∧ dinPull s = .eod s) ∨
    (s.din.fifo = [] ∧ s.din.eof = false ∧ dinPull s = .waits s) := by
  cases hf : s.din.fifo with
  | cons b rest => exact .inl ⟨b, rest, rfl, dinPull_cons hf⟩
  | nil =>
    cases he : s.din.eof with
    | true => exact .inr (.inl ⟨rfl, rfl, dinPull_eod hf he⟩)
    | false => exact .inr (.inr ⟨rfl, rfl, dinPull_waits hf he⟩)

theorem andThen_got {α β : Type} {x : Supply α} {k : α → State → Supply β} {b : β} {t : State}
    (h : x.andThen k = .got b t) : ∃ a s, x = .got a s ∧ k a s = .got b t := by
  cases x with
  | got a s => exact ⟨a, s, rfl, h⟩
  | _ => simp [Supply.andThen] at h

/-! ## Output -/

section
variable (bytes : List Byte) (s : State)

@[simp] theorem handedOver_cfg : (handedOver bytes s).cfg = s.cfg := rfl
@[simp] theorem handedOver_crc : (handedOver bytes s).crc = s.crc := rfl
@[simp] theorem handedOver_bu : (handedOver bytes s).bu = s.bu := rfl
@[simp] theorem handedOver_bp : (handedOver bytes s).bp = s.bp := rfl
@[simp] theorem handedOver_lzd : (handedOver bytes s).lzd = s.lzd := rfl
@[simp] theorem handedOver_lze : (handedOver bytes s).lze = s.lze := rfl
@[simp] theorem handedOver_rld : (handedOver bytes s).rld = s.rld := rfl
@[simp] theorem handedOver_rle : (handedOver bytes s).rle = s.rle := rfl
@[simp] theorem handedOver_din : (handedOver bytes s).din = s.din := rfl
@[simp] theorem handedOver_cmdErr : (handedOver bytes s).cmdErr = s.cmdErr := rfl
@[simp] theorem handedOver_seq : (handedOver bytes s).seq = s.seq := rfl
@[simp] theorem handedOver_rsp : (handedOver bytes s).rsp = s.rsp := rfl
@[simp] theorem handedOver_dout : (handedOver bytes s).env.dout = s.env.dout ++ bytes := rfl
@[simp] theorem handedOver_ready : (handedOver bytes s).env.ready = s.env.ready.after bytes.length := rfl
@[simp] theorem handedOver_agenda : (handedOver bytes s).env.agenda = s.env.agenda := rfl
@[simp] theorem handedOver_taken : (handedOver bytes s).env.taken = s.env.taken := rfl

end

/-- A push waits only when the host accepts no byte. -/
theorem doutPush_none {b : Byte} {s : State} : doutPush b s = none ↔ s.env.ready = .count 0 := by
  unfold doutPush
  split <;> simp_all

theorem accepts_zero (s : State) : accepts 0 s := by
  unfold accepts; split <;> simp

/-- A host that accepts just `n` bytes accepts `n`. -/
theorem accepts_count {n : Nat} {s : State} (h : s.env.ready = .count n) : accepts n s := by simp [accepts, h]

/-- A push that is accepted hands the byte over (20_memory.md R33). -/
theorem doutPush_ready {b : Byte} {s t : State} (h : doutPush b s = some t) : t = handedOver [b] s := by
  unfold doutPush at h
  split at h
  · rename_i hr; simp at h; subst h; simp [handedOver, acceptByte, hr, Ready.after, State.setEnv]
  · simp at h
  · rename_i k hr; simp at h; subst h; simp [handedOver, acceptByte, hr, Ready.after, State.setEnv]

theorem handedOver_append (a b : List Byte) (s : State) : handedOver b (handedOver a s) = handedOver (a ++ b) s := by
  simp only [handedOver, List.append_assoc, List.length_append]
  congr 2
  cases s.env.ready <;> simp [Ready.after, Nat.sub_sub]

theorem handedOver_nil (s : State) : handedOver [] s = s := by
  have : s.env.ready.after 0 = s.env.ready := by cases s.env.ready <;> rfl
  simp [handedOver, this]

/-- Everything `pushAll` can come to, with what the host still accepts (20_memory.md R33). -/
theorem pushAll_eq (bytes : List Byte) (s : State) :
    (accepts bytes.length s ∧ pushAll bytes s = .sent (handedOver bytes s)) ∨
    (∃ n, s.env.ready = .count n ∧ n < bytes.length ∧
      pushAll bytes s = .waits (bytes.drop n) (handedOver (bytes.take n) s)) := by
  induction bytes generalizing s with
  | nil => left; refine ⟨?_, by rw [handedOver_nil]; rfl⟩; unfold accepts; split <;> simp
  | cons b bytes ih =>
    cases hd : doutPush b s with
    | none =>
      rw [doutPush_none] at hd
      refine .inr ⟨0, hd, by simp, ?_⟩
      simp [pushAll, doutPush_none.mpr hd, handedOver_nil]
    | some t =>
      obtain rfl := doutPush_ready hd
      have hp : pushAll (b :: bytes) s = pushAll bytes (handedOver [b] s) := by simp [pushAll, hd]
      rcases ih (handedOver [b] s) with ⟨h1, h2⟩ | ⟨n, h1, h2, h3⟩
      · refine .inl ⟨?_, by rw [hp, h2, handedOver_append]; rfl⟩
        unfold accepts at h1 ⊢
        cases hr : s.env.ready with
        | always => trivial
        | count k =>
          simp only [handedOver, hr, Ready.after, List.length_singleton] at h1
          cases k with
          | zero => simp [doutPush, hr] at hd
          | succ k => simp at h1 ⊢; omega
      · right
        cases hr : s.env.ready with
        | always => simp [handedOver, hr, Ready.after] at h1
        | count k =>
          simp only [handedOver, hr, Ready.after, List.length_singleton, Ready.count.injEq] at h1
          cases k with
          | zero => simp [doutPush, hr] at hd
          | succ k =>
            have hk : n = k := by omega
            subst hk
            exact ⟨n + 1, rfl, by simp; omega, by rw [hp, h3, handedOver_append]; rfl⟩

/-- A host that accepts enough bytes lets every one through. -/
theorem pushAll_accepts {bytes : List Byte} {s : State} (h : accepts bytes.length s) :
    pushAll bytes s = .sent (handedOver bytes s) := by
  rcases pushAll_eq bytes s with ⟨-, h'⟩ | ⟨n, hr, hn, -⟩
  · exact h'
  · rw [accepts, hr] at h; simp at h; omega

/-- The host's side of `t` is that of `s` with bytes accepted, no more of them than the host allows (20_memory.md R33). -/
def Accepted (s t : State) : Prop := ∃ bytes : List Byte, accepts bytes.length s ∧ t.env = (handedOver bytes s).env

theorem Accepted.of_same {s t : State} (h : t.env = s.env) : Accepted s t := ⟨[], accepts_zero s, by rw [h, handedOver_nil]⟩

theorem Accepted.trans {s t u : State} (h : Accepted s t) (h' : Accepted t u) : Accepted s u := by
  obtain ⟨a, ha, hs⟩ := h
  obtain ⟨b, hb, ht⟩ := h'
  refine ⟨a ++ b, ?_, ?_⟩
  · unfold accepts at ha hb ⊢
    rw [hs] at hb
    cases hr : s.env.ready with
    | always => trivial
    | count n => simp [handedOver, hr, Ready.after] at ha hb ⊢; omega
  · rw [ht, ← handedOver_append]; simp only [handedOver, hs]

theorem Accepted.agenda {s t : State} (h : Accepted s t) : t.env.agenda = s.env.agenda := by obtain ⟨_, -, h⟩ := h; rw [h]; rfl

theorem Accepted.taken {s t : State} (h : Accepted s t) : t.env.taken = s.env.taken := by obtain ⟨_, -, h⟩ := h; rw [h]; rfl

theorem Accepted.dout {s t : State} (h : Accepted s t) : s.env.dout <+: t.env.dout := by
  obtain ⟨_, -, h⟩ := h; rw [h]; exact List.prefix_append _ _

/-! ## Commands one after another (40_control.md R65) -/

theorem runCommands_cons {i : Instr} {rest : List Instr} {s t : State} {w : Word} (h : exec i s = .next t)
    (hs : t.seq = .idle) (hr : t.rsp = some w) :
    runCommands (i :: rest) s = (runCommands rest (t.setRsp none)).map fun out => (w :: out.1, out.2) := by
  simp [runCommands, h, hs, hr]

theorem runCommands_append (a b : List Instr) (s : State) :
    runCommands (a ++ b) s =
      (runCommands a s).bind fun o => (runCommands b o.2).map fun out => (o.1 ++ out.1, out.2) := by
  induction a generalizing s with
  | nil => simp [runCommands]
  | cons i a ih =>
    rw [List.cons_append]
    simp only [runCommands]
    split
    · split
      · rw [ih]; cases runCommands a _ <;> simp [Function.comp_def]
      · rfl
    · rfl

end Sys2Proof.Machine
end

