-- ==== Sys2Proof/Laws/BitStream.lean ====
section
/-! SUPPORT. The bit unpacker and the bit packer as operations on numbers: what `BuRead`, `BpWrite` and `BpClose` do to the bit
streams of 30_encoding.md R49. -/

namespace Sys2Proof.Machine

/-! ## Numbers -/

theorem widthMask_toNat (w : BitVec 5) : (widthMask w).toNat = 2 ^ w.toNat - 1 := by
  revert w; decide +kernel

/-- The low bits under a width's mask are the remainder (00_scope.md R14). -/
theorem and_widthMask_toNat (a : BitVec 32) (w : BitVec 5) :
    (a &&& widthMask w).toNat = a.toNat % 2 ^ w.toNat := by
  rw [BitVec.toNat_and, widthMask_toNat, Nat.and_two_pow_sub_one_eq_mod]

theorem fillsWidth_iff {n : Nat} {w : BitVec 5} : fillsWidth n w = true ↔ n = 2 ^ w.toNat - 1 := by
  simp [fillsWidth, widthMask_toNat]

theorem bytesValue_lt (l : List Byte) : bytesValue l < 2 ^ (8 * l.length) := by
  induction l with
  | nil => simp [bytesValue]
  | cons b l ih =>
    have hb := b.isLt
    have : 2 ^ (8 * (b :: l).length) = 2 ^ 8 * 2 ^ (8 * l.length) := by
      rw [← pow_add]; congr 1; simp; ring
    rw [this, bytesValue]
    have : 2 ^ 8 * (bytesValue l + 1) ≤ 2 ^ 8 * 2 ^ (8 * l.length) := Nat.mul_le_mul_left _ ih
    omega

theorem bytesValue_append (a b : List Byte) :
    bytesValue (a ++ b) = bytesValue a + 2 ^ (8 * a.length) * bytesValue b := by
  induction a with
  | nil => simp [bytesValue]
  | cons x a ih =>
    have : 2 ^ (8 * (x :: a).length) = 2 ^ 8 * 2 ^ (8 * a.length) := by
      rw [← pow_add]; congr 1; simp; ring
    rw [List.cons_append, bytesValue, ih, bytesValue, this]; ring

/-- A value placed above `n` bits does not meet the bits below. -/
theorem or_shift_toNat {a v : BitVec 32} {n m : Nat} (ha : a.toNat < 2 ^ n) (hv : v.toNat < 2 ^ m) (hnm : n + m ≤ 32) :
    (a ||| v <<< n).toNat = a.toNat + 2 ^ n * v.toNat := by
  have hlt : v.toNat * 2 ^ n < 2 ^ 32 := by
    calc v.toNat * 2 ^ n < 2 ^ m * 2 ^ n := Nat.mul_lt_mul_of_pos_right hv (Nat.two_pow_pos n)
      _ = 2 ^ (n + m) := by rw [← pow_add, Nat.add_comm]
      _ ≤ 2 ^ 32 := Nat.pow_le_pow_right (by decide) hnm
  rw [BitVec.toNat_or, BitVec.toNat_shiftLeft, Nat.shiftLeft_eq, Nat.mod_eq_of_lt hlt, Nat.or_comm, Nat.mul_comm,
    ← Nat.two_pow_add_eq_or_of_lt ha, Nat.add_comm]

/-! ## The unpacker -/

/-- The unpacker holds no stray bit and has room for a byte more (10_state.md R28 (a)). -/
def buTidy (s : State) : Prop := s.bu.cnt.toNat ≤ 31 ∧ s.bu.acc.toNat < 2 ^ s.bu.cnt.toNat

theorem buAppend_toNat {b : Byte} {s : State} (h : s.bu.cnt.toNat ≤ 23) (ha : s.bu.acc.toNat < 2 ^ s.bu.cnt.toNat) :
    (buAppend b s).bu.cnt.toNat = s.bu.cnt.toNat + 8 ∧
    (buAppend b s).bu.acc.toNat = s.bu.acc.toNat + 2 ^ s.bu.cnt.toNat * b.toNat := by
  refine ⟨by simp [buAppend, BitVec.toNat_add]; omega, ?_⟩
  have hb : (b.setWidth 32).toNat < 2 ^ 8 := by have := b.isLt; simp; omega
  simp only [buAppend, State.setBu_bu]
  rw [or_shift_toNat ha hb (by omega)]
  have := b.isLt
  simp; omega

/-- What the loop of `BuRead` has done by the time it ends: bytes moved from DIN into the accumulator, and nothing else. -/
structure BuFilled (s t : State) : Prop where
  frame : t = (s.setBu t.bu).setDin t.din
  eof : t.din.eof = s.din.eof
  pulled : ∃ k, t.din.fifo = s.din.fifo.drop k ∧ t.bu.cnt.toNat = s.bu.cnt.toNat + 8 * k ∧
    (t.bu.cnt.toNat < t.bu.width.toNat + 8 ∨ k = 0)
  width : t.bu.width = s.bu.width
  tidy : buTidy t
  value : unreadValue t = unreadValue s
  bits : unreadBits t = unreadBits s

theorem BuFilled.refl {s : State} (h : buTidy s) : BuFilled s s :=
  ⟨rfl, rfl, ⟨0, rfl, rfl, .inr rfl⟩, rfl, h, rfl, rfl⟩

/-- One turn of the loop of `BuRead`: the byte pulled goes above the bits buffered. -/
theorem BuFilled.step {s : State} {b : Byte} {rest : List Byte} (h : buTidy s) (hf : s.din.fifo = b :: rest)
    (hw : s.bu.cnt.toNat < s.bu.width.toNat) (h24 : s.bu.width.toNat ≤ 24) :
    BuFilled s (buAppend b (s.setDin { s.din with fifo := rest })) := by
  obtain ⟨h1, h2⟩ := h
  have hs : (s.setDin { s.din with fifo := rest }).bu = s.bu := rfl
  obtain ⟨hc, ha⟩ := buAppend_toNat (b := b) (s := s.setDin { s.din with fifo := rest }) (by rw [hs]; omega) (by rw [hs]; exact h2)
  rw [hs] at hc ha
  have hb := b.isLt
  refine ⟨rfl, rfl, ⟨1, by simp [buAppend, hf], by omega, .inl ?_⟩, rfl, ⟨by omega, ?_⟩, ?_, ?_⟩
  · rw [hc]; simp [buAppend]; omega
  · rw [hc, ha, pow_add]
    nlinarith [Nat.two_pow_pos s.bu.cnt.toNat]
  · have hd : (buAppend b (s.setDin { s.din with fifo := rest })).din.fifo = rest := rfl
    rw [unreadValue, unreadValue, hc, ha, hd, hf, bytesValue, pow_add]; ring
  · have hd : (buAppend b (s.setDin { s.din with fifo := rest })).din.fifo = rest := rfl
    rw [unreadBits, unreadBits, hc, hd, hf]; simp; ring

theorem BuFilled.trans {s t u : State} (h : BuFilled s t) (h' : BuFilled t u) : BuFilled s u := by
  obtain ⟨k, hk1, hk2, hk3⟩ := h.pulled
  obtain ⟨j, hj1, hj2, hj3⟩ := h'.pulled
  refine ⟨?_, h'.eof.trans h.eof, ⟨k + j, by rw [hj1, hk1, List.drop_drop], by omega, ?_⟩, h'.width.trans h.width, h'.tidy,
    h'.value.trans h.value, h'.bits.trans h.bits⟩
  · rw [h'.frame, h.frame]; rfl
  · rcases hj3 with hj3 | rfl
    · exact .inl hj3
    · have hw := h'.width
      rw [hw, hj2]
      rcases hk3 with hk3 | rfl
      · left; simpa using hk3
      · right; rfl

/-- Everything the loop of `BuRead` can come to: enough bits, or the end of the data, or a hold, in each case with the
unread bits as they were. -/
theorem buFill_cases (n : Nat) {s : State} (h : buTidy s) (h24 : s.bu.width.toNat ≤ 24)
    (hn : s.bu.width.toNat ≤ s.bu.cnt.toNat + 8 * n) :
    ∃ t, BuFilled s t ∧
      ((buFill n s = .got () t ∧ t.bu.width.toNat ≤ t.bu.cnt.toNat) ∨
       (buFill n s = .eod t ∧ t.bu.cnt.toNat < t.bu.width.toNat ∧ t.din.fifo = [] ∧ t.din.eof = true) ∨
       (buFill n s = .waits t ∧ t.bu.cnt.toNat < t.bu.width.toNat ∧ t.din.fifo = [] ∧ t.din.eof = false)) := by
  induction n generalizing s with
  | zero => exact ⟨s, .refl h, .inl ⟨rfl, by omega⟩⟩
  | succ n ih =>
    by_cases hw : s.bu.cnt.toNat < s.bu.width.toNat
    · rcases dinPull_cases s with ⟨b, rest, hf, hp⟩ | ⟨hf, he, hp⟩ | ⟨hf, he, hp⟩
      · have hstep := BuFilled.step h hf hw h24
        obtain ⟨k, hk1, hk2, hk3⟩ := hstep.pulled
        have hc := (buAppend_toNat (b := b) (s := s.setDin { s.din with fifo := rest }) (by simp; omega) h.2).1
        obtain ⟨t, ht, hcases⟩ := ih hstep.tidy (by rw [hstep.width]; exact h24) (by rw [hstep.width, hc]; simp; omega)
        refine ⟨t, hstep.trans ht, ?_⟩
        simpa [buFill, hw, hp, Supply.andThen] using hcases
      · exact ⟨s, .refl h, .inr (.inl ⟨by simp [buFill, hw, hp, Supply.andThen], hw, hf, he⟩)⟩
      · exact ⟨s, .refl h, .inr (.inr ⟨by simp [buFill, hw, hp, Supply.andThen], hw, hf, he⟩)⟩
    · exact ⟨s, .refl h, .inl ⟨by simp [buFill, hw], by omega⟩⟩

/-- What a `BuRead` that returns a code has done: the code is the low bits of the unread ones, and the rest of them stay unread. -/
structure BuTook (s : State) (c : Code) (t : State) : Prop where
  frame : t = (s.setBu t.bu).setDin t.din
  eof : t.din.eof = s.din.eof
  fifo : t.din.fifo = s.din.fifo.drop (pulledBytes s)
  width : t.bu.width = s.bu.width
  legal : t.bu.legal
  code : c.toNat = unreadValue s % 2 ^ s.bu.width.toNat
  value : unreadValue t = unreadValue s / 2 ^ s.bu.width.toNat
  bits : unreadBits t + s.bu.width.toNat = unreadBits s

theorem buTake_took {s t : State} (h : BuFilled s t) (hl : s.bu.legal) (hw : t.bu.width.toNat ≤ t.bu.cnt.toNat) :
    ∃ c u, buTake t = .got c u ∧ BuTook s c u := by
  obtain ⟨hwid, hcnt, hacc⟩ := hl
  obtain ⟨k, hk1, hk2, hk3⟩ := h.pulled
  have hwt := h.width
  obtain ⟨ht1, ht2⟩ := h.tidy
  obtain ⟨hw1, hw2⟩ := hwid
  simp only [wMin, wMax] at hw1 hw2
  have hcnt' : (t.bu.cnt - t.bu.width.setWidth 6).toNat = t.bu.cnt.toNat - t.bu.width.toNat := by
    rw [BitVec.toNat_sub_of_le]
    · simp; omega
    · rw [BitVec.le_def]; simp; omega
  have hsplit : 2 ^ t.bu.cnt.toNat = 2 ^ t.bu.width.toNat * 2 ^ (t.bu.cnt.toNat - t.bu.width.toNat) := by
    rw [← pow_add]; congr 1; omega
  refine ⟨_, _, rfl, ?_⟩
  have hk : k = pulledBytes s := by
    unfold pulledBytes
    rw [hwt] at hk3 hw
    rcases hk3 with hk3 | rfl <;> omega
  refine ⟨?_, h.eof, hk ▸ hk1, hwt, ⟨?_, ?_, ?_⟩, ?_, ?_, ?_⟩
  · rw [h.frame]; rfl
  · show legalWidth t.bu.width
    rw [hwt]; exact ⟨hw1, hw2⟩
  · show (t.bu.cnt - t.bu.width.setWidth 6).toNat ≤ 23
    rw [hcnt', hwt]
    rcases hk3 with hk3 | rfl
    · rw [hwt] at hk3; omega
    · omega
  · show (t.bu.acc >>> t.bu.width.toNat).toNat < 2 ^ (t.bu.cnt - t.bu.width.setWidth 6).toNat
    rw [hcnt', BitVec.toNat_ushiftRight, Nat.shiftRight_eq_div_pow, Nat.div_lt_iff_lt_mul (Nat.two_pow_pos _), Nat.mul_comm, ← hsplit]
    exact ht2
  · show ((t.bu.acc &&& widthMask t.bu.width).setWidth 24).toNat = _
    have hlt : t.bu.acc.toNat % 2 ^ t.bu.width.toNat < 2 ^ 24 :=
      lt_of_lt_of_le (Nat.mod_lt _ (Nat.two_pow_pos _)) (Nat.pow_le_pow_right (by decide) (by rw [hwt]; exact hw2))
    rw [BitVec.toNat_setWidth, and_widthMask_toNat, Nat.mod_eq_of_lt hlt, ← h.value, unreadValue, hsplit, hwt, Nat.mul_assoc,
      Nat.add_mul_mod_self_left]
  · show (t.bu.acc >>> t.bu.width.toNat).toNat + 2 ^ (t.bu.cnt - t.bu.width.setWidth 6).toNat * bytesValue t.din.fifo = _
    rw [hcnt', ← h.value, unreadValue, hsplit, BitVec.toNat_ushiftRight, Nat.shiftRight_eq_div_pow, ← hwt, Nat.mul_assoc,
      Nat.add_mul_div_left _ _ (Nat.two_pow_pos _)]
  · show (t.bu.cnt - t.bu.width.setWidth 6).toNat + 8 * t.din.fifo.length + _ = _
    have hb := h.bits
    rw [unreadBits] at hb
    rw [hcnt', ← hb, ← hwt]; omega

/-- Everything `BuRead` can come to (42_bitstream.md R71): the code when there are bits enough, else the end of the data or a hold,
with every unread bit kept. -/
theorem buRead_cases {s : State} (hl : s.bu.legal) :
    (s.bu.width.toNat ≤ unreadBits s ∧ ∃ c t, buRead s = .got c t ∧ BuTook s c t) ∨
    (unreadBits s < s.bu.width.toNat ∧ ∃ t, BuFilled s t ∧ t.bu.legal ∧ t.bu.cnt.toNat < t.bu.width.toNat ∧ t.din.fifo = [] ∧
      ((s.din.eof = true ∧ buRead s = .eod t) ∨ (s.din.eof = false ∧ buRead s = .waits t))) := by
  obtain ⟨⟨hw1, hw2⟩, hcnt, hacc⟩ := id hl
  simp only [wMin, wMax] at hw1 hw2
  obtain ⟨t, ht, hc⟩ := buFill_cases 4 (s := s) ⟨by omega, hacc⟩ hw2 (by omega)
  have hbits := ht.bits
  have htl : t.bu.cnt.toNat < t.bu.width.toNat → t.bu.legal := fun h =>
    ⟨by rw [ht.width]; exact ⟨hw1, hw2⟩, by have := ht.width; rw [this] at h; omega, ht.tidy.2⟩
  rcases hc with ⟨h, hle⟩ | ⟨h, hlt, hf, he⟩ | ⟨h, hlt, hf, he⟩
  · left
    refine ⟨?_, ?_⟩
    · rw [← hbits, ← ht.width, unreadBits]; omega
    · obtain ⟨c, u, hu, htook⟩ := buTake_took ht hl hle
      exact ⟨c, u, by simp [buRead, h, Supply.andThen, hu], htook⟩
  · refine .inr ⟨?_, t, ht, htl hlt, hlt, hf, .inl ⟨ht.eof ▸ he, by simp [buRead, h, Supply.andThen]⟩⟩
    rw [← hbits, ← ht.width, unreadBits, hf]; simpa using hlt
  · refine .inr ⟨?_, t, ht, htl hlt, hlt, hf, .inr ⟨ht.eof ▸ he, by simp [buRead, h, Supply.andThen]⟩⟩
    rw [← hbits, ← ht.width, unreadBits, hf]; simpa using hlt

theorem Bu.eq_of {a b : Bu} (h1 : a.width = b.width) (h2 : a.acc = b.acc) (h3 : a.cnt = b.cnt) : a = b := by
  cases a; cases b; simp_all

theorem Din.eq_of {a b : Din} (h1 : a.fifo = b.fifo) (h2 : a.eof = b.eof) : a = b := by
  cases a; cases b; simp_all

/-- `BuTook` says all there is to say: the state is `afterRead s`. -/
theorem BuTook.eq_afterRead {s t : State} {c : Code} (h : BuTook s c t) : c = nextCode s ∧ t = afterRead s := by
  have hc := h.code
  have hlt : unreadValue s % 2 ^ s.bu.width.toNat < 2 ^ 24 := hc ▸ c.isLt
  refine ⟨BitVec.eq_of_toNat_eq (by rw [hc, nextCode, BitVec.toNat_ofNat, Nat.mod_eq_of_lt hlt]), ?_⟩
  set k := pulledBytes s with hk
  obtain ⟨-, hcnt23, hacc⟩ := h.legal
  have hf := h.fifo
  have hbits := h.bits
  rw [unreadBits, unreadBits, hf, List.length_drop, ← hk] at hbits
  have hcnt : t.bu.cnt.toNat = s.bu.cnt.toNat + 8 * k - s.bu.width.toNat := by
    have : k = (s.bu.width.toNat - s.bu.cnt.toNat + 7) / 8 := hk
    omega
  have hsum : s.bu.cnt.toNat + 8 * k = s.bu.width.toNat + t.bu.cnt.toNat ∧ k ≤ s.din.fifo.length := by
    have : k = (s.bu.width.toNat - s.bu.cnt.toNat + 7) / 8 := hk
    omega
  have hval := h.value
  have hsplit : bytesValue s.din.fifo = bytesValue (s.din.fifo.take k) + 2 ^ (8 * k) * bytesValue (s.din.fifo.drop k) := by
    conv_lhs => rw [← List.take_append_drop k s.din.fifo]
    rw [bytesValue_append, List.length_take, Nat.min_eq_left hsum.2]
  have hV : unreadValue s = (s.bu.acc.toNat + 2 ^ s.bu.cnt.toNat * bytesValue (s.din.fifo.take k)) +
      2 ^ s.bu.width.toNat * (2 ^ t.bu.cnt.toNat * bytesValue (s.din.fifo.drop k)) := by
    rw [unreadValue, hsplit, ← Nat.mul_assoc (2 ^ s.bu.width.toNat), ← pow_add, ← hsum.1, pow_add]; ring
  rw [hV, Nat.add_mul_div_left _ _ (Nat.two_pow_pos _), unreadValue, hf, ← hk] at hval
  have hacc' : t.bu.acc.toNat = (s.bu.acc.toNat + 2 ^ s.bu.cnt.toNat * bytesValue (s.din.fifo.take k)) / 2 ^ s.bu.width.toNat := by
    omega
  rw [h.frame]
  have hbu : t.bu = (afterRead s).bu := by
    refine Bu.eq_of h.width (BitVec.eq_of_toNat_eq ?_) (BitVec.eq_of_toNat_eq ?_) <;> simp only [afterRead]
    · rw [BitVec.toNat_ofNat, ← hk, ← hacc', Nat.mod_eq_of_lt t.bu.acc.isLt]
    · rw [BitVec.toNat_ofNat, ← hk, ← hcnt, Nat.mod_eq_of_lt t.bu.cnt.isLt]
  have hdin : t.din = (afterRead s).din := Din.eq_of hf h.eof
  rw [hbu, hdin]; rfl

/-- With bits enough `BuRead` returns the next code (42_bitstream.md R71). -/
theorem buRead_got {s : State} (hl : s.bu.legal) (h : s.bu.width.toNat ≤ unreadBits s) :
    buRead s = .got (nextCode s) (afterRead s) ∧ BuTook s (nextCode s) (afterRead s) := by
  rcases buRead_cases hl with ⟨-, c, t, h1, h2⟩ | ⟨h1, -⟩
  · obtain ⟨rfl, rfl⟩ := h2.eq_afterRead
    exact ⟨h1, h2⟩
  · omega

/-- With too few bits `BuRead` has pulled every byte when it ends or holds (R71). -/
theorem BuFilled.eq_afterStarving {s t : State} (h : BuFilled s t) (hf : t.din.fifo = []) : t = afterStarving s := by
  have hv := h.value
  have hb := h.bits
  rw [unreadValue, hf, bytesValue] at hv
  rw [unreadBits, hf] at hb
  rw [h.frame]
  have hbu : t.bu = (afterStarving s).bu := by
    refine Bu.eq_of h.width (BitVec.eq_of_toNat_eq ?_) (BitVec.eq_of_toNat_eq ?_) <;> simp only [afterStarving]
    · rw [BitVec.toNat_ofNat, ← hv, Nat.mul_zero, Nat.add_zero, Nat.mod_eq_of_lt t.bu.acc.isLt]
    · rw [BitVec.toNat_ofNat, ← hb, List.length_nil, Nat.mul_zero, Nat.add_zero, Nat.mod_eq_of_lt t.bu.cnt.isLt]
  have hdin : t.din = (afterStarving s).din := Din.eq_of hf h.eof
  rw [hbu, hdin]; rfl

/-- With too few bits `BuRead` ends, or holds while no end of source is signalled (R71). -/
theorem buRead_starved {s : State} (hl : s.bu.legal) (h : unreadBits s < s.bu.width.toNat) :
    buRead s = (if s.din.eof then .eod (afterStarving s) else .waits (afterStarving s)) ∧
      BuFilled s (afterStarving s) ∧ (afterStarving s).bu.legal := by
  rcases buRead_cases hl with ⟨h1, -⟩ | ⟨-, t, h1, h2, -, h3, h4⟩
  · omega
  · obtain rfl := h1.eq_afterStarving h3
    refine ⟨?_, h1, h2⟩
    rcases h4 with ⟨he, h4⟩ | ⟨he, h4⟩ <;> simp [he, h4]

/-! ## The packer -/

/-- The low `k` bytes of the accumulator, the low one first. -/
def lowBytes : Nat → BitVec 32 → List Byte
  | 0, _ => []
  | k + 1, a => a.setWidth 8 :: lowBytes k (a >>> 8)

@[simp] theorem lowBytes_length (k : Nat) (a : BitVec 32) : (lowBytes k a).length = k := by
  induction k generalizing a with
  | zero => rfl
  | succ k ih => simp [lowBytes, ih]

theorem lowBytes_value (k : Nat) (a : BitVec 32) : bytesValue (lowBytes k a) = a.toNat % 2 ^ (8 * k) := by
  induction k generalizing a with
  | zero => simp [lowBytes, bytesValue, Nat.mod_one]
  | succ k ih =>
    rw [lowBytes, bytesValue, ih, BitVec.toNat_setWidth, BitVec.toNat_ushiftRight, Nat.shiftRight_eq_div_pow,
      show 8 * (k + 1) = 8 + 8 * k by ring, pow_add, Nat.mod_mul]

/-- `s` once `j` complete bytes have left the packer (42_bitstream.md R76). -/
def bpGone (j : Nat) (s : State) : State :=
  (handedOver (lowBytes j s.bp.acc) s).setBp
    { s.bp with acc := s.bp.acc >>> (8 * j), cnt := s.bp.cnt - BitVec.ofNat 6 (8 * j) }

theorem bpGone_zero (s : State) : bpGone 0 s = s := by
  simp [bpGone, lowBytes, handedOver_nil, State.setBp]

theorem bpGone_succ (j : Nat) (s : State) : bpGone j (bpShift (handedOver [bpLowByte s] s)) = bpGone (j + 1) s := by
  have h1 : s.bp.acc >>> 8 >>> (8 * j) = s.bp.acc >>> (8 * (j + 1)) := by
    rw [← BitVec.shiftRight_add]; congr 1; ring
  have h2 : s.bp.cnt - 8#6 - BitVec.ofNat 6 (8 * j) = s.bp.cnt - BitVec.ofNat 6 (8 * (j + 1)) := by
    rw [show 8 * (j + 1) = 8 + 8 * j by ring, BitVec.ofNat_add]
    apply BitVec.eq_of_toNat_eq; simp only [BitVec.toNat_sub, BitVec.toNat_add, BitVec.toNat_ofNat]; omega
  have h3 : ∀ r : Ready, (r.after 1).after j = r.after (j + 1) := by
    intro r; cases r <;> simp [Ready.after]; omega
  simp [bpGone, bpShift, handedOver, lowBytes, bpLowByte, State.setBp, h1, h2, h3, List.append_assoc]

/-- Everything the loop of `BpWrite` can come to, with what the host still accepts (R76). -/
theorem bpEmit_eq (n : Nat) (s : State) (hn : s.bp.cnt.toNat < 8 * (n + 1)) :
    (accepts (s.bp.cnt.toNat / 8) s ∧ bpEmit n s = .sent (bpGone (s.bp.cnt.toNat / 8) s)) ∨
    (∃ j rest, s.env.ready = .count j ∧ j < s.bp.cnt.toNat / 8 ∧ bpEmit n s = .waits rest (bpGone j s)) := by
  induction n generalizing s with
  | zero =>
    have : s.bp.cnt.toNat / 8 = 0 := by omega
    left; rw [this, bpGone_zero]; refine ⟨?_, rfl⟩; unfold accepts; split <;> simp
  | succ n ih =>
    by_cases h8 : 8 ≤ s.bp.cnt.toNat
    · cases hd : doutPush (bpLowByte s) s with
      | none =>
        refine .inr ⟨0, [bpLowByte s], doutPush_none.mp hd, by omega, ?_⟩
        rw [bpGone_zero]; simp [bpEmit, h8, hd]
      | some t =>
        obtain rfl := doutPush_ready hd
        have hc : (bpShift (handedOver [bpLowByte s] s)).bp.cnt.toNat = s.bp.cnt.toNat - 8 := by
          simp [bpShift, handedOver, BitVec.toNat_sub]; omega
        have hq : s.bp.cnt.toNat / 8 = (s.bp.cnt.toNat - 8) / 8 + 1 := by omega
        have hr' : (bpShift (handedOver [bpLowByte s] s)).env.ready = s.env.ready.after 1 := rfl
        have he : bpEmit (n + 1) s = bpEmit n (bpShift (handedOver [bpLowByte s] s)) := by simp [bpEmit, h8, hd]
        rcases ih (bpShift (handedOver [bpLowByte s] s)) (by omega) with ⟨h1, h2⟩ | ⟨j, rest, h1, h2, h3⟩
        · refine .inl ⟨?_, by rw [he, h2, hc, hq, bpGone_succ]⟩
          unfold accepts at h1 ⊢
          rw [hr', hc] at h1
          cases hr : s.env.ready with
          | always => trivial
          | count k =>
            rw [hr] at h1
            cases k with
            | zero => simp [doutPush, hr] at hd
            | succ k => simp [Ready.after] at h1 ⊢; omega
        · right
          rw [hr'] at h1
          rw [hc] at h2
          cases hr : s.env.ready with
          | always => rw [hr] at h1; simp [Ready.after] at h1
          | count k =>
            rw [hr] at h1
            cases k with
            | zero => simp [doutPush, hr] at hd
            | succ k =>
              have hk : j = k := by simp [Ready.after] at h1; omega
              subst hk
              exact ⟨j + 1, rest, rfl, by omega, by rw [he, h3, bpGone_succ]⟩
    · have : s.bp.cnt.toNat / 8 = 0 := by omega
      left; rw [this, bpGone_zero]; refine ⟨?_, by simp [bpEmit, h8]⟩; unfold accepts; split <;> simp

/-- Everything the whole loop of `BpWrite` can come to (R76). -/
theorem bpDrain_eq (s : State) :
    (accepts (s.bp.cnt.toNat / 8) s ∧ bpDrain s = .sent (bpGone (s.bp.cnt.toNat / 8) s)) ∨
    (∃ j rest, s.env.ready = .count j ∧ j < s.bp.cnt.toNat / 8 ∧ bpDrain s = .waits rest (bpGone j s)) :=
  bpEmit_eq 7 s (by have := s.bp.cnt.isLt; omega)

theorem bpGone_cnt {j : Nat} {s : State} (hj : 8 * j ≤ s.bp.cnt.toNat) :
    (bpGone j s).bp.cnt.toNat = s.bp.cnt.toNat - 8 * j := by
  have := s.bp.cnt.isLt
  simp only [bpGone, State.setBp_bp, BitVec.toNat_sub, BitVec.toNat_ofNat]
  omega

/-- The bits that leave the packer are the low ones of the accumulator, and the rest stay. -/
theorem bpGone_legal {j n : Nat} {s : State} (h : s.bp.legal n) (hj : 8 * j ≤ s.bp.cnt.toNat) :
    (bpGone j s).bp.legal (s.bp.cnt.toNat - 8 * j) := by
  obtain ⟨hw, hn, ha⟩ := h
  refine ⟨hw, le_of_eq (bpGone_cnt hj), ?_⟩
  rw [bpGone_cnt hj]
  show (s.bp.acc >>> (8 * j)).toNat < _
  rw [BitVec.toNat_ushiftRight, Nat.shiftRight_eq_div_pow, Nat.div_lt_iff_lt_mul (Nat.two_pow_pos _), ← pow_add]
  rwa [show s.bp.cnt.toNat - 8 * j + 8 * j = s.bp.cnt.toNat by omega]

/-- The first two lines of `BpWrite(v)` put `v`, cut to the width, above the bits buffered (R76). -/
theorem bpPut_toNat {v : Code} {s : State} (h : s.bp.legal 7) :
    (bpPut v s).bp.cnt.toNat = s.bp.cnt.toNat + s.bp.width.toNat ∧
    (bpPut v s).bp.acc.toNat = s.bp.acc.toNat + 2 ^ s.bp.cnt.toNat * (v.toNat % 2 ^ s.bp.width.toNat) := by
  obtain ⟨⟨hw1, hw2⟩, hn, ha⟩ := h
  simp only [wMin, wMax] at hw1 hw2
  have hv : (v.setWidth 32 &&& widthMask s.bp.width).toNat = v.toNat % 2 ^ s.bp.width.toNat := by
    rw [and_widthMask_toNat]
    rw [BitVec.toNat_setWidth, Nat.mod_eq_of_lt (lt_trans v.isLt (by decide))]
  refine ⟨?_, ?_⟩
  · simp [bpPut, BitVec.toNat_add]; omega
  · simp only [bpPut, State.setBp_bp]
    rw [or_shift_toNat (m := s.bp.width.toNat) ha (by rw [hv]; exact Nat.mod_lt _ (Nat.two_pow_pos _)) (by omega), hv]

theorem bpPut_legal {v : Code} {s : State} (h : s.bp.legal 7) : (bpPut v s).bp.legal 31 := by
  obtain ⟨hc, ha⟩ := bpPut_toNat (v := v) h
  obtain ⟨⟨hw1, hw2⟩, hn, hacc⟩ := h
  simp only [wMin, wMax] at hw1 hw2
  refine ⟨⟨hw1, hw2⟩, by omega, ?_⟩
  rw [hc, ha, pow_add]
  have h1 : v.toNat % 2 ^ s.bp.width.toNat < 2 ^ s.bp.width.toNat := Nat.mod_lt _ (Nat.two_pow_pos _)
  nlinarith [Nat.two_pow_pos s.bp.cnt.toNat]

/-! ## The packer, said without its loops -/

theorem Bp.eq_of {a b : Bp} (h1 : a.width = b.width) (h2 : a.acc = b.acc) (h3 : a.cnt = b.cnt) : a = b := by
  cases a; cases b; simp_all

theorem littleBytes_length (k n : Nat) : (littleBytes k n).length = k := by
  induction k generalizing n with
  | zero => rfl
  | succ k ih => simp [littleBytes, ih]

theorem lowBytes_eq (k : Nat) (a : BitVec 32) : lowBytes k a = littleBytes k a.toNat := by
  induction k generalizing a with
  | zero => rfl
  | succ k ih =>
    rw [lowBytes, littleBytes, ih, BitVec.toNat_ushiftRight, Nat.shiftRight_eq_div_pow]
    congr 1

/-- `BpWrite` puts `v` in place and sends bytes: `afterSending` is what the loop makes of `bpPut` (R76). -/
theorem bpGone_bpPut {v : Code} {s : State} {j : Nat} (h : s.bp.legal 7) (hj : j ≤ packedBytes s) :
    bpGone j (bpPut v s) = afterSending j v s := by
  obtain ⟨hc, ha⟩ := bpPut_toNat (v := v) h
  obtain ⟨⟨hw1, hw2⟩, hn, -⟩ := h
  simp only [wMin, wMax] at hw1 hw2
  unfold packedBytes at hj
  have hval : (bpPut v s).bp.acc.toNat = packedValue v s := ha
  have hbp : (bpGone j (bpPut v s)).bp = (afterSending j v s).bp := by
    refine Bp.eq_of rfl (BitVec.eq_of_toNat_eq ?_) (BitVec.eq_of_toNat_eq ?_)
    · show ((bpPut v s).bp.acc >>> (8 * j)).toNat = _
      have hlt : packedValue v s < 2 ^ 32 := hval ▸ (bpPut v s).bp.acc.isLt
      rw [BitVec.toNat_ushiftRight, Nat.shiftRight_eq_div_pow, hval]
      simp only [afterSending, handedOver, BitVec.toNat_ofNat]
      exact (Nat.mod_eq_of_lt (lt_of_le_of_lt (Nat.div_le_self _ _) hlt)).symm
    · show ((bpPut v s).bp.cnt - BitVec.ofNat 6 (8 * j)).toNat = _
      simp only [afterSending, handedOver, BitVec.toNat_ofNat, BitVec.toNat_sub]
      omega
  have hlow : lowBytes j (bpPut v s).bp.acc = littleBytes j (packedValue v s) := by rw [lowBytes_eq, hval]
  have hrest : bpGone j (bpPut v s) = { afterSending j v s with bp := (bpGone j (bpPut v s)).bp } := by
    simp only [bpGone, hlow]; rfl
  rw [hrest, hbp]

/-- Everything `BpWrite(v)` can come to: `afterWrite` where the host accepts every byte, and a hold after those it does (R76). -/
theorem bpDrain_bpPut {v : Code} {s : State} (h : s.bp.legal 7) :
    (accepts (packedBytes s) s ∧ bpDrain (bpPut v s) = .sent (afterWrite v s)) ∨
    (∃ j rest, s.env.ready = .count j ∧ j < packedBytes s ∧ bpDrain (bpPut v s) = .waits rest (afterSending j v s)) := by
  have hc : (bpPut v s).bp.cnt.toNat / 8 = packedBytes s := by rw [(bpPut_toNat (v := v) h).1]; rfl
  have hr : (bpPut v s).env.ready = s.env.ready := rfl
  have hacc : accepts (packedBytes s) (bpPut v s) ↔ accepts (packedBytes s) s := by unfold accepts; rw [hr]
  rcases bpDrain_eq (bpPut v s) with ⟨h1, h2⟩ | ⟨j, rest, h1, h2, h3⟩
  · rw [hc] at h1 h2
    exact .inl ⟨hacc.mp h1, by rw [h2, bpGone_bpPut h le_rfl]; rfl⟩
  · rw [hc] at h2
    exact .inr ⟨j, rest, hr ▸ h1, h2, by rw [h3, bpGone_bpPut h (le_of_lt h2)]⟩

theorem afterWrite_legal {v : Code} {s : State} (h : s.bp.legal 7) : (afterWrite v s).bp.legal 7 := by
  obtain ⟨hc, ha⟩ := bpPut_toNat (v := v) h
  have hl := bpPut_legal (v := v) h
  have hcnt : (bpPut v s).bp.cnt.toNat / 8 = packedBytes s := by rw [hc]; rfl
  have h2 := bpGone_legal (s := bpPut v s) (j := packedBytes s) hl (by omega)
  have h3 : (afterWrite v s).bp = (bpGone (packedBytes s) (bpPut v s)).bp := by
    rw [afterWrite, ← bpGone_bpPut h le_rfl]
  rw [h3]
  exact ⟨h2.1, by have := h2.2.1; omega, h2.2.2⟩

/-- Everything `BpClose` can come to (R77). -/
theorem bpCloseByte_eq (s : State) :
    (accepts (closingBytes s).length s ∧ bpCloseByte s = .sent (afterClose s)) ∨
    (s.env.ready = .count 0 ∧ s.bp.cnt ≠ 0#6 ∧ bpCloseByte s = .waits [bpLowByte s] s) := by
  unfold bpCloseByte
  by_cases hc : s.bp.cnt = 0#6
  · left
    have hb : closingBytes s = [] := by simp [closingBytes, hc]
    refine ⟨by rw [hb]; unfold accepts; split <;> simp, ?_⟩
    simp only [hc, if_true, afterClose, hb, handedOver_nil]; rfl
  · have hb : closingBytes s = [bpLowByte s] := by
      have : s.bp.cnt.toNat ≠ 0 := fun h => hc (BitVec.eq_of_toNat_eq (by simpa using h))
      simp [closingBytes, this, bpLowByte]
    cases hd : doutPush (bpLowByte s) s with
    | none => exact .inr ⟨doutPush_none.mp hd, hc, by simp [hc]⟩
    | some t =>
      left
      obtain rfl := doutPush_ready hd
      refine ⟨?_, ?_⟩
      · rw [hb]
        unfold accepts
        split
        · trivial
        · rename_i k hk
          cases k with
          | zero => simp [doutPush, hk] at hd
          | succ k => simp
      · simp only [hc, if_false, Push.sent.injEq]
        simp only [afterClose, hb, handedOver, bpEmpty, State.setBp]

end Sys2Proof.Machine
end

