-- ==== Sys2Proof/Laws/Lzw.lean ====
section
/-! SUPPORT. The LZW dictionaries and the decoder's loop: what a look-up finds in a legal dictionary, what an insert keeps, and everything
`LzdStep` can come to. -/

namespace Sys2Proof.Machine

/-! ## Grown lists of strings (10_state.md R28 (e)) -/

theorem grown_nil : grown [] := fun k h => by simp at h

theorem grown_append {l : List (List Byte)} {q : List Byte} {x : Byte} (h : grown l) (hq : q.length = 1 ∨ q ∈ l) :
    grown (l ++ [q ++ [x]]) := by
  intro k hk
  by_cases hlt : k < l.length
  · obtain ⟨q', x', h1, h2⟩ := h k hlt
    refine ⟨q', x', by rw [List.getElem_append_left hlt, h1], ?_⟩
    rwa [List.take_append_of_le_length (le_of_lt hlt)]
  · have : k = l.length := by simp at hk; omega
    subst this
    exact ⟨q, x, by simp, by simpa using hq⟩

theorem grown_mem_length {l : List (List Byte)} (h : grown l) {k : Nat} (hk : k < l.length) :
    2 ≤ l[k].length ∧ l[k].length ≤ k + 2 := by
  induction k using Nat.strongRecOn with
  | _ k ih =>
    obtain ⟨q, x, h1, h2⟩ := h k hk
    rw [h1]
    rcases h2 with h2 | h2
    · simp [h2]
    · obtain ⟨j, hj, rfl⟩ := List.getElem_of_mem h2
      have hjk : j < k := by simp at hj; omega
      have := ih j hjk (by omega)
      simp only [List.getElem_take, List.length_append, List.length_singleton]
      omega

theorem grown_ne_nil {l : List (List Byte)} (h : grown l) {q : List Byte} (hq : q ∈ l) : 2 ≤ q.length := by
  obtain ⟨k, hk, rfl⟩ := List.getElem_of_mem hq
  exact (grown_mem_length h hk).1

/-! ## The decoder's dictionary -/

theorem lzdEntry_literal {d : Lzd} {c : Code} (h : c.toNat < 256) : lzdEntry d c = some [c.setWidth 8] := by
  simp [lzdEntry, h]

theorem lzdEntry_built {d : Lzd} {c : Code} (h : 257 ≤ c.toNat) : lzdEntry d c = d.built[c.toNat - 257]? := by
  simp [lzdEntry, show ¬ c.toNat < 256 by omega, show c.toNat ≠ 256 by omega]

theorem code_ne_clear {c : Code} (h : c ≠ clearCode) : c.toNat ≠ 256 := fun hc =>
  h (BitVec.eq_of_toNat_eq (by simpa using hc))

/-- A code below the size that is not the clear code has an entry, and it is not empty (10_state.md R20, 43_lzw_decoder.md R93 (c)). -/
theorem lzdEntry_of_lt {n : Nat} {d : Lzd} (h : d.legal n) {c : Code} (hc : c.toNat < d.size.toNat) (hne : c ≠ clearCode) :
    ∃ x rest, lzdEntry d c = some (x :: rest) ∧
      ((x :: rest).length = 1 ∨ (x :: rest) ∈ d.built) ∧ (x :: rest).length + 256 ≤ d.size.toNat := by
  have hs := h.size_eq
  have hne' := code_ne_clear hne
  simp only [dictInit] at hs
  by_cases h256 : c.toNat < 256
  · exact ⟨_, _, lzdEntry_literal h256, .inl rfl, by simp; omega⟩
  · have hk : c.toNat - 257 < d.built.length := by omega
    have hlen := grown_mem_length h.grows hk
    have he : lzdEntry d c = some d.built[c.toNat - 257] := by
      rw [lzdEntry_built (by omega), List.getElem?_eq_getElem hk]
    cases hb : d.built[c.toNat - 257] with
    | nil => rw [hb] at hlen; simp at hlen
    | cons x rest =>
      rw [hb] at hlen he
      refine ⟨x, rest, he, .inr (hb ▸ List.getElem_mem hk), by omega⟩

/-- The sequence of w in a legal decoder. -/
theorem lzdEntry_w {n : Nat} {d : Lzd} (h : d.legal n) :
    ∃ x rest, lzdEntry d d.w = some (x :: rest) ∧
      ((x :: rest).length = 1 ∨ (x :: rest) ∈ d.built) ∧ (x :: rest).length + 256 ≤ d.size.toNat :=
  lzdEntry_of_lt h h.w_lt h.w_ne

/-! ## The encoder's map -/

theorem lzeCode_single (d : Lze) (b : Byte) : lzeCode d [b] = some (b.setWidth 24) := rfl

theorem lzeCode_long (d : Lze) {str : List Byte} (h : 2 ≤ str.length) :
    lzeCode d str = (d.built.find? fun entry => entry.1 == str).map Prod.snd := by
  match str, h with
  | a :: b :: rest, _ => rfl

/-- The strings of a legal map: one byte, or an inserted one. -/
theorem lzeCode_isSome {d : Lze} {str : List Byte} (h : (lzeCode d str).isSome = true) :
    str.length = 1 ∨ str ∈ d.built.map Prod.fst := by
  match str with
  | [b] => exact .inl rfl
  | [] =>
    right
    simp only [lzeCode, Option.isSome_map, List.find?_isSome] at h
    obtain ⟨e, he, h⟩ := h
    exact List.mem_map.mpr ⟨e, he, by simpa using h⟩
  | a :: b :: rest =>
    right
    simp only [lzeCode, Option.isSome_map, List.find?_isSome] at h
    obtain ⟨e, he, h⟩ := h
    exact List.mem_map.mpr ⟨e, he, by simpa using h⟩

theorem lzeCode_none {d : Lze} {str : List Byte} (h : lzeCode d str = none) : str ∉ d.built.map Prod.fst ∧ str.length ≠ 1 := by
  match str with
  | [b] => simp [lzeCode] at h
  | [] =>
    simp only [lzeCode, Option.map_eq_none_iff, List.find?_eq_none] at h
    refine ⟨fun hm => ?_, by simp⟩
    obtain ⟨e, he, h'⟩ := List.mem_map.mp hm
    exact h e he (by simp [h'])
  | a :: b :: rest =>
    simp only [lzeCode, Option.map_eq_none_iff, List.find?_eq_none] at h
    refine ⟨fun hm => ?_, by simp⟩
    obtain ⟨e, he, h'⟩ := List.mem_map.mp hm
    exact h e he (by simp [h'])

/-- A code the map gives is below the size and not the clear code (10_state.md R21). -/
theorem lzeCode_lt {n : Nat} {d : Lze} (h : d.legal n) {str : List Byte} {c : Code} (hc : lzeCode d str = some c) :
    c.toNat < d.size.toNat ∧ c ≠ clearCode := by
  have hs := h.size_eq
  simp only [dictInit] at hs
  have key : ∀ e ∈ d.built, e.2.toNat < d.size.toNat ∧ e.2 ≠ clearCode := by
    intro e he
    obtain ⟨k, hk, rfl⟩ := List.getElem_of_mem he
    have := h.codes k hk
    simp only [dictInit] at this
    refine ⟨by omega, fun hc => ?_⟩
    rw [hc] at this; simp at this; omega
  match str with
  | [b] =>
    simp only [lzeCode, Option.some.injEq] at hc
    subst hc
    have := b.isLt
    refine ⟨by simp; omega, fun hc => ?_⟩
    have h2 := congrArg BitVec.toNat hc
    simp at h2; omega
  | [] =>
    simp only [lzeCode, Option.map_eq_some_iff] at hc
    obtain ⟨e, he, rfl⟩ := hc
    exact key e (List.mem_of_find?_eq_some he)
  | a :: b :: rest =>
    simp only [lzeCode, Option.map_eq_some_iff] at hc
    obtain ⟨e, he, rfl⟩ := hc
    exact key e (List.mem_of_find?_eq_some he)

/-! ## The decoder's loop -/

section
variable (s : State)

@[simp] theorem lzdInit_cfg : (lzdInit s).cfg = s.cfg := rfl
@[simp] theorem lzdInit_crc : (lzdInit s).crc = s.crc := rfl
@[simp] theorem lzdInit_bp : (lzdInit s).bp = s.bp := rfl
@[simp] theorem lzdInit_lze : (lzdInit s).lze = s.lze := rfl
@[simp] theorem lzdInit_rld : (lzdInit s).rld = s.rld := rfl
@[simp] theorem lzdInit_rle : (lzdInit s).rle = s.rle := rfl
@[simp] theorem lzdInit_din : (lzdInit s).din = s.din := rfl
@[simp] theorem lzdInit_cmdErr : (lzdInit s).cmdErr = s.cmdErr := rfl
@[simp] theorem lzdInit_seq : (lzdInit s).seq = s.seq := rfl
@[simp] theorem lzdInit_rsp : (lzdInit s).rsp = s.rsp := rfl
@[simp] theorem lzdInit_env : (lzdInit s).env = s.env := rfl
@[simp] theorem lzdInit_bu : (lzdInit s).bu = { s.bu with width := wLzw0 } := rfl
@[simp] theorem lzdInit_lzd :
    (lzdInit s).lzd = { s.lzd with built := [], size := 257#24, fresh := true, w := 0#24 } := rfl

end

theorem lzdInit_bu_legal {s : State} (h : s.bu.legal) : (lzdInit s).bu.legal :=
  ⟨show legalWidth wLzw0 by decide, h.2.1, h.2.2⟩

/-- `u` is what clear codes make of `s`: each is read and initialises the decoder (43_lzw_decoder.md R86). -/
inductive Cleared : State → State → Prop where
  /-- No clear code. -/
  | refl (s : State) : Cleared s s
  /-- One clear code, then the rest. -/
  | clear {s t u : State} (h : BuTook s clearCode t) (rest : Cleared (lzdInit t) u) : Cleared s u

theorem BuTook.wide {s t : State} (h : BuTook s clearCode t) : 9 ≤ s.bu.width.toNat := by
  have hc := h.code
  by_contra hw
  have h1 : unreadValue s % 2 ^ s.bu.width.toNat < 2 ^ s.bu.width.toNat := Nat.mod_lt _ (Nat.two_pow_pos _)
  have h2 : 2 ^ s.bu.width.toNat ≤ 2 ^ 8 := Nat.pow_le_pow_right (by decide) (by omega)
  simp at hc
  omega

/-- Everything the loop of `LzdStep` can come to: after some clear codes, the end of the data, a hold, or a code that is not the
clear code. Its turns never run out. -/
theorem lzdLoop_cases (n : Nat) {s : State} (hl : s.bu.legal) (hn : unreadBits s < n) :
    ∃ u, Cleared s u ∧ u.bu.legal ∧
      ((∃ c t, c ≠ clearCode ∧ buRead u = .got c t ∧ BuTook u c t ∧ lzdLoop n s = lzdCode c t) ∨
       (∃ t, BuFilled u t ∧ t.bu.legal ∧ t.bu.cnt.toNat < t.bu.width.toNat ∧ t.din.fifo = [] ∧
        ((t.din.eof = true ∧ lzdLoop n s = .eod t) ∨ (t.din.eof = false ∧ lzdLoop n s = .waits t)))) := by
  induction n generalizing s with
  | zero => omega
  | succ n ih =>
    rcases buRead_cases hl with ⟨hb, c, t, hr, ht⟩ | ⟨hb, t, ht, htl, hlt, hf, he⟩
    · by_cases hc : c = clearCode
      · subst hc
        have hw := ht.wide
        have hbits := ht.bits
        have hub : unreadBits (lzdInit t) = unreadBits t := rfl
        obtain ⟨u, hu, hul, hcases⟩ := ih (s := lzdInit t) (lzdInit_bu_legal ht.legal) (by omega)
        refine ⟨u, .clear ht hu, hul, ?_⟩
        simpa [lzdLoop, hr, Supply.andThen] using hcases
      · exact ⟨s, .refl s, hl, .inl ⟨c, t, hc, hr, ht, by simp [lzdLoop, hr, Supply.andThen, hc]⟩⟩
    · refine ⟨s, .refl s, hl, .inr ⟨t, ht, htl, hlt, hf, ?_⟩⟩
      rcases he with ⟨he, hr⟩ | ⟨he, hr⟩
      · exact .inl ⟨ht.eof.trans he, by simp [lzdLoop, hr, Supply.andThen]⟩
      · exact .inr ⟨ht.eof.trans he, by simp [lzdLoop, hr, Supply.andThen]⟩

theorem lzdStep_cases {s : State} (hl : s.bu.legal) :
    ∃ u, Cleared s u ∧ u.bu.legal ∧
      ((∃ c t, c ≠ clearCode ∧ buRead u = .got c t ∧ BuTook u c t ∧ lzdStep s = lzdCode c t) ∨
       (∃ t, BuFilled u t ∧ t.bu.legal ∧ t.bu.cnt.toNat < t.bu.width.toNat ∧ t.din.fifo = [] ∧
        ((t.din.eof = true ∧ lzdStep s = .eod t) ∨ (t.din.eof = false ∧ lzdStep s = .waits t)))) :=
  lzdLoop_cases _ hl (by simp [unreadBits])

/-- More turns of the loop than bits to read make no difference. -/
theorem lzdLoop_fuel (n m : Nat) {s : State} (hl : s.bu.legal) (hn : unreadBits s < n) (hm : unreadBits s < m) :
    lzdLoop n s = lzdLoop m s := by
  induction n generalizing m s with
  | zero => omega
  | succ n ih =>
    cases m with
    | zero => omega
    | succ m =>
      rcases buRead_cases hl with ⟨hb, c, t, hr, ht⟩ | ⟨hb, t, ht, htl, hlt, hf, he⟩
      · by_cases hc : c = clearCode
        · subst hc
          have hw := ht.wide
          have hbits := ht.bits
          have hub : unreadBits (lzdInit t) = unreadBits t := rfl
          simp only [lzdLoop, hr, Supply.andThen, if_true]
          exact ih m (lzdInit_bu_legal ht.legal) (by omega) (by omega)
        · simp [lzdLoop, hr, Supply.andThen, hc]
      · rcases he with ⟨he, hr⟩ | ⟨he, hr⟩ <;> simp [lzdLoop, hr, Supply.andThen]

/-- With bits enough for a code other than the clear code, `LzdStep` handles that code (43_lzw_decoder.md R86). -/
theorem lzdStep_got {s : State} (hl : s.bu.legal) (h : s.bu.width.toNat ≤ unreadBits s) (hc : nextCode s ≠ clearCode) :
    lzdStep s = lzdCode (nextCode s) (afterRead s) := by
  simp [lzdStep, lzdLoop, (buRead_got hl h).1, Supply.andThen, hc]

/-- After a clear code `LzdStep` reads on as from its start (R86). -/
theorem lzdStep_clear {s : State} (hl : s.bu.legal) (h : s.bu.width.toNat ≤ unreadBits s) (hc : nextCode s = clearCode) :
    lzdStep s = lzdStep (lzdInit (afterRead s)) := by
  have htook := (buRead_got hl h).2
  have hw := BuTook.wide (hc ▸ htook)
  have hb := htook.bits
  have hu : unreadBits (lzdInit (afterRead s)) = unreadBits (afterRead s) := rfl
  conv_lhs => simp only [lzdStep, lzdLoop, (buRead_got hl h).1, Supply.andThen, hc, if_true]
  exact lzdLoop_fuel _ _ (lzdInit_bu_legal htook.legal) (by rw [hu]; unfold unreadBits at *; omega) (by simp [unreadBits])

/-- With too few bits for a code, `LzdStep` ends or holds (R86). -/
theorem lzdStep_starved {s : State} (hl : s.bu.legal) (h : unreadBits s < s.bu.width.toNat) :
    lzdStep s = if s.din.eof then .eod (afterStarving s) else .waits (afterStarving s) := by
  simp only [lzdStep, lzdLoop, (buRead_starved hl h).1]
  cases s.din.eof <;> rfl

/-! ## The encoder's growth (44_lzw_encoder.md R95) -/

theorem lzeGrowOk_iff (s : State) : lzeGrowOk s = true ↔ ¬ (s.lze.size.toNat = 2 ^ s.bp.width.toNat - 1 ∧ s.bp.width = 24#5) := by
  unfold lzeGrowOk
  rw [← fillsWidth_iff]
  cases fillsWidth s.lze.size.toNat s.bp.width <;> simp

theorem lzeGrow_state (s : State) :
    lzeGrow s = { s with bp := { s.bp with
      width := if s.lze.size.toNat = 2 ^ s.bp.width.toNat - 1 then s.bp.width + 1#5 else s.bp.width } } := by
  unfold lzeGrow
  by_cases h : s.lze.size.toNat = 2 ^ s.bp.width.toNat - 1
  · rw [if_pos (fillsWidth_iff.mpr h)]; simp only [h, if_true]; rfl
  · rw [if_neg (fun h' => h (fillsWidth_iff.mp h'))]; simp only [h, if_false]

/-- The schedule of widths (30_encoding.md R51): the width is the length of the number in bits. -/
theorem width_eq_log2 {n w : Nat} (hn : n ≠ 0) : w = Nat.log2 n + 1 ↔ 1 ≤ w ∧ 2 ^ (w - 1) ≤ n ∧ n < 2 ^ w := by
  constructor
  · rintro rfl
    exact ⟨by omega, by simpa using Nat.log2_self_le hn, (Nat.log2_lt hn).mp (by omega)⟩
  · rintro ⟨h0, h1, h2⟩
    have := (Nat.log2_eq_iff hn (k := w - 1)).mpr ⟨h1, by rwa [Nat.sub_add_cancel h0]⟩
    omega

end Sys2Proof.Machine
end

