-- ==== Sys2Proof/Laws/Legal.lean ====
section
/-! SUPPORT. Legal states: what each shared operation keeps, so that the invariant of Safety.lean can be carried through a command. -/

namespace Sys2Proof.Machine

/-- The command answers or holds, and the state it leaves is legal. -/
def LegalResult (r : Result) : Prop := ∃ t, r = .next t ∧ t.legal

theorem responseLegal_done (d : Code) : responseLegal (responseWord (.done d)) := .inl ⟨d, rfl⟩

theorem responseLegal_ended : responseLegal (responseWord .ended) := .inr (.inl rfl)

theorem responseLegal_failed (c : FaultCode) : responseLegal (responseWord (.failed (faultBits c))) := .inr (.inr ⟨c, rfl⟩)

theorem respond_legal {r : Response} {s : State} (h : UnitsLegal s) (hq : quiet s) (hr : responseLegal (responseWord r)) :
    LegalResult (respond r s) :=
  ⟨_, rfl, ⟨h.cfg, h.bu, h.lzd, h.lze, h.rld, h.din⟩, fun w hw => by simp at hw; exact hw ▸ hr, hq⟩

theorem respondData_legal {d : Code} {s : State} (h : UnitsLegal s) (hq : quiet s) : LegalResult (respondData d s) :=
  respond_legal h hq (responseLegal_done d)

theorem respondOk_legal {s : State} (h : UnitsLegal s) (hq : quiet s) : LegalResult (respondOk s) := respondData_legal h hq

theorem respondEnd_legal {s : State} (h : UnitsLegal s) (hq : quiet s) : LegalResult (respondEnd s) :=
  respond_legal h hq responseLegal_ended

theorem holdAt_legal {hd : Hold} {s : State} (h : UnitsLegal s) (hh : heldLegal hd s) (hr : s.rsp = none) :
    LegalResult (holdAt hd s) := by
  refine ⟨_, rfl, ⟨h.cfg, h.bu, h.lzd, h.lze, h.rld, h.din⟩, fun w hw => ?_, ?_⟩
  · simp [hr] at hw
  · exact ⟨by cases hd <;> exact hh, hr⟩

theorem raiseCmdError_legal {c : FaultCode} {s : State} (h : UnitsLegal s) (hq : quiet s) : LegalResult (raiseCmdError c s) :=
  respond_legal (s := s.setCmdErr true) ⟨h.cfg, h.bu, h.lzd, h.lze, h.rld, h.din⟩ hq (responseLegal_failed c)

/-- The fault codes each unit raises (60_exceptions.md R111). -/
def unitRaises : FaultUnit → FaultCode → Prop
  | .lzd, c => c = .corruptStream ∨ c = .widthOverflow ∨ c = .dictOverflow
  | .lze, c => c = .widthOverflow ∨ c = .dictOverflow
  | .rld, c => c = .endOfData

theorem latchFault_core {u : FaultUnit} {c : FaultCode} {s : State} (h : UnitsLegal s) (hu : unitRaises u c) :
    UnitsLegal (latchFault u (faultBits c) s) := by
  obtain ⟨h1, h2, h3, h4, h5, h6⟩ := h
  cases u with
  | lzd =>
    refine ⟨h1, h2, { h3 with flt_mem := ?_ }, h4, h5, h6⟩
    rcases hu with rfl | rfl | rfl <;> simp [latchFault, faultBits]
  | lze =>
    refine ⟨h1, h2, h3, { h4 with flt_mem := ?_ }, h5, h6⟩
    rcases hu with rfl | rfl <;> simp [latchFault, faultBits]
  | rld =>
    refine ⟨h1, h2, h3, h4, ⟨h5.1, ?_⟩, h6⟩
    subst hu; simp [latchFault, faultBits]

theorem latchFault_quiet {u : FaultUnit} {c : FaultBits} {s : State} (h : quiet s) : quiet (latchFault u c s) := by
  cases u <;> exact h

theorem raiseUnitFault_legal {u : FaultUnit} {c : FaultCode} {s : State} (h : UnitsLegal s) (hq : quiet s) (hu : unitRaises u c) :
    LegalResult (raiseUnitFault u (faultBits c) s) :=
  respond_legal (latchFault_core h hu) (latchFault_quiet hq) (responseLegal_failed c)

/-- A latched fault is one of the unit's codes (R111). -/
theorem faultField_raises {u : FaultUnit} {s : State} (h : UnitsLegal s) (hl : latched (faultField u s) = true) :
    ∃ c, faultField u s = faultBits c ∧ unitRaises u c := by
  rw [latched_eq_true] at hl
  cases u with
  | lzd =>
    rcases h.lzd.flt_mem with h | h | h | h
    · exact absurd h hl
    · exact ⟨.corruptStream, h, .inl rfl⟩
    · exact ⟨.widthOverflow, h, .inr (.inl rfl)⟩
    · exact ⟨.dictOverflow, h, .inr (.inr rfl)⟩
  | lze =>
    rcases h.lze.flt_mem with h | h | h
    · exact absurd h hl
    · exact ⟨.widthOverflow, h, .inl rfl⟩
    · exact ⟨.dictOverflow, h, .inr rfl⟩
  | rld =>
    rcases h.rld.2 with h | h
    · exact absurd h hl
    · exact ⟨.endOfData, h, rfl⟩

theorem unlessLatched_legal {u : FaultUnit} {s : State} {command : Result} (h : UnitsLegal s) (hq : quiet s)
    (hc : faultField u s = 0#6 → LegalResult command) : LegalResult (unlessLatched u s command) := by
  unfold unlessLatched
  split
  · rename_i hl
    obtain ⟨c, h1, h2⟩ := faultField_raises h hl
    rw [h1]
    exact raiseUnitFault_legal h hq h2
  · rename_i hl
    exact hc (latched_eq_false.mp (by simpa using hl))

/-! ## Input -/

/-- `t` is `s` after input was taken: only the unpacker, the LZW decoder and DIN may differ, and the state is still legal. -/
structure Took (s t : State) : Prop where
  frame : t = ((s.setBu t.bu).setLzd t.lzd).setDin t.din
  core : UnitsLegal t
  eof : t.din.eof = s.din.eof

theorem Took.refl {s : State} (h : UnitsLegal s) : Took s s := ⟨rfl, h, rfl⟩

theorem Took.trans {s t u : State} (h : Took s t) (h' : Took t u) : Took s u :=
  ⟨by rw [h'.frame, h.frame]; rfl, h'.core, h'.eof.trans h.eof⟩

theorem Took.quiet {s t : State} (h : Took s t) (hq : quiet s) : quiet t := by rw [h.frame]; exact hq

theorem Took.rsp {s t : State} (h : Took s t) : t.rsp = s.rsp := by rw [h.frame]; rfl

theorem Took.rld {s t : State} (h : Took s t) : t.rld = s.rld := by rw [h.frame]; rfl

theorem Took.cfg {s t : State} (h : Took s t) : t.cfg = s.cfg := by rw [h.frame]; rfl

theorem drop_length_le {s t : State} {k n : Nat} (h : t.din.fifo = s.din.fifo.drop k) (hs : s.din.fifo.length ≤ n) :
    t.din.fifo.length ≤ n := by rw [h, List.length_drop]; omega

theorem BuTook.took {s t : State} {c : Code} (h : BuTook s c t) (hs : UnitsLegal s) : Took s t := by
  have hk := h.fifo
  have hf := h.frame
  have h1 : t.cfg = s.cfg := by rw [hf]; rfl
  have h2 : t.lzd = s.lzd := by rw [hf]; rfl
  have h3 : t.lze = s.lze := by rw [hf]; rfl
  have h4 : t.rld = s.rld := by rw [hf]; rfl
  refine ⟨by rw [h2]; exact hf, ⟨by rw [h1]; exact hs.cfg, h.legal, by rw [h1, h2]; exact hs.lzd, by rw [h1, h3]; exact hs.lze,
    by rw [h4]; exact hs.rld, by rw [h1]; exact drop_length_le hk hs.din⟩, h.eof⟩

theorem BuFilled.took {s t : State} (h : BuFilled s t) (hl : t.bu.legal) (hs : UnitsLegal s) : Took s t := by
  obtain ⟨k, hk, -, -⟩ := h.pulled
  have hf := h.frame
  have h1 : t.cfg = s.cfg := by rw [hf]; rfl
  have h2 : t.lzd = s.lzd := by rw [hf]; rfl
  have h3 : t.lze = s.lze := by rw [hf]; rfl
  have h4 : t.rld = s.rld := by rw [hf]; rfl
  refine ⟨by rw [h2]; exact hf, ⟨by rw [h1]; exact hs.cfg, hl, by rw [h1, h2]; exact hs.lzd, by rw [h1, h3]; exact hs.lze,
    by rw [h4]; exact hs.rld, by rw [h1]; exact drop_length_le hk hs.din⟩, h.eof⟩

/-- A fresh dictionary is legal (43_lzw_decoder.md R84). -/
theorem lzdInit_legal {n : Nat} {d : Lzd} (h : d.legal n) (hn : 258 ≤ n) :
    Lzd.legal n { d with built := [], size := 257#24, fresh := true, w := 0#24 } :=
  { size_eq := rfl, size_le := by simp; omega, grows := grown_nil, w_lt := by simp, w_ne := show (0#24 : Code) ≠ clearCode by decide, fresh_w := fun _ => ⟨rfl, rfl⟩,
    pend_le := h.pend_le, flt_mem := h.flt_mem }

theorem lzdInit_core {s : State} (h : UnitsLegal s) : UnitsLegal (lzdInit s) :=
  ⟨h.cfg, lzdInit_bu_legal h.bu, lzdInit_legal h.lzd h.cfg.1, h.lze, h.rld, h.din⟩

theorem lzdInit_took {s : State} (h : UnitsLegal s) : Took s (lzdInit s) := ⟨rfl, lzdInit_core h, rfl⟩

theorem Cleared.took {s u : State} (h : Cleared s u) (hs : UnitsLegal s) : Took s u := by
  induction h with
  | refl => exact .refl hs
  | clear h _ ih =>
    have h1 := h.took hs
    have h2 := lzdInit_took h1.core
    exact (h1.trans h2).trans (ih h2.core)

/-- Clear codes leave the latch and the pending bytes alone (R84). -/
theorem Cleared.keeps {s u : State} (h : Cleared s u) : u.lzd.flt = s.lzd.flt ∧ u.lzd.pend = s.lzd.pend := by
  induction h with
  | refl => exact ⟨rfl, rfl⟩
  | clear h _ ih =>
    rw [ih.1, ih.2]
    have hf := h.frame
    constructor
    · rw [lzdInit_lzd]; rw [hf]; rfl
    · rw [lzdInit_lzd]; rw [hf]; rfl

/-! ## The LZW decoder -/

/-- What an operation of the LZW decoder may come to in a legal state: a value with `P` true after it, the end of the data or a
hold with the latch clear and nothing pending, or one of the decoder's faults. No broken state. -/
def LegalSupply {α : Type} (s : State) (P : State → Prop) (x : Supply α) : Prop :=
  (∃ a t, x = .got a t ∧ Took s t ∧ P t) ∨
  (∃ t, (x = .eod t ∨ x = .waits t) ∧ Took s t ∧ t.lzd.flt = 0#6 ∧ t.lzd.pend = []) ∨
  (∃ c t, x = .faulted (faultBits c) t ∧ Took s t ∧ unitRaises .lzd c)

theorem setLzd_took {s : State} {d : Lzd} (h : UnitsLegal s) (hd : d.legal s.cfg.dictCap) : Took s (s.setLzd d) :=
  ⟨rfl, ⟨h.cfg, h.bu, hd, h.lze, h.rld, h.din⟩, rfl⟩

theorem setWidth8_lt (c : Code) : [c.setWidth 8].length = 1 := rfl

theorem lzdFirst_legal {c : Code} {s : State} (h : UnitsLegal s) :
    LegalSupply s (fun t => t.lzd.flt = s.lzd.flt ∧ t.lzd.pend ≠ []) (lzdFirst c s) := by
  unfold lzdFirst
  split
  · rename_i hc
    refine .inl ⟨(), _, rfl, setLzd_took h ?_, rfl, by simp⟩
    have hs := h.lzd.size_eq
    have hcap := h.cfg.1
    simp only [dictInit] at hs
    exact { h.lzd with
      w_lt := by show c.toNat < s.lzd.size.toNat; omega
      w_ne := fun hc' => by simp at hc'; rw [hc'] at hc; simp at hc
      fresh_w := fun hf => by simp at hf
      pend_le := by simp; omega }
  · exact .inr (.inr ⟨.corruptStream, s, rfl, .refl h, .inl rfl⟩)

/-- The width that R87 gives after an entry is legal: growth past 24 has been refused before (R90). -/
theorem grown_width_legal {n : Nat} {w : BitVec 5} (hw : legalWidth w) (h : ¬(fillsWidth n w = true ∧ w = 24#5))
    (hf : fillsWidth n w = true) : legalWidth (w + 1#5) := by
  have hne : w ≠ 24#5 := fun h' => h ⟨hf, h'⟩
  have : ∀ w : BitVec 5, legalWidth w → w ≠ 24#5 → legalWidth (w + 1#5) := by decide
  exact this w hw hne

theorem lzdExtend_legal {c : Code} {e : List Byte} {s : State} (h : UnitsLegal s) (hfresh : s.lzd.fresh = false)
    (hc : c.toNat ≤ s.lzd.size.toNat) (hne : c ≠ clearCode) (he : e ≠ []) (hlen : e.length + 256 ≤ s.lzd.size.toNat + 1) :
    LegalSupply s (fun t => t.lzd.flt = s.lzd.flt ∧ t.lzd.pend ≠ []) (lzdExtend c e s) := by
  unfold lzdExtend
  split
  · exact .inr (.inr ⟨.dictOverflow, s, rfl, .refl h, .inr (.inr rfl)⟩)
  rename_i hcap
  split
  · exact .inr (.inr ⟨.widthOverflow, s, rfl, .refl h, .inr (.inl rfl)⟩)
  rename_i hwid
  obtain ⟨x, rest, hw, hw1, hw2⟩ := lzdEntry_w h.lzd
  rw [hw]
  cases e with
  | nil => exact absurd rfl he
  | cons y ys =>
    have hs := h.lzd.size_eq
    have hle := h.lzd.size_le
    have hcap2 := h.cfg.2.1
    simp only [dictInit] at hs
    have hsz : (s.lzd.size + 1#24).toNat = s.lzd.size.toNat + 1 := by
      rw [BitVec.toNat_add]; simp; omega
    set s1 := lzdAssign (x :: rest ++ [y]) s with hs1
    have hd1 : Lzd.legal s.cfg.dictCap { s1.lzd with w := c, pend := y :: ys } := by
      refine { size_eq := ?_, size_le := ?_, grows := ?_, w_lt := ?_, w_ne := hne, fresh_w := ?_, pend_le := ?_, flt_mem := h.lzd.flt_mem }
      · show (s.lzd.size + 1#24).toNat = 257 + (s.lzd.built ++ [x :: rest ++ [y]]).length
        rw [hsz]; simp; omega
      · show (s.lzd.size + 1#24).toNat ≤ _
        rw [hsz]; omega
      · exact grown_append h.lzd.grows hw1
      · show c.toNat < (s.lzd.size + 1#24).toNat
        rw [hsz]; omega
      · intro hf
        have : s.lzd.fresh = true := hf
        rw [hfresh] at this; simp at this
      · show (y :: ys).length + 256 ≤ _
        omega
    refine .inl ⟨(), _, rfl, ?_, ?_⟩
    · by_cases hg : fillsWidth s1.lzd.size.toNat s1.bu.width = true
      · have hg' : fillsWidth (s.lzd.size.toNat + 1) s.bu.width = true := by
          have : s1.lzd.size.toNat = s.lzd.size.toNat + 1 := hsz
          rwa [this] at hg
        have hgrow : lzdGrow s1 = buSetWidth (s1.bu.width + 1#5) s1 := by simp [lzdGrow, hg]
        rw [hgrow]
        exact ⟨rfl, ⟨h.cfg, ⟨grown_width_legal h.bu.1 hwid hg', h.bu.2⟩, hd1, h.lze, h.rld, h.din⟩, rfl⟩
      · have hgrow : lzdGrow s1 = s1 := by simp [lzdGrow, hg]
        rw [hgrow]
        exact ⟨rfl, ⟨h.cfg, h.bu, hd1, h.lze, h.rld, h.din⟩, rfl⟩
    · refine ⟨?_, by simp [lzdEmit]⟩
      unfold lzdGrow
      split <;> rfl

theorem lzdCode_legal {c : Code} {s : State} (h : UnitsLegal s) (hne : c ≠ clearCode) :
    LegalSupply s (fun t => t.lzd.flt = s.lzd.flt ∧ t.lzd.pend ≠ []) (lzdCode c s) := by
  unfold lzdCode
  split
  · exact lzdFirst_legal h
  rename_i hfresh
  simp only [Bool.not_eq_true] at hfresh
  unfold lzdLookUp
  split
  · rename_i hlt
    obtain ⟨x, rest, he, -, hlen⟩ := lzdEntry_of_lt h.lzd hlt hne
    rw [he]
    exact lzdExtend_legal h hfresh (le_of_lt hlt) hne (by simp) (by omega)
  split
  · rename_i heq
    obtain ⟨x, rest, he, -, hlen⟩ := lzdEntry_w h.lzd
    have hk : lzdKwk s = some (x :: rest ++ [x]) := by simp [lzdKwk, he]
    rw [hk]
    exact lzdExtend_legal h hfresh (by rw [heq]) hne (by simp) (by simp at hlen ⊢; omega)
  · exact .inr (.inr ⟨.corruptStream, s, rfl, .refl h, .inl rfl⟩)

theorem LegalSupply.of_took {α : Type} {s u : State} {P : State → Prop} {x : Supply α} (h : Took s u) (hx : LegalSupply u P x) :
    LegalSupply s P x := by
  rcases hx with ⟨a, t, h1, h2, h3⟩ | ⟨t, h1, h2, h3⟩ | ⟨c, t, h1, h2, h3⟩
  · exact .inl ⟨a, t, h1, h.trans h2, h3⟩
  · exact .inr (.inl ⟨t, h1, h.trans h2, h3⟩)
  · exact .inr (.inr ⟨c, t, h1, h.trans h2, h3⟩)

theorem lzdStep_legal {s : State} (h : UnitsLegal s) (hflt : s.lzd.flt = 0#6) (hp : s.lzd.pend = []) :
    LegalSupply s (fun t => t.lzd.flt = 0#6 ∧ t.lzd.pend ≠ []) (lzdStep s) := by
  obtain ⟨u, hu, -, hcases⟩ := lzdStep_cases h.bu
  have htook := hu.took h
  obtain ⟨hk1, hk2⟩ := hu.keeps
  rcases hcases with ⟨c, t, hne, -, ht, hstep⟩ | ⟨t, ht, htl, -, -, hstep⟩
  · have ht' := ht.took htook.core
    have hl : t.lzd = u.lzd := by rw [ht.frame]; rfl
    rw [hstep]
    have := LegalSupply.of_took (htook.trans ht') (lzdCode_legal ht'.core hne)
    rwa [show t.lzd.flt = 0#6 by rw [hl, hk1, hflt]] at this
  · have ht' := ht.took htl htook.core
    have hl : t.lzd = u.lzd := by rw [ht.frame]; rfl
    refine .inr (.inl ⟨t, ?_, htook.trans ht', by rw [hl, hk1, hflt], by rw [hl, hk2, hp]⟩)
    rcases hstep with ⟨-, hstep⟩ | ⟨-, hstep⟩
    · exact .inl hstep
    · exact .inr hstep

theorem lzdPop_legal {s : State} (h : UnitsLegal s) (hp : s.lzd.pend ≠ []) : LegalSupply s (fun _ => True) (lzdPop s) := by
  unfold lzdPop
  cases hpe : s.lzd.pend with
  | nil => exact absurd hpe hp
  | cons b rest =>
    refine .inl ⟨b, _, rfl, setLzd_took h ?_, trivial⟩
    have := h.lzd.pend_le
    rw [hpe] at this
    exact { h.lzd with pend_le := by simp at this ⊢; omega }

/-- Everything `LzdNextByte` can come to in a legal state (43_lzw_decoder.md R91). -/
theorem lzdNextByte_legal {s : State} (h : UnitsLegal s) : LegalSupply s (fun _ => True) (lzdNextByte s) := by
  unfold lzdNextByte
  split
  · rename_i hl
    obtain ⟨c, h1, h2⟩ := faultField_raises (u := .lzd) h hl
    have h1 : s.lzd.flt = faultBits c := h1
    rw [h1]
    exact .inr (.inr ⟨c, s, rfl, .refl h, h2⟩)
  rename_i hl
  have hflt : s.lzd.flt = 0#6 := latched_eq_false.mp (by simpa using hl)
  split
  · rename_i hp
    rcases lzdStep_legal h hflt hp with ⟨a, t, hs, ht, -, hp'⟩ | ⟨t, hs, ht, hf, hp'⟩ | ⟨c, t, hs, ht, hc⟩
    · rw [hs]; exact (lzdPop_legal ht.core hp').of_took ht
    · refine .inr (.inl ⟨t, ?_, ht, hf, hp'⟩)
      rcases hs with hs | hs
      · exact .inl (by rw [hs]; rfl)
      · exact .inr (by rw [hs]; rfl)
    · exact .inr (.inr ⟨c, t, by rw [hs]; rfl, ht, hc⟩)
  · rename_i hp
    exact lzdPop_legal h hp

/-- A command that ends on what an operation took leaves a legal state, if each of its ways on does. -/
theorem conclude_legal {α : Type} {s : State} {P : State → Prop} {x : Supply α} {hd : Hold} {atEnd : State → Result}
    {k : α → State → Result} (hx : LegalSupply s P x) (hq : quiet s) (hr : s.rsp = none)
    (hhold : ∀ t, Took s t → t.lzd.flt = 0#6 → t.lzd.pend = [] → heldLegal hd t)
    (hend : ∀ t, Took s t → LegalResult (atEnd t)) (hk : ∀ a t, Took s t → P t → LegalResult (k a t)) :
    LegalResult (x.conclude hd atEnd k) := by
  rcases hx with ⟨a, t, rfl, h2, h3⟩ | ⟨t, h1, h2, h3, h4⟩ | ⟨c, t, rfl, h2, h3⟩
  · exact hk a t h2 h3
  · rcases h1 with rfl | rfl
    · exact hend t h2
    · exact holdAt_legal h2.core (hhold t h2 h3 h4) (h2.rsp.trans hr)
  · exact raiseUnitFault_legal h2.core (h2.quiet hq) h3

/-! ## Output -/

theorem handedOver_core {bytes : List Byte} {s : State} (h : UnitsLegal s) : UnitsLegal (handedOver bytes s) :=
  ⟨h.cfg, h.bu, h.lzd, h.lze, h.rld, h.din⟩

theorem setBp_core {b : Bp} {s : State} (h : UnitsLegal s) : UnitsLegal (s.setBp b) := ⟨h.cfg, h.bu, h.lzd, h.lze, h.rld, h.din⟩

theorem bpGone_core {j : Nat} {s : State} (h : UnitsLegal s) : UnitsLegal (bpGone j s) :=
  setBp_core (handedOver_core h)

theorem Bp.legal.mono {n m : Nat} {b : Bp} (h : b.legal n) (hnm : n ≤ m) : b.legal m := ⟨h.1, h.2.1.trans hnm, h.2.2⟩

/-- The loop of `BpWrite` ends with less than a byte in the packer, or holds with a byte to offer (42_bitstream.md R76). -/
theorem bpDrain_legal {s : State} {h : List Byte → Hold} {k : State → Result} (hc : UnitsLegal s) (hb : s.bp.legal 31)
    (hlen : s.rle.len.toNat ≤ 255) (hr : s.rsp = none)
    (hhold : ∀ rest j, emitting (bpGone j s) → heldLegal (h rest) (bpGone j s))
    (hk : quiet (bpGone (s.bp.cnt.toNat / 8) s) → LegalResult (k (bpGone (s.bp.cnt.toNat / 8) s))) :
    LegalResult ((bpDrain s).andThen h k) := by
  have h31 := hb.2.1
  rcases bpDrain_eq s with ⟨-, hd⟩ | ⟨j, rest, -, hj, hd⟩
  · rw [hd]
    exact hk ⟨(bpGone_legal hb (by omega)).mono (by omega), hlen⟩
  · rw [hd]
    have hcnt := bpGone_cnt (s := s) (j := j) (by omega)
    exact holdAt_legal (bpGone_core hc)
      (hhold rest j ⟨(bpGone_legal hb (by omega)).mono (by omega), by omega, hlen⟩) hr

/-- `BpClose` leaves the packer empty, or holds with its byte to offer (R77). -/
theorem bpCloseByte_legal {s : State} {h : List Byte → Hold} {k : State → Result} (hc : UnitsLegal s) (hq : quiet s)
    (hr : s.rsp = none) (hhold : ∀ rest, closing s → heldLegal (h rest) s)
    (hk : ∀ t, UnitsLegal t → quiet t → t.rsp = none → t.lze = s.lze → t.cfg = s.cfg → LegalResult (k t)) :
    LegalResult ((bpCloseByte s).andThen h k) := by
  have hempty : ∀ t : State, t.bp.width = s.bp.width → quiet (bpEmpty t) ∨ ¬ t.rle.len.toNat ≤ 255 := fun t ht => by
    by_cases hl : t.rle.len.toNat ≤ 255
    · refine .inl ⟨⟨by show legalWidth t.bp.width; rw [ht]; exact hq.1.1, by simp [bpEmpty], by simp [bpEmpty]⟩, hl⟩
    · exact .inr hl
  unfold bpCloseByte
  split
  · exact hk _ (setBp_core hc) ((hempty s rfl).resolve_right (not_not_intro hq.2)) hr rfl rfl
  · rename_i hcnt
    cases hd : doutPush (bpLowByte s) s with
    | none => exact holdAt_legal hc (hhold _ ⟨hq, hcnt⟩) hr
    | some t =>
      obtain rfl := doutPush_ready hd
      exact hk _ (setBp_core (handedOver_core hc)) ((hempty _ rfl).resolve_right (not_not_intro hq.2)) hr rfl rfl

/-! ## Reset, the LZW encoder and RLE -/

/-- The decoder after reset is legal (70_reset_and_hazards.md R119). -/
theorem Lzd.reset_legal {n : Nat} (h : 258 ≤ n) : Lzd.legal n Lzd.reset :=
  { size_eq := rfl, size_le := by show 257 ≤ n; omega, grows := grown_nil, w_lt := by decide, w_ne := by decide,
    fresh_w := fun _ => ⟨rfl, rfl⟩, pend_le := by show 0 + 256 ≤ n; omega, flt_mem := .inl rfl }

/-- A fresh encoder is legal (44_lzw_encoder.md R94). -/
theorem Lze.init_legal {n : Nat} (h : 258 ≤ n) {f : FaultBits} (hf : f = 0#6 ∨ f = 5#6 ∨ f = 6#6) :
    Lze.legal n { built := [], size := 257#24, hasw := false, wseq := [], flt := f } :=
  { codes := fun k hk => by simp at hk
    size_eq := rfl, size_le := by show 257 ≤ n; omega, grows := grown_nil, keys := List.nodup_nil, no_w := fun _ => rfl
    w_key := fun hf => by simp at hf
    flt_mem := hf }

/-- `ApplyReset` leaves legal units (R119). -/
theorem applyReset_core {s : State} (h : s.cfg.legal) : UnitsLegal (applyReset s) :=
  ⟨h, show Bu.legal Bu.reset by unfold Bu.legal; decide, Lzd.reset_legal h.1, Lze.init_legal h.1 (.inl rfl), ⟨show Rld.reset.rem.toNat ≤ 255 by decide, .inl rfl⟩, Nat.zero_le _⟩

theorem applyReset_quiet (s : State) : quiet (applyReset s) :=
  ⟨show Bp.legal 7 Bp.reset by unfold Bp.legal; decide, show Rle.reset.len.toNat ≤ 255 by decide⟩

theorem lzeInit_core {s : State} (h : UnitsLegal s) : UnitsLegal (lzeInit s) :=
  ⟨h.cfg, h.bu, h.lzd, Lze.init_legal h.cfg.1 h.lze.flt_mem, h.rld, h.din⟩

/-- The growth of `LzeEmitW` stays within width 24 once `LzeGrowOK` has been tested (R95). -/
theorem lzeGrow_width {s : State} (h : legalWidth s.bp.width) (hg : lzeGrowOk s = true) : legalWidth (lzeGrow s).bp.width := by
  unfold lzeGrow
  split
  · rename_i hf
    have : s.bp.width ≠ 24#5 := fun h' => by rw [lzeGrowOk, hf, h'] at hg; simp at hg
    have h3 : ∀ w : BitVec 5, legalWidth w → w ≠ 24#5 → legalWidth (w + 1#5) := by decide
    exact h3 _ h this
  · exact h

theorem lzeGrow_eq (s : State) : ∃ w, lzeGrow s = s.setBp { s.bp with width := w } := by
  unfold lzeGrow
  split
  · exact ⟨_, rfl⟩
  · exact ⟨s.bp.width, rfl⟩

/-- An insert keeps the map legal: a new string, one byte longer than w, under the next code (R96). -/
theorem lzeInsert_legal {s : State} {b : Byte} (h : UnitsLegal s) (hw : s.lze.hasw = true) (hn : lzeCode s.lze (s.lze.wseq ++ [b]) = none)
    (hcap : s.lze.size.toNat ≠ s.cfg.dictCap) : UnitsLegal (lzeInsert b s) := by
  obtain ⟨h1, h2, h3, h4, h5, h6⟩ := h
  have hle := h4.size_le
  have hcap2 := h1.2.1
  have hs := h4.size_eq
  have hsz : (s.lze.size + 1#24).toNat = s.lze.size.toNat + 1 := by rw [BitVec.toNat_add]; simp; omega
  refine ⟨h1, h2, h3, ?_, h5, h6⟩
  have hmap : ((s.lze.built ++ [(s.lze.wseq ++ [b], s.lze.size)]).map Prod.fst) = s.lze.built.map Prod.fst ++ [s.lze.wseq ++ [b]] := by simp
  exact
    { codes := by
        intro k hk
        simp only [lzeInsert, State.setLze_lze] at hk ⊢
        by_cases hlt : k < s.lze.built.length
        · rw [List.getElem_append_left hlt]; exact h4.codes k hlt
        · have : k = s.lze.built.length := by simp at hk; omega
          subst this; simpa using hs
      size_eq := by simp only [lzeInsert, State.setLze_lze, hsz]; simp; omega
      size_le := by simp only [lzeInsert, State.setLze_lze, hsz]; show _ ≤ s.cfg.dictCap; omega
      grows := by
        simp only [lzeInsert, State.setLze_lze, hmap]
        exact grown_append h4.grows (lzeCode_isSome (h4.w_key hw))
      keys := by
        simp only [lzeInsert, State.setLze_lze, hmap]
        exact List.nodup_append.mpr ⟨h4.keys, by simp, fun a ha b' hb' => by
          simp at hb'; subst hb'; intro heq; subst heq; exact (lzeCode_none hn).1 ha⟩
      no_w := fun hf => by simp [lzeInsert, hw] at hf
      w_key := fun _ => rfl
      flt_mem := h4.flt_mem }

/-- A key may become w (R96). -/
theorem lzeHold_core {s : State} {seq : List Byte} (h : UnitsLegal s) (hk : (lzeCode s.lze seq).isSome = true) : UnitsLegal (lzeHold seq s) := by
  refine ⟨h.cfg, h.bu, h.lzd, ?_, h.rld, h.din⟩
  exact
    { codes := h.lze.codes
      size_eq := h.lze.size_eq
      size_le := h.lze.size_le
      grows := h.lze.grows
      keys := h.lze.keys
      no_w := fun hf => by simp [lzeHold] at hf
      w_key := fun _ => by
        cases seq with
        | nil => exact hk
        | cons a l => cases l <;> exact hk
      flt_mem := h.lze.flt_mem }

theorem lzePutW_legal {s : State} {k : State → Result} (h : UnitsLegal s) (hw : s.lze.hasw = true)
    (hk : ∀ c, LegalResult (k (bpPut c s))) : LegalResult (lzePutW k s) := by
  obtain ⟨c, hc⟩ := Option.isSome_iff_exists.mp (h.lze.w_key hw)
  simp only [lzePutW, hc]; exact hk c

/-- Everything the RLE decoder's source can come to in a legal state (45_rle.md R101). -/
theorem rldSrcByte_legal {s : State} (h : UnitsLegal s) :
    (∃ a t, rldSrcByte s = .got a t ∧ Took s t) ∨ (∃ t, (rldSrcByte s = .eod t ∨ rldSrcByte s = .waits t) ∧ Took s t) ∨
    (∃ c t, rldSrcByte s = .faulted (faultBits c) t ∧ Took s t ∧ unitRaises .lzd c) := by
  unfold rldSrcByte
  split
  · rcases dinPull_cases s with ⟨b, rest, hf, hp⟩ | ⟨hf, he, hp⟩ | ⟨hf, he, hp⟩
    · refine .inl ⟨b, _, hp, rfl, ⟨h.cfg, h.bu, h.lzd, h.lze, h.rld, ?_⟩, rfl⟩
      have := h.din; rw [hf] at this; simp at this ⊢; omega
    · exact .inr (.inl ⟨s, .inl hp, .refl h⟩)
    · exact .inr (.inl ⟨s, .inr hp, .refl h⟩)
  · rcases lzdNextByte_legal h with ⟨a, t, h1, h2, -⟩ | ⟨t, h1, h2, -, -⟩ | ⟨c, t, h1, h2, h3⟩
    · exact .inl ⟨a, t, h1, h2⟩
    · exact .inr (.inl ⟨t, h1, h2⟩)
    · exact .inr (.inr ⟨c, t, h1, h2, h3⟩)

theorem rldConclude_legal {s : State} {hd : Hold} {atEnd : State → Result} {k : Byte → State → Result} (h : UnitsLegal s) (hq : quiet s) (hr : s.rsp = none)
    (hhold : ∀ t, Took s t → heldLegal hd t)
    (hend : ∀ t, Took s t → LegalResult (atEnd t)) (hk : ∀ a t, Took s t → LegalResult (k a t)) :
    LegalResult ((rldSrcByte s).conclude hd atEnd k) := by
  rcases rldSrcByte_legal h with ⟨a, t, h1, h2⟩ | ⟨t, h1, h2⟩ | ⟨c, t, h1, h2, h3⟩
  · rw [h1]; exact hk a t h2
  · rcases h1 with h1 | h1 <;> rw [h1]
    · exact hend t h2
    · exact holdAt_legal h2.core (hhold t h2) (h2.rsp.trans hr)
  · rw [h1]; exact raiseUnitFault_legal h2.core (h2.quiet hq) h3

theorem setRld_core {s : State} {d : Rld} (h : UnitsLegal s) (hd : d.legal) : UnitsLegal (s.setRld d) := ⟨h.cfg, h.bu, h.lzd, h.lze, hd, h.din⟩

theorem setRle_core {s : State} {d : Rle} (h : UnitsLegal s) : UnitsLegal (s.setRle d) := ⟨h.cfg, h.bu, h.lzd, h.lze, h.rld, h.din⟩

theorem pushAll_legal {s : State} {bytes : List Byte} {hd : List Byte → Hold} {k : State → Result} (h : UnitsLegal s) (hr : s.rsp = none)
    (hsuf : bytes <:+ rleRunBytes s.rle)
    (hhold : ∀ rest pre, writingRun rest s → heldLegal (hd rest) (handedOver pre s))
    (hk : LegalResult (k (handedOver bytes s))) : LegalResult ((pushAll bytes s).andThen hd k) := by
  rcases pushAll_eq bytes s with ⟨-, hp⟩ | ⟨n, -, hn, hp⟩
  · rw [hp]; exact hk
  · rw [hp]
    refine holdAt_legal (handedOver_core h) (hhold _ _ ⟨fun h0 => ?_, (List.drop_suffix n bytes).trans hsuf⟩) hr
    have := congrArg List.length h0
    simp at this; omega

end Sys2Proof.Machine
end

