-- ==== Sys2Proof/Laws/Frames.lean ====
section
/-! SUPPORT. What each shared operation leaves alone, in every state, legal or not: the frames of the input and output operations, and
what a command that ends on them can come to. -/

namespace Sys2Proof.Machine

/-! ## Input -/

/-- `P` is true of the state an operation that takes input leaves. -/
def Supply.Leaves {α : Type} (P : State → Prop) : Supply α → Prop
  | .got _ t => P t
  | .eod t => P t
  | .waits t => P t
  | .faulted _ t => P t
  | .broken _ => True

theorem Supply.Leaves.mono {α : Type} {P Q : State → Prop} {x : Supply α} (h : x.Leaves P) (hpq : ∀ t, P t → Q t) : x.Leaves Q := by
  cases x <;> first | exact hpq _ h | trivial

theorem Supply.Leaves.andThen {α β : Type} {P Q : State → Prop} {x : Supply α} {k : α → State → Supply β} (h : x.Leaves P)
    (hpq : ∀ t, P t → Q t) (hk : ∀ a t, P t → (k a t).Leaves Q) : (x.andThen k).Leaves Q := by
  cases x <;> first | exact hk _ _ h | exact hpq _ h | trivial

/-- `t` is `s` but for bytes pulled from DIN and the unpacker's buffered bits (42_bitstream.md R71). -/
structure BitsRead (s t : State) : Prop where
  frame : t = (s.setBu t.bu).setDin t.din
  width : t.bu.width = s.bu.width
  eof : t.din.eof = s.din.eof
  fifo : ∃ k, t.din.fifo = s.din.fifo.drop k

theorem BitsRead.refl (s : State) : BitsRead s s := ⟨rfl, rfl, rfl, 0, rfl⟩

theorem BitsRead.trans {s t u : State} (h : BitsRead s t) (h' : BitsRead t u) : BitsRead s u := by
  obtain ⟨k, hk⟩ := h.fifo
  obtain ⟨j, hj⟩ := h'.fifo
  exact ⟨by rw [h'.frame, h.frame]; rfl, h'.width.trans h.width, h'.eof.trans h.eof, k + j, by rw [hj, hk, List.drop_drop]⟩

theorem dinPull_leaves (s : State) :
    (dinPull s).Leaves fun t => ∃ d : Din, t = s.setDin d ∧ d.eof = s.din.eof ∧ ∃ k, d.fifo = s.din.fifo.drop k := by
  rcases dinPull_cases s with ⟨b, rest, hf, hp⟩ | ⟨hf, he, hp⟩ | ⟨hf, he, hp⟩ <;> rw [hp]
  · exact ⟨_, rfl, rfl, 1, by simp [hf]⟩
  · exact ⟨s.din, rfl, rfl, 0, rfl⟩
  · exact ⟨s.din, rfl, rfl, 0, rfl⟩

theorem buFill_leaves (n : Nat) (s : State) : (buFill n s).Leaves (BitsRead s) := by
  induction n generalizing s with
  | zero => exact .refl s
  | succ n ih =>
    unfold buFill
    split
    · refine (dinPull_leaves s).andThen ?_ ?_
      · rintro _ ⟨d, rfl, h2, h3⟩
        exact ⟨rfl, rfl, h2, h3⟩
      · rintro b _ ⟨d, rfl, h2, h3⟩
        have h : BitsRead s (buAppend b (s.setDin d)) := ⟨rfl, rfl, h2, h3⟩
        exact (ih _).mono fun _ hu => h.trans hu
    · exact .refl s

/-- `BuRead` touches the buffered bits and DIN only (R71). -/
theorem buRead_leaves (s : State) : (buRead s).Leaves (BitsRead s) :=
  (buFill_leaves 4 s).andThen (fun _ h => h) fun _ _ h => h.trans ⟨rfl, rfl, rfl, 0, rfl⟩

/-- `BuRead` raises nothing (R71). -/
theorem buRead_not_faulted {s t : State} {c : FaultBits} : buRead s ≠ .faulted c t := by
  have hfill : ∀ (n : Nat) (s : State), buFill n s ≠ .faulted c t := by
    intro n
    induction n with
    | zero => intro s; simp [buFill]
    | succ n ih =>
      intro s
      unfold buFill
      split
      · rcases dinPull_cases s with ⟨b, rest, -, hp⟩ | ⟨-, -, hp⟩ | ⟨-, -, hp⟩ <;> simp [hp, Supply.andThen, ih]
      · simp
  have h := hfill 4 s
  unfold buRead
  cases hx : buFill 4 s <;> simp_all [Supply.andThen, buTake]

/-- `t` is `s` but for the unpacker, the LZW decoder and bytes pulled from DIN. -/
structure BytesTaken (s t : State) : Prop where
  frame : t = ((s.setBu t.bu).setLzd t.lzd).setDin t.din
  eof : t.din.eof = s.din.eof
  fifo : ∃ k, t.din.fifo = s.din.fifo.drop k
  flt : t.lzd.flt = s.lzd.flt

theorem BytesTaken.refl (s : State) : BytesTaken s s := ⟨rfl, rfl, ⟨0, rfl⟩, rfl⟩

theorem BytesTaken.trans {s t u : State} (h : BytesTaken s t) (h' : BytesTaken t u) : BytesTaken s u := by
  obtain ⟨k, hk⟩ := h.fifo
  obtain ⟨j, hj⟩ := h'.fifo
  exact ⟨by rw [h'.frame, h.frame]; rfl, h'.eof.trans h.eof, ⟨k + j, by rw [hj, hk, List.drop_drop]⟩, h'.flt.trans h.flt⟩

theorem BitsRead.taken {s t : State} (h : BitsRead s t) : BytesTaken s t := by
  have hl : t.lzd = s.lzd := by rw [h.frame]; rfl
  exact ⟨by rw [hl]; exact h.frame, h.eof, h.fifo, by rw [hl]⟩

/-- A change of the unpacker's width and of the decoder, its latch apart, is within `BytesTaken`. -/
theorem BytesTaken.units {s : State} {b : Bu} {d : Lzd} (h : d.flt = s.lzd.flt) : BytesTaken s ((s.setBu b).setLzd d) :=
  ⟨rfl, rfl, ⟨0, rfl⟩, h⟩

theorem lzdExtend_leaves (c : Code) (e : List Byte) (s : State) : (lzdExtend c e s).Leaves (BytesTaken s) := by
  unfold lzdExtend
  split
  · exact .refl s
  split
  · exact .refl s
  split
  · rename_i wSeq x rest _
    show BytesTaken s (lzdEmit c (x :: rest) (lzdGrow (lzdAssign (wSeq ++ [x]) s)))
    unfold lzdGrow
    split
    · exact ⟨rfl, rfl, ⟨0, rfl⟩, rfl⟩
    · exact ⟨rfl, rfl, ⟨0, rfl⟩, rfl⟩
  · trivial

theorem lzdCode_leaves (c : Code) (s : State) : (lzdCode c s).Leaves (BytesTaken s) := by
  unfold lzdCode lzdFirst lzdLookUp
  split
  · split
    · exact ⟨rfl, rfl, ⟨0, rfl⟩, rfl⟩
    · exact .refl s
  split
  · split
    · exact lzdExtend_leaves _ _ s
    · trivial
  split
  · split
    · exact lzdExtend_leaves _ _ s
    · trivial
  · exact .refl s

theorem lzdLoop_leaves (n : Nat) (s : State) : (lzdLoop n s).Leaves (BytesTaken s) := by
  induction n generalizing s with
  | zero => trivial
  | succ n ih =>
    refine (buRead_leaves s).andThen (fun _ h => h.taken) fun c t h => ?_
    split
    · have h2 : BytesTaken t (lzdInit t) := ⟨rfl, rfl, ⟨0, rfl⟩, rfl⟩
      exact (ih (lzdInit t)).mono fun u hu => (h.taken.trans h2).trans hu
    · exact (lzdCode_leaves c t).mono fun u hu => h.taken.trans hu

theorem lzdPop_leaves (s : State) : (lzdPop s).Leaves (BytesTaken s) := by
  unfold lzdPop
  split
  · exact ⟨rfl, rfl, ⟨0, rfl⟩, rfl⟩
  · trivial

/-- `LzdNextByte` touches the unpacker, the decoder but for its latch, and DIN only (43_lzw_decoder.md R91). -/
theorem lzdNextByte_leaves (s : State) : (lzdNextByte s).Leaves (BytesTaken s) := by
  unfold lzdNextByte
  split
  · exact .refl s
  split
  · exact (lzdLoop_leaves _ s).andThen (fun _ h => h) fun _ t h => (lzdPop_leaves t).mono fun u hu => h.trans hu
  · exact lzdPop_leaves s

/-- A latched fault is raised again with its own code, and any other fault is raised where none is latched (60_exceptions.md R114). -/
theorem lzdNextByte_faulted {s t : State} {c : FaultBits} (h : lzdNextByte s = .faulted c t) : s.lzd.flt = 0#6 ∨ c = s.lzd.flt := by
  unfold lzdNextByte at h
  split at h
  · simp at h; exact .inr h.1.symm
  · rename_i hl
    exact .inl (latched_eq_false.mp (by simpa using hl))

/-- Everything a command that ends on what an operation took can come to. -/
theorem conclude_next {α : Type} {x : Supply α} {h : Hold} {atEnd : State → Result} {k : α → State → Result} {u : State}
    (hx : x.conclude h atEnd k = .next u) :
    (∃ a t, x = .got a t ∧ k a t = .next u) ∨ (∃ t, x = .eod t ∧ atEnd t = .next u) ∨
    (∃ t, x = .waits t ∧ u = t.setSeq (.holding h)) ∨
    (∃ c t, x = .faulted c t ∧ u = answered (.failed c) (latchFault .lzd c t)) := by
  cases x with
  | got a t => exact .inl ⟨a, t, rfl, hx⟩
  | eod t => exact .inr (.inl ⟨t, rfl, hx⟩)
  | waits t => exact .inr (.inr (.inl ⟨t, rfl, holdAt_next.mp hx⟩))
  | faulted c t => exact .inr (.inr (.inr ⟨c, t, rfl, respond_next.mp hx⟩))
  | broken f => simp [Supply.conclude] at hx

/-! ## Output -/

/-- `t` is `s` but for the packer's buffered bits and the bytes the host has accepted. -/
structure BitsSent (s t : State) : Prop where
  frame : t = (s.setBp t.bp).setEnv t.env
  width : t.bp.width = s.bp.width
  accepted : Accepted s t

theorem BitsSent.refl (s : State) : BitsSent s s := ⟨rfl, rfl, .of_same rfl⟩

theorem BitsSent.trans {s t u : State} (h : BitsSent s t) (h' : BitsSent t u) : BitsSent s u :=
  ⟨by rw [h'.frame, h.frame]; rfl, h'.width.trans h.width, h.accepted.trans h'.accepted⟩

theorem bpGone_sent {j : Nat} {s : State} (h : accepts j s) : BitsSent s (bpGone j s) :=
  ⟨rfl, rfl, _, by rw [lowBytes_length]; exact h, rfl⟩

theorem bpPut_sent (v : Code) (s : State) : BitsSent s (bpPut v s) := ⟨rfl, rfl, .of_same rfl⟩

theorem afterClose_sent {s : State} (h : accepts (closingBytes s).length s) : BitsSent s (afterClose s) := ⟨rfl, rfl, _, h, rfl⟩

/-- Everything a command that writes bits can come to: it goes on after the loop of `BpWrite`, or holds in it. -/
theorem bpDrain_next {s u : State} {h : List Byte → Hold} {k : State → Result} (hx : (bpDrain s).andThen h k = .next u) :
    ∃ t, BitsSent s t ∧ (k t = .next u ∨ ∃ rest, u = t.setSeq (.holding (h rest))) := by
  rcases bpDrain_eq s with ⟨ha, hd⟩ | ⟨j, rest, hr, -, hd⟩ <;> rw [hd] at hx
  · exact ⟨_, bpGone_sent ha, .inl hx⟩
  · exact ⟨_, bpGone_sent (accepts_count hr), .inr ⟨rest, holdAt_next.mp hx⟩⟩

/-- Everything a command that closes the packer can come to. -/
theorem bpCloseByte_next {s u : State} {h : List Byte → Hold} {k : State → Result} (hx : (bpCloseByte s).andThen h k = .next u) :
    ∃ t, BitsSent s t ∧ (k t = .next u ∨ ∃ rest, u = t.setSeq (.holding (h rest))) := by
  rcases bpCloseByte_eq s with ⟨ha, hd⟩ | ⟨-, -, hd⟩ <;> rw [hd] at hx
  · exact ⟨_, afterClose_sent ha, .inl hx⟩
  · exact ⟨s, .refl s, .inr ⟨_, holdAt_next.mp hx⟩⟩

/-- Everything a command that writes a run can come to. -/
theorem pushAll_next {s u : State} {bytes : List Byte} {h : List Byte → Hold} {k : State → Result}
    (hx : (pushAll bytes s).andThen h k = .next u) :
    ∃ sent : List Byte, accepts sent.length s ∧
      (k (handedOver sent s) = .next u ∨ ∃ rest, u = (handedOver sent s).setSeq (.holding (h rest))) := by
  rcases pushAll_eq bytes s with ⟨ha, hd⟩ | ⟨n, hr, hn, hd⟩ <;> rw [hd] at hx
  · exact ⟨_, ha, .inl hx⟩
  · exact ⟨_, by rw [List.length_take_of_le (by omega)]; exact accepts_count hr, .inr ⟨_, holdAt_next.mp hx⟩⟩

/-- Everything a command of a unit with a latch can come to: the latched code with nothing else changed, or its own effect. -/
theorem unlessLatched_next {v : FaultUnit} {s u : State} {command : Result} (hx : unlessLatched v s command = .next u) :
    (faultField v s ≠ 0#6 ∧ u = answered (.failed (faultField v s)) s) ∨ (faultField v s = 0#6 ∧ command = .next u) := by
  by_cases h : faultField v s = 0#6
  · rw [unlessLatched_of_clear _ h] at hx; exact .inr ⟨h, hx⟩
  · rw [unlessLatched_of_latched _ (latched_eq_true.mpr h)] at hx
    exact .inl ⟨h, respond_next.mp hx⟩

/-! ## The commands of more than one step -/

/-- `t` is `s` but for the packer, the LZW encoder, the bytes the host has accepted, and how the command stands. -/
structure EncoderWrote (s t : State) : Prop where
  frame : t = ((((s.setBp t.bp).setLze t.lze).setEnv t.env).setSeq t.seq).setRsp t.rsp
  accepted : Accepted s t

theorem EncoderWrote.refl (s : State) : EncoderWrote s s := ⟨rfl, .of_same rfl⟩

theorem EncoderWrote.trans {s t u : State} (h : EncoderWrote s t) (h' : EncoderWrote t u) : EncoderWrote s u :=
  ⟨by rw [h'.frame, h.frame]; rfl, h.accepted.trans h'.accepted⟩

theorem BitsSent.wrote {s t : State} (h : BitsSent s t) : EncoderWrote s t :=
  ⟨by rw [h.frame]; rfl, h.accepted⟩

theorem EncoderWrote.setSeq {s t : State} (h : EncoderWrote s t) (q : Sequencer) : EncoderWrote s (t.setSeq q) :=
  h.trans ⟨rfl, .of_same rfl⟩

theorem lzeWriteRest_wrote {b : Byte} {s t : State} (h : lzeWriteRest b s = .next t) : EncoderWrote s t := by
  obtain ⟨u, hu, h | ⟨rest, rfl⟩⟩ := bpDrain_next h
  · obtain ⟨w, hw⟩ := lzeGrow_eq u
    rw [hw] at h
    rw [respond_next.mp h]
    exact hu.wrote.trans ⟨rfl, .of_same rfl⟩
  · exact hu.wrote.setSeq _

theorem lzeClearCodeRest_wrote {s t : State} (h : lzeClearCodeRest s = .next t) : EncoderWrote s t := by
  obtain ⟨u, hu, h | ⟨rest, rfl⟩⟩ := bpDrain_next h
  · rw [respond_next.mp h]; exact hu.wrote.trans ⟨rfl, .of_same rfl⟩
  · exact hu.wrote.setSeq _

theorem lzeClearWRest_wrote {s t : State} (h : lzeClearWRest s = .next t) : EncoderWrote s t := by
  obtain ⟨u, hu, h | ⟨rest, rfl⟩⟩ := bpDrain_next h
  · obtain ⟨w, hw⟩ := lzeGrow_eq u
    rw [hw] at h
    have h1 : EncoderWrote u (bpPut clearCode (u.setBp { u.bp with width := w })) := ⟨rfl, .of_same rfl⟩
    exact (hu.wrote.trans h1).trans (lzeClearCodeRest_wrote h)
  · exact hu.wrote.setSeq _

theorem lzeFlushCloseRest_wrote {s t : State} (h : lzeFlushCloseRest s = .next t) : EncoderWrote s t := by
  obtain ⟨u, hu, h | ⟨rest, rfl⟩⟩ := bpCloseByte_next h
  · rw [respond_next.mp h]; exact hu.wrote.trans ⟨rfl, .of_same rfl⟩
  · exact hu.wrote.setSeq _

theorem lzeFlushWRest_wrote {s t : State} (h : lzeFlushWRest s = .next t) : EncoderWrote s t := by
  obtain ⟨u, hu, h | ⟨rest, rfl⟩⟩ := bpDrain_next h
  · exact hu.wrote.trans (lzeFlushCloseRest_wrote h)
  · exact hu.wrote.setSeq _

theorem lzePutW_wrote {rest : State → Result} {s t : State} (hr : ∀ u, rest u = .next t → EncoderWrote u t)
    (h : lzePutW rest s = .next t) : EncoderWrote s t := by
  unfold lzePutW at h
  split at h
  · exact (bpPut_sent _ s).wrote.trans (hr _ h)
  · simp at h

/-- The elements that neither the unpacker, nor the decoders, nor DIN hold are as they were. -/
structure SameElsewhere (s t : State) : Prop where
  cfg : t.cfg = s.cfg
  crc : t.crc = s.crc
  bp : t.bp = s.bp
  lze : t.lze = s.lze
  rle : t.rle = s.rle
  cmdErr : t.cmdErr = s.cmdErr
  env : t.env = s.env

theorem SameElsewhere.trans {s t u : State} (h : SameElsewhere s t) (h' : SameElsewhere t u) : SameElsewhere s u :=
  ⟨h'.cfg.trans h.cfg, h'.crc.trans h.crc, h'.bp.trans h.bp, h'.lze.trans h.lze, h'.rle.trans h.rle, h'.cmdErr.trans h.cmdErr,
    h'.env.trans h.env⟩

/-- `t` is `s` but for the unpacker, the LZW decoder, the RLE decoder, bytes pulled from DIN, and how the command stands. -/
structure DecoderRead (s t : State) : Prop where
  elsewhere : SameElsewhere s t
  eof : t.din.eof = s.din.eof
  fifo : ∃ k, t.din.fifo = s.din.fifo.drop k
  /-- From DIN, the RLE decoder leaves the unpacker and the LZW decoder alone (45_rle.md R101). -/
  own : s.rld.src = .din → t.bu = s.bu ∧ t.lzd = s.lzd
  /-- A latch of the LZW decoder stays (60_exceptions.md R114). -/
  flt : s.lzd.flt ≠ 0#6 → t.lzd.flt = s.lzd.flt
  src : t.rld.src = s.rld.src

theorem DecoderRead.trans {s t u : State} (h : DecoderRead s t) (h' : DecoderRead t u) : DecoderRead s u := by
  obtain ⟨k, hk⟩ := h.fifo
  obtain ⟨j, hj⟩ := h'.fifo
  refine ⟨h.elsewhere.trans h'.elsewhere, h'.eof.trans h.eof, ⟨k + j, by rw [hj, hk, List.drop_drop]⟩, fun hs => ?_, fun hf => ?_,
    h'.src.trans h.src⟩
  · obtain ⟨h1, h2⟩ := h.own hs
    obtain ⟨h3, h4⟩ := h'.own (h.src.trans hs)
    exact ⟨h3.trans h1, h4.trans h2⟩
  · rw [h'.flt (by rw [h.flt hf]; exact hf), h.flt hf]

theorem BytesTaken.elsewhere {s t : State} (h : BytesTaken s t) : SameElsewhere s t := by
  have hf := h.frame
  exact ⟨by rw [hf]; rfl, by rw [hf]; rfl, by rw [hf]; rfl, by rw [hf]; rfl, by rw [hf]; rfl, by rw [hf]; rfl, by rw [hf]; rfl⟩

theorem BytesTaken.read {s t : State} (h : BytesTaken s t) (hs : s.rld.src = .din → t.bu = s.bu ∧ t.lzd = s.lzd) : DecoderRead s t :=
  ⟨h.elsewhere, h.eof, h.fifo, hs, fun _ => h.flt, by rw [h.frame]; rfl⟩

/-- A change of the RLE decoder's registers, its source apart, and of how the command stands. -/
theorem DecoderRead.own_units (s : State) (d : Rld) (q : Sequencer) (r : Option Word) (h : d.src = s.rld.src) :
    DecoderRead s (((s.setRld d).setRsp r).setSeq q) :=
  ⟨⟨rfl, rfl, rfl, rfl, rfl, rfl, rfl⟩, rfl, ⟨0, rfl⟩, fun _ => ⟨rfl, rfl⟩, fun _ => rfl, h⟩

theorem rldSrcByte_leaves (s : State) : (rldSrcByte s).Leaves (DecoderRead s) := by
  unfold rldSrcByte
  cases hs : s.rld.src with
  | din =>
    refine (dinPull_leaves s).mono ?_
    rintro _ ⟨d, rfl, h2, h3⟩
    exact ⟨⟨rfl, rfl, rfl, rfl, rfl, rfl, rfl⟩, h2, h3, fun _ => ⟨rfl, rfl⟩, fun _ => rfl, rfl⟩
  | lzd => exact (lzdNextByte_leaves s).mono fun t h => h.read fun hs' => by rw [hs] at hs'; simp at hs'

/-- The source raises the LZW decoder's faults only, and the latched code while one is latched (45_rle.md R101). -/
theorem rldSrcByte_faulted {s t : State} {c : FaultBits} (h : rldSrcByte s = .faulted c t) :
    s.rld.src = .lzd ∧ (s.lzd.flt = 0#6 ∨ c = s.lzd.flt) := by
  unfold rldSrcByte at h
  cases hs : s.rld.src with
  | din =>
    rw [hs] at h
    rcases dinPull_cases s with ⟨b, rest, -, hp⟩ | ⟨-, -, hp⟩ | ⟨-, -, hp⟩ <;> simp [hp] at h
  | lzd => rw [hs] at h; exact ⟨rfl, lzdNextByte_faulted h⟩

/-- Everything a command that ends on a source byte can come to, if each of its ways on reads no more than the RLE decoder does. -/
theorem rldConclude_read {s u : State} {h : Hold} {atEnd : State → Result} {k : Byte → State → Result}
    (hx : (rldSrcByte s).conclude h atEnd k = .next u) (hend : ∀ t, atEnd t = .next u → DecoderRead t u)
    (hk : ∀ a t, k a t = .next u → DecoderRead t u) : DecoderRead s u := by
  have hl := rldSrcByte_leaves s
  rcases conclude_next hx with ⟨a, t, ht, h⟩ | ⟨t, ht, h⟩ | ⟨t, ht, rfl⟩ | ⟨c, t, ht, rfl⟩ <;> rw [ht] at hl
  · exact DecoderRead.trans hl (hk a t h)
  · exact DecoderRead.trans hl (hend t h)
  · exact DecoderRead.trans hl (.own_units t t.rld (.holding h) t.rsp rfl)
  · obtain ⟨h1, h2⟩ := rldSrcByte_faulted ht
    have hl : DecoderRead s t := hl
    have he := hl.elsewhere
    refine ⟨⟨he.cfg, he.crc, he.bp, he.lze, he.rle, he.cmdErr, he.env⟩, hl.eof, hl.fifo,
      fun hs => by rw [h1] at hs; simp at hs, fun hf => ?_, hl.src⟩
    rcases h2 with h2 | h2
    · exact absurd h2 hf
    · exact h2

theorem rldRespond_read {b : Byte} {s u : State} (h : rldRespond b s = .next u) : DecoderRead s u := by
  rw [respond_next.mp h]; exact .own_units s s.rld _ _ rfl

theorem rldTruncated_read {s u : State} (h : rldTruncated s = .next u) : DecoderRead s u := by
  rw [respond_next.mp h]
  exact .own_units s { s.rld with flt := faultBits .endOfData } _ _ rfl

theorem rldCountRest_read {r : Byte} {s u : State} (h : rldCountRest r s = .next u) : DecoderRead s u :=
  rldConclude_read h (fun _ => rldTruncated_read) fun k t ht => by
    rw [respond_next.mp ht]
    exact .own_units t { t.rld with rb := r, rem := k.setWidth 9 } _ _ rfl

theorem rldRepeatRest_read {s u : State} (h : rldRepeatRest s = .next u) : DecoderRead s u :=
  rldConclude_read h (fun _ => rldTruncated_read) fun _ _ => rldCountRest_read

theorem rldFirstRest_read {s u : State} (h : rldFirstRest s = .next u) : DecoderRead s u :=
  rldConclude_read h (fun t ht => by rw [respond_next.mp ht]; exact .own_units t t.rld _ _ rfl) fun b t ht => by
    split at ht
    · exact rldRepeatRest_read ht
    · exact rldRespond_read ht

end Sys2Proof.Machine
end

