-- ==== Sys2Proof/Laws/Commute.lean ====
section
/-! SUPPORT. The operations that take input do not look at the response port, the sequencer or the host's side, and those that push do not
look at the sequencer: they commute with a change of them. -/

namespace Sys2Proof.Machine

/-! ## Input -/

/-- An input operation's outcome with `f` applied to the state it leaves. -/
def Supply.mapState {α : Type} (f : State → State) : Supply α → Supply α
  | .got a s => .got a (f s)
  | .eod s => .eod (f s)
  | .waits s => .waits (f s)
  | .faulted c s => .faulted c (f s)
  | .broken g => .broken g

/-- `f` leaves alone all that the input operations read or write. -/
structure SparesInput (f : State → State) : Prop where
  cfg : ∀ s, (f s).cfg = s.cfg
  bu : ∀ s, (f s).bu = s.bu
  lzd : ∀ s, (f s).lzd = s.lzd
  din : ∀ s, (f s).din = s.din
  rld : ∀ s, (f s).rld = s.rld
  setBu : ∀ s b, f (s.setBu b) = (f s).setBu b
  setLzd : ∀ s d, f (s.setLzd d) = (f s).setLzd d
  setDin : ∀ s d, f (s.setDin d) = (f s).setDin d
  setRld : ∀ s d, f (s.setRld d) = (f s).setRld d

theorem sparesInput_setSeq (q : Sequencer) : SparesInput fun s => s.setSeq q :=
  ⟨fun _ => rfl, fun _ => rfl, fun _ => rfl, fun _ => rfl, fun _ => rfl, fun _ _ => rfl, fun _ _ => rfl, fun _ _ => rfl, fun _ _ => rfl⟩

theorem sparesInput_setRsp (r : Option Word) : SparesInput fun s => s.setRsp r :=
  ⟨fun _ => rfl, fun _ => rfl, fun _ => rfl, fun _ => rfl, fun _ => rfl, fun _ _ => rfl, fun _ _ => rfl, fun _ _ => rfl, fun _ _ => rfl⟩

theorem sparesInput_answered (r : Response) : SparesInput fun s => answered r s :=
  ⟨fun _ => rfl, fun _ => rfl, fun _ => rfl, fun _ => rfl, fun _ => rfl, fun _ _ => rfl, fun _ _ => rfl, fun _ _ => rfl, fun _ _ => rfl⟩

/-- A change of what the host accepts. -/
theorem sparesInput_ready (r : Ready) : SparesInput fun s => { s with env := { s.env with ready := r } } :=
  ⟨fun _ => rfl, fun _ => rfl, fun _ => rfl, fun _ => rfl, fun _ => rfl, fun _ _ => rfl, fun _ _ => rfl, fun _ _ => rfl, fun _ _ => rfl⟩

section
variable {f : State → State}

theorem Supply.mapState_andThen {α β : Type} {x : Supply α} {k : α → State → Supply β}
    (hk : ∀ a s, k a (f s) = (k a s).mapState f) : (x.mapState f).andThen k = (x.andThen k).mapState f := by
  cases x <;> first | rfl | exact hk _ _

variable (hf : SparesInput f)
include hf

theorem dinPull_map (s : State) : dinPull (f s) = (dinPull s).mapState f := by
  unfold dinPull
  rw [hf.din]
  split
  · rw [← hf.setDin]; rfl
  · split <;> rfl

theorem buFill_map (n : Nat) (s : State) : buFill n (f s) = (buFill n s).mapState f := by
  induction n generalizing s with
  | zero => rfl
  | succ n ih =>
    unfold buFill
    rw [hf.bu]
    split
    · rw [dinPull_map hf]
      refine Supply.mapState_andThen fun b s => ?_
      rw [← ih]
      unfold buAppend
      rw [hf.setBu, hf.bu]
    · rfl

theorem buRead_map (s : State) : buRead (f s) = (buRead s).mapState f := by
  unfold buRead
  rw [buFill_map hf]
  refine Supply.mapState_andThen fun _ s => ?_
  simp only [buTake, Supply.mapState, hf.setBu, hf.bu]

theorem lzdInit_map (s : State) : lzdInit (f s) = f (lzdInit s) := by simp only [lzdInit, hf.setBu, hf.setLzd, hf.lzd, hf.bu]

theorem lzdGrow_map (s : State) : lzdGrow (f s) = f (lzdGrow s) := by
  unfold lzdGrow
  rw [hf.lzd, hf.bu]
  by_cases h : fillsWidth s.lzd.size.toNat s.bu.width = true
  · rw [if_pos h, if_pos h]; unfold buSetWidth; rw [hf.setBu, hf.bu]
  · rw [if_neg h, if_neg h]

theorem lzdExtend_map (c : Code) (e : List Byte) (s : State) : lzdExtend c e (f s) = (lzdExtend c e s).mapState f := by
  unfold lzdExtend
  simp only [hf.lzd, hf.cfg, hf.bu]
  split
  · rfl
  split
  · rfl
  split
  · have h1 : ∀ l, lzdAssign l (f s) = f (lzdAssign l s) := fun l => by unfold lzdAssign; rw [hf.setLzd, hf.lzd]
    have h2 : ∀ l s, lzdEmit c l (f s) = f (lzdEmit c l s) := fun l s => by unfold lzdEmit; rw [hf.setLzd, hf.lzd]
    rw [h1, lzdGrow_map hf, h2]; rfl
  · rfl

theorem lzdCode_map (c : Code) (s : State) : lzdCode c (f s) = (lzdCode c s).mapState f := by
  unfold lzdCode lzdFirst lzdLookUp lzdKwk
  simp only [hf.lzd]
  split
  · split
    · simp only [Supply.mapState, hf.setLzd]
    · rfl
  split
  · split
    · exact lzdExtend_map hf _ _ _
    · rfl
  split
  · split
    · exact lzdExtend_map hf _ _ _
    · rfl
  · rfl

theorem lzdLoop_map (n : Nat) (s : State) : lzdLoop n (f s) = (lzdLoop n s).mapState f := by
  induction n generalizing s with
  | zero => rfl
  | succ n ih =>
    unfold lzdLoop
    rw [buRead_map hf]
    refine Supply.mapState_andThen fun c s => ?_
    split
    · rw [lzdInit_map hf, ih]
    · exact lzdCode_map hf _ _

theorem lzdPop_map (s : State) : lzdPop (f s) = (lzdPop s).mapState f := by
  unfold lzdPop
  simp only [hf.lzd]
  split
  · simp only [Supply.mapState, hf.setLzd]
  · rfl

theorem lzdNextByte_map (s : State) : lzdNextByte (f s) = (lzdNextByte s).mapState f := by
  unfold lzdNextByte lzdStep
  simp only [hf.lzd, hf.bu, hf.din]
  split
  · rfl
  split
  · rw [lzdLoop_map hf]; exact Supply.mapState_andThen fun _ _ => lzdPop_map hf _
  · exact lzdPop_map hf _

theorem rldSrcByte_map (s : State) : rldSrcByte (f s) = (rldSrcByte s).mapState f := by
  unfold rldSrcByte
  rw [hf.rld]
  split
  · exact dinPull_map hf s
  · exact lzdNextByte_map hf s

end

/-- More turns of the loop of `BuRead` than bytes it needs make no difference (42_bitstream.md R71). -/
theorem buFill_turns (n m : Nat) {s : State} (h24 : s.bu.width.toNat ≤ 24) (hn : s.bu.width.toNat ≤ s.bu.cnt.toNat + 8 * n)
    (hm : s.bu.width.toNat ≤ s.bu.cnt.toNat + 8 * m) : buFill n s = buFill m s := by
  have hz : ∀ m (s : State), s.bu.width.toNat ≤ s.bu.cnt.toNat → buFill m s = .got () s := by
    intro m s h; cases m with
    | zero => rfl
    | succ m => simp [buFill, h]
  induction n generalizing m s with
  | zero => rw [hz 0 s (by omega), hz m s (by omega)]
  | succ n ih =>
    cases m with
    | zero => rw [hz 0 s (by omega), hz _ s (by omega)]
    | succ m =>
      unfold buFill
      split
      · rcases dinPull_cases s with ⟨c, rest, hf, hp⟩ | ⟨hf, he, hp⟩ | ⟨hf, he, hp⟩ <;> rw [hp]
        · have hc : (buAppend c (s.setDin { s.din with fifo := rest })).bu.cnt.toNat = s.bu.cnt.toNat + 8 := by
            show (s.bu.cnt + 8#6).toNat = _; rw [BitVec.toNat_add]; simp; omega
          have hw : (buAppend c (s.setDin { s.din with fifo := rest })).bu.width = s.bu.width := rfl
          exact ih m (by rw [hw]; exact h24) (by rw [hc, hw]; omega) (by rw [hc, hw]; omega)
        · rfl
        · rfl
      · rfl

/-! ## Output -/

/-- An output operation's outcome with `f` applied to the state it leaves. -/
def Push.mapState (f : State → State) : Push → Push
  | .sent s => .sent (f s)
  | .waits rest s => .waits rest (f s)

theorem doutPush_setSeq (b : Byte) (s : State) (q : Sequencer) : doutPush b (s.setSeq q) = (doutPush b s).map (·.setSeq q) := by
  unfold doutPush
  simp only [State.setSeq_env]
  split <;> rfl

theorem bpEmit_setSeq (n : Nat) (s : State) (q : Sequencer) : bpEmit n (s.setSeq q) = (bpEmit n s).mapState (·.setSeq q) := by
  induction n generalizing s with
  | zero => rfl
  | succ n ih =>
    have hb : bpLowByte (s.setSeq q) = bpLowByte s := rfl
    simp only [bpEmit, doutPush_setSeq, State.setSeq_bp, hb]
    split
    · cases doutPush (bpLowByte s) s with
      | none => rfl
      | some u => exact ih (bpShift u)
    · rfl

theorem bpCloseByte_setSeq (s : State) (q : Sequencer) : bpCloseByte (s.setSeq q) = (bpCloseByte s).mapState (·.setSeq q) := by
  have hb : bpLowByte (s.setSeq q) = bpLowByte s := rfl
  unfold bpCloseByte
  simp only [doutPush_setSeq, State.setSeq_bp, hb]
  split
  · rfl
  · cases doutPush (bpLowByte s) s <;> rfl

theorem pushAll_setSeq (bytes : List Byte) (s : State) (q : Sequencer) :
    pushAll bytes (s.setSeq q) = (pushAll bytes s).mapState (·.setSeq q) := by
  induction bytes generalizing s with
  | nil => rfl
  | cons b bytes ih =>
    simp only [pushAll, doutPush_setSeq]
    cases doutPush b s with
    | none => rfl
    | some u => exact ih u

/-- Bytes that leave the packer in two goes leave it as in one. -/
theorem bpGone_bpGone (k j : Nat) (s : State) : bpGone k (bpGone j s) = bpGone (j + k) s := by
  induction j generalizing s with
  | zero => rw [bpGone_zero, Nat.zero_add]
  | succ j ih => rw [← bpGone_succ, ih, bpGone_succ]; congr 1; omega

end Sys2Proof.Machine
end

