-- ==== Sys2Proof/Laws/Steps.lean ====
section
/-! SUPPORT. One port transfer in a step (20_memory.md R36): what `onePort`, `putBack` and `oneTransfer` do, and everything a step of the
machine can be. -/

namespace Sys2Proof.Machine

/-! ## The ports of one step -/

section
variable (s t : State)

@[simp] theorem onePort_cfg : (onePort s).cfg = s.cfg := rfl
@[simp] theorem onePort_crc : (onePort s).crc = s.crc := rfl
@[simp] theorem onePort_bu : (onePort s).bu = s.bu := rfl
@[simp] theorem onePort_bp : (onePort s).bp = s.bp := rfl
@[simp] theorem onePort_lzd : (onePort s).lzd = s.lzd := rfl
@[simp] theorem onePort_lze : (onePort s).lze = s.lze := rfl
@[simp] theorem onePort_rld : (onePort s).rld = s.rld := rfl
@[simp] theorem onePort_rle : (onePort s).rle = s.rle := rfl
@[simp] theorem onePort_fifo : (onePort s).din.fifo = s.din.fifo.take 1 := rfl
@[simp] theorem onePort_cmdErr : (onePort s).cmdErr = s.cmdErr := rfl
@[simp] theorem onePort_seq : (onePort s).seq = s.seq := rfl
@[simp] theorem onePort_rsp : (onePort s).rsp = s.rsp := rfl
@[simp] theorem onePort_ready : (onePort s).env.ready = s.env.ready.one := rfl
@[simp] theorem onePort_dout : (onePort s).env.dout = s.env.dout := rfl
@[simp] theorem onePort_agenda : (onePort s).env.agenda = s.env.agenda := rfl
@[simp] theorem onePort_taken : (onePort s).env.taken = s.env.taken := rfl

@[simp] theorem putBack_cfg : (putBack s t).cfg = t.cfg := rfl
@[simp] theorem putBack_crc : (putBack s t).crc = t.crc := rfl
@[simp] theorem putBack_bu : (putBack s t).bu = t.bu := rfl
@[simp] theorem putBack_bp : (putBack s t).bp = t.bp := rfl
@[simp] theorem putBack_lzd : (putBack s t).lzd = t.lzd := rfl
@[simp] theorem putBack_lze : (putBack s t).lze = t.lze := rfl
@[simp] theorem putBack_rld : (putBack s t).rld = t.rld := rfl
@[simp] theorem putBack_rle : (putBack s t).rle = t.rle := rfl
@[simp] theorem putBack_fifo : (putBack s t).din.fifo = t.din.fifo ++ s.din.fifo.drop 1 := rfl
@[simp] theorem putBack_eof : (putBack s t).din.eof = s.din.eof := rfl
@[simp] theorem putBack_cmdErr : (putBack s t).cmdErr = t.cmdErr := rfl
@[simp] theorem putBack_seq : (putBack s t).seq = t.seq := rfl
@[simp] theorem putBack_rsp : (putBack s t).rsp = t.rsp := rfl
@[simp] theorem putBack_ready : (putBack s t).env.ready = s.env.ready.putBack t.env.ready := rfl
@[simp] theorem putBack_dout : (putBack s t).env.dout = t.env.dout := rfl
@[simp] theorem putBack_agenda : (putBack s t).env.agenda = t.env.agenda := rfl
@[simp] theorem putBack_taken : (putBack s t).env.taken = t.env.taken := rfl

end

theorem Ready.putBack_one (r : Ready) : r.putBack r.one = r := by
  cases r with
  | always => rfl
  | count n => simp only [Ready.one, Ready.putBack, Ready.count.injEq]; omega

/-- What was set aside for one step, put back, is what there was. -/
theorem putBack_onePort (s : State) : putBack s (onePort s) = s := by
  have h1 : s.din.fifo.take 1 ++ s.din.fifo.drop 1 = s.din.fifo := List.take_append_drop 1 _
  have h2 := s.env.ready.putBack_one
  obtain ⟨_, _, _, _, _, _, _, _, ⟨_, _⟩, _, _, _, ⟨_, _, _, _⟩⟩ := s
  simp only [putBack, onePort, State.setDin, State.setEnv] at h1 h2 ⊢
  rw [h1, h2]

/-- A host that accepts no byte accepts none in the step either. -/
theorem Ready.one_eq_zero {r : Ready} : r.one = .count 0 ↔ r = .count 0 := by
  cases r <;> simp [Ready.one]

/-- An empty DIN is the same DIN in the step. -/
theorem onePort_din_nil {s : State} (h : s.din.fifo = []) : (onePort s).din = s.din := by
  cases hd : s.din with
  | mk f e => rw [hd] at h; subst h; simp [onePort, hd]

/-- No more than one byte is accepted in a step. -/
theorem accepts_onePort {n : Nat} {s : State} (h : accepts n (onePort s)) : n ≤ 1 ∧ accepts n s := by
  unfold accepts at h ⊢
  rw [onePort_ready] at h
  cases hr : s.env.ready with
  | always => rw [hr] at h; exact ⟨h, trivial⟩
  | count k => rw [hr] at h; simp only [Ready.one] at h; exact ⟨by omega, by omega⟩

/-- The bytes accepted in the step are accepted of all the host accepts. -/
theorem Accepted.putBack {s t : State} (h : Accepted (onePort s) t) : Accepted s (putBack s t) := by
  obtain ⟨bytes, ha, he⟩ := h
  obtain ⟨h1, h2⟩ := accepts_onePort ha
  refine ⟨bytes, h2, ?_⟩
  have hr : s.env.ready.putBack (s.env.ready.one.after bytes.length) = s.env.ready.after bytes.length := by
    unfold accepts at h2
    cases hr : s.env.ready with
    | always => rfl
    | count n =>
      rw [hr] at h2
      simp only [Ready.one, Ready.after, Ready.putBack, Ready.count.injEq]
      have : n = 0 ∨ 1 ≤ n := by omega
      omega
  show { t.env with ready := s.env.ready.putBack t.env.ready } = _
  rw [he]
  simp only [handedOver, onePort_ready, onePort_dout, onePort_agenda, onePort_taken, hr]

/-- A command that has pulled DIN bytes in the step has pulled one of all there are, or none. -/
theorem putBack_pulled {s t : State} (h : ∃ k, t.din.fifo = (onePort s).din.fifo.drop k) :
    ∃ k, k ≤ 1 ∧ (putBack s t).din.fifo = s.din.fifo.drop k := by
  obtain ⟨k, hk⟩ := h
  rw [onePort_fifo] at hk
  rw [putBack_fifo, hk]
  cases hf : s.din.fifo with
  | nil => exact ⟨0, by omega, by simp⟩
  | cons b rest =>
    cases k with
    | zero => exact ⟨0, by omega, by simp⟩
    | succ k => exact ⟨1, by omega, by simp⟩

/-- Everything one transfer of a command can be. -/
theorem oneTransfer_next {command : State → Result} {s t : State} :
    oneTransfer command s = .next t ↔ ∃ u, command (onePort s) = .next u ∧ t = putBack s u := by
  unfold oneTransfer
  cases command (onePort s) with
  | next u => simp [eq_comm]
  | fault f => simp
  | refused r => simp

/-- A command that changes nothing in the step changes nothing at all. -/
theorem oneTransfer_self {command : State → Result} {s : State} (h : command (onePort s) = .next (onePort s)) :
    oneTransfer command s = .next s := oneTransfer_next.mpr ⟨_, h, (putBack_onePort s).symm⟩

/-! ## Legal states -/

theorem onePort_units {s : State} (h : UnitsLegal s) : UnitsLegal (onePort s) :=
  ⟨h.cfg, h.bu, h.lzd, h.lze, h.rld, by have := h.din; rw [onePort_fifo, onePort_cfg, List.length_take]; omega⟩

theorem onePort_settled {s : State} (h : s.settled) : (onePort s).settled := ⟨onePort_units h.1, h.2⟩

theorem onePort_heldLegal {hd : Hold} {s : State} (h : heldLegal hd s) : heldLegal hd (onePort s) := by cases hd <;> exact h

/-- The state a step leaves is legal with the bytes behind the first put back, if no byte came into DIN. -/
theorem putBack_legal {s t : State} (h : t.legal) (hs : UnitsLegal s) (hc : t.cfg = s.cfg)
    (hf : t.din.fifo.length ≤ (onePort s).din.fifo.length) : (putBack s t).legal := by
  have hu := h.units
  refine ⟨⟨hu.cfg, hu.bu, hu.lzd, hu.lze, hu.rld, ?_⟩, h.rsp, ?_⟩
  · have := hs.din
    rw [onePort_fifo, List.length_take] at hf
    rw [putBack_fifo, putBack_cfg, hc, List.length_append, List.length_drop]
    omega
  · have hq := h.seq
    unfold seqLegal at hq ⊢
    rw [putBack_seq]
    cases hseq : t.seq with
    | idle => rw [hseq] at hq; exact hq
    | arrived w => rw [hseq] at hq; exact hq
    | holding hd => rw [hseq] at hq; exact ⟨by cases hd <;> exact hq.1, hq.2⟩

/-! ## Steps -/

@[simp] theorem withAgenda_seq (a : List HostTurn) (s : State) : (withAgenda a s).seq = s.seq := rfl
@[simp] theorem withAgenda_rsp (a : List HostTurn) (s : State) : (withAgenda a s).rsp = s.rsp := rfl
@[simp] theorem withAgenda_din (a : List HostTurn) (s : State) : (withAgenda a s).din = s.din := rfl
@[simp] theorem withAgenda_cfg (a : List HostTurn) (s : State) : (withAgenda a s).cfg = s.cfg := rfl

theorem hostEnabled_withAgenda (t : HostTurn) (a : List HostTurn) (s : State) : hostEnabled t (withAgenda a s) = hostEnabled t s := by
  cases t <;> rfl

/-- Everything a step can be: a turn the host takes, or the block's turn, after the host has let it move or with the host's turns as
they were. -/
theorem step_next {s t : State} (h : step s = .next t) :
    (∃ m rest, s.env.agenda = m :: rest ∧ hostEnabled m s = true ∧ t = hostMove m (withAgenda rest s)) ∨
    (∃ rest, s.env.agenda = .yield :: rest ∧ blockTurn (withAgenda rest s) = .next t) ∨
    ((s.env.agenda = [] ∨ ∃ m rest, s.env.agenda = m :: rest ∧ hostEnabled m s = false) ∧ blockTurn s = .next t) := by
  unfold step machineStep at h
  split at h
  · rename_i ha; exact .inr (.inr ⟨.inl ha, h⟩)
  · rename_i rest ha; exact .inr (.inl ⟨rest, ha, h⟩)
  · rename_i m rest _ ha
    split at h
    · rename_i he; exact .inl ⟨m, rest, ha, he, (by simpa using h : _ = t).symm⟩
    · rename_i he; exact .inr (.inr ⟨.inr ⟨m, rest, ha, by simpa using he⟩, h⟩)

/-- Everything the block's turn can be: nothing; a command that makes no transfer, whole, or a word that is no command; or one transfer of the command
that has arrived or is in progress. -/
theorem blockTurn_next {s t : State} (h : blockTurn s = .next t) :
    (s.seq = .idle ∧ t = s) ∨
    (∃ w, s.seq = .arrived w ∧ wordTransfers w = false ∧ execWord w s = .next t) ∨
    (∃ w, s.seq = .arrived w ∧ wordTransfers w = true ∧ ∃ u, execWord w (onePort s) = .next u ∧ t = putBack s u) ∨
    (∃ hd, s.seq = .holding hd ∧ ∃ u, resume hd (onePort s) = .next u ∧ t = putBack s u) := by
  unfold blockTurn at h
  split at h
  · rename_i hs; exact .inl ⟨hs, (by simpa using h : s = t).symm⟩
  · rename_i w hs
    unfold startWord at h
    split at h
    · rename_i hw; exact .inr (.inr (.inl ⟨w, hs, hw, oneTransfer_next.mp h⟩))
    · rename_i hw; exact .inr (.inl ⟨w, hs, by simpa using hw, h⟩)
  · rename_i hd hs; exact .inr (.inr (.inr ⟨hd, hs, oneTransfer_next.mp h⟩))

end Sys2Proof.Machine
end

