-- ==== Sys2Proof/Tests/Slice0.lean ====
section
/-! SUPPORT. The model's own tests. Every expected value comes from spec/: the words from the encoding tables of 30_encoding.md, the results
from the vectors of 95_test_vectors.md (named in each comment) or the examples and corner cases of the rule named. The second half shows, for each statement with
hypotheses, a state and operands that meet them. -/

namespace Sys2Proof.Machine

/- The tests are elaborated one after another: each waits for the kernel, and one waiting thread for each would not fit the memory limit. -/
set_option Elab.async false

/-! ## Helpers -/

/-- The state after a command or a step, if there is one. -/
def after : Result → Option State
  | .next s => some s
  | _ => none

/-- The response that waits after it. -/
def rspAfter (r : Result) : Option Word := (after r).bind State.rsp

/-- The bytes the host has after it. -/
def doutAfter (r : Result) : List Byte := ((after r).map fun s => s.env.dout).getD []

/-- The reset state with bytes in DIN. -/
def feeding (bytes : List Byte) (eof : Bool) : State := { State.reset with din := { fifo := bytes, eof := eof } }

/-- The reset state with the unpacker at `w` and bytes in DIN. -/
def unpacking (w : BitVec 5) (bytes : List Byte) (eof : Bool) : State :=
  { feeding bytes eof with bu := { width := w, acc := 0#32, cnt := 0#6 } }

/-- The reset state with a packer that holds `cnt` bits and a host that accepts `r`. -/
def packing (w : BitVec 5) (acc : BitVec 32) (cnt : BitVec 6) (r : Ready) : State :=
  { State.reset with bp := { width := w, acc := acc, cnt := cnt }, env := { HostSide.start with ready := r } }

/-- A decoder that has taken the literal `w` since its initialisation. -/
def takenLiteral (w : Code) : Lzd := { Lzd.reset with w := w, fresh := false }

/-- The reset state with a decoder that has taken 0x41, and bytes in DIN. -/
def decoding (bytes : List Byte) (eof : Bool) : State := { feeding bytes eof with lzd := takenLiteral 0x41#24 }

/-- An encoder that holds the prefix `w`. -/
def holdingPrefix (w : List Byte) : Lze := { Lze.reset with hasw := true, wseq := w }

/-- The reset state with an encoder that holds the prefix 41, and a host that accepts `r`. -/
def encoding (r : Ready) : State :=
  { State.reset with lze := holdingPrefix [0x41#8], env := { HostSide.start with ready := r } }

/-! ## Well-formedness: each check refuses an ill-formed command (30_encoding.md R58) -/

theorem test_buSetw_width_0_ill : ¬ (Instr.buSetw 0#5).WellFormed := by decide
theorem test_buSetw_width_25_ill : ¬ (Instr.buSetw 25#5).WellFormed := by decide
theorem test_bpSetw_width_0_ill : ¬ (Instr.bpSetw 0#5).WellFormed := by decide
theorem test_bpSetw_width_25_ill : ¬ (Instr.bpSetw 25#5).WellFormed := by decide
theorem test_regRd_0x13_ill : ¬ (Instr.regRd 0x13#5).WellFormed := by decide
theorem test_bounds_well_formed :
    (Instr.buSetw 1#5).WellFormed ∧ (Instr.buSetw 24#5).WellFormed ∧ (Instr.bpSetw 1#5).WellFormed ∧
    (Instr.bpSetw 24#5).WellFormed ∧ (Instr.regRd 0x12#5).WellFormed := by decide

/-! ## Words (30_encoding.md R41, R42, R46, R56) -/

theorem test_decode_control :
    decode 0x00000000#32 = .ok .nop ∧ decode 0x01000000#32 = .ok .reset ∧ decode 0x02000012#32 = .ok (.regRd 18#5) := by decide
theorem test_decode_crc :
    decode 0x10000000#32 = .ok .crcRst ∧ decode 0x11000031#32 = .ok (.crcUpd 49#8) ∧ decode 0x12000000#32 = .ok .crcVal := by decide
theorem test_decode_unpacker :
    decode 0x2000000C#32 = .ok (.buSetw 12#5) ∧ decode 0x21000000#32 = .ok .buIncw ∧ decode 0x22000000#32 = .ok .buRd ∧
    decode 0x23000000#32 = .ok .buClr := by decide
theorem test_decode_packer :
    decode 0x28000018#32 = .ok (.bpSetw 24#5) ∧ decode 0x29000000#32 = .ok .bpIncw ∧
    decode 0x2A000ABC#32 = .ok (.bpWr 2748#24) ∧ decode 0x2AFFFFFF#32 = .ok (.bpWr 16777215#24) ∧
    decode 0x2B000000#32 = .ok .bpClose := by decide
theorem test_decode_lzw_decoder : decode 0x30000000#32 = .ok .lzdRd ∧ decode 0x31000000#32 = .ok .lzdClr := by decide
theorem test_decode_lzw_encoder :
    decode 0x38000041#32 = .ok (.lzeWr 65#8) ∧ decode 0x39000000#32 = .ok .lzeClr ∧ decode 0x3A000000#32 = .ok .lzeFlush := by decide
theorem test_decode_rle_decoder :
    decode 0x40000000#32 = .ok .rldRd ∧ decode 0x410000DB#32 = .ok (.rldEsc 219#8) ∧ decode 0x42000000#32 = .ok .rldRst ∧
    decode 0x43000001#32 = .ok (.rldSrc 1#1) ∧ decode 0x43000000#32 = .ok (.rldSrc 0#1) := by decide
theorem test_decode_rle_encoder :
    decode 0x48000007#32 = .ok (.rleWr 7#8) ∧ decode 0x49000000#32 = .ok .rleFlush ∧ decode 0x4A000041#32 = .ok (.rleEsc 65#8) := by decide
/-- R56 and the gaps of R47: an unassigned opcode inside each group, and above the last. -/
theorem test_unassigned_opcodes :
    [0x03000000#32, 0x0F000000#32, 0x13000000#32, 0x24000000#32, 0x2C000000#32, 0x32000000#32, 0x3B000000#32, 0x44000000#32,
      0x4B000000#32, 0x50000000#32, 0xFF000000#32].all (fun w => decide (decode w = .error .unassignedOpcode)) = true := by decide
/-- The first bit above each form's used bits. -/
theorem test_stray_bits :
    [0x00000001#32, 0x02000020#32, 0x11000100#32, 0x20000020#32, 0x43000002#32, 0x4A000100#32].all
      (fun w => decide (decode w = .error .strayOperandBit)) = true := by decide
theorem test_table_words :
    decodeTableWord 32 0x2000000C = some (.buSetw 12#5) ∧ decodeTableWord 32 0x05000000 = none ∧
    decodeTableWord 32 0x43000001 = some (.rldSrc 1#1) := by decide
/-- 70_reset_and_hazards.md R119: there is a next state after RESET from a state with everything latched. -/
theorem witness_ResetSetsEveryElement :
    ∃ t, exec .reset { State.reset with lzd := { Lzd.reset with flt := 3#6 }, rld := { Rld.reset with flt := 4#6 }, cmdErr := true } = .next t :=
  ⟨_, rfl⟩
theorem test_fetch_word : rspAfter (step (State.reset.withFetchWord 32 0x02000009)) = some 0x00000101#32 := by decide +kernel
theorem test_fetch_illegal_word : rspAfter (step (State.reset.withFetchWord 32 0x05000000)) = some 0x41000000#32 := by decide +kernel

/-! ## Control commands and the CRC unit -/

theorem test_nop : rspAfter (exec .nop State.reset) = some 0x00000000#32 := by decide +kernel
/-- 40_control.md R63: what was pushed is lost, the latch is cleared, DOUT stays. -/
theorem test_reset :
    (after (exec .reset { feeding [1#8] true with lzd := { Lzd.reset with flt := 3#6 }, env := { HostSide.start with dout := [7#8] } })).map
      (fun t => (t.din.fifo, t.din.eof, t.lzd.flt, t.env.dout)) = some ([], false, 0#6, [7#8]) := by decide +kernel
/-- V-CTL1: STATUS and LZD_SIZE after reset. -/
theorem test_regRd_reset_values :
    rspAfter (exec (.regRd 0#5) State.reset) = some 0x00000020#32 ∧ rspAfter (exec (.regRd 9#5) State.reset) = some 0x00000101#32 := by
  decide +kernel
/-- V-RLD6: RLD_REP after two of the five copies. -/
theorem test_regRd_rld_rep :
    rspAfter (exec (.regRd 0x0F#5) { State.reset with rld := { Rld.reset with rb := 7#8, rem := 3#9 } }) = some 0x00000307#32 := by
  decide +kernel
theorem test_crcRst : (after (exec .crcRst { State.reset with crc := 0xFC85#16 })).map State.crc = some 0x0000#16 := by decide +kernel
/-- T1: the last entry of the table. -/
theorem test_crcUpd_table_end : (after (exec (.crcUpd 0xFF#8) State.reset)).map State.crc = some 0x1EF0#16 := by decide +kernel
/-- V-CRC2: the second byte. -/
theorem test_crcUpd_second_byte : (after (exec (.crcUpd 0x42#8) { State.reset with crc := 0x58E5#16 })).map State.crc = some 0x567B#16 := by
  decide +kernel
theorem test_crcVal : rspAfter (exec .crcVal { State.reset with crc := 0x31C3#16 }) = some 0x000031C3#32 := by decide +kernel

/-! ## The bit stream -/

/-- V-BU6. -/
theorem test_buSetw : rspAfter (exec (.buSetw 25#5) State.reset) = some 0x42000000#32 ∧
    (after (exec (.buSetw 24#5) State.reset)).map (fun t => t.bu.width) = some 24#5 := by decide +kernel
theorem test_buIncw : rspAfter (exec .buIncw (unpacking 24#5 [] true)) = some 0x42000000#32 ∧
    (after (exec .buIncw (unpacking 23#5 [] true))).map (fun t => t.bu.width) = some 24#5 := by decide +kernel
/-- V-BU3: the first byte is the least significant. -/
theorem test_buRd_24 : rspAfter (exec .buRd (unpacking 24#5 [0x12#8, 0x34#8, 0x56#8] true)) = some 0x00563412#32 := by decide +kernel
/-- V-BU2: END keeps the bits pulled. -/
theorem test_buRd_end :
    (after (exec .buRd { unpacking 24#5 [0x0F#8] true with bu := { width := 24#5, acc := 7#32, cnt := 3#6 } })).map
      (fun t => (t.rsp, t.bu.cnt, t.bu.acc)) = some (some 0x80000000#32, 11#6, 0x7F#32) := by decide +kernel
theorem test_buClr :
    (after (exec .buClr { State.reset with bu := { width := 12#5, acc := 15#32, cnt := 4#6 } })).map (fun t => t.bu) =
      some { width := 12#5, acc := 0#32, cnt := 0#6 } := by decide +kernel
/-- V-BP4. -/
theorem test_bpSetw : rspAfter (exec (.bpSetw 0#5) State.reset) = some 0x42000000#32 ∧
    (after (exec (.bpSetw 24#5) State.reset)).map (fun t => t.bp.width) = some 24#5 := by decide +kernel
theorem test_bpIncw : rspAfter (exec .bpIncw (packing 24#5 0#32 0#6 .always)) = some 0x42000000#32 ∧
    (after (exec .bpIncw State.reset)).map (fun t => t.bp.width) = some 10#5 := by decide +kernel
/-- V-BP1: 0xFABC at width 12 writes 0xABC. -/
theorem test_bpWr_masks :
    (after (exec (.bpWr 0xFABC#24) (packing 12#5 0#32 0#6 .always))).map (fun t => (t.env.dout, t.bp.acc, t.bp.cnt)) =
      some ([0xBC#8], 0xA#32, 4#6) := by decide +kernel
/-- 42_bitstream.md R80: a width-24 write on 7 bits emits 3 bytes and leaves 7 bits. -/
theorem test_bpWr_24_on_7 :
    (after (exec (.bpWr 0xFFFFFF#24) (packing 24#5 0#32 7#6 .always))).map (fun t => (t.env.dout, t.bp.acc, t.bp.cnt)) =
      some ([0x80#8, 0xFF#8, 0xFF#8], 0x7F#32, 7#6) := by decide +kernel
theorem test_bpClose : doutAfter (exec .bpClose (packing 12#5 0xA#32 4#6 .always)) = [0x0A#8] := by decide +kernel

/-! ## LZW -/

/-- V-LZD1: code 042 after 041 gives 42 and makes the entry 41 42. -/
theorem test_lzdRd_entry :
    (after (exec .lzdRd { decoding [0x04#8, 0x1C#8, 0x08#8] true with bu := { width := 9#5, acc := 0x42#32, cnt := 7#6 } })).map
      (fun t => (t.rsp, t.lzd.built, t.lzd.size, t.lzd.w)) =
      some (some 0x00000042#32, [[0x41#8, 0x42#8]], 0x102#24, 0x42#24) := by decide +kernel
/-- V-LZD2: the KwK case, 041 101: the second LZD_READ gives 41, with 41 pending and the entry 41 41. -/
theorem test_lzdRd_kwk :
    (after (exec .lzdRd { decoding [0x02#8] true with bu := { width := 9#5, acc := 0x01#32, cnt := 7#6 } })).map
      (fun t => (t.rsp, t.lzd.pend, t.lzd.built, t.lzd.w)) = some (some 0x00000041#32, [0x41#8], [[0x41#8, 0x41#8]], 0x101#24) := by
  decide +kernel
/-- V-LZD11: pending output stays. -/
theorem test_lzdClr :
    (after (exec .lzdClr { State.reset with lzd := { takenLiteral 0x101#24 with built := [[0x41#8, 0x41#8]], size := 258#24, pend := [0x41#8] } })).map
      (fun t => (t.lzd.size, t.lzd.fresh, t.lzd.pend, t.bu.width)) = some (257#24, true, [0x41#8], 9#5) := by decide +kernel
/-- V-LZE1: the second byte emits 041. -/
theorem test_lzeWr_emits :
    (after (exec (.lzeWr 0x42#8) (encoding .always))).map (fun t => (t.env.dout, t.lze.built, t.lze.size, t.lze.wseq)) =
      some ([0x41#8], [([0x41#8, 0x42#8], 0x101#24)], 0x102#24, [0x42#8]) := by decide +kernel
/-- V-LZE8: the refusal at `DICT_CAP`. -/
theorem test_lzeWr_full :
    rspAfter (exec (.lzeWr 0x43#8) { encoding .always with
      cfg := { dictCap := 258, inDepth := 4 },
      lze := { holdingPrefix [0x42#8] with built := [([0x41#8, 0x42#8], 0x101#24)], size := 258#24 } }) = some 0x46000000#32 := by
  decide +kernel
/-- V-LZE6: a clear on a fresh encoder is the clear code alone. -/
theorem test_lzeClr_fresh :
    (after (exec .lzeClr State.reset)).map (fun t => (t.env.dout, t.bp.acc, t.bp.cnt)) = some ([0x00#8], 1#32, 1#6) := by decide +kernel
/-- 44_lzw_encoder.md R98: "A" gives 41 00. -/
theorem test_lzeFlush : doutAfter (exec .lzeFlush (encoding .always)) = [0x41#8, 0x00#8] := by decide +kernel

/-! ## RLE -/

/-- V-RLD1: an escape sequence. -/
theorem test_rldRd_escape :
    (after (exec .rldRd (feeding [0xDB#8, 0x42#8, 0x03#8, 0x43#8] true))).map (fun t => (t.rsp, t.rld.rem, t.din.fifo)) =
      some (some 0x00000042#32, 3#9, [0x43#8]) := by decide +kernel
/-- V-RLD4: the source ends after the repeated byte. -/
theorem test_rldRd_truncated : rspAfter (exec .rldRd (feeding [0xDB#8, 0x41#8] true)) = some 0x44000000#32 := by decide +kernel
theorem test_rldEsc : (after (exec (.rldEsc 0x41#8) State.reset)).map (fun t => t.rld.esc) = some 0x41#8 := by decide +kernel
/-- V-RLD6. -/
theorem test_rldRst :
    (after (exec .rldRst { State.reset with rld := { Rld.reset with rb := 7#8, rem := 3#9 } })).map (fun t => (t.rld.rb, t.rld.rem)) =
      some (0#8, 0#9) := by decide +kernel
/-- 45_rle.md R105: STATUS bit 7 follows. -/
theorem test_rldSrc : (after (exec (.rldSrc 1#1) State.reset)).map (fun t => (statusRegister t).getLsbD 7) = some true := by decide +kernel
/-- V-RLE4: the 256th byte writes the run. -/
theorem test_rleWr_full :
    (after (exec (.rleWr 7#8) { State.reset with rle := { Rle.reset with rb := 7#8, len := 255#9 } })).map (fun t => (t.env.dout, t.rle.len)) =
      some ([0xDB#8, 0x07#8, 0xFF#8], 0#9) := by decide +kernel
/-- V-RLE7: another byte writes a lone byte as it is. -/
theorem test_rleWr_new :
    (after (exec (.rleWr 8#8) { State.reset with rle := { Rle.reset with rb := 7#8, len := 1#9 } })).map (fun t => (t.env.dout, t.rle.rb, t.rle.len)) =
      some ([0x07#8], 8#8, 1#9) := by decide +kernel
/-- V-RLE3: a lone escape byte is escape-encoded. -/
theorem test_rleFlush :
    doutAfter (exec .rleFlush { State.reset with rle := { Rle.reset with rb := 0xDB#8, len := 1#9 } }) = [0xDB#8, 0xDB#8, 0x00#8] := by
  decide +kernel
/-- V-RLE9: the run is written under the old escape byte. -/
theorem test_rleEsc :
    (after (exec (.rleEsc 0x41#8) { State.reset with rle := { Rle.reset with rb := 0x41#8, len := 2#9 } })).map (fun t => (t.env.dout, t.rle.esc)) =
      some ([0xDB#8, 0x41#8, 0x01#8], 0x41#8) := by decide +kernel

/-! ## Witnesses: for each statement with hypotheses, a state and operands that meet them, for each of its clauses -/

theorem reset_settled : State.reset.settled := ⟨applyReset_core (s := State.reset) (by decide), applyReset_quiet State.reset⟩

theorem reset_legal_state : State.reset.legal :=
  ⟨reset_settled.1, fun _ h => by simp [State.reset] at h, applyReset_quiet State.reset⟩

theorem takenLiteral_legal {n : Nat} {w : Code} (hn : 258 ≤ n) (hw : w.toNat < 256) : (takenLiteral w).legal n where
  size_eq := rfl
  size_le := show 257 ≤ n by omega
  grows := grown_nil
  w_lt := show w.toNat < 257 by omega
  w_ne := fun h => by rw [show (takenLiteral w).w = w from rfl] at h; rw [h] at hw; simp at hw
  fresh_w := fun h => by simp [takenLiteral] at h
  pend_le := show 0 + 256 ≤ n by omega
  flt_mem := .inl rfl

theorem holdingPrefix_legal {n : Nat} (b : Byte) (hn : 258 ≤ n) : (holdingPrefix [b]).legal n where
  codes := fun k h => by simp [holdingPrefix, Lze.reset] at h
  size_eq := rfl
  size_le := show 257 ≤ n by omega
  grows := grown_nil
  keys := .nil
  no_w := fun h => by simp [holdingPrefix] at h
  w_key := fun _ => rfl
  flt_mem := .inl rfl

/-- A state with empty bit buffers and a fresh RLE codec, the decoder and the encoder as given. -/
theorem settled_of {s : State} (hc : s.cfg.legal) (hw : legalWidth s.bu.width) (hb : s.bu.acc = 0#32 ∧ s.bu.cnt = 0#6)
    (hd : s.lzd.legal s.cfg.dictCap) (he : s.lze.legal s.cfg.dictCap) (hr : s.rld = Rld.reset)
    (hf : s.din.fifo.length ≤ s.cfg.inDepth) (hv : legalWidth s.bp.width) (hp : s.bp.acc = 0#32 ∧ s.bp.cnt = 0#6)
    (hl : s.rle = Rle.reset) : s.settled :=
  ⟨⟨hc, ⟨hw, by rw [hb.2]; decide, by rw [hb.1, hb.2]; decide⟩, hd, he, by rw [hr]; exact ⟨by decide, .inl rfl⟩, hf⟩,
   ⟨hv, by rw [hp.2]; decide, by rw [hp.1, hp.2]; decide⟩, by rw [hl]; decide⟩

theorem decoding_settled (c : Config) (bytes : List Byte) (eof : Bool) (w : BitVec 5) (hc : c.legal) (hw : legalWidth w)
    (hb : bytes.length ≤ c.inDepth) :
    State.settled { decoding bytes eof with cfg := c, bu := { width := w, acc := 0#32, cnt := 0#6 } } :=
  settled_of hc hw ⟨rfl, rfl⟩ (takenLiteral_legal hc.1 (by decide)) (Lze.init_legal hc.1 (.inl rfl)) rfl hb
    (show legalWidth wLzw0 by decide) ⟨rfl, rfl⟩ rfl

theorem encoding_settled (c : Config) (r : Ready) (w : BitVec 5) (hc : c.legal) (hw : legalWidth w) :
    State.settled { encoding r with cfg := c, bp := { width := w, acc := 0#32, cnt := 0#6 } } :=
  settled_of hc (show legalWidth wLzw0 by decide) ⟨rfl, rfl⟩ (Lzd.reset_legal hc.1) (holdingPrefix_legal _ hc.1) rfl (Nat.zero_le _) hw
    ⟨rfl, rfl⟩ rfl

/-- The state after a command, and the command's outcome. -/
theorem next_of_after {r : Result} {t : State} (h : after r = some t) : r = .next t := by
  cases r <;> simp [after] at h ⊢; exact h

theorem next_exists {r : Result} (h : (after r).isSome = true) : ∃ t, r = .next t := by
  obtain ⟨t, ht⟩ := Option.isSome_iff_exists.mp h
  exact ⟨t, next_of_after ht⟩

/-! ### Words and steps -/

theorem witness_DecodeThenEncodeGivesTheWord : decode 0x2A000ABC#32 = .ok (.bpWr 0xABC#24) := by decide

theorem witness_DecodingFollowsTheOpcodeMap :
    (⟨0x11#8, .b8⟩ : OpcodeRow) ∈ opcodeMap ∧ (⟨0x11#8, .b8⟩ : OpcodeRow).accepts 0x110000FF#32 ∧
    ¬ ∃ r ∈ opcodeMap, r.accepts 0x11000100#32 := by decide

theorem witness_IllegalWordsAreRefused :
    (∀ r ∈ opcodeMap, opcOf 0x05000000#32 ≠ r.opc) ∧ (∀ r ∈ opcodeMap, opcOf 0xFF000000#32 ≠ r.opc) ∧
    (∃ r ∈ opcodeMap, opcOf 0x11000100#32 = r.opc ∧ opdOf 0x11000100#32 &&& ~~~r.form.usedBits ≠ 0#24) ∧
    (decode 0x20000000#32 = .ok (.buSetw 0#5) ∧ ¬ (Instr.buSetw 0#5).WellFormed) ∧
    (decode 0x28000019#32 = .ok (.bpSetw 25#5) ∧ ¬ (Instr.bpSetw 25#5).WellFormed) ∧
    (decode 0x02000013#32 = .ok (.regRd 0x13#5) ∧ ¬ (Instr.regRd 0x13#5).WellFormed) := by decide

/-- The host has no turn, or one it may not take (no response waits), or lets the block move: a command of one step, one that makes
port transfers, a word that is no command, a command in progress, and none. -/
theorem witness_StepRunsTheDecodedCommand :
    (∃ s : State, s.seq = .arrived 0x11000031#32 ∧ s.env.agenda = [] ∧ decode 0x11000031#32 = .ok (.crcUpd 0x31#8)) ∧
    (∃ s : State, s.seq = .arrived 0x22000000#32 ∧ s.env.agenda = [.take] ∧ hostEnabled .take s = false ∧
      decode 0x22000000#32 = .ok .buRd ∧ transfers .buRd = true) ∧
    (∃ s : State, s.seq = .arrived 0x05000000#32 ∧ s.env.agenda = [.yield] ∧ decode 0x05000000#32 = .error .unassignedOpcode) ∧
    (∃ s : State, s.seq = .holding .buRead ∧ s.env.agenda = []) ∧ State.reset.seq = .idle :=
  ⟨⟨State.reset.setSeq (.arrived 0x11000031#32), by decide⟩,
   ⟨withAgenda [.take] (State.reset.setSeq (.arrived 0x22000000#32)), by decide⟩,
   ⟨withAgenda [.yield] (State.reset.setSeq (.arrived 0x05000000#32)), by decide⟩,
   ⟨State.reset.setSeq (.holding .buRead), by decide⟩, rfl⟩

/-- BU_READ of 24 bits pulls one byte in a step: after the first two bytes are left, and the command stands before its next transfer
(20_memory.md R36, R38). -/
theorem test_one_pull_in_a_step :
    (after (step ((unpacking 24#5 [1#8, 2#8, 3#8] true).setSeq (.arrived 0x22000000#32)))).map (fun t => (t.din.fifo, t.bu.cnt, t.seq, t.rsp)) =
      some ([2#8, 3#8], 8#6, .holding .buRead, none) := by decide +kernel

/-- The last of its three steps pulls the last byte and answers. -/
theorem test_last_pull_answers :
    (after (step { unpacking 24#5 [3#8] true with
      bu := { width := 24#5, acc := 0x0201#32, cnt := 16#6 }, seq := .holding .buRead })).map (fun t => (t.din, t.seq, t.rsp)) =
      some ({ fifo := [], eof := true }, .idle, some 0x00030201#32) := by decide +kernel

/-- The reset state with a run of two bytes 07 buffered. -/
def bufferingRun (r : Ready) : State :=
  { State.reset with rle := { Rle.reset with rb := 7#8, len := 2#9 }, env := { HostSide.start with ready := r } }

/-- RLE_FLUSH of an escape sequence pushes one of its three bytes in a step, and the host's acceptance counts down by one. -/
theorem test_one_push_in_a_step :
    (after (step ((bufferingRun (.count 3)).setSeq (.arrived 0x49000000#32)))).map (fun t => (t.env.dout, t.env.ready, t.seq, t.rsp)) =
      some ([0xDB#8], .count 2, .holding (.rleFlush [0x07#8, 0x01#8]), none) := by decide +kernel

/-- The reset signal between two of its pushes abandons the command; the byte transferred stays transferred (70_reset_and_hazards.md
R120). -/
theorem test_reset_between_two_pushes :
    (after (step (withAgenda [.resetSignal] { bufferingRun .always with
      seq := .holding (.rleFlush [0x07#8, 0x01#8]), env := { HostSide.start with dout := [0xDB#8] } }))).map
      (fun t => (t.env.dout, t.rle.len, t.seq, t.rsp)) = some ([0xDB#8], 0#9, .idle, none) := by decide +kernel

/-- A command that pulls, from a state between two commands; and a list of one of each kind. -/
theorem witness_RunsOfStepsAreRunsOfCommands :
    State.reset.legal ∧ State.reset.settled ∧ State.reset.seq = .idle ∧ State.reset.rsp = none ∧ State.reset.env.agenda = [] ∧
    (after (exec .buRd State.reset)).map State.seq = some (.holding .buRead) ∧
    (runCommands [.bpWr 0x1FF#24, .crcVal] State.reset).map Prod.fst = some [0x00000000#32, 0x00000000#32] := by
  exact ⟨reset_legal_state, reset_settled, by decide +kernel⟩

/-- Each host turn, where it is enabled and where it is not: a command executes, no response waits, DIN is full. -/
theorem witness_HostStepsAreThoseOfTheInterface :
    (hostEnabled (.send 0#32) State.reset = true ∧ hostEnabled (.send 0#32) (State.reset.setRsp (some 0#32)) = false) ∧
    (hostEnabled .take (State.reset.setRsp (some 0#32)) = true ∧ hostEnabled .take State.reset = false) ∧
    (hostEnabled (.push 1#8) { State.reset with cfg := { dictCap := 258, inDepth := 1 } } = true ∧
      hostEnabled (.push 1#8) { feeding [2#8] false with cfg := { dictCap := 258, inDepth := 1 } } = false) ∧
    (after (step (withAgenda [.signalEof] State.reset))).map (fun t => t.din.eof) = some true ∧
    (after (step (withAgenda [.accept (.count 0)] State.reset))).map (fun t => t.env.ready) = some (.count 0) := by decide +kernel

/-- A BU_READ that holds for want of a bit. -/
theorem witness_HeldCommandWaitsUnchanged_read : ∃ s : State, s.legal ∧ s.env.agenda = [] ∧ s.seq = .holding .buRead ∧ stillBlocked .buRead s := by
  refine ⟨{ State.reset with bu := { width := 9#5, acc := 0xFF#32, cnt := 8#6 }, seq := .holding .buRead }, ⟨?_, ?_, ?_⟩, rfl, rfl, ?_⟩
  · exact { reset_settled.1 with bu := ⟨by decide, by decide, by decide⟩ }
  · exact fun _ h => by simp [State.reset] at h
  · exact ⟨applyReset_quiet State.reset, rfl⟩
  · exact ⟨rfl, rfl, by decide⟩

/-- An LZD_READ, and an RLD_READ that takes its count byte from the LZW decoder. -/
theorem witness_HeldCommandWaitsUnchanged_decoders :
    (∃ s : State, s.legal ∧ s.env.agenda = [] ∧ s.seq = .holding .lzdRead ∧ stillBlocked .lzdRead s) ∧
    (∃ s : State, s.legal ∧ s.env.agenda = [] ∧ s.seq = .holding (.rldCount 7#8) ∧ s.rld.src = .lzd ∧ stillBlocked (.rldCount 7#8) s) := by
  refine ⟨⟨State.reset.setSeq (.holding .lzdRead), ⟨?_, ?_, ?_⟩, rfl, rfl, ?_⟩,
    ⟨{ State.reset with rld := { Rld.reset with src := .lzd }, seq := .holding (.rldCount 7#8) }, ⟨?_, ?_, ?_⟩, rfl, rfl, rfl, ?_⟩⟩
  · exact { reset_settled.1 with }
  · exact fun _ h => by simp [State.reset] at h
  · exact ⟨⟨applyReset_quiet State.reset, rfl, rfl⟩, rfl⟩
  · exact ⟨rfl, rfl, rfl, rfl, by decide⟩
  · exact { reset_settled.1 with rld := ⟨by decide, .inl rfl⟩ }
  · exact fun _ h => by simp [State.reset] at h
  · exact ⟨⟨applyReset_quiet State.reset, rfl, rfl⟩, rfl⟩
  · exact ⟨rfl, rfl, fun _ => ⟨rfl, rfl, by decide⟩⟩

/-- A BP_WRITE that holds with one complete byte. -/
theorem witness_HeldCommandWaitsUnchanged_write : ∃ s : State, s.legal ∧ s.env.agenda = [] ∧ s.seq = .holding .bpWrite ∧ stillBlocked .bpWrite s := by
  refine ⟨{ packing 9#5 0xFF#32 8#6 (.count 0) with seq := .holding .bpWrite }, ⟨?_, ?_, ?_⟩, rfl, rfl, rfl⟩
  · exact { reset_settled.1 with }
  · exact fun _ h => by simp [packing, State.reset] at h
  · exact ⟨⟨⟨by decide, by decide, by decide⟩, by decide, by decide⟩, rfl⟩

theorem witness_ResetSignalAbandonsTheCommand :
    (withAgenda [.resetSignal] (State.reset.setSeq (.holding .buRead))).env.agenda = .resetSignal :: [] := by decide

/-- A step of the host, and one of the block with neither reset, in which a byte moves (see the tests of one transfer in a step). -/
theorem witness_StepsKeepWhatTheHostHas :
    (∃ t, step (withAgenda [.take] (State.reset.setRsp (some 7#32))) = .next t) ∧
    (∃ t, step ((bufferingRun (.count 3)).setSeq (.arrived 0x49000000#32)) = .next t) ∧
    (bufferingRun (.count 3)).env.agenda = [] ∧ Sequencer.arrived 0x49000000#32 ≠ .arrived 0x01000000#32 :=
  ⟨next_exists (by decide +kernel), next_exists (by decide +kernel), rfl, by decide⟩

/-- BP_WRITE of three bytes: all accepted; and where none is accepted, two are, three are and four are, it holds, holds, ends and ends
with one to spare. -/
theorem witness_LateAcceptanceChangesNothing :
    (∃ t, exec (.bpWr 1#24) (packing 24#5 0#32 0#6 .always) = .next t) ∧
    ([0, 2, 3, 4].map fun n => (after (exec (.bpWr 1#24) (packing 24#5 0#32 0#6 (.count n)))).map fun u => (u.seq, u.env.ready)) =
      [some (.holding .bpWrite, .count 0), some (.holding .bpWrite, .count 0), some (.idle, .count 0), some (.idle, .count 1)] :=
  ⟨next_exists (by decide +kernel), by decide +kernel⟩

/-- BU_READ of nine bits from one byte (it holds) and from two (it ends). -/
theorem witness_LateInputChangesNothing :
    (State.settled { State.reset with din := { fifo := [1#8], eof := false } } ∧
      (after (exec .buRd { State.reset with din := { fifo := [1#8], eof := false } })).map State.seq = some (.holding .buRead)) ∧
    (State.settled { State.reset with din := { fifo := [1#8, 2#8], eof := false } } ∧
      (after (exec .buRd { State.reset with din := { fifo := [1#8, 2#8], eof := false } })).map State.seq = some .idle) := by
  have h : ∀ l : List Byte, l.length ≤ 4096 → State.settled { State.reset with din := { fifo := l, eof := false } } := fun l hl =>
    ⟨{ reset_settled.1 with din := hl }, reset_settled.2⟩
  exact ⟨⟨h _ (by decide), by decide +kernel⟩, h _ (by decide), by decide +kernel⟩

/-! ### Responses, registers, the CRC unit -/

/-- One command for each outcome: a hold, done, END, a CmdError, a UnitFault. -/
theorem witness_CommandsHaveFiveOutcomes :
    State.reset.settled ∧ (after (exec .buRd State.reset)).map State.seq = some (.holding .buRead) ∧
    rspAfter (exec .nop State.reset) = some 0x00000000#32 ∧
    (State.settled (feeding [] true) ∧ rspAfter (exec .lzdRd (feeding [] true)) = some 0x80000000#32) ∧
    rspAfter (exec (.buSetw 0#5) State.reset) = some 0x42000000#32 ∧
    (State.settled (feeding [0x01#8, 0x01#8] true) ∧ rspAfter (exec .lzdRd (feeding [0x01#8, 0x01#8] true)) = some 0x43000000#32) := by
  have h : ∀ l : List Byte, l.length ≤ 4096 → State.settled (feeding l true) := fun l hl =>
    ⟨{ reset_settled.1 with din := hl }, reset_settled.2⟩
  exact ⟨reset_settled, by decide +kernel, by decide +kernel, ⟨h _ (by decide), by decide +kernel⟩, by decide +kernel,
    h _ (by decide), by decide +kernel⟩

theorem witness_RegReadReturnsTheRegister :
    State.reset.lze.hasw = false ∧
    ((encoding .always).lze.hasw = true ∧ lzeCode (encoding .always).lze (encoding .always).lze.wseq = some 0x41#24) ∧
    0x13 ≤ (0x13#5 : BitVec 5).toNat ∧ 0x13 ≤ (0x1F#5 : BitVec 5).toNat := by decide

theorem witness_CrcOfASequenceInPieces :
    (runCommands ([0x31#8, 0x32#8].map .crcUpd) State.reset).map Prod.fst = some ([0x31#8, 0x32#8].map fun _ => 0#32) := by decide +kernel

/-! ### The bit stream -/

theorem witness_SetWidthSetsALegalWidth :
    (1 ≤ (1#5 : BitVec 5).toNat ∧ (1#5 : BitVec 5).toNat ≤ 24) ∧ (1 ≤ (24#5 : BitVec 5).toNat ∧ (24#5 : BitVec 5).toNat ≤ 24) ∧
    ((0#5 : BitVec 5).toNat < 1 ∨ 24 < (0#5 : BitVec 5).toNat) ∧ ((25#5 : BitVec 5).toNat < 1 ∨ 24 < (25#5 : BitVec 5).toNat) := by decide

theorem witness_IncreaseWidthAddsOne :
    (unpacking 23#5 [] true).bu.width ≠ 24#5 ∧ (unpacking 24#5 [] true).bu.width = 24#5 ∧
    (packing 23#5 0#32 0#6 .always).bp.width ≠ 24#5 ∧ (packing 24#5 0#32 0#6 .always).bp.width = 24#5 := by decide

/-- Just bits enough: nothing pulled, and three bytes pulled. -/
theorem witness_BuReadReturnsTheNextBits :
    (∃ s : State, s.bu.legal ∧ s.bu.width.toNat = unreadBits s ∧ pulledBytes s = 0) ∧
    (∃ s : State, s.bu.legal ∧ s.bu.width.toNat = unreadBits s ∧ pulledBytes s = 3) :=
  ⟨⟨{ State.reset with bu := { width := 7#5, acc := 0x7F#32, cnt := 7#6 } }, ⟨by decide, by decide, by decide⟩, by decide, by decide⟩,
   ⟨unpacking 24#5 [1#8, 2#8, 3#8] true, ⟨by decide, by decide, by decide⟩, by decide, by decide⟩⟩

/-- One bit too few, with and without the end of source. -/
theorem witness_BuReadEndsOrHolds (e : Bool) :
    (unpacking 9#5 [1#8] e).bu.legal ∧ unreadBits (unpacking 9#5 [1#8] e) + 1 = (unpacking 9#5 [1#8] e).bu.width.toNat ∧
    (unpacking 9#5 [1#8] e).din.eof = e :=
  ⟨⟨show legalWidth 9#5 by decide, by show 0 ≤ 23; decide, by show 0 < 1; decide⟩, rfl, rfl⟩

/-- A host that accepts just the bytes there are. -/
theorem witness_BpWriteSendsCompleteBytes :
    (packing 24#5 0x7F#32 7#6 (.count 3)).bp.legal 7 ∧ accepts (packedBytes (packing 24#5 0x7F#32 7#6 (.count 3))) (packing 24#5 0x7F#32 7#6 (.count 3)) :=
  ⟨⟨by decide, by decide, by decide⟩, accepts_count rfl⟩

/-- One byte too few accepted. -/
theorem witness_BpWriteHoldsAtAnUnacceptedByte :
    (packing 24#5 0x7F#32 7#6 (.count 2)).bp.legal 7 ∧ (packing 24#5 0x7F#32 7#6 (.count 2)).env.ready = .count 2 ∧
    2 < packedBytes (packing 24#5 0x7F#32 7#6 (.count 2)) := ⟨⟨by decide, by decide, by decide⟩, rfl, by decide⟩

/-- A byte to close and a host that accepts one; none to close and a host that accepts none. -/
theorem witness_BpCloseSendsTheLastByte :
    accepts (closingBytes (packing 9#5 1#32 1#6 (.count 1))).length (packing 9#5 1#32 1#6 (.count 1)) ∧
    accepts (closingBytes (packing 9#5 0#32 0#6 (.count 0))).length (packing 9#5 0#32 0#6 (.count 0)) ∧
    ((packing 9#5 1#32 1#6 (.count 0)).bp.cnt ≠ 0#6 ∧ (packing 9#5 1#32 1#6 (.count 0)).env.ready = .count 0) :=
  ⟨accepts_count rfl, accepts_count rfl, by decide⟩

theorem witness_PackedValuesAreReadBack :
    (∀ p ∈ [((24#5 : BitVec 5), (0xFFFFFF#24 : Code)), (1#5, 1#24), (8#5, 0xFF#24)], widthOperandOk p.1 ∧ p.2.toNat < 2 ^ p.1.toNat) ∧
    (∀ p, [((24#5 : BitVec 5), (0xFFFFFF#24 : Code)), (1#5, 1#24), (8#5, 0xFF#24)].getLast? = some p → 7 < p.1.toNat) := by
  refine ⟨by simp [widthOperandOk, wMin, wMax], fun p h => ?_⟩
  simp at h; subst h; decide

/-! ### The LZW decoder -/

theorem witness_LzdReadDrainsPendingOutput :
    ({ Lzd.reset with pend := [0x41#8, 0x42#8] } : Lzd).flt = 0#6 ∧ ({ Lzd.reset with pend := [0x41#8, 0x42#8] } : Lzd).pend = 0x41#8 :: [0x42#8] :=
  ⟨rfl, rfl⟩

/-- The codes 0xFF and 0x101 from a fresh decoder. -/
theorem witness_LzdReadTakesTheFirstCode :
    (∃ s : State, s.bu.legal ∧ s.lzd.flt = 0#6 ∧ s.lzd.pend = [] ∧ s.lzd.fresh = true ∧ s.bu.width.toNat ≤ unreadBits s ∧
      (nextCode s).toNat = 0xFF) ∧
    (∃ s : State, s.bu.legal ∧ s.lzd.flt = 0#6 ∧ s.lzd.pend = [] ∧ s.lzd.fresh = true ∧ s.bu.width.toNat ≤ unreadBits s ∧
      (nextCode s).toNat = 0x101) :=
  ⟨⟨feeding [0xFF#8, 0x00#8] true, ⟨by decide, by decide, by decide⟩, rfl, rfl, rfl, by decide, by decide⟩,
   ⟨feeding [0x01#8, 0x01#8] true, ⟨by decide, by decide, by decide⟩, rfl, rfl, rfl, by decide, by decide⟩⟩

/-- The decoder with 0x41 taken, one entry short of `DICT_CAP`, reads 0x42 and the KwK code 0x101. -/
theorem witness_LzdReadDecodesAnEntry :
    (∃ s : State, s.settled ∧ s.lzd.flt = 0#6 ∧ s.lzd.pend = [] ∧ s.lzd.fresh = false ∧ s.bu.width.toNat ≤ unreadBits s ∧
      nextCode s ≠ 0x100#24 ∧ lzdEntry s.lzd s.lzd.w = some [0x41#8] ∧
      (nextCode s).toNat < s.lzd.size.toNat ∧ lzdEntry s.lzd (nextCode s) = some (0x42#8 :: []) ∧
      s.lzd.size.toNat + 1 = s.cfg.dictCap ∧ ¬ (s.lzd.size.toNat + 1 = 2 ^ s.bu.width.toNat - 1 ∧ s.bu.width = 24#5)) ∧
    (∃ s : State, s.settled ∧ s.lzd.flt = 0#6 ∧ s.lzd.pend = [] ∧ s.lzd.fresh = false ∧ s.bu.width.toNat ≤ unreadBits s ∧
      nextCode s ≠ 0x100#24 ∧ lzdEntry s.lzd s.lzd.w = some [0x41#8] ∧
      nextCode s = s.lzd.size ∧ 0x41#8 :: [0x41#8] = [0x41#8] ++ [0x41#8].take 1 ∧
      s.lzd.size.toNat + 1 = s.cfg.dictCap ∧ ¬ (s.lzd.size.toNat + 1 = 2 ^ s.bu.width.toNat - 1 ∧ s.bu.width = 24#5)) :=
  ⟨⟨_, decoding_settled ⟨258, 2⟩ [0x42#8, 0x00#8] true 9#5 (by decide) (by decide) (by decide), by decide⟩,
   ⟨_, decoding_settled ⟨258, 2⟩ [0x01#8, 0x01#8] true 9#5 (by decide) (by decide) (by decide), by decide⟩⟩

/-- A code one above the size. -/
theorem witness_LzdReadRefusesACode_corrupt :
    ∃ s : State, s.settled ∧ s.lzd.flt = 0#6 ∧ s.lzd.pend = [] ∧ s.lzd.fresh = false ∧ s.bu.width.toNat ≤ unreadBits s ∧
      nextCode s ≠ 0x100#24 ∧ (nextCode s).toNat = s.lzd.size.toNat + 1 :=
  ⟨_, decoding_settled ⟨258, 2⟩ [0x02#8, 0x01#8] true 9#5 (by decide) (by decide) (by decide), by decide⟩

/-- A full dictionary of `n` entries more than the initial ones, each 00 00, in a decoder that has taken 0x41. -/
theorem filled_legal {n cap : Nat} {sz : Code} (h : sz.toNat = 257 + n) (hc : sz.toNat ≤ cap) (h2 : 258 ≤ cap) :
    Lzd.legal cap { takenLiteral 0x41#24 with built := List.replicate n [0#8, 0#8], size := sz } where
  size_eq := by rw [List.length_replicate]; exact h
  size_le := hc
  grows := fun k hk => ⟨[0#8], 0#8, by simp, .inl rfl⟩
  w_lt := show 0x41 < sz.toNat by omega
  w_ne := show 0x41#24 ≠ clearCode by decide
  fresh_w := fun h => by simp [takenLiteral] at h
  pend_le := show 0 + 256 ≤ cap by omega
  flt_mem := .inl rfl

/-- The dictionary is full: `DICT_CAP` is 258. -/
theorem witness_LzdReadRefusesACode_dictionary :
    ∃ s : State, s.settled ∧ s.lzd.flt = 0#6 ∧ s.lzd.pend = [] ∧ s.lzd.fresh = false ∧ s.bu.width.toNat ≤ unreadBits s ∧
      nextCode s ≠ 0x100#24 ∧ (nextCode s).toNat = s.lzd.size.toNat ∧ s.lzd.size.toNat = s.cfg.dictCap :=
  ⟨{ decoding [0x02#8, 0x01#8] true with
      cfg := ⟨258, 2⟩, lzd := { takenLiteral 0x41#24 with built := List.replicate 1 [0#8, 0#8], size := 258#24 } },
   settled_of (by decide) (by decide) ⟨rfl, rfl⟩ (filled_legal rfl (by decide) (by decide)) (Lze.init_legal (by decide) (.inl rfl)) rfl
     (by decide) (by decide) ⟨rfl, rfl⟩ rfl,
   by decide⟩

/-- The width is 24 and the next entry would fill its range. -/
theorem witness_LzdReadRefusesACode_width :
    ∃ s : State, s.settled ∧ s.lzd.flt = 0#6 ∧ s.lzd.pend = [] ∧ s.lzd.fresh = false ∧ s.bu.width.toNat ≤ unreadBits s ∧
      nextCode s ≠ 0x100#24 ∧ (nextCode s).toNat ≤ s.lzd.size.toNat ∧ s.lzd.size.toNat ≠ s.cfg.dictCap ∧
      s.lzd.size.toNat + 1 = 2 ^ s.bu.width.toNat - 1 ∧ s.bu.width = 24#5 :=
  ⟨{ unpacking 24#5 [0x41#8, 0x00#8, 0x00#8] true with
      lzd := { takenLiteral 0x41#24 with built := List.replicate (2 ^ 24 - 2 - 257) [0#8, 0#8], size := 0xFFFFFE#24 } },
   settled_of (by decide) (by decide) ⟨rfl, rfl⟩ (filled_legal rfl (by decide) (by decide)) (Lze.init_legal (by decide) (.inl rfl)) rfl
     (by decide) (by decide) ⟨rfl, rfl⟩ rfl,
   rfl, rfl, rfl, by decide, by decide, by decide, by decide, by decide, rfl⟩

/-- The clear code, from a decoder that has taken 0x41. -/
theorem witness_LzdReadGoesOnAfterAClearCode :
    ∃ s : State, s.bu.legal ∧ s.lzd.flt = 0#6 ∧ s.lzd.pend = [] ∧ s.bu.width.toNat ≤ unreadBits s ∧ nextCode s = 0x100#24 :=
  ⟨decoding [0x00#8, 0x01#8] true, ⟨by decide, by decide, by decide⟩, rfl, rfl, by decide, by decide⟩

/-- One bit too few for a code, with and without the end of source. -/
theorem witness_LzdReadEndsOrHolds (e : Bool) :
    (decoding [0x00#8] e).bu.legal ∧ (decoding [0x00#8] e).lzd.flt = 0#6 ∧ (decoding [0x00#8] e).lzd.pend = [] ∧
    unreadBits (decoding [0x00#8] e) + 1 = (decoding [0x00#8] e).bu.width.toNat ∧ (decoding [0x00#8] e).din.eof = e :=
  ⟨⟨show legalWidth 9#5 by decide, by show 0 ≤ 23; decide, by show 0 < 1; decide⟩, rfl, rfl, rfl, rfl⟩

theorem witness_LzdClearInitialises : State.reset.lzd.flt = 0#6 ∧ ({ Lzd.reset with flt := 3#6 } : Lzd).flt ≠ 0#6 := by decide

/-! ### The LZW encoder -/

/-- No prefix; the prefix 41, and 41 42 a known string. -/
theorem witness_LzeWriteExtendsThePrefix :
    (State.reset.lze.flt = 0#6 ∧ State.reset.lze.hasw = false) ∧
    (∃ d : Lze, d.flt = 0#6 ∧ d.hasw = true ∧ d.wseq = [0x41#8] ∧ (lzeCode d (d.wseq ++ [0x42#8])).isSome = true) :=
  ⟨⟨rfl, rfl⟩, { holdingPrefix [0x41#8] with built := [([0x41#8, 0x42#8], 0x101#24)], size := 258#24 }, rfl, rfl, rfl, by decide⟩

/-- The prefix 41 and the byte 42, one entry short of `DICT_CAP`, with a host that accepts the one byte there is. -/
theorem witness_LzeWriteEmitsACode :
    ∃ s : State, s.settled ∧ s.lze.flt = 0#6 ∧ s.lze.hasw = true ∧ lzeCode s.lze s.lze.wseq = some 0x41#24 ∧
      lzeCode s.lze (s.lze.wseq ++ [0x42#8]) = none ∧ s.lze.size.toNat + 1 = s.cfg.dictCap ∧
      ¬ (s.lze.size.toNat = 2 ^ s.bp.width.toNat - 1 ∧ s.bp.width = 24#5) ∧ accepts (packedBytes s) s :=
  ⟨_, encoding_settled ⟨258, 2⟩ (.count 1) 9#5 (by decide) (by decide), rfl, rfl, rfl, by decide, by decide, by decide, accepts_count rfl⟩

/-- At `DICT_CAP`; and below it at width 24 with its range filled. -/
theorem witness_LzeRefusesPastItsLimits :
    (∃ s : State, s.lze.flt = 0#6 ∧ s.lze.hasw = true ∧ lzeCode s.lze (s.lze.wseq ++ [0x42#8]) = none ∧ s.lze.size.toNat = s.cfg.dictCap) ∧
    (∃ s : State, s.lze.flt = 0#6 ∧ s.lze.hasw = true ∧ s.lze.size.toNat = 2 ^ s.bp.width.toNat - 1 ∧ s.bp.width = 24#5 ∧
      lzeCode s.lze (s.lze.wseq ++ [0x42#8]) = none ∧ s.lze.size.toNat ≠ s.cfg.dictCap) :=
  ⟨⟨{ encoding .always with cfg := ⟨258, 2⟩, lze := { holdingPrefix [0x41#8] with size := 258#24 } }, by decide⟩,
   ⟨{ packing 24#5 0#32 0#6 .always with cfg := ⟨258, 2⟩, lze := { holdingPrefix [0x41#8] with size := 0xFFFFFF#24 } }, by decide⟩⟩

/-- No prefix, and the prefix 41, each with a host that accepts just the bytes there are. -/
theorem witness_LzeClearWritesTheClearCode :
    (∃ s : State, s.settled ∧ s.lze.flt = 0#6 ∧ s.lze.hasw = false ∧ accepts (packedBytes s) s) ∧
    (∃ s u : State, s.settled ∧ s.lze.flt = 0#6 ∧ s.lze.hasw = true ∧ lzeCode s.lze s.lze.wseq = some 0x41#24 ∧
      ¬ (s.lze.size.toNat = 2 ^ s.bp.width.toNat - 1 ∧ s.bp.width = 24#5) ∧
      u = { afterWrite 0x41#24 s with bp := { (afterWrite 0x41#24 s).bp with
        width := if s.lze.size.toNat = 2 ^ s.bp.width.toNat - 1 then s.bp.width + 1#5 else s.bp.width } } ∧
      accepts (packedBytes s + packedBytes u) s) :=
  ⟨⟨packing 9#5 0#32 0#6 (.count 1), ⟨{ reset_settled.1 with }, reset_settled.2⟩, rfl, rfl, accepts_count rfl⟩,
   ⟨_, _, encoding_settled ⟨258, 2⟩ (.count 2) 9#5 (by decide) (by decide), rfl, rfl, rfl, by decide, rfl, accepts_count (by decide)⟩⟩

theorem witness_LzeFlushEndsTheStream :
    (∃ s : State, s.settled ∧ s.lze.flt = 0#6 ∧ s.lze.hasw = false ∧ accepts (closingBytes s).length s) ∧
    (∃ s u : State, s.settled ∧ s.lze.flt = 0#6 ∧ s.lze.hasw = true ∧ lzeCode s.lze s.lze.wseq = some 0x41#24 ∧
      ¬ (s.lze.size.toNat = 2 ^ s.bp.width.toNat - 1 ∧ s.bp.width = 24#5) ∧ u = afterWrite 0x41#24 s ∧
      accepts (packedBytes s + (closingBytes u).length) s) :=
  ⟨⟨packing 9#5 0#32 0#6 (.count 0), ⟨{ reset_settled.1 with }, reset_settled.2⟩, rfl, rfl, accepts_count rfl⟩,
   ⟨_, _, encoding_settled ⟨258, 2⟩ (.count 2) 9#5 (by decide) (by decide), rfl, rfl, rfl, by decide, rfl, accepts_count (by decide)⟩⟩

theorem widths_follow_at_reset : widthsFollow State.reset := by
  have h1 : Nat.log2 257 = 8 := by decide
  have h2 : Nat.log2 258 = 8 := by decide
  exact ⟨show 9 = Nat.log2 258 + 1 by rw [h2], show 9 = Nat.log2 257 + 1 by rw [h1]⟩

theorem witness_WidthsFollowTheDictionarySizes :
    State.reset.settled ∧ widthsFollow State.reset ∧ (after (exec (.lzeWr 0x41#8) State.reset)).map State.seq = some .idle :=
  ⟨reset_settled, widths_follow_at_reset, by decide +kernel⟩

/-- "AB", a clear, then "A". -/
theorem witness_LzwRoundTrip :
    (⟨258, 1⟩ : Config).legal ∧
    (runCommands ([some 0x41#8, some 0x42#8, none, some 0x41#8].map (fun o => o.elim .lzeClr .lzeWr) ++ [.lzeFlush])
      (freshBlock ⟨258, 1⟩)).map Prod.fst = some [0#32, 0#32, 0#32, 0#32, 0#32] := by decide +kernel

/-! ### RLE -/

theorem witness_RldReadReplaysTheRun : ({ Rld.reset with rem := 1#9 } : Rld).flt = 0#6 ∧ ({ Rld.reset with rem := 1#9 } : Rld).rem ≠ 0#9 := by decide

/-- Each clause: the DIN bytes it takes. -/
theorem witness_RldReadDecodesFromDin :
    State.reset.rld.flt = 0#6 ∧ State.reset.rld.rem = 0#9 ∧ State.reset.rld.src = .din ∧
    ((feeding [0x41#8] true).din.fifo = 0x41#8 :: [] ∧ 0x41#8 ≠ State.reset.rld.esc) ∧
    (feeding [0xDB#8, 0xDB#8, 0x00#8] true).din.fifo = State.reset.rld.esc :: 0xDB#8 :: 0x00#8 :: [] ∧
    (∀ e : Bool, ((feeding [] e).din.fifo = [] ∧ (feeding [] e).din.eof = e) ∧
      ((feeding [0xDB#8] e).din.fifo = [State.reset.rld.esc] ∧ (feeding [0xDB#8] e).din.eof = e) ∧
      ((feeding [0xDB#8, 7#8] e).din.fifo = [State.reset.rld.esc, 7#8] ∧ (feeding [0xDB#8, 7#8] e).din.eof = e)) := by decide

/-- The RLE decoder behind the LZW decoder. -/
def throughLzw (s : State) : State := { s with rld := { Rld.reset with src := .lzd } }

theorem throughLzw_settled {s : State} (h : s.settled) : (throughLzw s).settled :=
  ⟨{ h.1 with rld := ⟨show (0#9 : BitVec 9).toNat ≤ 255 by decide, .inl rfl⟩ }, h.2⟩

/-- LZD_READ holds; it returns 0x41; it returns the escape byte, after which it ends, or goes on with 0x41 and then ends or goes on with
0x42. For the holds and the faults among the second and the third byte see the tests below. -/
theorem witness_RldReadDecodesFromTheLzwDecoder :
    (∀ l : List Byte, l.length ≤ 4096 → (throughLzw (feeding l true)).settled) ∧
    (after (exec .lzdRd (throughLzw State.reset))).map State.seq = some (.holding .lzdRead) ∧
    rspAfter (exec .lzdRd (throughLzw (feeding [0x41#8, 0x00#8] true))) = some 0x00000041#32 ∧
    (runCommands [.lzdRd, .lzdRd] (throughLzw (feeding [0xDB#8, 0x00#8] true))).map Prod.fst = some [0x000000DB#32, 0x80000000#32] ∧
    (runCommands [.lzdRd, .lzdRd, .lzdRd] (throughLzw (feeding [0xDB#8, 0x82#8, 0x00#8] true))).map Prod.fst =
      some [0x000000DB#32, 0x00000041#32, 0x80000000#32] ∧
    (runCommands [.lzdRd, .lzdRd, .lzdRd] (throughLzw (feeding [0xDB#8, 0x82#8, 0x08#8, 0x01#8] true))).map Prod.fst =
      some [0x000000DB#32, 0x00000041#32, 0x00000042#32] :=
  ⟨fun l hl => throughLzw_settled ⟨{ reset_settled.1 with din := hl }, reset_settled.2⟩, by decide +kernel, by decide +kernel, by decide +kernel,
    by decide +kernel, by decide +kernel⟩

/-- After the escape byte DB the second LZD_READ holds, or meets the corrupt code 0x1FF; after 41 the third does (45_rle.md R101, R102). -/
theorem test_lzd_holds_and_faults_after_the_escape_byte :
    ((after (exec .lzdRd (throughLzw (feeding [0xDB#8, 0x00#8] false)))).bind fun t => (after (exec .lzdRd t)).map State.seq) =
      some (.holding .lzdRead) ∧
    ((after (exec .lzdRd (throughLzw (feeding [0xDB#8, 0xFE#8, 0x03#8] true)))).bind fun t => rspAfter (exec .lzdRd t)) =
      some 0x43000000#32 ∧
    ((runCommands [.lzdRd, .lzdRd] (throughLzw (feeding [0xDB#8, 0x82#8, 0x00#8] false))).bind fun o =>
      (after (exec .lzdRd o.2)).map State.seq) = some (.holding .lzdRead) ∧
    ((runCommands [.lzdRd, .lzdRd] (throughLzw (feeding [0xDB#8, 0x82#8, 0xFC#8, 0x07#8] true))).bind fun o =>
      rspAfter (exec .lzdRd o.2)) = some 0x43000000#32 := by decide +kernel

/-- RLD_READ there: the hold at the repeated byte and at the count byte; the fault latched in the LZW decoder alone. -/
theorem test_rldRd_holds_and_faults_after_the_escape_byte :
    (after (exec .rldRd (throughLzw (feeding [0xDB#8, 0x00#8] false)))).map (fun t => (t.seq, t.rsp)) = some (.holding .rldRepeat, none) ∧
    (after (exec .rldRd (throughLzw (feeding [0xDB#8, 0x82#8, 0x00#8] false)))).map (fun t => (t.seq, t.rsp)) =
      some (.holding (.rldCount 0x41#8), none) ∧
    (after (exec .rldRd (throughLzw (feeding [0xDB#8, 0x82#8, 0xFC#8, 0x07#8] true)))).map
      (fun t => (t.rsp, t.lzd.flt, t.rld.flt, t.rld.rb, t.rld.rem)) = some (some 0x43000000#32, 3#6, 0#6, 0#8, 0#9) := by decide +kernel

theorem witness_RldSettingsAreSet : State.reset.rld.flt = 0#6 ∧ ({ Rld.reset with flt := 4#6 } : Rld).flt ≠ 0#6 := by decide

/-- A run of 254 that grows, one of 255 that becomes full, no run, and a run of another byte. -/
theorem witness_RleWriteBuffersARun :
    (∀ n : BitVec 9, n = 254#9 ∨ n = 255#9 ∨ n = 0#9 ∨ n = 1#9 → n.toNat ≤ 255) ∧
    ((254#9 : BitVec 9) ≠ 0#9 ∧ (254#9 : BitVec 9).toNat < 255) ∧ (255#9 : BitVec 9).toNat = 255 ∧
    accepts 3 (packing 9#5 0#32 0#6 (.count 3)) ∧
    accepts (rleRunBytes { Rle.reset with rb := 7#8, len := 1#9 }).length (packing 9#5 0#32 0#6 (.count 1)) ∧
    (8#8 : Byte) ≠ 7#8 :=
  ⟨by rintro n (rfl | rfl | rfl | rfl) <;> decide, by decide, by decide, accepts_count rfl, accepts_count rfl, by decide⟩

/-- No run, a lone byte, a lone escape byte and a run of 255, each with a host that accepts just the bytes there are. -/
theorem witness_RleFlushAndSetEscapeWriteTheRun :
    (∃ s : State, s.rle.len = 0#9 ∧ accepts 0 s) ∧
    (∃ s : State, s.rle.len = 1#9 ∧ s.rle.rb ≠ s.rle.esc ∧ accepts 1 s) ∧
    (∃ s : State, s.rle.len = 1#9 ∧ s.rle.rb = s.rle.esc ∧ accepts 3 s) ∧
    (∃ s : State, s.rle.len = 255#9 ∧ accepts 3 s) :=
  ⟨⟨packing 9#5 0#32 0#6 (.count 0), rfl, accepts_count rfl⟩,
   ⟨{ packing 9#5 0#32 0#6 (.count 1) with rle := { Rle.reset with rb := 7#8, len := 1#9 } }, rfl, by decide, accepts_count rfl⟩,
   ⟨{ packing 9#5 0#32 0#6 (.count 3) with rle := { Rle.reset with rb := 0xDB#8, len := 1#9 } }, rfl, rfl, accepts_count rfl⟩,
   ⟨{ packing 9#5 0#32 0#6 (.count 3) with rle := { Rle.reset with rb := 7#8, len := 255#9 } }, rfl, accepts_count rfl⟩⟩

/-- Runs that are not written whole: the full run and a run of two after two bytes, a lone byte after none. -/
theorem witness_run_bytes_not_accepted :
    (∃ s : State, s.env.ready = .count 2 ∧ (7#8 : Byte) = s.rle.rb ∧ s.rle.len.toNat = 255 ∧ 2 < 3) ∧
    (∃ s : State, s.env.ready = .count 2 ∧ (8#8 : Byte) ≠ s.rle.rb ∧ s.rle.len = 2#9 ∧ 2 < (rleRunBytes s.rle).length) ∧
    (∃ s : State, s.env.ready = .count 0 ∧ s.rle.len = 1#9 ∧ s.rle.rb ≠ s.rle.esc ∧ 0 < [s.rle.rb].length) :=
  ⟨⟨{ packing 9#5 0#32 0#6 (.count 2) with rle := { Rle.reset with rb := 7#8, len := 255#9 } }, by decide⟩,
   ⟨{ packing 9#5 0#32 0#6 (.count 2) with rle := { Rle.reset with rb := 7#8, len := 2#9 } }, by decide⟩,
   ⟨{ packing 9#5 0#32 0#6 (.count 0) with rle := { Rle.reset with rb := 7#8, len := 1#9 } }, by decide⟩⟩

/-! ### The whole machine -/

/-- A latch in each unit, and RLD_READ that reaches a latched LZW decoder. -/
theorem witness_LatchedUnitsRefuseTheirCommands :
    ({ Lzd.reset with flt := 3#6 } : Lzd).flt ≠ 0#6 ∧ ({ Lze.reset with flt := 5#6 } : Lze).flt ≠ 0#6 ∧
    ({ Rld.reset with flt := 4#6 } : Rld).flt ≠ 0#6 ∧
    (∃ s : State, s.rld.flt = 0#6 ∧ s.rld.rem = 0#9 ∧ s.rld.src = .lzd ∧ s.lzd.flt ≠ 0#6) :=
  ⟨by decide, by decide, by decide,
   { State.reset with rld := { Rld.reset with src := .lzd }, lzd := { Lzd.reset with flt := 6#6 } }, by decide⟩

theorem witness_ElementsChangeOnlyUnderTheirCommands : ∃ t, exec (.crcUpd 1#8) State.reset = .next t := ⟨_, rfl⟩

theorem witness_OnlyResetClearsErrorsAndEof :
    State.reset.legal ∧ (∃ t, step State.reset = .next t) ∧ (∀ rest, State.reset.env.agenda ≠ .resetSignal :: rest) ∧
    State.reset.seq ≠ .arrived 0x01000000#32 :=
  ⟨reset_legal_state, ⟨_, rfl⟩, fun _ h => by simp [State.reset, HostSide.start] at h, by decide⟩

theorem witness_StepKeepsTheStateLegal : State.reset.legal ∧ ∃ t, step State.reset = .next t := ⟨reset_legal_state, ⟨_, rfl⟩⟩

theorem witness_LegalStatesNeverStop : State.reset.legal := reset_legal_state

end Sys2Proof.Machine
end

/-! PROOFS. The two registers that are assembled when read, STATUS and FCODES (10_state.md R25, R26): what REG_READ answers, the
bits of a sum of flags, and the fields of the fault register. -/

namespace Sys2Proof.Machine

/-! ## REG_READ of a register that has a value -/

theorem exec_regRd (r : BitVec 5) (s : State) : exec (.regRd r) s = execRegRd r s := rfl

/-- REG_READ of a register of the map (40_control.md R64) answers its value and changes nothing else. -/
theorem exec_regRd_of_registerValue {r : BitVec 5} {s : State} {v : Code} (hr : registerOperandOk r)
    (hv : registerValue s r = some v) :
    exec (.regRd r) s = .next { s with seq := .idle, rsp := some (responseWord (.done v)) } := by
  rw [exec_regRd, execRegRd, if_pos hr, hv]
  rfl

theorem exec_regRd_status (s : State) :
    exec (.regRd 0x00#5) s = .next { s with seq := .idle, rsp := some (responseWord (.done (statusRegister s))) } :=
  exec_regRd_of_registerValue (by decide) rfl

theorem exec_regRd_fcodes (s : State) :
    exec (.regRd 0x01#5) s = .next { s with seq := .idle, rsp := some (responseWord (.done (fcodesRegister s))) } :=
  exec_regRd_of_registerValue (by decide) rfl

/-! ## STATUS -/

/-- A flag stands at its own bit and at no other. -/
theorem getLsbD_flagAt {n : Nat} (hn : n < 24) (k : Nat) (b : Bool) : (flagAt n b).getLsbD k = (decide (k = n) && b) := by
  cases b with
  | false => simp [flagAt]
  | true =>
    have hbit : k < 24 ∧ ¬ k < n ∧ k - n = 0 ↔ k = n := by omega
    rw [Bool.eq_iff_iff, Bool.and_true, decide_eq_true_iff, ← hbit]
    simp [flagAt, and_assoc]

theorem latched_eq_decide (f : FaultBits) : latched f = decide (f ≠ 0#6) := by
  rw [Bool.eq_iff_iff, latched_eq_true, decide_eq_true_iff]

/-- A bit of STATUS is the flag that has its number (10_state.md R25). -/
theorem getLsbD_statusRegister (s : State) (k : Nat) :
    (statusRegister s).getLsbD k =
      ((decide (k = 0) && s.cmdErr) || (decide (k = 1) && s.din.eof) || (decide (k = 2) && latched s.lzd.flt) ||
        (decide (k = 3) && latched s.lze.flt) || (decide (k = 4) && latched s.rld.flt) || (decide (k = 5) && s.lzd.fresh) ||
        (decide (k = 6) && s.lze.hasw) || (decide (k = 7) && s.rld.src == .lzd)) := by
  simp only [statusRegister, BitVec.getLsbD_or, getLsbD_flagAt, Nat.reduceLT]

/-- STATUS bits 23:8 read as 0. -/
theorem getLsbD_statusRegister_of_le (s : State) {k : Nat} (hk : 8 ≤ k) : (statusRegister s).getLsbD k = false := by
  have hne : ∀ n < 8, k ≠ n := by omega
  simp [getLsbD_statusRegister, hne]

theorem statusRegister_reset : statusRegister State.reset = 0x000020#24 := by decide

/-- Settles O16: REG_READ 0 answers `statusRegister`, whose bits `getLsbD_statusRegister` gives one by one. -/
theorem statusBitsAreTheFlags : Obligations.StatusBitsAreTheFlags := by
  refine ⟨fun s => ⟨statusRegister s, exec_regRd_status s, ?_, ?_, ?_, ?_, ?_, ?_, ?_, ?_, fun n hn => ?bitsAbove⟩,
    _, exec_regRd_status _, ?atReset⟩
  case bitsAbove => exact getLsbD_statusRegister_of_le s hn
  case atReset =>
    rw [statusRegister_reset]
    rfl
  all_goals
    rw [getLsbD_statusRegister]
    simp [latched_eq_decide, beq_eq_decide]

/-! ## FCODES -/

/-- The fields of FCODES (10_state.md R26): the fault of the LZW decoder lowest, then the LZW encoder's, then the RLE decoder's. -/
theorem extractLsb'_fcodesRegister (s : State) :
    (fcodesRegister s).extractLsb' 0 6 = s.lzd.flt ∧ (fcodesRegister s).extractLsb' 6 6 = s.lze.flt ∧
    (fcodesRegister s).extractLsb' 12 6 = s.rld.flt ∧ (fcodesRegister s).extractLsb' 18 6 = 0#6 := by
  refine ⟨BitVec.extractLsb'_append_eq_right, ?lze, ?rld, ?above⟩
  case lze =>
    rw [fcodesRegister, BitVec.extractLsb'_append_eq_of_le (by decide)]
    exact BitVec.extractLsb'_append_eq_right
  case rld =>
    rw [fcodesRegister, BitVec.extractLsb'_append_eq_of_le (by decide), BitVec.extractLsb'_append_eq_of_le (by decide)]
    exact BitVec.extractLsb'_append_eq_right
  case above =>
    rw [fcodesRegister, BitVec.extractLsb'_append_eq_of_le (by decide), BitVec.extractLsb'_append_eq_of_le (by decide)]
    exact BitVec.extractLsb'_append_eq_left

theorem fcodesRegister_reset : fcodesRegister State.reset = 0#24 := by decide

/-- Settles O17: REG_READ 1 answers `fcodesRegister`, whose four fields are `extractLsb'_fcodesRegister`. -/
theorem fcodesFieldsAreTheFaults : Obligations.FcodesFieldsAreTheFaults := by
  refine ⟨fun s => ⟨fcodesRegister s, exec_regRd_fcodes s, extractLsb'_fcodesRegister s⟩, _, exec_regRd_fcodes _, ?atReset⟩
  case atReset =>
    rw [fcodesRegister_reset]
    rfl

end Sys2Proof.Machine

/-! PROOFS. The two refusals of a command word (30_encoding.md R43): what the opcode map lets through, and what the block answers to
a word it does not let through and to a command whose operand value is out of range. -/

namespace Sys2Proof

/-! ## What the opcode map lets through -/

/-- No two rows of the opcode map have the same opcode (R46). -/
theorem opcodeMap_opc_injective : ∀ r ∈ opcodeMap, ∀ r' ∈ opcodeMap, r.opc = r'.opc → r = r' := by decide

theorem withForm_eq_ok {f : Form} {opd : Code} {i j : Instr} :
    withForm f opd i = .ok j ↔ opd &&& ~~~f.usedBits = 0#24 ∧ i = j := by
  by_cases hopd : opd &&& ~~~f.usedBits = 0#24 <;> simp [withForm, hopd]

/-- One arm of the decoder: where it gives a command, the arm's row of the opcode map admits the two fields. -/
theorem row_of_withForm_ok {opc : BitVec 8} {opd : Code} {n : Nat} {f : Form} {i j : Instr}
    (hopc : opc.toNat = n) (hmem : ⟨BitVec.ofNat 8 n, f⟩ ∈ opcodeMap) (hok : withForm f opd i = .ok j) :
    ∃ r ∈ opcodeMap, opc = r.opc ∧ opd &&& ~~~r.form.usedBits = 0#24 :=
  ⟨_, hmem, by simp [← hopc], (withForm_eq_ok.mp hok).1⟩

/-- Fields that decode are those of a row of the opcode map: its opcode, and no operand bit outside its form (R43, R48). -/
theorem row_of_decodeFields_ok {opc : BitVec 8} {opd : Code} {i : Instr} (hok : decodeFields opc opd = .ok i) :
    ∃ r ∈ opcodeMap, opc = r.opc ∧ opd &&& ~~~r.form.usedBits = 0#24 := by
  unfold decodeFields at hok
  split at hok
  case h_27 => cases hok
  all_goals
    rename_i hopc
    exact row_of_withForm_ok hopc (by decide) hok

/-- An opcode of no row, or an operand bit outside the form of the opcode's row, makes a word no command (R43). -/
theorem decode_error_of_illegal {w : Word}
    (hill : (∀ r ∈ opcodeMap, opcOf w ≠ r.opc) ∨
      ∃ r ∈ opcodeMap, opcOf w = r.opc ∧ opdOf w &&& ~~~r.form.usedBits ≠ 0#24) :
    ∃ e, decode w = .error e := by
  cases hdec : decode w with
  | error e => exact ⟨e, rfl⟩
  | ok i =>
    obtain ⟨r, hr, hopc, hopd⟩ := row_of_decodeFields_ok hdec
    rcases hill with hunassigned | ⟨r', hr', hopc', hstray⟩
    · exact absurd hopc (hunassigned r hr)
    · obtain rfl := opcodeMap_opc_injective r hr r' hr' (hopc.symm.trans hopc')
      exact absurd hopd hstray

end Sys2Proof

namespace Sys2Proof.Machine

/-! ## What the block answers -/

/-- `raise CmdError(code)` sets CMDERR and answers the code; every other field stays (60_exceptions.md R113). -/
theorem raiseCmdError_eq (code : FaultCode) (s : State) :
    raiseCmdError code s =
      .next { s with cmdErr := true, seq := .idle, rsp := some (responseWord (.failed (faultBits code))) } := rfl

theorem execWord_of_decode_ok {w : Word} {i : Instr} (h : decode w = .ok i) (s : State) : execWord w s = exec i s := by
  rw [execWord, h]

theorem execWord_of_decode_error {w : Word} {e : IllegalWord} (h : decode w = .error e) (s : State) :
    execWord w s = raiseCmdError .illegalCommand s := by
  rw [execWord, h]

/-- Only REG_READ and the two commands that set a width have operand values they refuse (30_encoding.md R58). -/
theorem exec_of_not_wellFormed {i : Instr} (hill : ¬ i.WellFormed) (s : State) :
    exec i s = raiseCmdError .illegalOperand s := by
  cases i with
  | regRd r => exact if_neg hill
  | buSetw n => exact if_neg hill
  | bpSetw n => exact if_neg hill
  | _ => exact absurd trivial hill

/-- Settles O4: an illegal word does not decode (`decode_error_of_illegal`), an ill-formed command refuses its operand
(`exec_of_not_wellFormed`), and either refusal is a CmdError. -/
theorem illegalWordsAreRefused : Obligations.IllegalWordsAreRefused := by
  refine fun w s => ⟨fun hill => ?illegalCommand, fun i hdec hill => ?illegalOperand⟩
  case illegalCommand =>
    obtain ⟨e, hdec⟩ := decode_error_of_illegal hill
    rw [execWord_of_decode_error hdec, raiseCmdError_eq]
    rfl
  case illegalOperand =>
    rw [execWord_of_decode_ok hdec, exec_of_not_wellFormed hill, raiseCmdError_eq]
    rfl

end Sys2Proof.Machine

/-! PROOFS. The control commands NOP, RESET and REG_READ (40_control.md): what a row of the opcode map means to the host, which
numbers are registers and what each one reads as, and the state and the registers after RESET. -/

namespace Sys2Proof.Machine

/-! ## A row of the opcode map -/

/-- Where the decoder gives every word of an opcode the form `f`, the opcode's row of the map means what the decoder says. -/
theorem rowMeans_of_decodeFields {opc : BitVec 8} {f : Form} {i : Code → Instr}
    (harm : ∀ opd, decodeFields opc opd = withForm f opd (i opd)) : rowMeans opc f i := by
  intro w s hopc
  have hdec : decode w = withForm f (opdOf w) (i (opdOf w)) := by rw [decode, hopc, harm]
  split
  case isTrue hopd => exact execWord_of_decode_ok (hdec.trans (if_pos hopd)) s
  case isFalse hstray =>
    rw [execWord_of_decode_error (hdec.trans (if_neg hstray)), raiseCmdError_eq]
    rfl

/-! ## NOP -/

theorem exec_nop (s : State) : exec .nop s = .next { s with seq := .idle, rsp := some 0x00000000#32 } := rfl

/-- Settles O19: the decoder's arm for 0x00, and `exec_nop`. -/
theorem nopOnlyResponds : Obligations.NopOnlyResponds :=
  ⟨rowMeans_of_decodeFields fun _ => rfl, exec_nop⟩

/-! ## The register map -/

/-- Only a number of the register map has a value (10_state.md R27). -/
theorem registerOperandOk_of_registerValue {s : State} {r : BitVec 5} {v : Code} (hv : registerValue s r = some v) :
    registerOperandOk r := by
  by_contra hreserved
  unfold registerValue at hv
  split at hv
  case h_20 => cases hv
  all_goals omega

/-- REG_READ of a number that has a value answers the value and changes nothing else. -/
theorem exec_regRd_of_value {s : State} {r : BitVec 5} {v : Code} (hv : registerValue s r = some v) :
    exec (.regRd r) s = .next { s with seq := .idle, rsp := some (responseWord (.done v)) } :=
  exec_regRd_of_registerValue (registerOperandOk_of_registerValue hv) hv

theorem registerValue_lzeW (s : State) :
    registerValue s 0x0D#5 = if s.lze.hasw then lzeCode s.lze s.lze.wseq else some 0#24 := rfl

/-- A reserved number is refused, and only CMDERR changes (40_control.md R64). -/
theorem exec_regRd_of_reserved {r : BitVec 5} (hr : 0x13 ≤ r.toNat) (s : State) :
    exec (.regRd r) s = .next { s with cmdErr := true, seq := .idle, rsp := some 0x42000000#32 } := by
  rw [exec_of_not_wellFormed (i := .regRd r) (Nat.not_le.mpr hr), raiseCmdError_eq]
  rfl

/-- Settles O18: every entry of the map is what `registerValue` gives for its number. Four entries write a widened or shortened
field in another way than the model does. -/
theorem regReadReturnsTheRegister : Obligations.RegReadReturnsTheRegister := by
  refine ⟨rowMeans_of_decodeFields fun _ => rfl, fun s => ⟨fun p hp => exec_regRd_of_value ?map, fun hasw => ?noPrefix,
    fun c hasw hc => ?withPrefix, fun r hr => exec_regRd_of_reserved hr s⟩⟩
  case map =>
    have crc : 0#8 ++ s.crc = s.crc.setWidth 24 := (BitVec.setWidth_eq_append (by decide)).symm
    have acc : s.bu.acc.extractLsb' 0 24 = s.bu.acc.setWidth 24 := (BitVec.setWidth_eq_extractLsb' (by decide)).symm
    have count (n : BitVec 9) : n.extractLsb' 0 8 = n.setWidth 8 := (BitVec.setWidth_eq_extractLsb' (by decide)).symm
    revert p
    simp only [List.forall_mem_cons, crc, acc, count]
    exact ⟨rfl, rfl, rfl, rfl, rfl, rfl, rfl, rfl, rfl, rfl, rfl, rfl, rfl, rfl, rfl, rfl, rfl, rfl, List.forall_mem_nil _⟩
  case noPrefix => exact exec_regRd_of_value (by rw [registerValue_lzeW, hasw]; rfl)
  case withPrefix => exact exec_regRd_of_value (by rw [registerValue_lzeW, if_pos hasw, hc])

/-! ## RESET -/

/-- RESET comes to the reset state with the parameters and the host's side as they were (40_control.md R63, 70_reset_and_hazards.md
R119). -/
theorem exec_reset (s : State) :
    exec .reset s =
      .next { State.reset with cfg := s.cfg, seq := .idle, rsp := some 0x00000000#32, env := s.env } := rfl

/-- No register shows the parameters, the command in progress, the response port or the host's side. -/
theorem registerValue_frame (s : State) (c : Config) (q : Sequencer) (p : Option Word) (e : HostSide) (r : BitVec 5) :
    registerValue { s with cfg := c, seq := q, rsp := p, env := e } r = registerValue s r := rfl

/-- What register `r` of the map reads after a reset (70_reset_and_hazards.md R119). -/
def resetRegister (r : BitVec 5) : Code :=
  if r = 0x00#5 then 0x000020#24
  else if r = 0x09#5 ∨ r = 0x0C#5 then 0x000101#24
  else if r = 0x03#5 ∨ r = 0x06#5 then 0x000009#24
  else if r = 0x0E#5 ∨ r = 0x10#5 then 0x0000DB#24
  else 0x000000#24

theorem registerValue_reset :
    ∀ r : BitVec 5, registerOperandOk r → registerValue State.reset r = some (resetRegister r) := by decide

/-- Settles O20: the state after RESET is that of `exec_reset`, whose registers are those of the reset state. -/
theorem resetSetsEveryElement : Obligations.ResetSetsEveryElement := by
  refine ⟨rowMeans_of_decodeFields fun _ => rfl, fun s => ⟨exec_reset s, fun t ht r hr => ?registers⟩⟩
  case registers =>
    rw [exec_reset, Host.Outcome.next.injEq] at ht
    have hvalue : registerValue t r = some (resetRegister r) := by
      rw [← ht, registerValue_frame, registerValue_reset r hr]
    refine ⟨_, exec_regRd_of_value hvalue, congrArg some ?response⟩
    unfold resetRegister
    split_ifs <;> rfl

end Sys2Proof.Machine

/-! PROOFS. The CRC-16 unit (41_crc.md): one turn of the table's loop keeps the XOR of two values, so the update over the table is
the bit-by-bit one; and the three commands. -/

namespace Sys2Proof.Machine

/-! ## The loop of the table -/

/-- A turn of the loop as the spec's text has it, on bit 15 and the number of CRC_POLY (R7, R66). -/
theorem crcShift_eq_getLsbD :
    crcShift = fun c => if c.getLsbD 15 then (c <<< 1) ^^^ 0x1021#16 else c <<< 1 := rfl

theorem crcShifts_eq_iterate (n : Nat) (c : BitVec 16) : crcShifts n c = crcShift^[n] c := by
  induction n generalizing c with
  | zero => rfl
  | succ n ih => exact ih (crcShift c)

/-- What a turn takes in for the bit it shifts out. -/
def crcFeedback (top : Bool) : BitVec 16 := if top then crcPoly else 0#16

theorem crcShift_eq_shiftLeft_xor (c : BitVec 16) : crcShift c = (c <<< 1) ^^^ crcFeedback c.msb := by
  unfold crcShift crcFeedback
  split
  case isTrue => rfl
  case isFalse => rw [BitVec.xor_zero]

theorem crcFeedback_xor : ∀ a b : Bool, crcFeedback (a ^^ b) = crcFeedback a ^^^ crcFeedback b := by decide

theorem crcShift_xor (c d : BitVec 16) : crcShift (c ^^^ d) = crcShift c ^^^ crcShift d := by
  simp only [crcShift_eq_shiftLeft_xor, BitVec.msb_xor, BitVec.shiftLeft_xor_distrib, crcFeedback_xor]
  ac_rfl

theorem crcShifts_xor (n : Nat) (c d : BitVec 16) : crcShifts n (c ^^^ d) = crcShifts n c ^^^ crcShifts n d := by
  induction n generalizing c d with
  | zero => rfl
  | succ n ih => rw [crcShifts, crcShift_xor, ih, crcShifts, crcShifts]

/-- As many turns as the value has zeros at its top only shift it. -/
theorem crcShifts_of_toNat_lt {n : Nat} {c : BitVec 16} (hc : 2 ^ n * c.toNat < 2 ^ 16) : crcShifts n c = c <<< n := by
  induction n generalizing c with
  | zero => rw [crcShifts, BitVec.shiftLeft_zero]
  | succ n ih =>
    have hdouble : 2 ^ n * (2 * c.toNat) < 2 ^ 16 := by rwa [← mul_assoc, ← pow_succ]
    have hlow : 2 * c.toNat < 2 ^ 16 := (Nat.le_mul_of_pos_left _ (Nat.two_pow_pos n)).trans_lt hdouble
    have hshift : crcShift c = c <<< 1 := by
      rw [crcShift, BitVec.msb_eq_false_iff_two_mul_lt.mpr hlow, if_neg Bool.false_ne_true]
    have htoNat : (c <<< 1).toNat = 2 * c.toNat := by
      rw [BitVec.toNat_shiftLeft, Nat.shiftLeft_eq, pow_one, mul_comm, Nat.mod_eq_of_lt hlow]
    rw [crcShifts, hshift, ih (by rwa [htoNat]), ← BitVec.shiftLeft_add, Nat.add_comm]

/-! ## The table and the update -/

theorem shiftLeft_eight_eq_append (c : BitVec 16) : c <<< 8 = c.setWidth 8 ++ 0#8 := by
  rw [BitVec.shiftLeft_eq_concat_of_lt (by decide), BitVec.setWidth_eq_extractLsb' (by decide), BitVec.cast_eq]

theorem high_append_low (c : BitVec 16) : (c >>> 8).setWidth 8 ++ c.setWidth 8 = c := by
  rw [BitVec.setWidth_ushiftRight_eq_extractLsb, BitVec.setWidth_eq_extractLsb' (by decide)]
  exact BitVec.extractLsb'_append_extractLsb' (w := 8) (len := 8)

/-- The eight turns for a table entry start from its index above eight zeros. -/
theorem crcTable_eq_crcShifts_append (i : Byte) : crcTable i = crcShifts 8 (i ++ 0#8) := by
  rw [crcTable, shiftLeft_eight_eq_append, BitVec.setWidth_setWidth_of_le _ (by decide), BitVec.setWidth_eq]

theorem crcShifts_eight_low (low : Byte) : crcShifts 8 (0#8 ++ low) = low ++ 0#8 := by
  have hlow : 2 ^ 8 * (0#8 ++ low).toNat < 2 ^ 16 := by
    rw [BitVec.toNat_append, BitVec.toNat_zero, Nat.zero_shiftLeft, Nat.zero_or]
    omega
  rw [crcShifts_of_toNat_lt hlow, shiftLeft_eight_eq_append, BitVec.setWidth_append_eq_right]

/-- Eight turns act on the two bytes of a value apart: the high one is looked up in the table, the low one moves up. -/
theorem crcShifts_eight_append (high low : Byte) : crcShifts 8 (high ++ low) = (low ++ 0#8) ^^^ crcTable high := by
  calc crcShifts 8 (high ++ low)
    _ = crcShifts 8 ((0#8 ++ low) ^^^ (high ++ 0#8)) := by rw [BitVec.xor_append, BitVec.zero_xor, BitVec.xor_zero]
    _ = (low ++ 0#8) ^^^ crcTable high := by
      rw [crcShifts_xor, crcShifts_eight_low, crcTable_eq_crcShifts_append]

/-- The update over the table is the bit-by-bit one (R66): XORing the byte into the high half gives the index of the table. -/
theorem crcStep_eq_crcShifts (crc : BitVec 16) (b : Byte) : crcStep crc b = crcShifts 8 (crc ^^^ (b ++ 0#8)) := by
  have hbytes : crc ^^^ (b ++ 0#8) = ((crc >>> 8).setWidth 8 ^^^ b) ++ crc.setWidth 8 := by
    conv_lhs => rw [← high_append_low crc, BitVec.xor_append, BitVec.xor_zero]
  rw [hbytes, crcShifts_eight_append, ← shiftLeft_eight_eq_append, crcStep]

/-- Settles O23: the entries are evaluated; the loop of the statement is `crcShift` iterated, and over it the bit-by-bit update is
`crcStep_eq_crcShifts`. -/
theorem crcTableIsTheSpecsTable : Obligations.CrcTableIsTheSpecsTable := by
  refine ⟨by decide +kernel, fun i => ?entry, fun crc b => ⟨rfl, ?bitByBit⟩⟩
  all_goals rw [← crcShift_eq_getLsbD]
  case entry => rw [← crcShifts_eq_iterate, crcTable_eq_crcShifts_append]
  case bitByBit => rw [← crcShifts_eq_iterate, crcStep_eq_crcShifts]

/-! ## The commands -/

theorem exec_crcRst (s : State) :
    exec .crcRst s = .next { s with crc := 0x0000#16, seq := .idle, rsp := some 0x00000000#32 } := rfl

theorem exec_crcUpd (b : Byte) (s : State) :
    exec (.crcUpd b) s = .next { s with crc := crcStep s.crc b, seq := .idle, rsp := some 0x00000000#32 } := rfl

/-- The running value as DATA, below eight zeros, makes a response that is the value below sixteen (30_encoding.md R44). -/
theorem responseWord_done_setWidth (v : BitVec 16) : responseWord (.done (v.setWidth 24)) = 0#16 ++ v := by
  have hdata : v.setWidth 24 = 0#8 ++ v := by rw [BitVec.setWidth_eq_append (by decide), BitVec.cast_eq]
  have hword (d : Code) : responseWord (.done d) = 0#8 ++ d := rfl
  rw [hdata, hword, BitVec.append_assoc']
  rfl

theorem exec_crcVal (s : State) : exec .crcVal s = .next { s with seq := .idle, rsp := some (0#16 ++ s.crc) } := by
  rw [← responseWord_done_setWidth]
  rfl

/-- Settles O21: the decoder's arms for 0x10 and 0x12, `exec_crcRst` and `exec_crcVal`. -/
theorem crcResetAndCrcValue : Obligations.CrcResetAndCrcValue :=
  ⟨rowMeans_of_decodeFields fun _ => rfl, rowMeans_of_decodeFields fun _ => rfl, fun s => ⟨exec_crcRst s, exec_crcVal s⟩⟩

/-- Settles O22: the decoder's arm for 0x11, and `exec_crcUpd`. -/
theorem crcUpdateFoldsTheByte : Obligations.CrcUpdateFoldsTheByte :=
  ⟨rowMeans_of_decodeFields fun _ => rfl, exec_crcUpd⟩

end Sys2Proof.Machine

/-! PROOFS. The commands of the bit stream that read no code and write no value (42_bitstream.md): setting and raising a width,
BU_CLEAR, and BP_CLOSE with the push of the last partial byte. -/

namespace Sys2Proof.Machine

/-! ## How these commands end -/

theorem respondOk_eq (s : State) : respondOk s = .next { s with seq := .idle, rsp := some 0x00000000#32 } := rfl

theorem raiseIllegalOperand_eq (s : State) :
    raiseCmdError .illegalOperand s = .next { s with cmdErr := true, seq := .idle, rsp := some 0x42000000#32 } := rfl

/-! ## BU_CLEAR -/

theorem exec_buClr (s : State) :
    exec .buClr s =
      .next { s with bu := { s.bu with acc := 0#32, cnt := 0#6 }, seq := .idle, rsp := some 0x00000000#32 } := rfl

/-- Settles O27: the decoder's arm for 0x23, and `exec_buClr`. -/
theorem buClearDropsTheBits : Obligations.BuClearDropsTheBits :=
  ⟨rowMeans_of_decodeFields fun _ => rfl, exec_buClr⟩

/-! ## Setting a width -/

section
variable {n : BitVec 5}

theorem exec_buSetw_of_widthOperandOk (hn : widthOperandOk n) (s : State) :
    exec (.buSetw n) s =
      .next { s with bu := { s.bu with width := n }, seq := .idle, rsp := some 0x00000000#32 } :=
  (if_pos hn).trans (respondOk_eq (buSetWidth n s))

theorem exec_bpSetw_of_widthOperandOk (hn : widthOperandOk n) (s : State) :
    exec (.bpSetw n) s =
      .next { s with bp := { s.bp with width := n }, seq := .idle, rsp := some 0x00000000#32 } :=
  (if_pos hn).trans (respondOk_eq (bpSetWidth n s))

/-- The operands the two width commands refuse lie below `W_MIN` or above `W_MAX` (R72, R78). -/
theorem not_widthOperandOk_iff : ¬ widthOperandOk n ↔ n.toNat < 1 ∨ 24 < n.toNat := by
  rw [not_and_or, not_le, not_le]

end

/-- Settles O25: the decoder's arms for 0x20 and 0x28. A width in range is set by either command; one out of range makes either
command ill-formed, and `exec_of_not_wellFormed` says what that comes to. -/
theorem setWidthSetsALegalWidth : Obligations.SetWidthSetsALegalWidth := by
  refine ⟨rowMeans_of_decodeFields fun _ => rfl, rowMeans_of_decodeFields fun _ => rfl,
    fun n s => ⟨fun hn => ?inRange, fun hn => ?outOfRange⟩⟩
  case inRange => exact ⟨exec_buSetw_of_widthOperandOk hn s, exec_bpSetw_of_widthOperandOk hn s⟩
  case outOfRange =>
    have hill : ¬ widthOperandOk n := not_widthOperandOk_iff.mpr hn
    rw [← raiseIllegalOperand_eq]
    exact ⟨exec_of_not_wellFormed (i := .buSetw n) hill s, exec_of_not_wellFormed (i := .bpSetw n) hill s⟩

/-! ## Raising a width by one -/

section
variable {s : State}

theorem exec_buIncw_of_ne (hw : s.bu.width ≠ 24#5) :
    exec .buIncw s =
      .next { s with bu := { s.bu with width := s.bu.width + 1#5 }, seq := .idle, rsp := some 0x00000000#32 } :=
  (if_neg hw).trans (respondOk_eq (buSetWidth (s.bu.width + 1#5) s))

theorem exec_buIncw_of_eq (hw : s.bu.width = 24#5) :
    exec .buIncw s = .next { s with cmdErr := true, seq := .idle, rsp := some 0x42000000#32 } :=
  (if_pos hw).trans (raiseIllegalOperand_eq s)

theorem exec_bpIncw_of_ne (hw : s.bp.width ≠ 24#5) :
    exec .bpIncw s =
      .next { s with bp := { s.bp with width := s.bp.width + 1#5 }, seq := .idle, rsp := some 0x00000000#32 } :=
  (if_neg hw).trans (respondOk_eq (bpSetWidth (s.bp.width + 1#5) s))

theorem exec_bpIncw_of_eq (hw : s.bp.width = 24#5) :
    exec .bpIncw s = .next { s with cmdErr := true, seq := .idle, rsp := some 0x42000000#32 } :=
  (if_pos hw).trans (raiseIllegalOperand_eq s)

end

/-- Settles O26: the decoder's arms for 0x21 and 0x29, and each command below `W_MAX` and at it. -/
theorem increaseWidthAddsOne : Obligations.IncreaseWidthAddsOne :=
  ⟨rowMeans_of_decodeFields fun _ => rfl, rowMeans_of_decodeFields fun _ => rfl,
    fun _ => ⟨exec_buIncw_of_ne, exec_buIncw_of_eq, exec_bpIncw_of_ne, exec_bpIncw_of_eq⟩⟩

/-! ## BP_CLOSE -/

section
variable {s : State}

theorem accepts_iff_of_count {n k : Nat} (hready : s.env.ready = .count k) : accepts n s ↔ n ≤ k := by
  rw [accepts, hready]

theorem closingBytes_of_cnt_ne (hcnt : s.bp.cnt ≠ 0#6) : closingBytes s = [bpLowByte s] :=
  if_neg fun h => hcnt (BitVec.eq_of_toNat_eq h)

/-- A host that accepts no byte does not accept the last partial byte, where there is one. -/
theorem not_accepts_closingBytes (hcnt : s.bp.cnt ≠ 0#6) (hready : s.env.ready = .count 0) :
    ¬ accepts (closingBytes s).length s := by
  rw [accepts_iff_of_count hready, closingBytes_of_cnt_ne hcnt]
  exact Nat.not_succ_le_zero 0

/-- Of the two things `BpClose` can come to (`bpCloseByte_eq`), the one for a host that accepts the byte. -/
theorem bpCloseByte_of_accepts (hacc : accepts (closingBytes s).length s) : bpCloseByte s = .sent (afterClose s) := by
  rcases bpCloseByte_eq s with ⟨-, hsent⟩ | ⟨hready, hcnt, -⟩
  · exact hsent
  · exact absurd hacc (not_accepts_closingBytes hcnt hready)

/-- Of the two things `BpClose` can come to (`bpCloseByte_eq`), the one for a host that does not accept the byte. -/
theorem bpCloseByte_of_blocked (hcnt : s.bp.cnt ≠ 0#6) (hready : s.env.ready = .count 0) :
    bpCloseByte s = .waits [bpLowByte s] s := by
  rcases bpCloseByte_eq s with ⟨hacc, -⟩ | ⟨-, -, hwaits⟩
  · exact absurd hacc (not_accepts_closingBytes hcnt hready)
  · exact hwaits

theorem exec_bpClose (s : State) : exec .bpClose s = (bpCloseByte s).andThen (fun _ => .bpClose) respondOk := rfl

theorem exec_bpClose_of_accepts (hacc : accepts (closingBytes s).length s) :
    exec .bpClose s = .next { afterClose s with seq := .idle, rsp := some 0x00000000#32 } := by
  rw [exec_bpClose, bpCloseByte_of_accepts hacc, Push.andThen, respondOk_eq]

theorem exec_bpClose_of_blocked (hcnt : s.bp.cnt ≠ 0#6) (hready : s.env.ready = .count 0) :
    exec .bpClose s = .next { s with seq := .holding .bpClose } := by
  rw [exec_bpClose, bpCloseByte_of_blocked hcnt hready, Push.andThen, holdAt, State.setSeq]

end

/-- Settles O32: the decoder's arm for 0x2B, and BP_CLOSE with the byte accepted and with it not accepted. -/
theorem bpCloseSendsTheLastByte : Obligations.BpCloseSendsTheLastByte :=
  ⟨rowMeans_of_decodeFields fun _ => rfl, fun _ => ⟨exec_bpClose_of_accepts, exec_bpClose_of_blocked⟩⟩

end Sys2Proof.Machine

/-! PROOFS. LZD_CLEAR (43_lzw_decoder.md R92): what it does in a decoder without a fault, and its refusal in a latched one. -/

namespace Sys2Proof.Machine

/-- A command that ends changes the response port and the command in progress (60_exceptions.md R112). -/
theorem respond_eq (r : Response) (s : State) :
    respond r s = .next { s with seq := .idle, rsp := some (responseWord r) } := rfl

/-- The initialisation (R84) touches neither the pending output nor the fault, and no buffered bit. -/
theorem lzdInit_eq (s : State) :
    lzdInit s =
      { s with
        bu := { s.bu with width := 9#5 }
        lzd := { s.lzd with built := [], size := 257#24, w := 0#24, fresh := true } } := rfl

theorem exec_lzdClr (s : State) : exec .lzdClr s = unlessLatched .lzd s (respondOk (lzdInit s)) := rfl

section
variable {s : State}

theorem exec_lzdClr_of_clear (hflt : s.lzd.flt = 0#6) :
    exec .lzdClr s =
      .next { s with
        bu := { s.bu with width := 9#5 }
        lzd := { s.lzd with built := [], size := 257#24, w := 0#24, fresh := true }
        seq := .idle, rsp := some 0x00000000#32 } := by
  rw [exec_lzdClr, unlessLatched_of_clear (u := .lzd) _ hflt, respondOk_eq, lzdInit_eq]

theorem exec_lzdClr_of_latched (hflt : s.lzd.flt ≠ 0#6) :
    exec .lzdClr s = .next { s with seq := .idle, rsp := some (responseWord (.failed s.lzd.flt)) } := by
  rw [exec_lzdClr, unlessLatched_of_latched (u := .lzd) _ (latched_eq_true.mpr hflt), respond_eq, faultField]

end

/-- Settles O40: the decoder's arm for 0x31, and LZD_CLEAR without a fault and with one latched. -/
theorem lzdClearInitialises : Obligations.LzdClearInitialises :=
  ⟨rowMeans_of_decodeFields fun _ => rfl, fun _ => ⟨exec_lzdClr_of_clear, exec_lzdClr_of_latched⟩⟩

end Sys2Proof.Machine

/-! PROOFS. The settings of the RLE decoder and the RLE encoder (45_rle.md): the three commands that set the decoder up, the bytes of
a buffered run, and RLE_WRITE, RLE_FLUSH and RLE_SETESC with their bytes accepted and with only some of them accepted. -/

namespace Sys2Proof.Machine

/-! ## The settings of the RLE decoder -/

section
variable {s t : State}

theorem unlessLatched_rld_of_clear (hflt : s.rld.flt = 0#6) :
    unlessLatched .rld s (respondOk t) = .next { t with seq := .idle, rsp := some 0x00000000#32 } := by
  rw [unlessLatched_of_clear (u := .rld) _ hflt, respondOk_eq]

theorem unlessLatched_rld_of_latched (command : Result) (hflt : s.rld.flt ≠ 0#6) :
    unlessLatched .rld s command = .next { s with seq := .idle, rsp := some (responseWord (.failed s.rld.flt)) } := by
  rw [unlessLatched_of_latched (u := .rld) _ (latched_eq_true.mpr hflt), respond_eq, faultField]

end

theorem exec_rldEsc (e : Byte) (s : State) :
    exec (.rldEsc e) s = unlessLatched .rld s (respondOk (s.setRld { s.rld with esc := e })) := rfl

theorem exec_rldRst (s : State) :
    exec .rldRst s = unlessLatched .rld s (respondOk (s.setRld { s.rld with rem := 0#9, rb := 0#8 })) := rfl

theorem exec_rldSrc (sel : BitVec 1) (s : State) :
    exec (.rldSrc sel) s = unlessLatched .rld s (respondOk (s.setRld { s.rld with src := sourceOf sel })) := rfl

/-- Settles O51: the decoder's arms for 0x41, 0x42 and 0x43. Each command runs unless a fault of the decoder is
latched: `unlessLatched_rld_of_clear` and `unlessLatched_rld_of_latched` say what it comes to. -/
theorem rldSettingsAreSet : Obligations.RldSettingsAreSet := by
  refine ⟨rowMeans_of_decodeFields fun _ => rfl, rowMeans_of_decodeFields fun _ => rfl, rowMeans_of_decodeFields fun _ => rfl,
    fun s e b => ⟨fun hflt => ?clear, fun hflt => ?latched⟩⟩
  case clear =>
    rw [exec_rldEsc, exec_rldRst, exec_rldSrc, exec_rldSrc]
    simp only [unlessLatched_rld_of_clear hflt]
    exact ⟨rfl, rfl, rfl, rfl⟩
  case latched =>
    simp only [List.forall_mem_cons, exec_rldEsc, exec_rldRst, exec_rldSrc]
    have hrefused := fun command => unlessLatched_rld_of_latched command hflt
    exact ⟨hrefused _, hrefused _, hrefused _, List.forall_mem_nil _⟩

/-! ## The bytes of a run (R106) -/

section
variable {r : Rle}

theorem rleRunBytes_of_empty (hlen : r.len = 0#9) : rleRunBytes r = [] := if_pos hlen

theorem rleRunBytes_of_lone (hlen : r.len = 1#9) (hesc : r.rb ≠ r.esc) : rleRunBytes r = [r.rb] := by
  rw [rleRunBytes, if_neg (by rw [hlen]; decide), if_pos ⟨hlen, hesc⟩]

/-- The count byte of an escape sequence is the length less one, cut to a byte. -/
theorem setWidth_sub_one_eq_ofNat {n : BitVec 9} (hn : n ≠ 0#9) : (n - 1#9).setWidth 8 = BitVec.ofNat 8 (n.toNat - 1) := by
  have hpred : (n - 1#9).toNat = n.toNat - 1 := by bv_omega
  rw [← hpred, BitVec.ofNat_toNat]

theorem rleRunBytes_of_escaped (hlen : r.len ≠ 0#9) (hesc : r.len = 1#9 → r.rb = r.esc) :
    rleRunBytes r = [r.esc, r.rb, BitVec.ofNat 8 (r.len.toNat - 1)] := by
  rw [rleRunBytes, if_neg hlen, if_neg fun ⟨hone, hne⟩ => hne (hesc hone), setWidth_sub_one_eq_ofNat hlen]

end

/-! ## A command that pushes bytes and then ends -/

section
variable {bytes : List Byte} {s : State} {n : Nat} (h : List Byte → Hold) (k : State → Result)

/-- Of the two things `pushAll` can come to (`pushAll_eq`), the one for a host that accepts too few bytes. -/
theorem pushAll_of_blocked (hready : s.env.ready = .count n) (hn : n < bytes.length) :
    pushAll bytes s = .waits (bytes.drop n) (handedOver (bytes.take n) s) := by
  rcases pushAll_eq bytes s with ⟨hacc, -⟩ | ⟨m, hm, -, hwaits⟩
  · exact absurd ((accepts_iff_of_count hready).mp hacc) (Nat.not_le.mpr hn)
  · obtain rfl : n = m := Ready.count.inj (hready.symm.trans hm)
    exact hwaits

theorem pushAll_andThen_of_accepts (hacc : accepts bytes.length s) :
    (pushAll bytes s).andThen h k = k (handedOver bytes s) := by
  rw [pushAll_accepts hacc, Push.andThen]

theorem pushAll_andThen_of_blocked (hready : s.env.ready = .count n) (hn : n < bytes.length) :
    (pushAll bytes s).andThen h k =
      .next { handedOver (bytes.take n) s with seq := .holding (h (bytes.drop n)) } := by
  rw [pushAll_of_blocked hready hn, Push.andThen, holdAt, State.setSeq]

end

/-! ## RLE_FLUSH and RLE_SETESC -/

theorem exec_rleFlush (s : State) :
    exec .rleFlush s = (pushAll (rleRunBytes s.rle) s).andThen .rleFlush fun t => respondOk (rleEndRun t) := rfl

theorem exec_rleEsc (e : Byte) (s : State) :
    exec (.rleEsc e) s =
      (pushAll (rleRunBytes s.rle) s).andThen (.rleSetEsc e) fun t =>
        respondOk (t.setRle { t.rle with len := 0#9, esc := e }) := rfl

/-- Settles O53: the decoder's arms for 0x49 and 0x4A. The three cases of the statement are those of `rleRunBytes`; both commands
push these bytes, which the host accepts or does not. -/
theorem rleFlushAndSetEscapeWriteTheRun : Obligations.RleFlushAndSetEscapeWriteTheRun := by
  refine ⟨rowMeans_of_decodeFields fun _ => rfl, rowMeans_of_decodeFields fun _ => rfl, fun s e bytes hcases => ?_⟩
  have hbytes : rleRunBytes s.rle = bytes := by
    rcases hcases with ⟨hlen, rfl⟩ | ⟨hlen, hesc, rfl⟩ | ⟨hlen, hesc, rfl⟩
    · exact rleRunBytes_of_empty hlen
    · exact rleRunBytes_of_lone hlen hesc
    · exact rleRunBytes_of_escaped hlen hesc
  rw [exec_rleFlush, exec_rleEsc, hbytes]
  refine ⟨fun hacc => ?accepted, fun n hready hn => ?blocked⟩
  case accepted => exact ⟨pushAll_andThen_of_accepts _ _ hacc, pushAll_andThen_of_accepts _ _ hacc⟩
  case blocked => exact ⟨pushAll_andThen_of_blocked _ _ hready hn, pushAll_andThen_of_blocked _ _ hready hn⟩

/-! ## RLE_WRITE -/

section
variable {b : Byte} {s : State}

/-- An equal byte that leaves the run below 256 only makes it longer. -/
theorem exec_rleWr_of_equal (hlen : s.rle.len ≠ 0#9) (hb : b = s.rle.rb) (hbelow : s.rle.len.toNat < 255) :
    exec (.rleWr b) s = respondOk (rleLengthen s) := by
  have hnotFull : s.rle.len + 1#9 ≠ 256#9 := by bv_omega
  exact (if_pos ⟨hlen, hb⟩).trans (if_neg hnotFull)

theorem rleLengthen_of_full (hlen : s.rle.len = 255#9) : rleLengthen s = s.setRle { s.rle with len := 256#9 } := by
  rw [rleLengthen, hlen]
  rfl

/-- The count byte of a run of 256 is FF. -/
theorem rleRunBytes_of_full {r : Rle} (hlen : r.len = 256#9) : rleRunBytes r = [r.esc, r.rb, 0xFF#8] := by
  have hrun : r.len ≠ 0#9 := by rw [hlen]; decide
  have hlong : r.len ≠ 1#9 := by rw [hlen]; decide
  rw [rleRunBytes_of_escaped hrun fun hone => absurd hone hlong, hlen]
  rfl

/-- The 256th byte makes the run 256 long and then writes it. -/
theorem exec_rleWr_of_full (hb : b = s.rle.rb) (hlen : s.rle.len = 255#9) :
    exec (.rleWr b) s =
      (pushAll [s.rle.esc, b, 0xFF#8] (s.setRle { s.rle with len := 256#9 })).andThen .rleFull fun t =>
        respondOk (rleEndRun t) := by
  have hrun : s.rle.len ≠ 0#9 := by rw [hlen]; decide
  have hfull : (rleLengthen s).rle.len = 256#9 := by rw [rleLengthen_of_full hlen]; rfl
  calc exec (.rleWr b) s
    _ = rleFullRest (rleRunBytes (rleLengthen s).rle) (rleLengthen s) := (if_pos ⟨hrun, hb⟩).trans (if_pos hfull)
    _ = rleFullRest [s.rle.esc, b, 0xFF#8] (s.setRle { s.rle with len := 256#9 }) := by
      rw [rleRunBytes_of_full hfull, rleLengthen_of_full hlen, hb]
      rfl

/-- A byte that is not that of a run writes the run there is and starts its own. -/
theorem exec_rleWr_of_new (hnew : s.rle.len = 0#9 ∨ b ≠ s.rle.rb) :
    exec (.rleWr b) s =
      (pushAll (rleRunBytes s.rle) s).andThen (.rleNew b) fun t =>
        respondOk (t.setRle { t.rle with rb := b, len := 1#9 }) :=
  if_neg fun ⟨hlen, hb⟩ => hnew.elim hlen fun hne => hne hb

end

/-- Settles O52: the decoder's arm for 0x48, and RLE_WRITE of a byte that makes the run longer, of the one that fills it, and of one
that starts a new run, with its bytes accepted or not. -/
theorem rleWriteBuffersARun : Obligations.RleWriteBuffersARun := by
  refine ⟨rowMeans_of_decodeFields fun _ => rfl, fun b s _ => ⟨fun hlen hb hbelow => ?equal, fun hb hlen hacc => ?full,
    fun hnew hacc => ?new, fun n hready => ⟨fun hb hlen hn => ?fullBlocked, fun hnew hn => ?newBlocked⟩⟩⟩
  case equal =>
    rw [exec_rleWr_of_equal hlen hb hbelow]
    rfl
  case full =>
    rw [exec_rleWr_of_full hb (BitVec.eq_of_toNat_eq hlen)]
    exact pushAll_andThen_of_accepts _ _ hacc
  case new =>
    rw [exec_rleWr_of_new hnew]
    exact pushAll_andThen_of_accepts _ _ hacc
  case fullBlocked =>
    rw [exec_rleWr_of_full hb (BitVec.eq_of_toNat_eq hlen)]
    exact pushAll_andThen_of_blocked _ _ hready hn
  case newBlocked =>
    rw [exec_rleWr_of_new hnew]
    exact pushAll_andThen_of_blocked _ _ hready hn

end Sys2Proof.Machine

/-! PROOFS. Command words as two fields (30_encoding.md R41-R48): the encoder against the decoder both ways, and the opcode map as
what the decoder lets through; and the fields of a response word (R44). -/

namespace Sys2Proof

/-! ## The two fields of a word -/

theorem opcOf_commandWord (opc : BitVec 8) (opd : Code) : opcOf (commandWord opc opd) = opc :=
  BitVec.extractLsb'_append_eq_left

theorem opdOf_commandWord (opc : BitVec 8) (opd : Code) : opdOf (commandWord opc opd) = opd :=
  BitVec.extractLsb'_append_eq_right

theorem commandWord_fields (w : Word) : commandWord (opcOf w) (opdOf w) = w := by
  rw [commandWord, opcOf, opdOf]
  exact BitVec.extractLsb'_append_extractLsb' (x := w) (w := 8) (len := 24)

theorem decode_commandWord (opc : BitVec 8) (opd : Code) : decode (commandWord opc opd) = decodeFields opc opd := by
  rw [decode, opcOf_commandWord, opdOf_commandWord]

/-! ## Operands (R42) -/

/-- A field whose bits are all below `n` is the widened field of its low `n` bits, and the other way about. -/
theorem and_not_setWidth_allOnes_eq_zero {n : Nat} {opd : Code} :
    opd &&& ~~~((BitVec.allOnes n).setWidth 24) = 0#24 ↔ (opd.setWidth n).setWidth 24 = opd := by
  rw [BitVec.eq_of_getLsbD_eq_iff, BitVec.eq_of_getLsbD_eq_iff]
  refine forall₂_congr fun k hk => ?_
  by_cases hkn : k < n <;> simp [hk, hkn, BitVec.getLsbD_setWidth]

theorem setWidth_fits {n : Nat} (hn : n ≤ 24) (x : BitVec n) :
    (x.setWidth 24) &&& ~~~((BitVec.allOnes n).setWidth 24) = 0#24 := by
  rw [and_not_setWidth_allOnes_eq_zero, BitVec.setWidth_setWidth_of_le _ hn, BitVec.setWidth_eq]

theorem operandB8_eq (opd : Code) : operandB8 opd = opd.setWidth 8 := (BitVec.setWidth_eq_extractLsb' (by decide)).symm

theorem operandN5_eq (opd : Code) : operandN5 opd = opd.setWidth 5 := (BitVec.setWidth_eq_extractLsb' (by decide)).symm

theorem operandS1_eq (opd : Code) : operandS1 opd = opd.setWidth 1 := (BitVec.setWidth_eq_extractLsb' (by decide)).symm

@[simp] theorem operandB8_setWidth (b : Byte) : operandB8 (b.setWidth 24) = b := by
  rw [operandB8_eq, BitVec.setWidth_setWidth_of_le _ (by decide), BitVec.setWidth_eq]

@[simp] theorem operandN5_setWidth (n : BitVec 5) : operandN5 (n.setWidth 24) = n := by
  rw [operandN5_eq, BitVec.setWidth_setWidth_of_le _ (by decide), BitVec.setWidth_eq]

@[simp] theorem operandS1_setWidth (x : BitVec 1) : operandS1 (x.setWidth 24) = x := by
  rw [operandS1_eq, BitVec.setWidth_setWidth_of_le _ (by decide), BitVec.setWidth_eq]

/-! ## The forms (R42, R43) -/

theorem withForm_none (i : Instr) : withForm .none 0#24 i = .ok i := rfl

theorem withForm_b8 (b : Byte) (i : Instr) : withForm .b8 (b.setWidth 24) i = .ok i := if_pos (setWidth_fits (by decide) b)

theorem withForm_n5 (n : BitVec 5) (i : Instr) : withForm .n5 (n.setWidth 24) i = .ok i := if_pos (setWidth_fits (by decide) n)

theorem withForm_s1 (x : BitVec 1) (i : Instr) : withForm .s1 (x.setWidth 24) i = .ok i := if_pos (setWidth_fits (by decide) x)

theorem withForm_v24 (v : Code) (i : Instr) : withForm .v24 v i = .ok i := if_pos (BitVec.and_zero (x := v))

/-! ## The encoder and the decoder -/

/-- Settles O1: the opcode of each constructor selects its own arm of the decoder, whose form the operand fits. -/
theorem encodeThenDecodeGivesTheCommand : Obligations.EncodeThenDecodeGivesTheCommand := by
  intro i
  cases i with
  | regRd n | buSetw n | bpSetw n =>
    rw [encode, decode_commandWord]
    exact (withForm_n5 n _).trans (by rw [operandN5_setWidth])
  | crcUpd b | lzeWr b | rldEsc b | rleWr b | rleEsc b =>
    rw [encode, decode_commandWord]
    exact (withForm_b8 b _).trans (by rw [operandB8_setWidth])
  | rldSrc x =>
    rw [encode, decode_commandWord]
    exact (withForm_s1 x _).trans (by rw [operandS1_setWidth])
  | bpWr v =>
    rw [encode, decode_commandWord]
    exact withForm_v24 v _
  | _ =>
    rw [encode, decode_commandWord]
    exact withForm_none _

/-- An arm of the decoder without an operand: the operand field of a word it accepts is 0. -/
theorem opd_of_withForm_none {opd : Code} {i j : Instr} (h : withForm .none opd i = .ok j) : opd = 0#24 ∧ j = i := by
  obtain ⟨hopd, rfl⟩ := withForm_eq_ok.mp h
  have hmask : ~~~Form.usedBits .none = BitVec.allOnes 24 := rfl
  rw [hmask, BitVec.and_allOnes] at hopd
  exact ⟨hopd, rfl⟩

theorem opd_of_withForm_b8 {opd : Code} {i j : Instr} (h : withForm .b8 opd i = .ok j) :
    (operandB8 opd).setWidth 24 = opd ∧ j = i := by
  obtain ⟨hopd, rfl⟩ := withForm_eq_ok.mp h
  exact ⟨by rw [operandB8_eq]; exact and_not_setWidth_allOnes_eq_zero.mp hopd, rfl⟩

theorem opd_of_withForm_n5 {opd : Code} {i j : Instr} (h : withForm .n5 opd i = .ok j) :
    (operandN5 opd).setWidth 24 = opd ∧ j = i := by
  obtain ⟨hopd, rfl⟩ := withForm_eq_ok.mp h
  exact ⟨by rw [operandN5_eq]; exact and_not_setWidth_allOnes_eq_zero.mp hopd, rfl⟩

theorem opd_of_withForm_s1 {opd : Code} {i j : Instr} (h : withForm .s1 opd i = .ok j) :
    (operandS1 opd).setWidth 24 = opd ∧ j = i := by
  obtain ⟨hopd, rfl⟩ := withForm_eq_ok.mp h
  exact ⟨by rw [operandS1_eq]; exact and_not_setWidth_allOnes_eq_zero.mp hopd, rfl⟩

/-- What the encoder writes for a command read from two fields is made of these fields. -/
theorem encode_of_decodeFields {opc : BitVec 8} {opd : Code} {i : Instr} (h : decodeFields opc opd = .ok i) :
    encode i = commandWord opc opd := by
  have hopc {n : Nat} (hn : opc.toNat = n) : opc = BitVec.ofNat 8 n := by rw [← hn, BitVec.ofNat_toNat, BitVec.setWidth_eq]
  unfold decodeFields at h
  split at h
  case h_27 => cases h
  case h_13 hn =>
    obtain ⟨-, rfl⟩ := withForm_eq_ok.mp h
    rw [hopc hn, encode]
  case h_23 hn =>
    obtain ⟨hopd, rfl⟩ := opd_of_withForm_s1 h
    rw [hopc hn, encode, hopd]
  case h_3 hn | h_7 hn | h_11 hn =>
    obtain ⟨hopd, rfl⟩ := opd_of_withForm_n5 h
    rw [hopc hn, encode, hopd]
  case h_5 hn | h_17 hn | h_21 hn | h_24 hn | h_26 hn =>
    obtain ⟨hopd, rfl⟩ := opd_of_withForm_b8 h
    rw [hopc hn, encode, hopd]
  all_goals
    rename_i hn
    obtain ⟨rfl, rfl⟩ := opd_of_withForm_none h
    rw [hopc hn, encode]

/-- Settles O2: a word is made of its two fields, and so is the word of the command they decode to. -/
theorem decodeThenEncodeGivesTheWord : Obligations.DecodeThenEncodeGivesTheWord := fun w _ h =>
  (encode_of_decodeFields h).trans (commandWord_fields w)

/-! ## The opcode map (R46) -/

/-- A row accepts a word under its mask when the word has its opcode and no operand bit outside its form. -/
theorem accepts_iff (r : OpcodeRow) (w : Word) :
    r.accepts w ↔ opcOf w = r.opc ∧ opdOf w &&& ~~~r.form.usedBits = 0#24 := by
  have hopc : opcOf w &&& 0xFF#8 = opcOf w := BitVec.and_allOnes
  conv_lhs => rw [OpcodeRow.accepts, ← commandWord_fields w]
  rw [OpcodeRow.maskBits, OpcodeRow.fixedBits, commandWord, commandWord, commandWord, BitVec.and_append, hopc]
  constructor
  · intro h
    have hl := congrArg opcOf h
    have hr := congrArg opdOf h
    rw [← commandWord, ← commandWord, opcOf_commandWord, opcOf_commandWord] at hl
    rw [← commandWord, ← commandWord, opdOf_commandWord, opdOf_commandWord] at hr
    exact ⟨hl, hr⟩
  · rintro ⟨hl, hr⟩
    rw [hl, hr]

/-- Every row of the map is an arm of the decoder. -/
theorem decodeFields_of_row : ∀ r ∈ opcodeMap, ∃ i : Code → Instr, ∀ opd, decodeFields r.opc opd = withForm r.form opd (i opd) := by
  simp only [opcodeMap, List.forall_mem_cons]
  refine ⟨?_, ?_, ?_, ?_, ?_, ?_, ?_, ?_, ?_, ?_, ?_, ?_, ?_, ?_, ?_, ?_, ?_, ?_, ?_, ?_, ?_, ?_, ?_, ?_, ?_, ?_,
    List.forall_mem_nil _⟩
  all_goals exact ⟨_, fun _ => rfl⟩

/-- Settles O3: a word that decodes has the fields of a row (`row_of_decodeFields_ok`), a row is an arm of the decoder, and rows
with the same opcode are the same. -/
theorem decodingFollowsTheOpcodeMap : Obligations.DecodingFollowsTheOpcodeMap := by
  refine fun w => ⟨⟨fun ⟨i, hi⟩ => ?decoded, fun ⟨r, hr, hw⟩ => ?accepted⟩, fun r hr r' hr' hw hw' => ?unique⟩
  case decoded =>
    obtain ⟨r, hr, hopc, hopd⟩ := row_of_decodeFields_ok hi
    exact ⟨r, hr, (accepts_iff r w).mpr ⟨hopc, hopd⟩⟩
  case accepted =>
    obtain ⟨hopc, hopd⟩ := (accepts_iff r w).mp hw
    obtain ⟨i, harm⟩ := decodeFields_of_row r hr
    exact ⟨i (opdOf w), by rw [decode, hopc, harm]; exact if_pos hopd⟩
  case unique =>
    have hopc := ((accepts_iff r w).mp hw).1
    have hopc' := ((accepts_iff r' w).mp hw').1
    exact opcodeMap_opc_injective r hr r' hr' (hopc.symm.trans hopc')

/-- Settles O5: the words and the refusals of R56, decoded. -/
theorem encodingExamplesDecode : Obligations.EncodingExamplesDecode := by
  unfold Obligations.EncodingExamplesDecode
  decide

end Sys2Proof

namespace Sys2Proof.Machine

/-- Settles O14: the four fields are appended, so that each extraction takes one of them out again. -/
theorem responseWordsHaveTheirFields : Obligations.ResponseWordsHaveTheirFields := by
  have hfields : ∀ (e r : BitVec 1) (c : FaultBits) (d : Code),
      (responseFields e r c d).extractLsb' 31 1 = e ∧ (responseFields e r c d).extractLsb' 30 1 = r ∧
      (responseFields e r c d).extractLsb' 24 6 = c ∧ (responseFields e r c d).extractLsb' 0 24 = d := by
    intro e r c d
    refine ⟨?_, ?_, ?_, BitVec.extractLsb'_append_eq_right⟩
    all_goals rw [responseFields, BitVec.extractLsb'_append_eq_of_le (by decide)]
    · rw [BitVec.extractLsb'_append_eq_of_le (by decide)]
      exact BitVec.extractLsb'_append_eq_left
    · rw [BitVec.extractLsb'_append_eq_of_le (by decide)]
      exact BitVec.extractLsb'_append_eq_right
    · exact BitVec.extractLsb'_append_eq_right
  intro d c
  obtain ⟨hend, herr, hcode, hdata⟩ := hfields 0#1 1#1 c 0#24
  exact ⟨rfl, rfl, hend, herr, hcode, hdata⟩

/-- Settles O58. -/
theorem resetStateIsLegal : Obligations.ResetStateIsLegal := reset_legal_state

end Sys2Proof.Machine

/-! PROOFS. What no command looks at: the sequencer it runs from, the host's agenda and the responses taken; and, for a command that
pushes no byte, what the host accepts. A command run from a state that differs there comes to what differs there, or to the same. -/

namespace Sys2Proof.Machine

/-! ## Results with a function applied to the state -/

/-- A result with `g` applied to the state it leaves. -/
def mapNext (g : State → State) : Result → Result
  | .next s => .next (g s)
  | .fault r => .fault r
  | .refused r => .refused r

theorem mapNext_id (r : Result) : mapNext id r = r := by cases r <;> rfl

/-- `f` leaves alone all the units but DIN, and a command that holds or answers from `f s` leaves `g` of what it leaves from `s`. -/
structure SparesOutput (f g : State → State) : Prop where
  cfg : ∀ s, (f s).cfg = s.cfg
  bu : ∀ s, (f s).bu = s.bu
  lzd : ∀ s, (f s).lzd = s.lzd
  rld : ∀ s, (f s).rld = s.rld
  crc : ∀ s, (f s).crc = s.crc
  bp : ∀ s, (f s).bp = s.bp
  lze : ∀ s, (f s).lze = s.lze
  rle : ∀ s, (f s).rle = s.rle
  cmdErr : ∀ s, (f s).cmdErr = s.cmdErr
  setBu : ∀ s b, f (s.setBu b) = (f s).setBu b
  setLzd : ∀ s d, f (s.setLzd d) = (f s).setLzd d
  setRld : ∀ s d, f (s.setRld d) = (f s).setRld d
  setCrc : ∀ s v, f (s.setCrc v) = (f s).setCrc v
  setBp : ∀ s b, f (s.setBp b) = (f s).setBp b
  setLze : ∀ s d, f (s.setLze d) = (f s).setLze d
  setRle : ∀ s d, f (s.setRle d) = (f s).setRle d
  setCmdErr : ∀ s e, f (s.setCmdErr e) = (f s).setCmdErr e
  hold : ∀ s h, (f s).setSeq (.holding h) = g (s.setSeq (.holding h))
  answer : ∀ s r, answered r (f s) = g (answered r s)

/-- `f` leaves alone DIN too. -/
structure SparesUnits (f g : State → State) : Prop extends SparesOutput f g where
  din : ∀ s, (f s).din = s.din
  setDin : ∀ s d, f (s.setDin d) = (f s).setDin d

theorem SparesUnits.sparesInput {f g : State → State} (h : SparesUnits f g) : SparesInput f :=
  ⟨h.cfg, h.bu, h.lzd, h.din, h.rld, h.setBu, h.setLzd, h.setDin, h.setRld⟩

/-- `f` leaves alone what the host accepts, and the bytes it has accepted. -/
structure SparesPush (f : State → State) : Prop where
  ready : ∀ s, (f s).env.ready = s.env.ready
  accept : ∀ s b r, acceptByte b r (f s) = f (acceptByte b r s)

theorem sparesUnits_setSeq (q : Sequencer) : SparesUnits (fun s => s.setSeq q) id where
  cfg _ := rfl
  bu _ := rfl
  lzd _ := rfl
  rld _ := rfl
  crc _ := rfl
  bp _ := rfl
  lze _ := rfl
  rle _ := rfl
  cmdErr _ := rfl
  setBu _ _ := rfl
  setLzd _ _ := rfl
  setRld _ _ := rfl
  setCrc _ _ := rfl
  setBp _ _ := rfl
  setLze _ _ := rfl
  setRle _ _ := rfl
  setCmdErr _ _ := rfl
  hold _ _ := rfl
  answer _ _ := rfl
  din _ := rfl
  setDin _ _ := rfl

theorem sparesPush_setSeq (q : Sequencer) : SparesPush fun s => s.setSeq q := ⟨fun _ => rfl, fun _ _ _ => rfl⟩

/-- `s` where the host plans other turns and has taken other responses. -/
def withPlan (agenda : List HostTurn) (taken : List Word) (s : State) : State :=
  s.setEnv { s.env with agenda := agenda, taken := taken }

theorem sparesUnits_withPlan (a : List HostTurn) (l : List Word) : SparesUnits (withPlan a l) (withPlan a l) where
  cfg _ := rfl
  bu _ := rfl
  lzd _ := rfl
  rld _ := rfl
  crc _ := rfl
  bp _ := rfl
  lze _ := rfl
  rle _ := rfl
  cmdErr _ := rfl
  setBu _ _ := rfl
  setLzd _ _ := rfl
  setRld _ _ := rfl
  setCrc _ _ := rfl
  setBp _ _ := rfl
  setLze _ _ := rfl
  setRle _ _ := rfl
  setCmdErr _ _ := rfl
  hold _ _ := rfl
  answer _ _ := rfl
  din _ := rfl
  setDin _ _ := rfl

theorem sparesPush_withPlan (a : List HostTurn) (l : List Word) : SparesPush (withPlan a l) := ⟨fun _ => rfl, fun _ _ _ => rfl⟩

/-- `s` where the host accepts `r`. -/
def accepting (r : Ready) (s : State) : State := { s with env := { s.env with ready := r } }

theorem sparesUnits_accepting (r : Ready) : SparesUnits (accepting r) (accepting r) where
  cfg _ := rfl
  bu _ := rfl
  lzd _ := rfl
  rld _ := rfl
  crc _ := rfl
  bp _ := rfl
  lze _ := rfl
  rle _ := rfl
  cmdErr _ := rfl
  setBu _ _ := rfl
  setLzd _ _ := rfl
  setRld _ _ := rfl
  setCrc _ _ := rfl
  setBp _ _ := rfl
  setLze _ _ := rfl
  setRle _ _ := rfl
  setCmdErr _ _ := rfl
  hold _ _ := rfl
  answer _ _ := rfl
  din _ := rfl
  setDin _ _ := rfl

/-- Other bytes in DIN. -/
theorem sparesOutput_setDin (d : Din) : SparesOutput (fun s => s.setDin d) (fun s => s.setDin d) where
  cfg _ := rfl
  bu _ := rfl
  lzd _ := rfl
  rld _ := rfl
  crc _ := rfl
  bp _ := rfl
  lze _ := rfl
  rle _ := rfl
  cmdErr _ := rfl
  setBu _ _ := rfl
  setLzd _ _ := rfl
  setRld _ _ := rfl
  setCrc _ _ := rfl
  setBp _ _ := rfl
  setLze _ _ := rfl
  setRle _ _ := rfl
  setCmdErr _ _ := rfl
  hold _ _ := rfl
  answer _ _ := rfl

/-! ## Ending a command -/

section
variable {f g : State → State} (hf : SparesOutput f g)
include hf

theorem respond_map (r : Response) (s : State) : respond r (f s) = mapNext g (respond r s) :=
  congrArg Host.Outcome.next (hf.answer s r)

theorem respondOk_map (s : State) : respondOk (f s) = mapNext g (respondOk s) := respond_map hf _ s

theorem holdAt_map (h : Hold) (s : State) : holdAt h (f s) = mapNext g (holdAt h s) := congrArg Host.Outcome.next (hf.hold s h)

theorem raiseCmdError_map (c : FaultCode) (s : State) : raiseCmdError c (f s) = mapNext g (raiseCmdError c s) := by
  rw [raiseCmdError, ← hf.setCmdErr]
  exact respond_map hf _ _

theorem raiseUnitFault_map (u : FaultUnit) (c : FaultBits) (s : State) :
    raiseUnitFault u c (f s) = mapNext g (raiseUnitFault u c s) := by
  have hlatch : latchFault u c (f s) = f (latchFault u c s) := by
    cases u with
    | lzd => simp only [latchFault, hf.setLzd, hf.lzd]
    | lze => simp only [latchFault, hf.setLze, hf.lze]
    | rld => simp only [latchFault, hf.setRld, hf.rld]
  rw [raiseUnitFault, hlatch]
  exact respond_map hf _ _

theorem unlessLatched_map (u : FaultUnit) (s : State) {command command' : Result} (h : command' = mapNext g command) :
    unlessLatched u (f s) command' = mapNext g (unlessLatched u s command) := by
  have hfield : faultField u (f s) = faultField u s := by
    cases u with
    | lzd => rw [faultField, hf.lzd, faultField]
    | lze => rw [faultField, hf.lze, faultField]
    | rld => rw [faultField, hf.rld, faultField]
  unfold unlessLatched
  rw [hfield]
  split
  · exact raiseUnitFault_map hf u _ s
  · exact h

theorem conclude_map {α : Type} {x : Supply α} {h : Hold} {atEnd : State → Result} {k : α → State → Result}
    (hend : ∀ s, atEnd (f s) = mapNext g (atEnd s)) (hk : ∀ a s, k a (f s) = mapNext g (k a s)) :
    (x.mapState f).conclude h atEnd k = mapNext g (x.conclude h atEnd k) := by
  cases x with
  | got a s => exact hk a s
  | eod s => exact hend s
  | waits s => exact holdAt_map hf h s
  | faulted c s => exact raiseUnitFault_map hf .lzd c s
  | broken _ => rfl

end

/-! ## The reads -/

section
variable {f g : State → State} (hf : SparesUnits f g)
include hf

theorem execBuRd_map (s : State) : execBuRd (f s) = mapNext g (execBuRd s) := by
  rw [execBuRd, buRead_map hf.sparesInput]
  exact conclude_map hf.toSparesOutput (respond_map hf.toSparesOutput _) fun _ => respond_map hf.toSparesOutput _

theorem execLzdRd_map (s : State) : execLzdRd (f s) = mapNext g (execLzdRd s) := by
  rw [execLzdRd, lzdNextByte_map hf.sparesInput]
  exact conclude_map hf.toSparesOutput (respond_map hf.toSparesOutput _) fun _ => respond_map hf.toSparesOutput _

theorem rldCountRest_map (r : Byte) (s : State) : rldCountRest r (f s) = mapNext g (rldCountRest r s) := by
  rw [rldCountRest, rldSrcByte_map hf.sparesInput]
  refine conclude_map hf.toSparesOutput (raiseUnitFault_map hf.toSparesOutput _ _) fun k t => ?_
  rw [hf.rld, ← hf.setRld]
  exact respond_map hf.toSparesOutput _ _

theorem rldRepeatRest_map (s : State) : rldRepeatRest (f s) = mapNext g (rldRepeatRest s) := by
  rw [rldRepeatRest, rldSrcByte_map hf.sparesInput]
  exact conclude_map hf.toSparesOutput (raiseUnitFault_map hf.toSparesOutput _ _) fun r t => rldCountRest_map hf r t

theorem rldFirstRest_map (s : State) : rldFirstRest (f s) = mapNext g (rldFirstRest s) := by
  rw [rldFirstRest, rldSrcByte_map hf.sparesInput]
  refine conclude_map hf.toSparesOutput (respond_map hf.toSparesOutput _) fun b t => ?_
  rw [hf.rld]
  split
  · exact rldRepeatRest_map hf t
  · exact respond_map hf.toSparesOutput _ t

/-! ## The other commands that push no byte -/

theorem registerValue_map (s : State) (r : BitVec 5) : registerValue (f s) r = registerValue s r := by
  simp only [registerValue, statusRegister, fcodesRegister, hf.crc, hf.bu, hf.bp, hf.lzd, hf.lze, hf.rld, hf.rle, hf.din,
    hf.cmdErr]

omit hf in
/-- `ApplyReset` writes every element of the block (70_reset_and_hazards.md R119). -/
theorem applyReset_eq_set (s : State) :
    applyReset s = ((((((((s.setCrc crcInit).setBu Bu.reset).setBp Bp.reset).setLzd Lzd.reset).setLze Lze.reset).setRld
      Rld.reset).setRle Rle.reset).setDin Din.reset).setCmdErr false := rfl

theorem applyReset_map (s : State) : applyReset (f s) = f (applyReset s) := by
  simp only [applyReset_eq_set, hf.setCrc, hf.setBu, hf.setBp, hf.setLzd, hf.setLze, hf.setRld, hf.setRle, hf.setDin, hf.setCmdErr]

/-- The commands that push DOUT bytes (20_memory.md R33). -/
def pushes : Instr → Bool
  | .bpWr _ | .bpClose | .lzeWr _ | .lzeClr | .lzeFlush | .rleWr _ | .rleFlush | .rleEsc _ => true
  | .nop | .reset | .regRd _ | .crcRst | .crcUpd _ | .crcVal | .buSetw _ | .buIncw | .buRd | .buClr | .bpSetw _ | .bpIncw
  | .lzdRd | .lzdClr | .rldRd | .rldEsc _ | .rldRst | .rldSrc _ => false

theorem exec_map_of_not_pushes {i : Instr} (hi : pushes i = false) (s : State) : exec i (f s) = mapNext g (exec i s) := by
  cases i with
  | nop => exact respondOk_map hf.toSparesOutput s
  | reset =>
    show respondOk (applyReset (f s)) = _
    rw [applyReset_map hf]
    exact respondOk_map hf.toSparesOutput _
  | regRd r =>
    show execRegRd r (f s) = mapNext g (execRegRd r s)
    unfold execRegRd
    rw [registerValue_map hf]
    split
    · split
      · exact respond_map hf.toSparesOutput _ s
      · rfl
    · exact raiseCmdError_map hf.toSparesOutput _ s
  | crcRst =>
    show respondOk ((f s).setCrc _) = _
    rw [← hf.setCrc]
    exact respondOk_map hf.toSparesOutput _
  | crcUpd b =>
    show respondOk ((f s).setCrc _) = _
    rw [← hf.setCrc, hf.crc]
    exact respondOk_map hf.toSparesOutput _
  | crcVal =>
    show respondData ((f s).crc.setWidth 24) (f s) = _
    rw [hf.crc]
    exact respond_map hf.toSparesOutput _ s
  | buSetw n =>
    show (if _ then respondOk ((f s).setBu { (f s).bu with width := n }) else raiseCmdError _ (f s)) = mapNext g (execBuSetw n s)
    rw [hf.bu, ← hf.setBu, respondOk_map hf.toSparesOutput, raiseCmdError_map hf.toSparesOutput]
    exact (apply_ite (mapNext g) _ _ _).symm
  | buIncw =>
    show (if (f s).bu.width = 24#5 then raiseCmdError _ (f s) else
      respondOk ((f s).setBu { (f s).bu with width := (f s).bu.width + 1#5 })) = mapNext g (execBuIncw s)
    rw [hf.bu, ← hf.setBu, respondOk_map hf.toSparesOutput, raiseCmdError_map hf.toSparesOutput]
    exact (apply_ite (mapNext g) _ _ _).symm
  | bpSetw n =>
    show (if _ then respondOk ((f s).setBp { (f s).bp with width := n }) else raiseCmdError _ (f s)) = mapNext g (execBpSetw n s)
    rw [hf.bp, ← hf.setBp, respondOk_map hf.toSparesOutput, raiseCmdError_map hf.toSparesOutput]
    exact (apply_ite (mapNext g) _ _ _).symm
  | bpIncw =>
    show (if (f s).bp.width = 24#5 then raiseCmdError _ (f s) else
      respondOk ((f s).setBp { (f s).bp with width := (f s).bp.width + 1#5 })) = mapNext g (execBpIncw s)
    rw [hf.bp, ← hf.setBp, respondOk_map hf.toSparesOutput, raiseCmdError_map hf.toSparesOutput]
    exact (apply_ite (mapNext g) _ _ _).symm
  | buRd => exact execBuRd_map hf s
  | buClr =>
    show respondOk ((f s).setBu { (f s).bu with acc := 0#32, cnt := 0#6 }) = _
    rw [hf.bu, ← hf.setBu]
    exact respondOk_map hf.toSparesOutput _
  | lzdRd => exact execLzdRd_map hf s
  | lzdClr =>
    refine unlessLatched_map hf.toSparesOutput .lzd s ?_
    rw [lzdInit_map hf.sparesInput]
    exact respondOk_map hf.toSparesOutput _
  | rldRd =>
    refine unlessLatched_map hf.toSparesOutput .rld s ?_
    rw [hf.rld]
    split
    · exact rldFirstRest_map hf s
    · rw [← hf.setRld]
      exact respond_map hf.toSparesOutput _ _
  | rldEsc e =>
    refine unlessLatched_map hf.toSparesOutput .rld s ?_
    rw [hf.rld, ← hf.setRld]
    exact respondOk_map hf.toSparesOutput _
  | rldRst =>
    refine unlessLatched_map hf.toSparesOutput .rld s ?_
    rw [hf.rld, ← hf.setRld]
    exact respondOk_map hf.toSparesOutput _
  | rldSrc sel =>
    refine unlessLatched_map hf.toSparesOutput .rld s ?_
    rw [hf.rld, ← hf.setRld]
    exact respondOk_map hf.toSparesOutput _
  | _ => cases hi

/-- The points at which a command waits for the host to accept a byte (20_memory.md R33). -/
def pushesAt : Hold → Bool
  | .bpWrite | .bpClose | .lzeWrite _ | .lzeClearW | .lzeClearCode | .lzeFlushW | .lzeFlushClose | .rleFull _ | .rleNew _ _
  | .rleFlush _ | .rleSetEsc _ _ => true
  | .buRead | .lzdRead | .rldFirst | .rldRepeat | .rldCount _ => false

theorem resume_map_of_not_pushes {h : Hold} (hh : pushesAt h = false) (s : State) : resume h (f s) = mapNext g (resume h s) := by
  cases h with
  | buRead => exact execBuRd_map hf s
  | lzdRead => exact execLzdRd_map hf s
  | rldFirst => exact rldFirstRest_map hf s
  | rldRepeat => exact rldRepeatRest_map hf s
  | rldCount r => exact rldCountRest_map hf r s
  | _ => cases hh

end

/-! ## Pushing bytes -/

section
variable {f g : State → State} (hf : SparesOutput f g) (hp : SparesPush f)
include hf

omit hf in
include hp in
theorem doutPush_map (b : Byte) (s : State) : doutPush b (f s) = (doutPush b s).map f := by
  unfold doutPush
  rw [hp.ready]
  split
  · exact congrArg some (hp.accept s b _)
  · rfl
  · exact congrArg some (hp.accept s b _)

omit hf in
include hp in
theorem pushAll_map (bytes : List Byte) (s : State) : pushAll bytes (f s) = (pushAll bytes s).mapState f := by
  induction bytes generalizing s with
  | nil => rfl
  | cons b bytes ih =>
    rw [pushAll, pushAll, doutPush_map hp]
    cases doutPush b s with
    | none => rfl
    | some u => exact ih u

theorem bpLowByte_map (s : State) : bpLowByte (f s) = bpLowByte s := by rw [bpLowByte, hf.bp, bpLowByte]

theorem bpPut_map (v : Code) (s : State) : bpPut v (f s) = f (bpPut v s) := by rw [bpPut, hf.bp, ← hf.setBp, bpPut]

theorem bpSetWidth_map (n : BitVec 5) (s : State) : bpSetWidth n (f s) = f (bpSetWidth n s) := by
  rw [bpSetWidth, hf.bp, ← hf.setBp, bpSetWidth]

theorem bpShift_map (s : State) : bpShift (f s) = f (bpShift s) := by rw [bpShift, hf.bp, ← hf.setBp, bpShift]

theorem bpEmpty_map (s : State) : bpEmpty (f s) = f (bpEmpty s) := by rw [bpEmpty, hf.bp, ← hf.setBp, bpEmpty]

theorem lzeGrow_map (s : State) : lzeGrow (f s) = f (lzeGrow s) := by
  unfold lzeGrow
  rw [hf.lze, hf.bp, bpSetWidth_map hf]
  exact (apply_ite f _ _ _).symm

theorem lzeInsert_map (b : Byte) (s : State) : lzeInsert b (f s) = f (lzeInsert b s) := by
  rw [lzeInsert, hf.lze, ← hf.setLze, lzeInsert]

theorem lzeInit_map (s : State) : lzeInit (f s) = f (lzeInit s) := by rw [lzeInit, hf.lze, ← hf.setLze, lzeInit]

theorem lzeHold_map (l : List Byte) (s : State) : lzeHold l (f s) = f (lzeHold l s) := by
  rw [lzeHold, hf.lze, ← hf.setLze, lzeHold]

theorem lzeGrowOk_map (s : State) : lzeGrowOk (f s) = lzeGrowOk s := by rw [lzeGrowOk, hf.lze, hf.bp, lzeGrowOk]

theorem lzeFinish_map (s : State) : lzeFinish (f s) = mapNext g (lzeFinish s) := by
  rw [lzeFinish, lzeInit_map hf, bpSetWidth_map hf]
  exact respondOk_map hf _

theorem lzePutW_map {rest : State → Result} (hrest : ∀ t : State, rest (f t) = mapNext g (rest t)) (s : State) :
    lzePutW rest (f s) = mapNext g (lzePutW rest s) := by
  unfold lzePutW
  rw [hf.lze]
  cases lzeCode s.lze s.lze.wseq with
  | none => rfl
  | some c =>
    show rest (bpPut c (f s)) = mapNext g (rest (bpPut c s))
    rw [bpPut_map hf, hrest]

theorem rleLengthen_map (s : State) : rleLengthen (f s) = f (rleLengthen s) := by
  rw [rleLengthen, hf.rle, ← hf.setRle, rleLengthen]

theorem push_andThen_map {p : Push} {h : List Byte → Hold} {k : State → Result} (hk : ∀ s, k (f s) = mapNext g (k s)) :
    (p.mapState f).andThen h k = mapNext g (p.andThen h k) := by
  cases p with
  | sent s => exact hk s
  | waits rest s => exact holdAt_map hf _ s

include hp

theorem bpEmit_map (n : Nat) (s : State) : bpEmit n (f s) = (bpEmit n s).mapState f := by
  induction n generalizing s with
  | zero => rfl
  | succ n ih =>
    rw [bpEmit, bpEmit, hf.bp, bpLowByte_map hf, doutPush_map hp]
    split
    · cases doutPush (bpLowByte s) s with
      | none => rfl
      | some u =>
        show bpEmit n (bpShift (f u)) = _
        rw [bpShift_map hf, ih]
    · rfl

theorem bpCloseByte_map (s : State) : bpCloseByte (f s) = (bpCloseByte s).mapState f := by
  rw [bpCloseByte, bpCloseByte, hf.bp, bpLowByte_map hf, doutPush_map hp, bpEmpty_map hf]
  split
  · rfl
  · cases doutPush (bpLowByte s) s with
    | none => rfl
    | some u => exact congrArg Push.sent (bpEmpty_map hf u)

theorem bpDrain_andThen_map {h : List Byte → Hold} {k : State → Result} (hk : ∀ s, k (f s) = mapNext g (k s)) (s : State) :
    (bpDrain (f s)).andThen h k = mapNext g ((bpDrain s).andThen h k) := by
  rw [bpDrain, bpEmit_map hf hp]
  exact push_andThen_map hf hk

theorem bpCloseByte_andThen_map {h : List Byte → Hold} {k : State → Result} (hk : ∀ s, k (f s) = mapNext g (k s)) (s : State) :
    (bpCloseByte (f s)).andThen h k = mapNext g ((bpCloseByte s).andThen h k) := by
  rw [bpCloseByte_map hf hp]
  exact push_andThen_map hf hk

theorem pushAll_andThen_map {h : List Byte → Hold} {k : State → Result} (hk : ∀ s, k (f s) = mapNext g (k s))
    (bytes : List Byte) (s : State) :
    (pushAll bytes (f s)).andThen h k = mapNext g ((pushAll bytes s).andThen h k) := by
  rw [pushAll_map hp]
  exact push_andThen_map hf hk

/-! ## The commands that push bytes -/

theorem bpWriteRest_map (s : State) : bpWriteRest (f s) = mapNext g (bpWriteRest s) :=
  bpDrain_andThen_map hf hp (respondOk_map hf) s

theorem bpCloseRest_map (s : State) : bpCloseRest (f s) = mapNext g (bpCloseRest s) :=
  bpCloseByte_andThen_map hf hp (respondOk_map hf) s

theorem lzeWriteRest_map (b : Byte) (s : State) : lzeWriteRest b (f s) = mapNext g (lzeWriteRest b s) :=
  bpDrain_andThen_map hf hp (fun t => by rw [lzeGrow_map hf, lzeInsert_map hf, respondOk_map hf]) s

theorem lzeClearCodeRest_map (s : State) : lzeClearCodeRest (f s) = mapNext g (lzeClearCodeRest s) :=
  bpDrain_andThen_map hf hp (lzeFinish_map hf) s

theorem lzeClearWRest_map (s : State) : lzeClearWRest (f s) = mapNext g (lzeClearWRest s) :=
  bpDrain_andThen_map hf hp (fun t => by rw [lzeGrow_map hf, bpPut_map hf, lzeClearCodeRest_map hf hp]) s

theorem lzeFlushCloseRest_map (s : State) : lzeFlushCloseRest (f s) = mapNext g (lzeFlushCloseRest s) :=
  bpCloseByte_andThen_map hf hp (lzeFinish_map hf) s

theorem lzeFlushWRest_map (s : State) : lzeFlushWRest (f s) = mapNext g (lzeFlushWRest s) :=
  bpDrain_andThen_map hf hp (lzeFlushCloseRest_map hf hp) s

theorem rleFullRest_map (bytes : List Byte) (s : State) : rleFullRest bytes (f s) = mapNext g (rleFullRest bytes s) :=
  pushAll_andThen_map hf hp (fun t => by rw [rleEndRun, hf.rle, ← hf.setRle, respondOk_map hf, rleEndRun]) bytes s

theorem rleNewRest_map (b : Byte) (bytes : List Byte) (s : State) : rleNewRest b bytes (f s) = mapNext g (rleNewRest b bytes s) :=
  pushAll_andThen_map hf hp (fun t => by rw [hf.rle, ← hf.setRle, respondOk_map hf]) bytes s

theorem rleFlushRest_map (bytes : List Byte) (s : State) : rleFlushRest bytes (f s) = mapNext g (rleFlushRest bytes s) :=
  pushAll_andThen_map hf hp (fun t => by rw [rleEndRun, hf.rle, ← hf.setRle, respondOk_map hf, rleEndRun]) bytes s

theorem rleSetEscRest_map (e : Byte) (bytes : List Byte) (s : State) :
    rleSetEscRest e bytes (f s) = mapNext g (rleSetEscRest e bytes s) :=
  pushAll_andThen_map hf hp (fun t => by rw [hf.rle, ← hf.setRle, respondOk_map hf]) bytes s

/-- Going on from a hold at a push does not look at DIN. -/
theorem resume_map_of_pushes {h : Hold} (hh : pushesAt h = true) (s : State) : resume h (f s) = mapNext g (resume h s) := by
  cases h with
  | buRead | lzdRead | rldFirst | rldRepeat | rldCount _ => cases hh
  | bpWrite => exact bpWriteRest_map hf hp s
  | bpClose => exact bpCloseRest_map hf hp s
  | lzeWrite b => exact lzeWriteRest_map hf hp b s
  | lzeClearW => exact lzeClearWRest_map hf hp s
  | lzeClearCode => exact lzeClearCodeRest_map hf hp s
  | lzeFlushW => exact lzeFlushWRest_map hf hp s
  | lzeFlushClose => exact lzeFlushCloseRest_map hf hp s
  | rleFull rest => exact rleFullRest_map hf hp rest s
  | rleNew b rest => exact rleNewRest_map hf hp b rest s
  | rleFlush rest => exact rleFlushRest_map hf hp rest s
  | rleSetEsc e rest => exact rleSetEscRest_map hf hp e rest s

/-- A command that pushes bytes does not look at DIN. -/
theorem exec_map_of_pushes {i : Instr} (hi : pushes i = true) (s : State) : exec i (f s) = mapNext g (exec i s) := by
  cases i with
  | bpWr v =>
    show bpWriteRest (bpPut v (f s)) = _
    rw [bpPut_map hf]
    exact bpWriteRest_map hf hp _
  | bpClose => exact bpCloseRest_map hf hp s
  | lzeWr b =>
    refine unlessLatched_map hf .lze s ?_
    rw [hf.lze, hf.cfg, lzeGrowOk_map hf, lzeHold_map hf, lzeHold_map hf, lzePutW_map hf (lzeWriteRest_map hf hp b)]
    simp only [respondOk_map hf, raiseUnitFault_map hf, ← apply_ite (mapNext g)]
  | lzeClr =>
    refine unlessLatched_map hf .lze s ?_
    rw [hf.lze, lzeGrowOk_map hf, bpPut_map hf, lzeClearCodeRest_map hf hp, lzePutW_map hf (lzeClearWRest_map hf hp)]
    simp only [raiseUnitFault_map hf, ← apply_ite (mapNext g)]
  | lzeFlush =>
    refine unlessLatched_map hf .lze s ?_
    rw [hf.lze, lzeGrowOk_map hf, lzeFlushCloseRest_map hf hp, lzePutW_map hf (lzeFlushWRest_map hf hp)]
    simp only [raiseUnitFault_map hf, ← apply_ite (mapNext g)]
  | rleWr b =>
    show execRleWr b (f s) = mapNext g (execRleWr b s)
    unfold execRleWr
    simp only [rleLengthen_map hf, hf.rle, rleFullRest_map hf hp, rleNewRest_map hf hp, respondOk_map hf,
      ← apply_ite (mapNext g)]
  | rleFlush =>
    show rleFlushRest (rleRunBytes (f s).rle) (f s) = _
    rw [hf.rle]
    exact rleFlushRest_map hf hp _ s
  | rleEsc e =>
    show rleSetEscRest e (rleRunBytes (f s).rle) (f s) = _
    rw [hf.rle]
    exact rleSetEscRest_map hf hp e _ s
  | _ => cases hi

end

section
variable {f g : State → State} (hf : SparesUnits f g) (hp : SparesPush f)
include hf hp

/-- Going on from a hold looks at the units and at what the host accepts only. -/
theorem resume_map (h : Hold) (s : State) : resume h (f s) = mapNext g (resume h s) := by
  cases hh : pushesAt h with
  | true => exact resume_map_of_pushes hf.toSparesOutput hp hh s
  | false => exact resume_map_of_not_pushes hf hh s

/-- A command looks at the units and at what the host accepts only. -/
theorem exec_map (i : Instr) (s : State) : exec i (f s) = mapNext g (exec i s) := by
  cases hi : pushes i with
  | true => exact exec_map_of_pushes hf.toSparesOutput hp hi s
  | false => exact exec_map_of_not_pushes hf hi s

end

/-! ## The sequencer -/

/-- Going on from a hold does not look at the sequencer: it only writes it. -/
theorem resume_setSeq (h : Hold) (s : State) (q : Sequencer) : resume h (s.setSeq q) = resume h s :=
  (resume_map (sparesUnits_setSeq q) (sparesPush_setSeq q) h s).trans (mapNext_id _)

/-- A command does not look at the sequencer: it only writes it. -/
theorem exec_setSeq (i : Instr) (s : State) (q : Sequencer) : exec i (s.setSeq q) = exec i s :=
  (exec_map (sparesUnits_setSeq q) (sparesPush_setSeq q) i s).trans (mapNext_id _)

end Sys2Proof.Machine

/-! PROOFS. What a command can come to and what it leaves alone, in every state, legal or not: the refusals of a latched unit, the
frame of each command, and what going on from a hold leaves alone. -/

namespace Sys2Proof.Machine

/-! ## Latched units (60_exceptions.md R114) -/

/-- A latched unit's command fails with the latched code, and nothing else changes. -/
theorem unlessLatched_of_ne {u : FaultUnit} {s : State} (command : Result) (h : faultField u s ≠ 0#6) :
    unlessLatched u s command = .next { s with seq := .idle, rsp := some (responseWord (.failed (faultField u s))) } :=
  unlessLatched_of_latched command (latched_eq_true.mpr h)

theorem lzdNextByte_of_latched {s : State} (h : s.lzd.flt ≠ 0#6) : lzdNextByte s = .faulted s.lzd.flt s := by
  rw [lzdNextByte, if_pos (latched_eq_true.mpr h)]

/-- A fault the LZW decoder has latched is the response, and nothing else changes. -/
theorem conclude_of_latched {s : State} {x : Supply Byte} (hx : x = .faulted s.lzd.flt s) (h : Hold) (atEnd : State → Result)
    (k : Byte → State → Result) :
    x.conclude h atEnd k = .next { s with seq := .idle, rsp := some (responseWord (.failed s.lzd.flt)) } := by
  rw [hx]
  rfl

theorem exec_lzdRd_of_latched {s : State} (h : s.lzd.flt ≠ 0#6) :
    exec .lzdRd s = .next { s with seq := .idle, rsp := some (responseWord (.failed s.lzd.flt)) } :=
  conclude_of_latched (lzdNextByte_of_latched h) _ _ _

theorem rldSrcByte_lzd {s : State} (h : s.rld.src = .lzd) : rldSrcByte s = lzdNextByte s := by rw [rldSrcByte, h]

theorem rldSrcByte_din {s : State} (h : s.rld.src = .din) : rldSrcByte s = dinPull s := by rw [rldSrcByte, h]

theorem exec_rldRd_of_first {s : State} (hflt : s.rld.flt = 0#6) (hrem : s.rld.rem = 0#9) : exec .rldRd s = rldFirstRest s :=
  (unlessLatched_of_clear (u := .rld) _ hflt).trans (if_pos hrem)

/-- Settles O55: the commands of a unit run unless its fault is latched, and LZD_READ and an RLD_READ that reaches the LZW decoder
meet the latch in `LzdNextByte`. -/
theorem latchedUnitsRefuseTheirCommands : Obligations.LatchedUnitsRefuseTheirCommands := by
  refine fun s b sel => ⟨fun hlzd => ?lzd, fun hlze => ?lze, fun hrld => ?rld, fun hrld hrem hsrc hlzd => ?through⟩
  case lzd =>
    simp only [List.forall_mem_cons]
    exact ⟨exec_lzdRd_of_latched hlzd, exec_lzdClr_of_latched hlzd, List.forall_mem_nil _⟩
  case lze =>
    simp only [List.forall_mem_cons]
    have hrefused := fun command => unlessLatched_of_ne (u := .lze) command hlze
    exact ⟨hrefused _, hrefused _, hrefused _, List.forall_mem_nil _⟩
  case rld =>
    simp only [List.forall_mem_cons]
    have hrefused := fun command => unlessLatched_of_ne (u := .rld) command hrld
    exact ⟨hrefused _, hrefused _, hrefused _, hrefused _, List.forall_mem_nil _⟩
  case through =>
    rw [exec_rldRd_of_first hrld hrem]
    exact conclude_of_latched ((rldSrcByte_lzd hsrc).trans (lzdNextByte_of_latched hlzd)) _ _ _

/-! ## The frames of the commands -/

theorem raiseCmdError_next {c : FaultCode} {s t : State} :
    raiseCmdError c s = .next t ↔ t = answered (.failed (faultBits c)) (s.setCmdErr true) := respond_next

/-- `t` is `u` with another way the command stands: at a hold, or over with its response. -/
def StandsOver (u t : State) : Prop := t = (u.setSeq t.seq).setRsp t.rsp

theorem standsOver_answered (r : Response) (u : State) : StandsOver u (answered r u) := rfl

theorem standsOver_holding (h : Hold) (u : State) : StandsOver u (u.setSeq (.holding h)) := rfl

/-- BU_READ touches the buffered bits and DIN (42_bitstream.md R74). -/
theorem execBuRd_read {s t : State} (h : execBuRd s = .next t) : ∃ u, BitsRead s u ∧ StandsOver u t := by
  have hleaves := buRead_leaves s
  rcases conclude_next h with ⟨c, u, hx, hu⟩ | ⟨u, hx, hu⟩ | ⟨u, hx, rfl⟩ | ⟨c, u, hx, -⟩
  · rw [hx] at hleaves
    exact ⟨u, hleaves, respond_next.mp hu ▸ standsOver_answered _ u⟩
  · rw [hx] at hleaves
    exact ⟨u, hleaves, respond_next.mp hu ▸ standsOver_answered _ u⟩
  · rw [hx] at hleaves
    exact ⟨u, hleaves, standsOver_holding _ u⟩
  · exact absurd hx buRead_not_faulted

/-- `t` is `s` but for the unpacker, the LZW decoder, bytes pulled from DIN, and how the command stands. -/
structure LzdRead (s t : State) : Prop where
  frame : t = ((((s.setBu t.bu).setLzd t.lzd).setDin t.din).setSeq t.seq).setRsp t.rsp
  eof : t.din.eof = s.din.eof
  fifo : ∃ k, t.din.fifo = s.din.fifo.drop k
  /-- A latch of the LZW decoder stays (60_exceptions.md R114). -/
  flt : s.lzd.flt ≠ 0#6 → t.lzd.flt = s.lzd.flt

theorem BytesTaken.lzdRead {s u t : State} (h : BytesTaken s u) (ht : StandsOver u t) : LzdRead s t := by
  have hflt := h.flt
  rw [ht]
  exact ⟨by rw [h.frame]; rfl, h.eof, h.fifo, fun _ => hflt⟩

/-- LZD_READ touches the unpacker, the LZW decoder and DIN (43_lzw_decoder.md R91). -/
theorem execLzdRd_read {s t : State} (h : execLzdRd s = .next t) : LzdRead s t := by
  have hleaves := lzdNextByte_leaves s
  rcases conclude_next h with ⟨c, u, hx, hu⟩ | ⟨u, hx, hu⟩ | ⟨u, hx, rfl⟩ | ⟨c, u, hx, rfl⟩ <;> rw [hx] at hleaves
  · exact BytesTaken.lzdRead hleaves (respond_next.mp hu ▸ standsOver_answered _ u)
  · exact BytesTaken.lzdRead hleaves (respond_next.mp hu ▸ standsOver_answered _ u)
  · exact BytesTaken.lzdRead hleaves (standsOver_holding _ u)
  · have hu : BytesTaken s u := hleaves
    refine ⟨?_, hu.eof, hu.fifo, fun hlatched => ?_⟩
    · conv_lhs => rw [hu.frame]
      rfl
    · exact (lzdNextByte_faulted hx).resolve_left hlatched

/-- RLD_READ is a read of the RLE decoder, and changes nothing but the response where its fault is latched (45_rle.md R102). -/
theorem exec_rldRd_read {s t : State} (h : exec .rldRd s = .next t) :
    DecoderRead s t ∧ (s.rld.flt ≠ 0#6 → t.rld = s.rld) := by
  rcases unlessLatched_next h with ⟨-, rfl⟩ | ⟨hclear, h⟩
  · exact ⟨.own_units s s.rld _ _ rfl, fun _ => rfl⟩
  · refine ⟨?_, fun hlatched => absurd hclear hlatched⟩
    split at h
    · exact rldFirstRest_read h
    · rw [respond_next.mp h]
      exact .own_units s { s.rld with rem := s.rld.rem - 1#9 } _ _ rfl

/-- BP_WRITE from its loop on touches the packer's buffered bits and the host's side (42_bitstream.md R80). -/
theorem bpWriteRest_wrote {s t : State} (h : bpWriteRest s = .next t) : ∃ u, BitsSent s u ∧ StandsOver u t := by
  obtain ⟨u, hu, hk | ⟨rest, rfl⟩⟩ := bpDrain_next h
  · exact ⟨u, hu, respond_next.mp hk ▸ standsOver_answered _ u⟩
  · exact ⟨u, hu, standsOver_holding _ u⟩

/-- BP_CLOSE touches the packer's buffered bits and the host's side (R81). -/
theorem bpCloseRest_wrote {s t : State} (h : bpCloseRest s = .next t) : ∃ u, BitsSent s u ∧ StandsOver u t := by
  obtain ⟨u, hu, hk | ⟨rest, rfl⟩⟩ := bpCloseByte_next h
  · exact ⟨u, hu, respond_next.mp hk ▸ standsOver_answered _ u⟩
  · exact ⟨u, hu, standsOver_holding _ u⟩

theorem StandsOver.encoderWrote {s u t : State} (h : EncoderWrote s u) (ht : StandsOver u t) : EncoderWrote s t :=
  ht ▸ h.trans ⟨rfl, .of_same rfl⟩

theorem EncoderWrote.answered {s : State} {d : Lze} {r : Response} : EncoderWrote s (answered r (s.setLze d)) :=
  ⟨rfl, .of_same rfl⟩

/-- LZE_WRITE writes the encoder, the packer and the host's side (44_lzw_encoder.md R96). -/
theorem exec_lzeWr_wrote {b : Byte} {s t : State} (h : exec (.lzeWr b) s = .next t) : EncoderWrote s t := by
  rcases unlessLatched_next h with ⟨-, rfl⟩ | ⟨-, h⟩
  · exact .answered (d := s.lze)
  split at h
  · exact respond_next.mp h ▸ .answered
  split at h
  · exact respond_next.mp h ▸ .answered
  split at h
  · exact respond_next.mp h ▸ .answered
  split at h
  · exact respond_next.mp h ▸ .answered
  · exact lzePutW_wrote (fun _ => lzeWriteRest_wrote) h

/-- LZE_CLEAR writes the encoder, the packer and the host's side (R97). -/
theorem exec_lzeClr_wrote {s t : State} (h : exec .lzeClr s = .next t) : EncoderWrote s t := by
  rcases unlessLatched_next h with ⟨-, rfl⟩ | ⟨-, h⟩
  · exact .answered (d := s.lze)
  split at h
  · exact (bpPut_sent clearCode s).wrote.trans (lzeClearCodeRest_wrote h)
  split at h
  · exact respond_next.mp h ▸ .answered
  · exact lzePutW_wrote (fun _ => lzeClearWRest_wrote) h

/-- LZE_FLUSH writes the encoder, the packer and the host's side (R98). -/
theorem exec_lzeFlush_wrote {s t : State} (h : exec .lzeFlush s = .next t) : EncoderWrote s t := by
  rcases unlessLatched_next h with ⟨-, rfl⟩ | ⟨-, h⟩
  · exact .answered (d := s.lze)
  split at h
  · exact lzeFlushCloseRest_wrote h
  split at h
  · exact respond_next.mp h ▸ .answered
  · exact lzePutW_wrote (fun _ => lzeFlushWRest_wrote) h

/-- `t` is `s` but for the RLE encoder, the bytes the host has accepted, and how the command stands. -/
structure RunWrote (s t : State) : Prop where
  frame : t = (((s.setRle t.rle).setEnv t.env).setSeq t.seq).setRsp t.rsp
  accepted : Accepted s t

/-- Pushing bytes and then writing the RLE encoder. -/
theorem pushAll_wrote {s t : State} {bytes : List Byte} {h : List Byte → Hold} {d : State → Rle}
    (hx : (pushAll bytes s).andThen h (fun s' => respondOk (s'.setRle (d s'))) = .next t) : RunWrote s t := by
  obtain ⟨sent, hacc, hk | ⟨rest, rfl⟩⟩ := pushAll_next hx
  · rw [respond_next.mp hk]
    exact ⟨rfl, sent, hacc, rfl⟩
  · exact ⟨rfl, sent, hacc, rfl⟩

/-- RLE_WRITE writes the RLE encoder and the host's side (45_rle.md R107). -/
theorem exec_rleWr_wrote {b : Byte} {s t : State} (h : exec (.rleWr b) s = .next t) : RunWrote s t := by
  have h : execRleWr b s = .next t := h
  unfold execRleWr at h
  split at h
  · split at h
    · have hw : RunWrote (rleLengthen s) t := pushAll_wrote h
      exact ⟨by rw [hw.frame]; rfl, hw.accepted⟩
    · rw [respond_next.mp h]
      exact ⟨rfl, .of_same rfl⟩
  · exact pushAll_wrote h

/-- A command that makes a choice comes to what one of its two ways on comes to. -/
theorem ite_next {p : Prop} [Decidable p] {a b : Result} {t : State} (h : (if p then a else b) = .next t) :
    a = .next t ∨ b = .next t := by
  split at h
  · exact .inl h
  · exact .inr h

/-- REG_READ leaves everything but the response and CMDERR (40_control.md R64). -/
theorem exec_regRd_next {r : BitVec 5} {s t : State} (h : exec (.regRd r) s = .next t) :
    (∃ v, t = answered (.done v) s) ∨ t = answered (.failed (faultBits .illegalOperand)) (s.setCmdErr true) := by
  have h : execRegRd r s = .next t := h
  unfold execRegRd at h
  split at h
  · split at h
    · exact .inl ⟨_, respond_next.mp h⟩
    · cases h
  · exact .inr (respond_next.mp h)

/-- A command of the RLE decoder that sets a register of it leaves everything else. -/
theorem unlessLatched_setRld_next {s t : State} {d : Rld} (h : unlessLatched .rld s (respondOk (s.setRld d)) = .next t) :
    (s.rld.flt ≠ 0#6 ∧ t = answered (.failed s.rld.flt) s) ∨ (s.rld.flt = 0#6 ∧ t = answered (.done 0#24) (s.setRld d)) := by
  rcases unlessLatched_next h with ⟨hflt, rfl⟩ | ⟨hflt, h⟩
  · exact .inl ⟨hflt, rfl⟩
  · exact .inr ⟨hflt, respond_next.mp h⟩

theorem exec_lzdClr_next {s t : State} (h : exec .lzdClr s = .next t) :
    (s.lzd.flt ≠ 0#6 ∧ t = answered (.failed s.lzd.flt) s) ∨ (s.lzd.flt = 0#6 ∧ t = answered (.done 0#24) (lzdInit s)) := by
  rcases unlessLatched_next h with ⟨hflt, rfl⟩ | ⟨hflt, h⟩
  · exact .inl ⟨hflt, rfl⟩
  · exact .inr ⟨hflt, respond_next.mp h⟩

/-- A unit that only RLD_READ from the LZW decoder may touch is left alone, or it is that RLD_READ (45_rle.md R101). -/
theorem DecoderRead.own_or {s t : State} {p : Prop} (h : DecoderRead s t) (hp : t.bu = s.bu → t.lzd = s.lzd → p) :
    s.rld.src = .lzd ∨ p := by
  cases hsrc : s.rld.src with
  | lzd => exact .inl rfl
  | din => exact .inr (hp (h.own hsrc).1 (h.own hsrc).2)

/-- Settles O56, command by command: the frame each command has leaves the elements that are not its own. -/
theorem elementsChangeOnlyUnderTheirCommands : Obligations.ElementsChangeOnlyUnderTheirCommands := by
  intro i s t h
  cases i with
  | nop | crcRst | crcUpd _ | crcVal | buClr =>
    obtain rfl := respond_next.mp h
    simp
  | reset =>
    obtain rfl := respond_next.mp h
    simp [applyReset_eq]
  | regRd r =>
    rcases exec_regRd_next h with ⟨v, rfl⟩ | rfl <;> simp
  | buSetw _ | buIncw | bpSetw _ | bpIncw =>
    rcases ite_next h with h | h <;> obtain rfl := respond_next.mp h <;> simp [buSetWidth, bpSetWidth]
  | buRd =>
    obtain ⟨u, hu, ht⟩ := execBuRd_read h
    have hfifo := hu.fifo
    have heof := hu.eof
    have hwidth := hu.width
    rw [ht, hu.frame]
    simp [hfifo, heof, hwidth]
  | lzdRd =>
    have hu := execLzdRd_read h
    have hfifo := hu.fifo
    have heof := hu.eof
    rw [hu.frame]
    simp [hfifo, heof]
  | lzdClr =>
    rcases exec_lzdClr_next h with ⟨-, rfl⟩ | ⟨-, rfl⟩ <;> simp
  | rldRd =>
    obtain ⟨hu, -⟩ := exec_rldRd_read h
    obtain ⟨hcfg, hcrc, hbp, hlze, hrle, hcmdErr, henv⟩ := hu.elsewhere
    rw [hcfg, hcrc, hbp, hlze, hrle, hcmdErr, henv]
    exact ⟨rfl, rfl, rfl, rfl, hu.own_or fun hbu _ => by rw [hbu], hu.own_or fun hbu _ => by rw [hbu]; exact ⟨rfl, rfl⟩,
      rfl, ⟨rfl, rfl⟩, hu.own_or fun _ hlzd => hlzd, rfl, trivial, rfl, ⟨hu.eof, hu.fifo⟩, rfl, rfl, rfl⟩
  | rldEsc _ | rldRst | rldSrc _ =>
    rcases unlessLatched_setRld_next h with ⟨-, rfl⟩ | ⟨-, rfl⟩ <;> simp
  | bpWr v =>
    obtain ⟨u, hu, ht⟩ := bpWriteRest_wrote h
    have hsent := (bpPut_sent v s).trans hu
    have hwidth := hsent.width
    have hagenda := hsent.accepted.agenda
    have htaken := hsent.accepted.taken
    rw [ht, hsent.frame]
    simp [hwidth, hagenda, htaken]
  | bpClose =>
    obtain ⟨u, hsent, ht⟩ := bpCloseRest_wrote h
    have hwidth := hsent.width
    have hagenda := hsent.accepted.agenda
    have htaken := hsent.accepted.taken
    rw [ht, hsent.frame]
    simp [hwidth, hagenda, htaken]
  | lzeWr b =>
    have hu := exec_lzeWr_wrote h
    have hagenda := hu.accepted.agenda
    have htaken := hu.accepted.taken
    rw [hu.frame]
    simp [hagenda, htaken]
  | lzeClr =>
    have hu := exec_lzeClr_wrote h
    have hagenda := hu.accepted.agenda
    have htaken := hu.accepted.taken
    rw [hu.frame]
    simp [hagenda, htaken]
  | lzeFlush =>
    have hu := exec_lzeFlush_wrote h
    have hagenda := hu.accepted.agenda
    have htaken := hu.accepted.taken
    rw [hu.frame]
    simp [hagenda, htaken]
  | rleWr b =>
    have hu := exec_rleWr_wrote h
    have hagenda := hu.accepted.agenda
    have htaken := hu.accepted.taken
    rw [hu.frame]
    simp [hagenda, htaken]
  | rleFlush =>
    have hu : RunWrote s t := pushAll_wrote h
    have hagenda := hu.accepted.agenda
    have htaken := hu.accepted.taken
    rw [hu.frame]
    simp [hagenda, htaken]
  | rleEsc e =>
    have hu : RunWrote s t := pushAll_wrote (d := fun s' => { s'.rle with len := 0#9, esc := e }) h
    have hagenda := hu.accepted.agenda
    have htaken := hu.accepted.taken
    rw [hu.frame]
    simp [hagenda, htaken]

end Sys2Proof.Machine

/-! PROOFS. What one step is, in every state: the host's turns (60_exceptions.md R117), the block's turn (20_memory.md R36), and the
bytes a step moves over the ports. -/

namespace Sys2Proof.Machine

/-! ## The host's turns -/

theorem decode_reset_iff {w : Word} : decode w = .ok .reset ↔ w = 0x01000000#32 := by
  constructor
  · intro h
    rw [← decodeThenEncodeGivesTheWord w _ h]
    rfl
  · rintro rfl
    exact encodeThenDecodeGivesTheCommand .reset

/-- RESET executes between its arrival and the step that runs it (R117 (b)). -/
theorem resetExecuting_iff (s : State) : resetExecuting s = true ↔ s.seq = .arrived 0x01000000#32 := by
  unfold resetExecuting fetchWord
  cases s.seq with
  | arrived w =>
    rw [Sequencer.arrived.injEq, ← decode_reset_iff, beq_iff_eq]
    cases decode w <;> simp [Except.toOption]
  | _ => simp

theorem step_of_no_turn {s : State}
    (h : s.env.agenda = [] ∨ ∃ t rest, s.env.agenda = t :: rest ∧ hostEnabled t s = false) : step s = blockTurn s := by
  unfold step machineStep
  rcases h with ha | ⟨t, rest, ha, he⟩
  · rw [ha]
  · rw [ha]
    cases t with
    | yield => cases he
    | _ => exact if_neg (by simp [he])

theorem step_of_yield {s : State} {rest : List HostTurn} (h : s.env.agenda = .yield :: rest) :
    step s = blockTurn (withAgenda rest s) := by
  unfold step machineStep
  rw [h]

/-- A turn the host plans, other than a yield, is taken where it is enabled; else the block moves. -/
theorem step_of_turn {s : State} {m : HostTurn} {rest : List HostTurn} (h : s.env.agenda = m :: rest) (hm : m ≠ .yield) :
    step s = if hostEnabled m s then .next (hostMove m (withAgenda rest s)) else blockTurn s := by
  unfold step machineStep
  rw [h]
  cases m with
  | yield => exact absurd rfl hm
  | _ => rfl

/-- A push puts its byte into DIN, or after the end of source nothing (20_memory.md R32). -/
theorem hostMove_push (b : Byte) (s : State) :
    hostMove (.push b) s = s.setDin { s.din with fifo := if s.din.eof then s.din.fifo else s.din.fifo ++ [b] } := by
  rw [hostMove]
  split <;> rfl

/-- Settles O8: `step_of_turn`, with what enables each turn and what it does. -/
theorem hostStepsAreThoseOfTheInterface : Obligations.HostStepsAreThoseOfTheInterface := by
  refine fun s rest => ⟨fun w ha => ?send, fun ha => ?take, fun b ha => ?push, fun ha => ?eof, fun r ha => ?accept⟩
  case send =>
    rw [step_of_turn ha (by simp)]
    by_cases he : s.seq = .idle ∧ s.rsp = none
    · rw [if_pos he, if_pos (by simp [hostEnabled, he])]
      rfl
    · rw [if_neg he, if_neg (by simpa [hostEnabled] using he)]
  case take =>
    rw [step_of_turn ha (by simp)]
    cases hr : s.rsp with
    | none => rw [if_neg (by simp [hostEnabled, hr])]
    | some r =>
      rw [if_pos (by simp [hostEnabled, hr])]
      simp [hostMove, hr, withAgenda, State.setEnv, State.setRsp]
  case push =>
    rw [step_of_turn ha (by simp)]
    have he : hostEnabled (.push b) s = true ↔ s.din.fifo.length < s.cfg.inDepth ∧ s.seq ≠ .arrived 0x01000000#32 := by
      rw [Ne, ← resetExecuting_iff]
      simp [hostEnabled]
    by_cases hpush : s.din.fifo.length < s.cfg.inDepth ∧ s.seq ≠ .arrived 0x01000000#32
    · rw [if_pos hpush, if_pos (he.mpr hpush), hostMove_push, withAgenda_din]
      rfl
    · rw [if_neg hpush, if_neg (mt he.mp hpush)]
  case eof => exact step_of_turn ha (by simp)
  case accept => exact step_of_turn ha (by simp)

/-- Settles O10: the reset signal is always enabled, and `ApplyReset` leaves the reset state. -/
theorem resetSignalAbandonsTheCommand : Obligations.ResetSignalAbandonsTheCommand := fun s rest ha => by
  have henabled : hostEnabled .resetSignal s = true := rfl
  rw [step_of_turn ha (by simp), if_pos henabled, hostMove, applyReset_eq]
  rfl

/-! ## The block's turn -/

theorem wordTransfers_of_decode_ok {w : Word} {i : Instr} (h : decode w = .ok i) : wordTransfers w = transfers i := by
  rw [wordTransfers, h]

theorem wordTransfers_of_decode_error {w : Word} {e : IllegalWord} (h : decode w = .error e) : wordTransfers w = false := by
  rw [wordTransfers, h]

theorem blockTurn_of_idle {s : State} (h : s.seq = .idle) : blockTurn s = .next s := by rw [blockTurn, h]

theorem blockTurn_of_holding {s : State} {h : Hold} (hs : s.seq = .holding h) : blockTurn s = oneTransfer (resume h) s := by
  rw [blockTurn, hs]

theorem blockTurn_of_command {s : State} {w : Word} {i : Instr} (hs : s.seq = .arrived w) (h : decode w = .ok i) :
    blockTurn s = if transfers i then oneTransfer (exec i) s else exec i s := by
  have hword : execWord w = exec i := funext (execWord_of_decode_ok h)
  rw [blockTurn, hs]
  show startWord w s = _
  rw [startWord, wordTransfers_of_decode_ok h, hword]

theorem blockTurn_of_illegal {s : State} {w : Word} {e : IllegalWord} (hs : s.seq = .arrived w) (h : decode w = .error e) :
    blockTurn s = .next { s with cmdErr := true, seq := .idle, rsp := some 0x41000000#32 } := by
  rw [blockTurn, hs]
  show startWord w s = _
  rw [startWord, wordTransfers_of_decode_error h, execWord_of_decode_error h]
  rfl

/-- Settles O6: where the host does not move the step is the block's turn, which follows what the word decodes to. -/
theorem stepRunsTheDecodedCommand : Obligations.StepRunsTheDecodedCommand := by
  intro s s' hturn
  have hstep : step s = blockTurn s' ∧ s'.seq = s.seq := by
    rcases hturn with ⟨hnone, rfl⟩ | ⟨rest, hyield, rfl⟩
    · exact ⟨step_of_no_turn hnone, rfl⟩
    · exact ⟨step_of_yield hyield, rfl⟩
  obtain ⟨hstep, hseq⟩ := hstep
  rw [hstep]
  refine ⟨fun w hw => ⟨fun i hi => ?_, fun e he => ?_⟩, fun h hh => ?_, fun hidle => ?_⟩
  · exact blockTurn_of_command (hseq.trans hw) hi
  · exact blockTurn_of_illegal (hseq.trans hw) he
  · exact blockTurn_of_holding (hseq.trans hh)
  · exact blockTurn_of_idle (hseq.trans hidle)

/-! ## The ports -/

/-- What a command, RESET apart, does to the parameters and the ports: it pushes bytes that are accepted, or pulls bytes. -/
structure PortsUsed (s t : State) : Prop where
  cfg : t.cfg = s.cfg
  ports : (t.din = s.din ∧ Accepted s t) ∨ (t.env = s.env ∧ t.din.eof = s.din.eof ∧ ∃ k, t.din.fifo = s.din.fifo.drop k)

theorem portsUsed_of_same {s t : State} (hcfg : t.cfg = s.cfg) (hdin : t.din = s.din) (henv : t.env = s.env) : PortsUsed s t :=
  ⟨hcfg, .inl ⟨hdin, .of_same henv⟩⟩

theorem LzdRead.portsUsed {s t : State} (h : LzdRead s t) : PortsUsed s t :=
  ⟨by rw [h.frame]; rfl, .inr ⟨by rw [h.frame]; rfl, h.eof, h.fifo⟩⟩

theorem DecoderRead.portsUsed {s t : State} (h : DecoderRead s t) : PortsUsed s t :=
  ⟨h.elsewhere.cfg, .inr ⟨h.elsewhere.env, h.eof, h.fifo⟩⟩

theorem EncoderWrote.portsUsed {s t : State} (h : EncoderWrote s t) : PortsUsed s t :=
  ⟨by rw [h.frame]; rfl, .inl ⟨by rw [h.frame]; rfl, h.accepted⟩⟩

theorem RunWrote.portsUsed {s t : State} (h : RunWrote s t) : PortsUsed s t :=
  ⟨by rw [h.frame]; rfl, .inl ⟨by rw [h.frame]; rfl, h.accepted⟩⟩

theorem execBuRd_lzdRead {s t : State} (h : execBuRd s = .next t) : LzdRead s t := by
  obtain ⟨u, hu, ht⟩ := execBuRd_read h
  exact hu.taken.lzdRead ht

theorem bpWriteRest_encoderWrote {s t : State} (h : bpWriteRest s = .next t) : EncoderWrote s t := by
  obtain ⟨u, hu, ht⟩ := bpWriteRest_wrote h
  exact ht.encoderWrote hu.wrote

theorem bpCloseRest_encoderWrote {s t : State} (h : bpCloseRest s = .next t) : EncoderWrote s t := by
  obtain ⟨u, hu, ht⟩ := bpCloseRest_wrote h
  exact ht.encoderWrote hu.wrote

/-- Going on from a hold uses the ports as its command does. -/
theorem resume_portsUsed {h : Hold} {s t : State} (hx : resume h s = .next t) : PortsUsed s t := by
  cases h with
  | buRead => exact (execBuRd_lzdRead hx).portsUsed
  | lzdRead => exact (execLzdRd_read hx).portsUsed
  | rldFirst => exact (rldFirstRest_read hx).portsUsed
  | rldRepeat => exact (rldRepeatRest_read hx).portsUsed
  | rldCount r => exact (rldCountRest_read hx).portsUsed
  | bpWrite => exact (bpWriteRest_encoderWrote hx).portsUsed
  | bpClose => exact (bpCloseRest_encoderWrote hx).portsUsed
  | lzeWrite b => exact (lzeWriteRest_wrote hx).portsUsed
  | lzeClearW => exact (lzeClearWRest_wrote hx).portsUsed
  | lzeClearCode => exact (lzeClearCodeRest_wrote hx).portsUsed
  | lzeFlushW => exact (lzeFlushWRest_wrote hx).portsUsed
  | lzeFlushClose => exact (lzeFlushCloseRest_wrote hx).portsUsed
  | rleFull rest | rleFlush rest => exact (pushAll_wrote (d := fun s' => { s'.rle with len := 0#9 }) hx).portsUsed
  | rleNew b rest => exact (pushAll_wrote (d := fun s' => { s'.rle with rb := b, len := 1#9 }) hx).portsUsed
  | rleSetEsc e rest => exact (pushAll_wrote (d := fun s' => { s'.rle with len := 0#9, esc := e }) hx).portsUsed

/-- A command that makes no port transfer ends; it leaves the host's side alone, and DIN too unless it is RESET. -/
theorem exec_of_not_transfers {i : Instr} {s t : State} (hi : transfers i = false) (h : exec i s = .next t) :
    t.seq = .idle ∧ t.env = s.env ∧ (i ≠ .reset → t.din = s.din) := by
  cases i with
  | buRd | bpWr _ | bpClose | lzdRd | lzeWr _ | lzeClr | lzeFlush | rldRd | rleWr _ | rleFlush | rleEsc _ => cases hi
  | nop | crcRst | crcUpd _ | crcVal | buClr =>
    obtain rfl := respond_next.mp h
    exact ⟨rfl, rfl, fun _ => rfl⟩
  | reset =>
    obtain rfl := respond_next.mp h
    rw [answered_env, applyReset_eq]
    exact ⟨rfl, rfl, fun hne => absurd rfl hne⟩
  | regRd r =>
    rcases exec_regRd_next h with ⟨v, rfl⟩ | rfl <;> exact ⟨rfl, rfl, fun _ => rfl⟩
  | buSetw _ | buIncw | bpSetw _ | bpIncw =>
    rcases ite_next h with h | h <;> obtain rfl := respond_next.mp h <;> exact ⟨rfl, rfl, fun _ => rfl⟩
  | lzdClr =>
    rcases exec_lzdClr_next h with ⟨-, rfl⟩ | ⟨-, rfl⟩ <;> exact ⟨rfl, rfl, fun _ => rfl⟩
  | rldEsc _ | rldRst | rldSrc _ =>
    rcases unlessLatched_setRld_next h with ⟨-, rfl⟩ | ⟨-, rfl⟩ <;> exact ⟨rfl, rfl, fun _ => rfl⟩

theorem exec_cfg {i : Instr} {s t : State} (h : exec i s = .next t) : t.cfg = s.cfg :=
  (elementsChangeOnlyUnderTheirCommands i s t h).1

theorem exec_portsUsed {i : Instr} {s t : State} (hi : i ≠ .reset) (h : exec i s = .next t) : PortsUsed s t := by
  cases htransfers : transfers i with
  | false =>
    obtain ⟨-, henv, hdin⟩ := exec_of_not_transfers htransfers h
    exact portsUsed_of_same (exec_cfg h) (hdin hi) henv
  | true =>
    cases i with
    | buRd => exact (execBuRd_lzdRead h).portsUsed
    | lzdRd => exact (execLzdRd_read h).portsUsed
    | rldRd => exact (exec_rldRd_read h).1.portsUsed
    | bpWr v => exact ((bpPut_sent v s).wrote.trans (bpWriteRest_encoderWrote h)).portsUsed
    | bpClose => exact (bpCloseRest_encoderWrote h).portsUsed
    | lzeWr b => exact (exec_lzeWr_wrote h).portsUsed
    | lzeClr => exact (exec_lzeClr_wrote h).portsUsed
    | lzeFlush => exact (exec_lzeFlush_wrote h).portsUsed
    | rleWr b => exact (exec_rleWr_wrote h).portsUsed
    | rleFlush => exact (pushAll_wrote (d := fun s' => { s'.rle with len := 0#9 }) h).portsUsed
    | rleEsc e => exact (pushAll_wrote (d := fun s' => { s'.rle with len := 0#9, esc := e }) h).portsUsed
    | _ => cases htransfers

/-- A step of the block moves one byte at most: one it pushes or one it pulls. -/
structure MovesOne (s t : State) : Prop where
  cfg : t.cfg = s.cfg
  taken : t.env.taken = s.env.taken
  bytes : ∃ sent pulled : List Byte, t.env.dout = s.env.dout ++ sent ∧ s.din.fifo = pulled ++ t.din.fifo ∧
    sent.length + pulled.length ≤ 1

theorem movesOne_of_same {s t : State} (hcfg : t.cfg = s.cfg) (hdin : t.din = s.din) (henv : t.env = s.env) : MovesOne s t :=
  ⟨hcfg, by rw [henv], [], [], by rw [henv, List.append_nil], by rw [hdin, List.nil_append], by decide⟩

/-- On the ports of one step, a command moves one byte at most. -/
theorem PortsUsed.putBack_movesOne {s u : State} (h : PortsUsed (onePort s) u) : MovesOne s (putBack s u) := by
  rcases h.ports with ⟨hdin, bytes, hacc, henv⟩ | ⟨henv, -, hfifo⟩
  · refine ⟨h.cfg, ?_, bytes, [], ?_, ?_, ?_⟩
    · rw [putBack_taken, henv, handedOver_taken, onePort_taken]
    · rw [putBack_dout, henv, handedOver_dout, onePort_dout]
    · rw [putBack_fifo, hdin, onePort_fifo, List.take_append_drop, List.nil_append]
    · exact (accepts_onePort hacc).1
  · obtain ⟨k, hk, hdrop⟩ := putBack_pulled hfifo
    refine ⟨h.cfg, ?_, [], s.din.fifo.take k, ?_, ?_, ?_⟩
    · rw [putBack_taken, henv, onePort_taken]
    · rw [putBack_dout, henv, onePort_dout, List.append_nil]
    · rw [hdrop, List.take_append_drop]
    · rw [List.length_nil, Nat.zero_add, List.length_take]
      omega

theorem wordTransfers_ne_reset {w : Word} (hw : wordTransfers w = true) {i : Instr} (hi : decode w = .ok i) : i ≠ .reset := by
  rintro rfl
  rw [wordTransfers_of_decode_ok hi] at hw
  cases hw

theorem execWord_portsUsed {w : Word} {s t : State} (hw : ∀ i, decode w = .ok i → i ≠ .reset) (h : execWord w s = .next t) :
    PortsUsed s t := by
  cases hdec : decode w with
  | ok i =>
    rw [execWord_of_decode_ok hdec] at h
    exact exec_portsUsed (hw i hdec) h
  | error e =>
    rw [execWord_of_decode_error hdec] at h
    obtain rfl := raiseCmdError_next.mp h
    exact portsUsed_of_same rfl rfl rfl

/-- The block's turn moves one byte at most; only the start of a RESET drops DIN bytes otherwise. -/
theorem blockTurn_movesOne {s t : State} (h : blockTurn s = .next t) :
    (s.seq ≠ .arrived 0x01000000#32 → MovesOne s t) ∧ (s.seq = .arrived 0x01000000#32 → t.cfg = s.cfg ∧ t.env = s.env) := by
  rcases blockTurn_next h with ⟨hidle, rfl⟩ | ⟨w, hs, hw, hx⟩ | ⟨w, hs, hw, u, hx, rfl⟩ | ⟨hd, hs, u, hx, rfl⟩
  · exact ⟨fun _ => movesOne_of_same rfl rfl rfl, fun _ => ⟨rfl, rfl⟩⟩
  · cases hdec : decode w with
    | error e =>
      rw [execWord_of_decode_error hdec] at hx
      obtain rfl := raiseCmdError_next.mp hx
      exact ⟨fun _ => movesOne_of_same rfl rfl rfl, fun _ => ⟨rfl, rfl⟩⟩
    | ok i =>
      rw [execWord_of_decode_ok hdec] at hx
      obtain ⟨-, henv, hdin⟩ := exec_of_not_transfers (wordTransfers_of_decode_ok hdec ▸ hw) hx
      refine ⟨fun hne => movesOne_of_same (exec_cfg hx) (hdin ?_) henv, fun _ => ⟨exec_cfg hx, henv⟩⟩
      rintro rfl
      exact hne (hs.trans (congrArg _ (decode_reset_iff.mp hdec)))
  · have hmoves := (execWord_portsUsed (fun i => wordTransfers_ne_reset hw) hx).putBack_movesOne
    refine ⟨fun _ => hmoves, fun hreset => ?_⟩
    obtain rfl := Sequencer.arrived.inj (hs.symm.trans hreset)
    exact absurd (wordTransfers_of_decode_ok (decode_reset_iff.mpr rfl) ▸ hw) (by decide)
  · exact ⟨fun _ => (resume_portsUsed hx).putBack_movesOne, fun hreset => by rw [hs] at hreset; cases hreset⟩

/-- What the block's turn leaves to the host, and the bytes it moves. -/
theorem blockTurn_keeps {s t : State} (h : blockTurn s = .next t) :
    s.env.dout <+: t.env.dout ∧ t.env.dout.length ≤ s.env.dout.length + 1 ∧ s.env.taken <+: t.env.taken ∧ t.cfg = s.cfg ∧
    (s.seq ≠ .arrived 0x01000000#32 →
      ∃ sent pulled pushed : List Byte, t.env.dout = s.env.dout ++ sent ∧ s.din.fifo ++ pushed = pulled ++ t.din.fifo ∧
        sent.length + pulled.length + pushed.length ≤ 1) := by
  obtain ⟨hmoves, hreset⟩ := blockTurn_movesOne h
  by_cases hs : s.seq = .arrived 0x01000000#32
  · obtain ⟨hcfg, henv⟩ := hreset hs
    rw [hcfg, henv]
    exact ⟨List.prefix_rfl, Nat.le_succ _, List.prefix_rfl, rfl, fun hne => absurd hs hne⟩
  · obtain ⟨hcfg, htaken, sent, pulled, hdout, hfifo, hlen⟩ := hmoves hs
    rw [hcfg, htaken, hdout]
    exact ⟨List.prefix_append _ _, by rw [List.length_append]; omega, List.prefix_rfl, rfl,
      fun _ => ⟨sent, pulled, [], rfl, by rw [List.append_nil, hfifo], hlen⟩⟩

/-- A turn of the host that moves no byte. -/
theorem no_byte_moved (s : State) : ∃ sent pulled pushed : List Byte, s.env.dout = s.env.dout ++ sent ∧
    s.din.fifo ++ pushed = pulled ++ s.din.fifo ∧ sent.length + pulled.length + pushed.length ≤ 1 :=
  ⟨[], [], [], (List.append_nil _).symm, List.append_nil _, by decide⟩

/-- Settles O11: a host turn moves no byte but the one it pushes, and the block's turn is `blockTurn_keeps`. -/
theorem stepsKeepWhatTheHostHas : Obligations.StepsKeepWhatTheHostHas := by
  intro s t h
  rcases step_next h with ⟨m, rest, ha, -, rfl⟩ | ⟨rest, -, hb⟩ | ⟨-, hb⟩
  case inl =>
    cases m with
    | push b =>
      rw [hostMove_push, withAgenda_din]
      refine ⟨List.prefix_rfl, Nat.le_succ _, List.prefix_rfl, rfl, fun _ _ => ?_⟩
      rw [State.setDin_din]
      cases s.din.eof with
      | true => exact no_byte_moved s
      | false => exact ⟨[], [], [b], (List.append_nil _).symm, rfl, by simp⟩
    | take => exact ⟨List.prefix_rfl, Nat.le_succ _, List.prefix_append _ _, rfl, fun _ _ => no_byte_moved s⟩
    | resetSignal =>
      rw [hostMove, applyReset_eq]
      exact ⟨List.prefix_rfl, Nat.le_succ _, List.prefix_rfl, rfl, fun hne _ => absurd ha (hne rest)⟩
    | _ => exact ⟨List.prefix_rfl, Nat.le_succ _, List.prefix_rfl, rfl, fun _ _ => no_byte_moved s⟩
  all_goals
    obtain ⟨hdout, hlen, htaken, hcfg, hbytes⟩ := blockTurn_keeps hb
    exact ⟨hdout, hlen, htaken, hcfg, fun _ => hbytes⟩

end Sys2Proof.Machine

/-! PROOFS. Legal states (10_state.md R28): every command and every command that goes on from a hold leaves a legal state, and so does
every step; no step stops; a held command waits; and the latches stay until a reset. -/

namespace Sys2Proof.Machine

/-! ## The reads -/

section
variable {s : State} (hu : UnitsLegal s) (hq : quiet s) (hr : s.rsp = none)
include hu hq hr

theorem execBuRd_legal : LegalResult (execBuRd s) := by
  unfold execBuRd
  rcases buRead_cases hu.bu with ⟨-, c, t, hx, ht⟩ | ⟨-, t, ht, hbu, -, -, hend⟩
  · have htook := ht.took hu
    rw [hx]
    exact respondData_legal htook.core (htook.quiet hq)
  · have htook := ht.took hbu hu
    rcases hend with ⟨-, hx⟩ | ⟨-, hx⟩ <;> rw [hx]
    · exact respondEnd_legal htook.core (htook.quiet hq)
    · exact holdAt_legal htook.core (htook.quiet hq) (htook.rsp.trans hr)

theorem execLzdRd_legal : LegalResult (execLzdRd s) :=
  conclude_legal (lzdNextByte_legal hu) hq hr (fun _ ht hflt hpend => ⟨ht.quiet hq, hflt, hpend⟩)
    (fun _ ht => respondEnd_legal ht.core (ht.quiet hq)) fun _ _ ht _ => respondData_legal ht.core (ht.quiet hq)

omit hr in
theorem rldTruncated_legal : LegalResult (rldTruncated s) :=
  raiseUnitFault_legal (u := .rld) (c := .endOfData) hu hq rfl

variable (hflt : s.rld.flt = 0#6) (hrem : s.rld.rem = 0#9)
include hflt hrem

theorem rldCountRest_legal (r : Byte) : LegalResult (rldCountRest r s) := by
  refine rldConclude_legal hu hq hr (fun t ht => ⟨ht.quiet hq, by rw [ht.rld, hflt], by rw [ht.rld, hrem]⟩)
    (fun t ht => rldTruncated_legal ht.core (ht.quiet hq)) fun k t ht => ?_
  have hcount : (k.setWidth 9).toNat ≤ 255 := by
    rw [BitVec.toNat_setWidth_of_le (by decide)]
    exact Nat.le_of_lt_succ k.isLt
  exact respondData_legal (setRld_core ht.core ⟨hcount, ht.core.rld.2⟩) (ht.quiet hq)

theorem rldRepeatRest_legal : LegalResult (rldRepeatRest s) :=
  rldConclude_legal hu hq hr (fun t ht => ⟨ht.quiet hq, by rw [ht.rld, hflt], by rw [ht.rld, hrem]⟩)
    (fun t ht => rldTruncated_legal ht.core (ht.quiet hq)) fun r t ht =>
      rldCountRest_legal ht.core (ht.quiet hq) (ht.rsp.trans hr) (by rw [ht.rld, hflt]) (by rw [ht.rld, hrem]) r

theorem rldFirstRest_legal : LegalResult (rldFirstRest s) := by
  refine rldConclude_legal hu hq hr (fun t ht => ⟨ht.quiet hq, by rw [ht.rld, hflt], by rw [ht.rld, hrem]⟩)
    (fun t ht => respondEnd_legal ht.core (ht.quiet hq)) fun b t ht => ?_
  split
  · exact rldRepeatRest_legal ht.core (ht.quiet hq) (ht.rsp.trans hr) (by rw [ht.rld, hflt]) (by rw [ht.rld, hrem])
  · exact respondData_legal ht.core (ht.quiet hq)

end

/-! ## The packer and the LZW encoder -/

/-- The packer may hold more than a byte while a command writes (42_bitstream.md R76). -/
def writing (s : State) : Prop := Bp.legal 31 s.bp ∧ s.rle.len.toNat ≤ 255

theorem quiet.writing {s : State} (h : quiet s) : writing s := ⟨h.1.mono (by decide), h.2⟩

theorem emitting.writing {s : State} (h : emitting s) : writing s := ⟨h.1, h.2.2⟩

theorem bpPut_writing {s : State} {v : Code} (h : quiet s) : writing (bpPut v s) := ⟨bpPut_legal h.1, h.2⟩

theorem lzeGrow_quiet {s : State} (h : quiet s) (hg : lzeGrowOk s = true) : quiet (lzeGrow s) := by
  have hwidth := lzeGrow_width h.1.1 hg
  obtain ⟨w, hw⟩ := lzeGrow_eq s
  rw [hw] at hwidth ⊢
  exact ⟨⟨hwidth, h.1.2⟩, h.2⟩

theorem lzeFinish_legal {s : State} (hu : UnitsLegal s) (hq : quiet s) : LegalResult (lzeFinish s) :=
  respondOk_legal (setBp_core (lzeInit_core hu)) ⟨⟨show legalWidth wLzw0 by decide, hq.1.2⟩, hq.2⟩

section
variable {s : State} (hu : UnitsLegal s) (hr : s.rsp = none)
include hu hr

theorem bpCloseRest_legal (hq : quiet s) : LegalResult (bpCloseRest s) :=
  bpCloseByte_legal hu hq hr (fun _ hc => hc) fun _ ht hq' _ _ _ => respondOk_legal ht hq'

theorem lzeFlushCloseRest_legal (hq : quiet s) (hflt : s.lze.flt = 0#6) : LegalResult (lzeFlushCloseRest s) :=
  bpCloseByte_legal hu hq hr (fun _ hc => ⟨hc, hflt⟩) fun _ ht hq' _ _ _ => lzeFinish_legal ht hq'

variable (hw : writing s)
include hw

theorem bpWriteRest_legal : LegalResult (bpWriteRest s) :=
  bpDrain_legal hu hw.1 hw.2 hr (fun _ _ he => he) fun hq => respondOk_legal (bpGone_core hu) hq

variable (hflt : s.lze.flt = 0#6)
include hflt

theorem lzeClearCodeRest_legal : LegalResult (lzeClearCodeRest s) :=
  bpDrain_legal hu hw.1 hw.2 hr (fun _ _ he => ⟨he, hflt⟩) fun hq => lzeFinish_legal (bpGone_core hu) hq

theorem lzeFlushWRest_legal : LegalResult (lzeFlushWRest s) :=
  bpDrain_legal hu hw.1 hw.2 hr (fun _ _ he => ⟨he, hflt⟩) fun hq =>
    lzeFlushCloseRest_legal (bpGone_core hu) hr hq hflt

variable (hhas : s.lze.hasw = true) (hgrow : lzeGrowOk s = true)
include hhas hgrow

theorem lzeClearWRest_legal : LegalResult (lzeClearWRest s) := by
  refine bpDrain_legal hu hw.1 hw.2 hr (fun _ _ he => ⟨he, hflt, hhas, hgrow⟩) fun hq => ?_
  have hq' := lzeGrow_quiet hq hgrow
  obtain ⟨w, hgrown⟩ := lzeGrow_eq (bpGone (s.bp.cnt.toNat / 8) s)
  rw [hgrown] at hq' ⊢
  exact lzeClearCodeRest_legal (setBp_core (setBp_core (bpGone_core hu))) hr (bpPut_writing hq') hflt

theorem lzeWriteRest_legal {b : Byte} (hnew : lzeCode s.lze (s.lze.wseq ++ [b]) = none)
    (hcap : s.lze.size.toNat ≠ s.cfg.dictCap) : LegalResult (lzeWriteRest b s) := by
  refine bpDrain_legal hu hw.1 hw.2 hr (fun _ _ he => ⟨he, hflt, hhas, hnew, hcap, hgrow⟩) fun hq => ?_
  have hq' := lzeGrow_quiet hq hgrow
  obtain ⟨w, hgrown⟩ := lzeGrow_eq (bpGone (s.bp.cnt.toNat / 8) s)
  rw [hgrown] at hq' ⊢
  exact respondOk_legal (lzeInsert_legal (setBp_core (bpGone_core hu)) hhas hnew hcap) hq'

end

/-! ## The RLE encoder -/

section
variable {s : State} {bytes : List Byte} (hu : UnitsLegal s) (hr : s.rsp = none) (hsuffix : bytes <:+ rleRunBytes s.rle)
include hu hr hsuffix

theorem rleFullRest_legal (hbp : Bp.legal 7 s.bp) (hlen : s.rle.len = 256#9) : LegalResult (rleFullRest bytes s) :=
  pushAll_legal hu hr hsuffix (fun _ _ hw => ⟨hbp, hlen, hw⟩)
    (respondOk_legal (setRle_core (handedOver_core hu)) ⟨hbp, Nat.zero_le _⟩)

variable (hq : quiet s)
include hq

theorem rleNewRest_legal (b : Byte) : LegalResult (rleNewRest b bytes s) :=
  pushAll_legal hu hr hsuffix (fun _ _ hw => ⟨hq, hw⟩)
    (respondOk_legal (setRle_core (handedOver_core hu)) ⟨hq.1, show (1#9 : BitVec 9).toNat ≤ 255 by decide⟩)

theorem rleFlushRest_legal : LegalResult (rleFlushRest bytes s) :=
  pushAll_legal hu hr hsuffix (fun _ _ hw => ⟨hq, hw⟩)
    (respondOk_legal (setRle_core (handedOver_core hu)) ⟨hq.1, Nat.zero_le _⟩)

theorem rleSetEscRest_legal (e : Byte) : LegalResult (rleSetEscRest e bytes s) :=
  pushAll_legal hu hr hsuffix (fun _ _ hw => ⟨hq, hw⟩)
    (respondOk_legal (setRle_core (handedOver_core hu)) ⟨hq.1, Nat.zero_le _⟩)

end

/-! ## Commands and steps -/

/-- A command that goes on from a point it may stand at answers or holds, in a legal state. -/
theorem resume_legal {h : Hold} {s : State} (hu : UnitsLegal s) (hh : heldLegal h s) (hr : s.rsp = none) :
    LegalResult (resume h s) := by
  cases h with
  | buRead => exact execBuRd_legal hu hh hr
  | lzdRead => exact execLzdRd_legal hu hh.1 hr
  | rldFirst => exact rldFirstRest_legal hu hh.1 hr hh.2.1 hh.2.2
  | rldRepeat => exact rldRepeatRest_legal hu hh.1 hr hh.2.1 hh.2.2
  | rldCount r => exact rldCountRest_legal hu hh.1 hr hh.2.1 hh.2.2 r
  | bpWrite => exact bpWriteRest_legal hu hr (emitting.writing hh)
  | bpClose => exact bpCloseRest_legal hu hr hh.1
  | lzeWrite b =>
    obtain ⟨he, hflt, hhas, hnew, hcap, hgrow⟩ := hh
    exact lzeWriteRest_legal hu hr (emitting.writing he) hflt hhas hgrow hnew hcap
  | lzeClearW =>
    obtain ⟨he, hflt, hhas, hgrow⟩ := hh
    exact lzeClearWRest_legal hu hr (emitting.writing he) hflt hhas hgrow
  | lzeClearCode => exact lzeClearCodeRest_legal hu hr (emitting.writing hh.1) hh.2
  | lzeFlushW => exact lzeFlushWRest_legal hu hr (emitting.writing hh.1) hh.2
  | lzeFlushClose => exact lzeFlushCloseRest_legal hu hr hh.1.1 hh.2
  | rleFull rest =>
    obtain ⟨hbp, hlen, -, hsuffix⟩ := hh
    exact rleFullRest_legal hu hr hsuffix hbp hlen
  | rleNew b rest => exact rleNewRest_legal hu hr hh.2.2 hh.1 b
  | rleFlush rest => exact rleFlushRest_legal hu hr hh.2.2 hh.1
  | rleSetEsc e rest => exact rleSetEscRest_legal hu hr hh.2.2 hh.1 e

/-- A register of the map has a value in a legal state: LZE_W, because w is a key (10_state.md R21). -/
theorem registerValue_legal {s : State} {r : BitVec 5} (hu : UnitsLegal s) (hr : registerOperandOk r) :
    ∃ v, registerValue s r = some v := by
  by_cases hw : r = 0x0D#5
  · subst hw
    rw [registerValue_lzeW]
    split
    case isTrue hhas => exact Option.isSome_iff_exists.mp (hu.lze.w_key hhas)
    case isFalse => exact ⟨_, rfl⟩
  · unfold registerValue
    split
    case h_14 h => exact absurd (BitVec.eq_of_toNat_eq h) hw
    case h_20 =>
      have hle : r.toNat ≤ 0x12 := hr
      simp only [imp_false] at *
      omega
    all_goals exact ⟨_, rfl⟩

section
variable {s : State} (h : s.settled) (hr : s.rsp = none)
include h

omit h in
theorem legalWidth_succ : ∀ {w : BitVec 5}, legalWidth w → w ≠ 24#5 → legalWidth (w + 1#5) := by decide

theorem execRegRd_legal (r : BitVec 5) : LegalResult (execRegRd r s) := by
  unfold execRegRd
  split
  · rename_i hok
    obtain ⟨v, hv⟩ := registerValue_legal h.1 hok
    rw [hv]
    exact respondData_legal h.1 h.2
  · exact raiseCmdError_legal h.1 h.2

/-- A width the host may set leaves a legal unpacker (42_bitstream.md R72). -/
theorem buSetWidth_legal {n : BitVec 5} (hn : legalWidth n) : LegalResult (respondOk (buSetWidth n s)) :=
  respondOk_legal (s := buSetWidth n s) ⟨h.1.cfg, ⟨hn, h.1.bu.2⟩, h.1.lzd, h.1.lze, h.1.rld, h.1.din⟩ h.2

theorem bpSetWidth_legal {n : BitVec 5} (hn : legalWidth n) : LegalResult (respondOk (bpSetWidth n s)) :=
  respondOk_legal (s := bpSetWidth n s) (setBp_core h.1) ⟨⟨hn, h.2.1.2⟩, h.2.2⟩

include hr

theorem execLzeWr_legal (b : Byte) : LegalResult (exec (.lzeWr b) s) := by
  refine unlessLatched_legal h.1 h.2 fun hflt => ?_
  split
  · exact respondOk_legal (lzeHold_core h.1 rfl) h.2
  rename_i hhas
  have hhas : s.lze.hasw = true := by simpa using hhas
  split
  · rename_i hknown
    exact respondOk_legal (lzeHold_core h.1 hknown) h.2
  rename_i hnew
  split
  · exact raiseUnitFault_legal h.1 h.2 (.inr rfl)
  rename_i hcap
  split
  · exact raiseUnitFault_legal h.1 h.2 (.inl rfl)
  rename_i hgrow
  have hgrow : lzeGrowOk s = true := by simpa using hgrow
  exact lzePutW_legal h.1 hhas fun c => lzeWriteRest_legal (s := bpPut c s) (setBp_core h.1) hr (bpPut_writing h.2) hflt hhas
    hgrow (Option.not_isSome_iff_eq_none.mp hnew) hcap

theorem execLzeClr_legal : LegalResult (exec .lzeClr s) := by
  refine unlessLatched_legal h.1 h.2 fun hflt => ?_
  split
  · exact lzeClearCodeRest_legal (s := bpPut clearCode s) (setBp_core h.1) hr (bpPut_writing h.2) hflt
  rename_i hhas
  split
  · exact raiseUnitFault_legal h.1 h.2 (.inl rfl)
  rename_i hgrow
  have hhas : s.lze.hasw = true := by simpa using hhas
  have hgrow : lzeGrowOk s = true := by simpa using hgrow
  exact lzePutW_legal h.1 hhas fun c => lzeClearWRest_legal (s := bpPut c s) (setBp_core h.1) hr (bpPut_writing h.2) hflt hhas
    hgrow

theorem execLzeFlush_legal : LegalResult (exec .lzeFlush s) := by
  refine unlessLatched_legal h.1 h.2 fun hflt => ?_
  split
  · exact lzeFlushCloseRest_legal h.1 hr h.2 hflt
  rename_i hhas
  split
  · exact raiseUnitFault_legal h.1 h.2 (.inl rfl)
  exact lzePutW_legal h.1 (by simpa using hhas) fun c =>
    lzeFlushWRest_legal (s := bpPut c s) (setBp_core h.1) hr (bpPut_writing h.2) hflt

theorem execRleWr_legal (b : Byte) : LegalResult (exec (.rleWr b) s) := by
  show LegalResult (execRleWr b s)
  unfold execRleWr
  split
  · split
    · rename_i hfull
      exact rleFullRest_legal (s := rleLengthen s) (setRle_core h.1) hr List.suffix_rfl h.2.1 hfull
    · rename_i hfull
      refine respondOk_legal (s := rleLengthen s) (setRle_core h.1) ⟨h.2.1, ?_⟩
      have hlen := h.2.2
      have hfull : s.rle.len + 1#9 ≠ 256#9 := hfull
      show (s.rle.len + 1#9).toNat ≤ 255
      bv_omega
  · exact rleNewRest_legal h.1 hr List.suffix_rfl h.2 b

/-- A command that starts in a settled state answers or holds, in a legal state. -/
theorem exec_legal (i : Instr) : LegalResult (exec i s) := by
  obtain ⟨hu, hq⟩ := id h
  cases i with
  | nop | crcVal => exact respondData_legal hu hq
  | reset => exact respondOk_legal (applyReset_core hu.cfg) (applyReset_quiet s)
  | regRd r => exact execRegRd_legal h r
  | crcRst | crcUpd b => exact respondOk_legal (s := s.setCrc _) ⟨hu.cfg, hu.bu, hu.lzd, hu.lze, hu.rld, hu.din⟩ hq
  | buSetw n =>
    show LegalResult (execBuSetw n s)
    unfold execBuSetw
    split
    · rename_i hn
      exact buSetWidth_legal h hn
    · exact raiseCmdError_legal hu hq
  | bpSetw n =>
    show LegalResult (execBpSetw n s)
    unfold execBpSetw
    split
    · rename_i hn
      exact bpSetWidth_legal h hn
    · exact raiseCmdError_legal hu hq
  | buIncw =>
    show LegalResult (execBuIncw s)
    unfold execBuIncw
    split
    · exact raiseCmdError_legal hu hq
    · rename_i hne
      exact buSetWidth_legal h (legalWidth_succ hu.bu.1 hne)
  | bpIncw =>
    show LegalResult (execBpIncw s)
    unfold execBpIncw
    split
    · exact raiseCmdError_legal hu hq
    · rename_i hne
      exact bpSetWidth_legal h (legalWidth_succ hq.1.1 hne)
  | buRd => exact execBuRd_legal hu hq hr
  | buClr =>
    exact respondOk_legal (s := s.setBu _)
      ⟨hu.cfg, ⟨hu.bu.1, Nat.zero_le _, Nat.one_pos⟩, hu.lzd, hu.lze, hu.rld, hu.din⟩ hq
  | bpWr v => exact bpWriteRest_legal (s := bpPut v s) (setBp_core hu) hr (bpPut_writing hq)
  | bpClose => exact bpCloseRest_legal hu hr hq
  | lzdRd => exact execLzdRd_legal hu hq hr
  | lzdClr => exact unlessLatched_legal hu hq fun _ => respondOk_legal (lzdInit_core hu) hq
  | lzeWr b => exact execLzeWr_legal h hr b
  | lzeClr => exact execLzeClr_legal h hr
  | lzeFlush => exact execLzeFlush_legal h hr
  | rldRd =>
    refine unlessLatched_legal hu hq fun hflt => ?_
    split
    · rename_i hrem
      exact rldFirstRest_legal hu hq hr hflt hrem
    · rename_i hrem
      refine respondData_legal (setRld_core hu ⟨?_, hu.rld.2⟩) hq
      have hle := hu.rld.1
      show (s.rld.rem - 1#9).toNat ≤ 255
      bv_omega
  | rldEsc e | rldSrc sel => exact unlessLatched_legal hu hq fun _ => respondOk_legal (setRld_core hu hu.rld) hq
  | rldRst => exact unlessLatched_legal hu hq fun _ => respondOk_legal (setRld_core hu ⟨Nat.zero_le _, hu.rld.2⟩) hq
  | rleWr b => exact execRleWr_legal h hr b
  | rleFlush => exact rleFlushRest_legal hu hr List.suffix_rfl hq
  | rleEsc e => exact rleSetEscRest_legal hu hr List.suffix_rfl hq e

theorem execWord_legal (w : Word) : LegalResult (execWord w s) := by
  unfold execWord
  split
  · exact exec_legal h hr _
  · exact raiseCmdError_legal h.1 h.2

end

/-- A command leaves no more bytes in DIN than there were. -/
theorem PortsUsed.fifo_length_le {s t : State} (h : PortsUsed s t) : t.din.fifo.length ≤ s.din.fifo.length := by
  rcases h.ports with ⟨hdin, -⟩ | ⟨-, -, k, hfifo⟩
  · rw [hdin]
  · rw [hfifo, List.length_drop]
    exact Nat.sub_le _ _

/-- One transfer of a command leaves a legal state if the command does on the ports of the step. -/
theorem oneTransfer_legal {command : State → Result} {s : State} (hu : UnitsLegal s) (h : LegalResult (command (onePort s)))
    (hports : ∀ t, command (onePort s) = .next t → PortsUsed (onePort s) t) : LegalResult (oneTransfer command s) := by
  obtain ⟨u, hx, hlegal⟩ := h
  have hused := hports u hx
  exact ⟨_, oneTransfer_next.mpr ⟨u, hx, rfl⟩, putBack_legal hlegal hu hused.cfg hused.fifo_length_le⟩

theorem blockTurn_legal {s : State} (h : s.legal) : LegalResult (blockTurn s) := by
  have hseq := h.seq
  unfold seqLegal at hseq
  unfold blockTurn
  cases hs : s.seq with
  | idle => exact ⟨s, rfl, h⟩
  | arrived w =>
    rw [hs] at hseq
    have hsettled : s.settled := ⟨h.units, hseq.1⟩
    show LegalResult (startWord w s)
    unfold startWord
    split
    · rename_i hw
      exact oneTransfer_legal h.units (execWord_legal (onePort_settled hsettled) hseq.2 w) fun t =>
        execWord_portsUsed fun i => wordTransfers_ne_reset hw
    · exact execWord_legal hsettled hseq.2 w
  | holding hd =>
    rw [hs] at hseq
    exact oneTransfer_legal h.units (resume_legal (onePort_units h.units) (onePort_heldLegal hseq.1) hseq.2) fun t =>
      resume_portsUsed

/-- What the command in progress may find does not depend on DIN or on the host's side. -/
theorem seqLegal_ports {s : State} (h : seqLegal s) (d : Din) (e : HostSide) : seqLegal ((s.setDin d).setEnv e) := by
  unfold seqLegal at h ⊢
  rw [State.setEnv_seq, State.setDin_seq]
  cases hs : s.seq with
  | idle | arrived w => rw [hs] at h; exact h
  | holding hd =>
    rw [hs] at h
    exact ⟨by cases hd <;> exact h.1, h.2⟩

/-- A turn of the host on DIN and on its own side keeps a state legal. -/
theorem legal_ports {s : State} (h : s.legal) {d : Din} (e : HostSide) (hd : d.fifo.length ≤ s.cfg.inDepth) :
    State.legal ((s.setDin d).setEnv e) :=
  ⟨⟨h.units.cfg, h.units.bu, h.units.lzd, h.units.lze, h.units.rld, hd⟩, h.rsp, seqLegal_ports h.seq d e⟩

theorem withAgenda_legal {s : State} (h : s.legal) (a : List HostTurn) : (withAgenda a s).legal :=
  legal_ports h _ h.units.din

/-- Every turn the host may take keeps a state legal (60_exceptions.md R117, 70_reset_and_hazards.md R120). -/
theorem hostMove_legal {s : State} (h : s.legal) {m : HostTurn} (hm : hostEnabled m s = true) : (hostMove m s).legal := by
  cases m with
  | yield => exact h
  | send w =>
    simp only [hostEnabled, Bool.and_eq_true, beq_iff_eq] at hm
    have hq := h.seq
    unfold seqLegal at hq
    rw [hm.1] at hq
    exact ⟨{ h.units with }, h.rsp, hq, hm.2⟩
  | take =>
    refine ⟨{ h.units with }, (fun _ hw => by cases hw), ?_⟩
    have hq := h.seq
    unfold seqLegal at hq ⊢
    show (match s.seq with | .idle => _ | .arrived w => _ | .holding hd => _)
    cases hs : s.seq with
    | idle => rw [hs] at hq; exact hq
    | arrived w => rw [hs] at hq; exact ⟨hq.1, rfl⟩
    | holding hd =>
      rw [hs] at hq
      exact ⟨by cases hd <;> exact hq.1, rfl⟩
  | push b =>
    simp only [hostEnabled, Bool.and_eq_true, decide_eq_true_eq] at hm
    rw [hostMove_push]
    refine legal_ports (d := { s.din with fifo := if s.din.eof then s.din.fifo else s.din.fifo ++ [b] }) h s.env ?_
    split
    · exact h.units.din
    · rw [List.length_append]
      exact hm.1
  | signalEof => exact legal_ports (d := { s.din with eof := true }) h s.env h.units.din
  | accept r => exact legal_ports (d := s.din) h { s.env with ready := r } h.units.din
  | resetSignal =>
    refine ⟨?_, ?_, ?_⟩
    · exact { applyReset_core h.units.cfg with }
    · rw [hostMove, applyReset_eq]
      exact h.rsp
    · exact applyReset_quiet s

/-- A step from a legal state answers a next state, and that state is legal. -/
theorem step_legal {s : State} (h : s.legal) : LegalResult (step s) := by
  by_cases hnone : s.env.agenda = [] ∨ ∃ t rest, s.env.agenda = t :: rest ∧ hostEnabled t s = false
  · rw [step_of_no_turn hnone]
    exact blockTurn_legal h
  · rw [not_or] at hnone
    obtain ⟨m, rest, ha⟩ := List.exists_cons_of_ne_nil hnone.1
    have hm : hostEnabled m s = true := by
      by_contra hm
      exact hnone.2 ⟨m, rest, ha, by simpa using hm⟩
    by_cases hyield : m = .yield
    · rw [step_of_yield (hyield ▸ ha)]
      exact blockTurn_legal (withAgenda_legal h rest)
    · rw [step_of_turn ha hyield, if_pos hm]
      exact ⟨_, rfl, hostMove_legal (withAgenda_legal h rest) (by rw [hostEnabled_withAgenda, hm])⟩

/-- Settles O59, by `step_legal`. -/
theorem stepKeepsTheStateLegal : Obligations.StepKeepsTheStateLegal := fun s t h hstep => by
  obtain ⟨u, hu, hlegal⟩ := step_legal h
  rwa [← Host.Outcome.next.inj (hu.symm.trans hstep)]

/-- Settles O60, by `step_legal`. -/
theorem legalStatesNeverStop : Obligations.LegalStatesNeverStop := fun _ h =>
  (step_legal h).imp fun _ ht => ht.1

end Sys2Proof.Machine

/-! PROOFS. The latches stay until a reset (60_exceptions.md R113, R114); a held command waits (20_memory.md R31, R33); and the five
outcomes of a command (60_exceptions.md R112). -/

namespace Sys2Proof.Machine

/-! ## The latches -/

/-- CMDERR stays once set, and so does every latched fault. -/
structure KeepsLatches (s t : State) : Prop where
  cmdErr : s.cmdErr = true → t.cmdErr = true
  lzd : s.lzd.flt ≠ 0#6 → t.lzd.flt = s.lzd.flt
  lze : s.lze.flt ≠ 0#6 → t.lze.flt = s.lze.flt
  rld : s.rld.flt ≠ 0#6 → t.rld.flt = s.rld.flt

theorem LzdRead.keepsLatches {s t : State} (h : LzdRead s t) : KeepsLatches s t := by
  have hflt := h.flt
  rw [h.frame]
  exact ⟨id, hflt, fun _ => rfl, fun _ => rfl⟩

theorem DecoderRead.keepsLatches {s t : State} (h : DecoderRead s t) (hrld : s.rld.flt ≠ 0#6 → t.rld = s.rld) :
    KeepsLatches s t :=
  ⟨fun hc => h.elsewhere.cmdErr.trans hc, h.flt, fun _ => by rw [h.elsewhere.lze], fun hne => by rw [hrld hne]⟩

theorem EncoderWrote.keepsLatches {s t : State} (h : EncoderWrote s t) (hlze : s.lze.flt ≠ 0#6 → t.lze = s.lze) :
    KeepsLatches s t := by
  rw [h.frame]
  exact ⟨id, fun _ => rfl, fun hne => congrArg Lze.flt (hlze hne), fun _ => rfl⟩

theorem RunWrote.keepsLatches {s t : State} (h : RunWrote s t) : KeepsLatches s t := by
  rw [h.frame]
  exact ⟨id, fun _ => rfl, fun _ => rfl, fun _ => rfl⟩

/-- A latched encoder changes under none of its commands. -/
theorem unlessLatched_lze_keeps {s t : State} {command : Result} (h : unlessLatched .lze s command = .next t)
    (hne : s.lze.flt ≠ 0#6) : t.lze = s.lze := by
  rcases unlessLatched_next h with ⟨-, rfl⟩ | ⟨hflt, -⟩
  · rfl
  · exact absurd hflt hne

/-- A command that writes bits does not touch the encoder. -/
theorem bpWriteRest_lze {s t : State} (h : bpWriteRest s = .next t) : t.lze = s.lze := by
  obtain ⟨u, hu, ht⟩ := bpWriteRest_wrote h
  rw [ht, hu.frame]
  rfl

theorem bpCloseRest_lze {s t : State} (h : bpCloseRest s = .next t) : t.lze = s.lze := by
  obtain ⟨u, hu, ht⟩ := bpCloseRest_wrote h
  rw [ht, hu.frame]
  rfl

theorem exec_keepsLatches {i : Instr} {s t : State} (hi : i ≠ .reset) (h : exec i s = .next t) : KeepsLatches s t := by
  cases i with
  | reset => exact absurd rfl hi
  | nop | crcRst | crcUpd _ | crcVal | buClr =>
    obtain rfl := respond_next.mp h
    exact ⟨id, fun _ => rfl, fun _ => rfl, fun _ => rfl⟩
  | regRd r =>
    rcases exec_regRd_next h with ⟨v, rfl⟩ | rfl
    · exact ⟨id, fun _ => rfl, fun _ => rfl, fun _ => rfl⟩
    · exact ⟨fun _ => rfl, fun _ => rfl, fun _ => rfl, fun _ => rfl⟩
  | buSetw _ | bpSetw _ =>
    rcases ite_next h with h | h <;> obtain rfl := respond_next.mp h
    · exact ⟨id, fun _ => rfl, fun _ => rfl, fun _ => rfl⟩
    · exact ⟨fun _ => rfl, fun _ => rfl, fun _ => rfl, fun _ => rfl⟩
  | buIncw | bpIncw =>
    rcases ite_next h with h | h <;> obtain rfl := respond_next.mp h
    · exact ⟨fun _ => rfl, fun _ => rfl, fun _ => rfl, fun _ => rfl⟩
    · exact ⟨id, fun _ => rfl, fun _ => rfl, fun _ => rfl⟩
  | buRd => exact (execBuRd_lzdRead h).keepsLatches
  | lzdRd => exact (execLzdRd_read h).keepsLatches
  | lzdClr =>
    rcases exec_lzdClr_next h with ⟨-, rfl⟩ | ⟨hflt, rfl⟩
    · exact ⟨id, fun _ => rfl, fun _ => rfl, fun _ => rfl⟩
    · exact ⟨id, fun _ => rfl, fun _ => rfl, fun _ => rfl⟩
  | rldRd =>
    obtain ⟨hread, hrld⟩ := exec_rldRd_read h
    exact hread.keepsLatches hrld
  | rldEsc _ | rldRst | rldSrc _ =>
    rcases unlessLatched_setRld_next h with ⟨-, rfl⟩ | ⟨-, rfl⟩ <;> exact ⟨id, fun _ => rfl, fun _ => rfl, fun _ => rfl⟩
  | bpWr v =>
    exact ((bpPut_sent v s).wrote.trans (bpWriteRest_encoderWrote h)).keepsLatches fun _ => bpWriteRest_lze (s := bpPut v s) h
  | bpClose => exact (bpCloseRest_encoderWrote h).keepsLatches fun _ => bpCloseRest_lze h
  | lzeWr b => exact (exec_lzeWr_wrote h).keepsLatches (unlessLatched_lze_keeps h)
  | lzeClr => exact (exec_lzeClr_wrote h).keepsLatches (unlessLatched_lze_keeps h)
  | lzeFlush => exact (exec_lzeFlush_wrote h).keepsLatches (unlessLatched_lze_keeps h)
  | rleWr b => exact (exec_rleWr_wrote h).keepsLatches
  | rleFlush => exact (pushAll_wrote (d := fun s' => { s'.rle with len := 0#9 }) h).keepsLatches
  | rleEsc e => exact (pushAll_wrote (d := fun s' => { s'.rle with len := 0#9, esc := e }) h).keepsLatches

/-- Where a command of a unit stands, the unit's fault is not latched. -/
theorem resume_keepsLatches {h : Hold} {s t : State} (hh : heldLegal h s) (hx : resume h s = .next t) : KeepsLatches s t := by
  cases h with
  | buRead => exact (execBuRd_lzdRead hx).keepsLatches
  | lzdRead => exact (execLzdRd_read hx).keepsLatches
  | rldFirst => exact (rldFirstRest_read hx).keepsLatches fun hne => absurd hh.2.1 hne
  | rldRepeat => exact (rldRepeatRest_read hx).keepsLatches fun hne => absurd hh.2.1 hne
  | rldCount r => exact (rldCountRest_read hx).keepsLatches fun hne => absurd hh.2.1 hne
  | bpWrite => exact (bpWriteRest_encoderWrote hx).keepsLatches fun _ => bpWriteRest_lze hx
  | bpClose => exact (bpCloseRest_encoderWrote hx).keepsLatches fun _ => bpCloseRest_lze hx
  | lzeWrite b => exact (lzeWriteRest_wrote hx).keepsLatches fun hne => absurd hh.2.1 hne
  | lzeClearW => exact (lzeClearWRest_wrote hx).keepsLatches fun hne => absurd hh.2.1 hne
  | lzeClearCode => exact (lzeClearCodeRest_wrote hx).keepsLatches fun hne => absurd hh.2 hne
  | lzeFlushW => exact (lzeFlushWRest_wrote hx).keepsLatches fun hne => absurd hh.2 hne
  | lzeFlushClose => exact (lzeFlushCloseRest_wrote hx).keepsLatches fun hne => absurd hh.2 hne
  | rleFull rest | rleFlush rest => exact (pushAll_wrote (d := fun s' => { s'.rle with len := 0#9 }) hx).keepsLatches
  | rleNew b rest => exact (pushAll_wrote (d := fun s' => { s'.rle with rb := b, len := 1#9 }) hx).keepsLatches
  | rleSetEsc e rest => exact (pushAll_wrote (d := fun s' => { s'.rle with len := 0#9, esc := e }) hx).keepsLatches

theorem execWord_keepsLatches {w : Word} {s t : State} (hw : w ≠ 0x01000000#32) (h : execWord w s = .next t) :
    KeepsLatches s t := by
  cases hdec : decode w with
  | ok i =>
    rw [execWord_of_decode_ok hdec] at h
    exact exec_keepsLatches (fun hi => hw (decode_reset_iff.mp (hi ▸ hdec))) h
  | error e =>
    rw [execWord_of_decode_error hdec] at h
    obtain rfl := raiseCmdError_next.mp h
    exact ⟨fun _ => rfl, fun _ => rfl, fun _ => rfl, fun _ => rfl⟩

/-- No command but RESET takes the end of source back (20_memory.md R30). -/
theorem PortsUsed.eof {s t : State} (h : PortsUsed s t) : t.din.eof = s.din.eof := by
  rcases h.ports with ⟨hdin, -⟩ | ⟨-, heof, -⟩
  · rw [hdin]
  · exact heof

theorem blockTurn_keepsLatches {s t : State} (hl : s.legal) (h : blockTurn s = .next t) (hs : s.seq ≠ .arrived 0x01000000#32) :
    KeepsLatches s t ∧ t.din.eof = s.din.eof := by
  rcases blockTurn_next h with ⟨-, rfl⟩ | ⟨w, hw, -, hx⟩ | ⟨w, hw, htransfers, u, hx, rfl⟩ | ⟨hd, hh, u, hx, rfl⟩
  · exact ⟨⟨id, fun _ => rfl, fun _ => rfl, fun _ => rfl⟩, rfl⟩
  · have hne : w ≠ 0x01000000#32 := fun h => hs (h ▸ hw)
    refine ⟨execWord_keepsLatches hne hx, (execWord_portsUsed (fun i hi hreset => ?_) hx).eof⟩
    exact hne (decode_reset_iff.mp (hreset ▸ hi))
  · have hkeeps : KeepsLatches (onePort s) u := execWord_keepsLatches (fun h => hs (h ▸ hw)) hx
    exact ⟨⟨hkeeps.cmdErr, hkeeps.lzd, hkeeps.lze, hkeeps.rld⟩, rfl⟩
  · have hseq := hl.seq
    unfold seqLegal at hseq
    rw [hh] at hseq
    have hkeeps : KeepsLatches (onePort s) u := resume_keepsLatches (onePort_heldLegal hseq.1) hx
    exact ⟨⟨hkeeps.cmdErr, hkeeps.lzd, hkeeps.lze, hkeeps.rld⟩, rfl⟩

/-- Settles O57: a host turn other than the reset signal touches no latch, and the block's turn keeps them. -/
theorem onlyResetClearsErrorsAndEof : Obligations.OnlyResetClearsErrorsAndEof := by
  intro s t hl h hne hs
  rcases step_next h with ⟨m, rest, ha, -, rfl⟩ | ⟨rest, -, hb⟩ | ⟨-, hb⟩
  · cases m with
    | resetSignal => exact absurd ha (hne rest)
    | push b =>
      rw [hostMove_push]
      exact ⟨id, id, fun _ => rfl, fun _ => rfl, fun _ => rfl⟩
    | signalEof => exact ⟨id, fun _ => rfl, fun _ => rfl, fun _ => rfl, fun _ => rfl⟩
    | _ => exact ⟨id, id, fun _ => rfl, fun _ => rfl, fun _ => rfl⟩
  · obtain ⟨⟨hc, hlzd, hlze, hrld⟩, heof⟩ := blockTurn_keepsLatches (withAgenda_legal hl rest) hb hs
    exact ⟨hc, heof.trans, hlzd, hlze, hrld⟩
  · obtain ⟨⟨hc, hlzd, hlze, hrld⟩, heof⟩ := blockTurn_keepsLatches hl hb hs
    exact ⟨hc, heof.trans, hlzd, hlze, hrld⟩

/-! ## A held command waits -/

section
variable {s : State}

theorem buRead_of_blocked (hfifo : s.din.fifo = []) (heof : s.din.eof = false) (hbits : s.bu.cnt.toNat < s.bu.width.toNat) :
    buRead s = .waits s := by
  rw [buRead, buFill, if_pos hbits, dinPull_waits hfifo heof]
  rfl

theorem lzdNextByte_of_blocked (hfifo : s.din.fifo = []) (heof : s.din.eof = false) (hstarved : lzdStarved s) :
    lzdNextByte s = .waits s := by
  obtain ⟨hflt, hpend, hbits⟩ := hstarved
  rw [lzdNextByte, if_neg (by rw [hflt]; decide), if_pos hpend, lzdStep, lzdLoop, buRead_of_blocked hfifo heof hbits]
  rfl

theorem rldSrcByte_of_blocked (hfifo : s.din.fifo = []) (heof : s.din.eof = false) (hstarved : s.rld.src = .lzd → lzdStarved s) :
    rldSrcByte s = .waits s := by
  cases hsrc : s.rld.src with
  | din => rw [rldSrcByte_din hsrc, dinPull_waits hfifo heof]
  | lzd => rw [rldSrcByte_lzd hsrc, lzdNextByte_of_blocked hfifo heof (hstarved hsrc)]

theorem bpDrain_of_blocked (hready : s.env.ready = .count 0) (hcnt : 8 ≤ s.bp.cnt.toNat) (h : Hold) (k : State → Result) :
    (bpDrain s).andThen (fun _ => h) k = holdAt h s := by
  rw [bpDrain, bpEmit, if_pos hcnt, doutPush_none.mpr hready]
  rfl

theorem pushAll_of_none {bytes : List Byte} (hready : s.env.ready = .count 0) (hbytes : bytes ≠ []) (h : List Byte → Hold)
    (k : State → Result) : (pushAll bytes s).andThen h k = holdAt (h bytes) s := by
  cases bytes with
  | nil => exact absurd rfl hbytes
  | cons b rest =>
    rw [pushAll, doutPush_none.mpr hready]
    rfl

/-- A command that stands where its port does not allow the next transfer goes on to where it stands. -/
theorem resume_of_blocked {h : Hold} (hh : heldLegal h s) (hb : stillBlocked h s) : resume h s = holdAt h s := by
  cases h with
  | buRead =>
    obtain ⟨hfifo, heof, hbits⟩ := hb
    show execBuRd s = _
    rw [execBuRd, buRead_of_blocked hfifo heof hbits]
    rfl
  | lzdRead =>
    obtain ⟨hfifo, heof, hstarved⟩ := hb
    show execLzdRd s = _
    rw [execLzdRd, lzdNextByte_of_blocked hfifo heof hstarved]
    rfl
  | rldFirst =>
    obtain ⟨hfifo, heof, hstarved⟩ := hb
    show rldFirstRest s = _
    rw [rldFirstRest, rldSrcByte_of_blocked hfifo heof hstarved]
    rfl
  | rldRepeat =>
    obtain ⟨hfifo, heof, hstarved⟩ := hb
    show rldRepeatRest s = _
    rw [rldRepeatRest, rldSrcByte_of_blocked hfifo heof hstarved]
    rfl
  | rldCount r =>
    obtain ⟨hfifo, heof, hstarved⟩ := hb
    show rldCountRest r s = _
    rw [rldCountRest, rldSrcByte_of_blocked hfifo heof hstarved]
    rfl
  | bpWrite => exact bpDrain_of_blocked hb hh.2.1 _ _
  | lzeWrite _ | lzeClearW | lzeClearCode | lzeFlushW => exact bpDrain_of_blocked hb hh.1.2.1 _ _
  | bpClose =>
    show bpCloseRest s = _
    rw [bpCloseRest, bpCloseByte_of_blocked hh.2 hb]
    rfl
  | lzeFlushClose =>
    show lzeFlushCloseRest s = _
    rw [lzeFlushCloseRest, bpCloseByte_of_blocked hh.1.2 hb]
    rfl
  | rleFull _ => exact pushAll_of_none hb hh.2.2.1 _ _
  | rleNew _ _ | rleFlush _ | rleSetEsc _ _ => exact pushAll_of_none hb hh.2.1 _ _

/-- What a command lacks, it lacks on the ports of one step too. -/
theorem onePort_stillBlocked {h : Hold} (hb : stillBlocked h s) : stillBlocked h (onePort s) := by
  cases h with
  | buRead | lzdRead | rldFirst | rldRepeat | rldCount _ =>
    obtain ⟨hfifo, heof, hstarved⟩ := hb
    have hdin := onePort_din_nil hfifo
    exact ⟨hdin ▸ hfifo, hdin ▸ heof, hstarved⟩
  | _ => exact Ready.one_eq_zero.mpr hb

end

/-- Settles O9: going on from a blocked hold only writes the sequencer again, on the ports of one step too. -/
theorem heldCommandWaitsUnchanged : Obligations.HeldCommandWaitsUnchanged := by
  intro s h hl ha hs hb
  have hseq := hl.seq
  unfold seqLegal at hseq
  rw [hs] at hseq
  rw [step_of_no_turn (.inl ha), blockTurn_of_holding hs]
  refine oneTransfer_self ?_
  rw [resume_of_blocked (onePort_heldLegal hseq.1) (onePort_stillBlocked hb), holdAt, ← hs]
  rfl

end Sys2Proof.Machine

/-! PROOFS. The five outcomes of a command (60_exceptions.md R112): which response each operation can end on. -/

namespace Sys2Proof.Machine

/-- What a command without a CmdError may come to from `s`: a hold without a response; a response with data 0, or any data where
`value` holds; END where `ends` holds; or a UnitFault, its code in a fault field. -/
def EndsOrHolds (value ends : Prop) (s t : State) : Prop :=
  (∃ h, t.seq = .holding h ∧ t.rsp = s.rsp) ∨
  (t.seq = .idle ∧
    ((∃ d, t.rsp = some (responseWord (.done d)) ∧ (d = 0#24 ∨ value)) ∨
     (t.rsp = some (responseWord .ended) ∧ ends) ∨
     (∃ c : FaultBits, 3 ≤ c.toNat ∧ c.toNat ≤ 6 ∧ t.rsp = some (responseWord (.failed c)) ∧
        (t.lzd.flt = c ∨ t.lze.flt = c ∨ t.rld.flt = c))))

section
variable {value ends : Prop} {s t u : State}

theorem EndsOrHolds.of_rsp (h : EndsOrHolds value ends u t) (hr : u.rsp = s.rsp) : EndsOrHolds value ends s t := by
  unfold EndsOrHolds at *
  rwa [hr] at h

theorem endsOrHolds_done {d : Code} (hd : d = 0#24 ∨ value) (h : respondData d u = .next t) : EndsOrHolds value ends s t := by
  obtain rfl := respond_next.mp h
  exact .inr ⟨rfl, .inl ⟨d, rfl, hd⟩⟩

theorem endsOrHolds_ok (h : respondOk u = .next t) : EndsOrHolds value ends s t := endsOrHolds_done (.inl rfl) h

theorem endsOrHolds_ended (hends : ends) (h : respondEnd u = .next t) : EndsOrHolds value ends s t := by
  obtain rfl := respond_next.mp h
  exact .inr ⟨rfl, .inr (.inl ⟨rfl, hends⟩)⟩

theorem endsOrHolds_hold (hd : Hold) : EndsOrHolds value ends u (u.setSeq (.holding hd)) := .inl ⟨hd, rfl, rfl⟩

/-- The codes of the units are 3 to 6 (60_exceptions.md R111). -/
theorem faultBits_of_unitRaises {v : FaultUnit} {c : FaultCode} (h : unitRaises v c) :
    3 ≤ (faultBits c).toNat ∧ (faultBits c).toNat ≤ 6 := by
  cases v with
  | lzd => rcases h with rfl | rfl | rfl <;> decide
  | lze => rcases h with rfl | rfl <;> decide
  | rld => cases h; decide

theorem endsOrHolds_fault {v : FaultUnit} {c : FaultCode} (hc : unitRaises v c)
    (h : raiseUnitFault v (faultBits c) u = .next t) : EndsOrHolds value ends s t := by
  obtain rfl := respond_next.mp h
  obtain ⟨hlow, hhigh⟩ := faultBits_of_unitRaises hc
  refine .inr ⟨rfl, .inr (.inr ⟨faultBits c, hlow, hhigh, rfl, ?_⟩)⟩
  cases v with
  | lzd => exact .inl rfl
  | lze => exact .inr (.inl rfl)
  | rld => exact .inr (.inr rfl)

theorem endsOrHolds_unlessLatched {v : FaultUnit} {command : Result} (hu : UnitsLegal s)
    (h : unlessLatched v s command = .next t) (hc : command = .next t → EndsOrHolds value ends s t) :
    EndsOrHolds value ends s t := by
  rcases unlessLatched_next h with ⟨hflt, rfl⟩ | ⟨-, hcommand⟩
  · obtain ⟨c, hcode, hraises⟩ := faultField_raises hu (latched_eq_true.mpr hflt)
    refine endsOrHolds_fault hraises (u := s) ?_
    rw [← hcode, raiseUnitFault, latchFault_faultField, respond]
  · exact hc hcommand

/-! ## The reads -/

theorem endsOrHolds_buRd (hv : value) (he : ends) (h : execBuRd s = .next t) :
    EndsOrHolds value ends s t := by
  rcases conclude_next h with ⟨c, u, -, hk⟩ | ⟨u, -, hk⟩ | ⟨u, hx, rfl⟩ | ⟨c, u, hx, -⟩
  · exact endsOrHolds_done (.inr hv) hk
  · exact endsOrHolds_ended he hk
  · have hleaves := buRead_leaves s
    rw [hx] at hleaves
    have hframe : BitsRead s u := hleaves
    exact (endsOrHolds_hold _).of_rsp (by rw [hframe.frame]; rfl)
  · exact absurd hx buRead_not_faulted

theorem endsOrHolds_lzdRd (hu : UnitsLegal s) (hv : value) (he : ends) (h : execLzdRd s = .next t) :
    EndsOrHolds value ends s t := by
  unfold execLzdRd at h
  rcases lzdNextByte_legal hu with ⟨b, u, hx, -, -⟩ | ⟨u, hx | hx, htook, -⟩ | ⟨c, u, hx, -, hraises⟩ <;> rw [hx] at h
  · exact endsOrHolds_done (.inr hv) h
  · exact endsOrHolds_ended he h
  · obtain rfl := holdAt_next.mp h
    exact (endsOrHolds_hold _).of_rsp htook.rsp
  · exact endsOrHolds_fault hraises h

/-- A read of the RLE decoder that goes on from the byte its source gives. -/
theorem endsOrHolds_rldConclude {hd : Hold} {atEnd : State → Result} {k : Byte → State → Result} (hu : UnitsLegal s)
    (h : (rldSrcByte s).conclude hd atEnd k = .next t)
    (hend : ∀ u, Took s u → atEnd u = .next t → EndsOrHolds value ends u t)
    (hk : ∀ b u, Took s u → k b u = .next t → EndsOrHolds value ends u t) : EndsOrHolds value ends s t := by
  rcases rldSrcByte_legal hu with ⟨b, u, hx, htook⟩ | ⟨u, hx | hx, htook⟩ | ⟨c, u, hx, -, hraises⟩ <;> rw [hx] at h
  · exact (hk b u htook h).of_rsp htook.rsp
  · exact (hend u htook h).of_rsp htook.rsp
  · obtain rfl := holdAt_next.mp h
    exact (endsOrHolds_hold _).of_rsp htook.rsp
  · exact endsOrHolds_fault hraises h

theorem endsOrHolds_rldCount {r : Byte} (hu : UnitsLegal s) (hv : value) (h : rldCountRest r s = .next t) :
    EndsOrHolds value ends s t :=
  endsOrHolds_rldConclude hu h (fun _ _ => endsOrHolds_fault (v := .rld) (c := .endOfData) rfl)
    fun _ _ _ => endsOrHolds_done (.inr hv)

theorem endsOrHolds_rldRepeat (hu : UnitsLegal s) (hv : value) (h : rldRepeatRest s = .next t) :
    EndsOrHolds value ends s t :=
  endsOrHolds_rldConclude hu h (fun _ _ => endsOrHolds_fault (v := .rld) (c := .endOfData) rfl)
    fun _ _ htook => endsOrHolds_rldCount htook.core hv

theorem endsOrHolds_rldFirst (hu : UnitsLegal s) (hv : value) (he : ends) (h : rldFirstRest s = .next t) :
    EndsOrHolds value ends s t := by
  refine endsOrHolds_rldConclude hu h (fun _ _ => endsOrHolds_ended he) fun b u htook hk => ?_
  split at hk
  · exact endsOrHolds_rldRepeat htook.core hv hk
  · exact endsOrHolds_done (.inr hv) hk

/-! ## The commands that push -/

/-- The operations that push leave the response port alone. -/
theorem endsOrHolds_bpDrain {hd : List Byte → Hold} {k : State → Result} (h : (bpDrain s).andThen hd k = .next t)
    (hk : ∀ u, k u = .next t → EndsOrHolds value ends u t) : EndsOrHolds value ends s t := by
  obtain ⟨u, hu, h | ⟨rest, rfl⟩⟩ := bpDrain_next h
  · exact (hk u h).of_rsp (by rw [hu.frame]; rfl)
  · exact (endsOrHolds_hold _).of_rsp (by rw [hu.frame]; rfl)

theorem endsOrHolds_bpCloseByte {hd : List Byte → Hold} {k : State → Result} (h : (bpCloseByte s).andThen hd k = .next t)
    (hk : ∀ u, k u = .next t → EndsOrHolds value ends u t) : EndsOrHolds value ends s t := by
  obtain ⟨u, hu, h | ⟨rest, rfl⟩⟩ := bpCloseByte_next h
  · exact (hk u h).of_rsp (by rw [hu.frame]; rfl)
  · exact (endsOrHolds_hold _).of_rsp (by rw [hu.frame]; rfl)

theorem endsOrHolds_pushAll {bytes : List Byte} {hd : List Byte → Hold} {f : State → State}
    (h : (pushAll bytes s).andThen hd (fun u => respondOk (f u)) = .next t) : EndsOrHolds value ends s t := by
  obtain ⟨sent, -, h | ⟨rest, rfl⟩⟩ := pushAll_next h
  · exact endsOrHolds_ok h
  · exact (endsOrHolds_hold (u := handedOver sent s) _).of_rsp rfl

theorem endsOrHolds_lzePutW {k : State → Result} (h : lzePutW k s = .next t)
    (hk : ∀ u, k u = .next t → EndsOrHolds value ends u t) : EndsOrHolds value ends s t := by
  unfold lzePutW at h
  split at h
  · exact (hk _ h).of_rsp rfl
  · cases h

theorem endsOrHolds_lzeClearCode (h : lzeClearCodeRest s = .next t) : EndsOrHolds value ends s t :=
  endsOrHolds_bpDrain h fun _ => endsOrHolds_ok

theorem endsOrHolds_lzeClearW (h : lzeClearWRest s = .next t) : EndsOrHolds value ends s t := by
  refine endsOrHolds_bpDrain h fun u hk => (endsOrHolds_lzeClearCode hk).of_rsp ?_
  obtain ⟨w, hw⟩ := lzeGrow_eq u
  rw [hw]
  rfl

theorem endsOrHolds_lzeFlushClose (h : lzeFlushCloseRest s = .next t) : EndsOrHolds value ends s t :=
  endsOrHolds_bpCloseByte h fun _ => endsOrHolds_ok

theorem endsOrHolds_lzeFlushW (h : lzeFlushWRest s = .next t) : EndsOrHolds value ends s t :=
  endsOrHolds_bpDrain h fun _ => endsOrHolds_lzeFlushClose

theorem endsOrHolds_lzeWr {b : Byte} (hu : UnitsLegal s) (h : exec (.lzeWr b) s = .next t) : EndsOrHolds value ends s t := by
  refine endsOrHolds_unlessLatched hu h fun h => ?_
  split at h
  · exact endsOrHolds_ok h
  split at h
  · exact endsOrHolds_ok h
  split at h
  · exact endsOrHolds_fault (v := .lze) (c := .dictOverflow) (.inr rfl) h
  split at h
  · exact endsOrHolds_fault (v := .lze) (c := .widthOverflow) (.inl rfl) h
  · exact endsOrHolds_lzePutW h fun _ hk => endsOrHolds_bpDrain hk fun _ => endsOrHolds_ok

theorem endsOrHolds_lzeClr (hu : UnitsLegal s) (h : exec .lzeClr s = .next t) : EndsOrHolds value ends s t := by
  refine endsOrHolds_unlessLatched hu h fun h => ?_
  split at h
  · exact (endsOrHolds_lzeClearCode h).of_rsp rfl
  split at h
  · exact endsOrHolds_fault (v := .lze) (c := .widthOverflow) (.inl rfl) h
  · exact endsOrHolds_lzePutW h fun _ => endsOrHolds_lzeClearW

theorem endsOrHolds_lzeFlush (hu : UnitsLegal s) (h : exec .lzeFlush s = .next t) : EndsOrHolds value ends s t := by
  refine endsOrHolds_unlessLatched hu h fun h => ?_
  split at h
  · exact endsOrHolds_lzeFlushClose h
  split at h
  · exact endsOrHolds_fault (v := .lze) (c := .widthOverflow) (.inl rfl) h
  · exact endsOrHolds_lzePutW h fun _ => endsOrHolds_lzeFlushW

theorem endsOrHolds_rleWr {b : Byte} (h : exec (.rleWr b) s = .next t) : EndsOrHolds value ends s t := by
  rcases ite_next h with h | h
  · rcases ite_next h with h | h
    · exact (endsOrHolds_pushAll h).of_rsp rfl
    · exact endsOrHolds_ok h
  · exact endsOrHolds_pushAll h

end

/-! ## Every command -/

/-- The commands that return a value (30_encoding.md R45), and those that may find no more data (60_exceptions.md R112). -/
def returnsValue (i : Instr) : Prop := (∃ r, i = .regRd r) ∨ i = .crcVal ∨ i = .buRd ∨ i = .lzdRd ∨ i = .rldRd

def mayEnd (i : Instr) : Prop := i = .buRd ∨ i = .lzdRd ∨ i = .rldRd

theorem exec_endsOrHolds {i : Instr} {s t : State} (hs : s.settled) (h : exec i s = .next t) :
    EndsOrHolds (returnsValue i) (mayEnd i) s t ∨ t = { s with cmdErr := true, seq := .idle, rsp := some 0x42000000#32 } := by
  have hu := hs.1
  cases i with
  | nop | reset | crcRst | crcUpd _ | buClr => exact .inl (endsOrHolds_ok h)
  | crcVal => exact .inl (endsOrHolds_done (.inr (.inr (.inl rfl))) h)
  | regRd r =>
    rcases exec_regRd_next h with ⟨v, rfl⟩ | rfl
    · exact .inl (endsOrHolds_done (.inr (.inl ⟨r, rfl⟩)) rfl)
    · exact .inr rfl
  | buSetw _ | bpSetw _ =>
    rcases ite_next h with h | h
    · exact .inl (endsOrHolds_ok h)
    · exact .inr (respond_next.mp h)
  | buIncw | bpIncw =>
    rcases ite_next h with h | h
    · exact .inr (respond_next.mp h)
    · exact .inl (endsOrHolds_ok h)
  | buRd => exact .inl (endsOrHolds_buRd (.inr (.inr (.inl rfl))) (.inl rfl) h)
  | lzdRd => exact .inl (endsOrHolds_lzdRd hu (.inr (.inr (.inr (.inl rfl)))) (.inr (.inl rfl)) h)
  | rldRd =>
    have hvalue : returnsValue .rldRd := .inr (.inr (.inr (.inr rfl)))
    refine .inl (endsOrHolds_unlessLatched hu h fun h => ?_)
    split at h
    · exact endsOrHolds_rldFirst hu hvalue (.inr (.inr rfl)) h
    · exact endsOrHolds_done (.inr hvalue) h
  | lzdClr | rldEsc _ | rldRst | rldSrc _ => exact .inl (endsOrHolds_unlessLatched hu h endsOrHolds_ok)
  | bpWr v => exact .inl ((endsOrHolds_bpDrain (s := bpPut v s) h fun _ => endsOrHolds_ok).of_rsp rfl)
  | bpClose => exact .inl (endsOrHolds_bpCloseByte h fun _ => endsOrHolds_ok)
  | lzeWr b => exact .inl (endsOrHolds_lzeWr hu h)
  | lzeClr => exact .inl (endsOrHolds_lzeClr hu h)
  | lzeFlush => exact .inl (endsOrHolds_lzeFlush hu h)
  | rleWr b => exact .inl (endsOrHolds_rleWr h)
  | rleFlush | rleEsc _ => exact .inl (endsOrHolds_pushAll h)

/-- Settles O15, by `exec_endsOrHolds`. -/
theorem commandsHaveFiveOutcomes : Obligations.CommandsHaveFiveOutcomes := by
  intro i s t hs h
  rcases exec_endsOrHolds hs h with (hhold | ⟨hidle, hdone | hended | hfault⟩) | hcmdErr
  · exact .inl hhold
  · exact .inr ⟨hidle, .inl hdone⟩
  · exact .inr ⟨hidle, .inr (.inl hended)⟩
  · exact .inr ⟨hidle, .inr (.inr (.inr hfault))⟩
  · exact .inr ⟨by rw [hcmdErr], .inr (.inr (.inl hcmdErr))⟩

end Sys2Proof.Machine

/-! PROOFS. A host that accepts DOUT bytes late (20_memory.md R33, R36): a command that pushes bytes sends as many as the host accepts,
holds, and goes on from there as if all had been accepted at once. -/

namespace Sys2Proof.Machine

/-! ## What the host accepts -/

/-- What a host accepts that accepts `r` once `n` bytes are sent. -/
def Ready.plus (r : Ready) (n : Nat) : Ready :=
  match r with
  | .always => .always
  | .count m => .count (n + m)

theorem Ready.after_plus (r : Ready) (n : Nat) : (r.plus n).after n = r := by
  cases r with
  | always => rfl
  | count m => exact congrArg Ready.count (Nat.add_sub_cancel_left n m)

theorem accepts_plus (r : Ready) (n : Nat) (s : State) : accepts n (accepting (r.plus n) s) := by
  cases r with
  | always => trivial
  | count m => exact Nat.le_add_right n m

theorem accepts_accepting_count {n m : Nat} {s : State} : accepts n (accepting (.count m) s) ↔ n ≤ m := Iff.rfl

theorem handedOver_accepting (bytes : List Byte) (r : Ready) (s : State) :
    handedOver bytes (accepting r s) = accepting (r.after bytes.length) (handedOver bytes s) := rfl

theorem bpGone_accepting (j : Nat) (r : Ready) (s : State) :
    bpGone j (accepting r s) = accepting (r.after j) (bpGone j s) := by
  have hlen := lowBytes_length j s.bp.acc
  show (handedOver (lowBytes j s.bp.acc) (accepting r s)).setBp _ = _
  rw [handedOver_accepting, hlen]
  rfl

/-! ## Operations that push -/

/-- `d` pushes `total` bytes from `s` and leaves `final`. Where the host accepts fewer it waits after them, and `again` goes on from
there as `d` does where the host accepts these bytes too. -/
structure PushesLate (d : State → Push) (again : List Byte → State → Push) (s : State) (total : Nat) (final : State) : Prop where
  dout : final.env.dout.length = s.env.dout.length + total
  enough : ∀ r, accepts total (accepting r s) → d (accepting r s) = .sent (accepting (r.after total) final)
  short : ∀ n < total, ∃ rest g, d (accepting (.count n) s) = .waits rest (accepting (.count 0) g) ∧
    g.env.dout.length = s.env.dout.length + n ∧ ∀ r, again rest (accepting r g) = d (accepting (r.plus n) s)

/-- The first bytes of a list are pushed first. -/
theorem pushAll_append {a : List Byte} (b : List Byte) {s : State} (h : accepts a.length s) :
    pushAll (a ++ b) s = pushAll b (handedOver a s) := by
  induction a generalizing s with
  | nil => rw [handedOver_nil, List.nil_append]
  | cons x a ih =>
    have hne : s.env.ready ≠ .count 0 := fun hready => by
      rw [accepts_iff_of_count hready] at h
      exact absurd h (Nat.not_succ_le_zero _)
    obtain ⟨t, ht⟩ := Option.ne_none_iff_exists'.mp (mt doutPush_none.mp hne)
    obtain rfl := doutPush_ready ht
    have hrest : accepts a.length (handedOver [x] s) := by
      unfold accepts at h ⊢
      rw [handedOver_ready]
      cases hready : s.env.ready with
      | always => trivial
      | count n =>
        rw [hready] at h
        exact Nat.le_sub_of_add_le h
    rw [List.cons_append, pushAll, ht]
    show pushAll (a ++ b) (handedOver [x] s) = _
    rw [ih hrest, handedOver_append]
    rfl

theorem pushAll_pushesLate (bytes : List Byte) (s : State) :
    PushesLate (pushAll bytes) pushAll s bytes.length (handedOver bytes s) := by
  refine ⟨by rw [handedOver_dout, List.length_append], fun r hr => ?_, fun n hn => ⟨bytes.drop n, handedOver (bytes.take n) s, ?_, ?_, ?_⟩⟩
  · rw [pushAll_accepts hr, handedOver_accepting]
  · rw [pushAll_of_blocked (n := n) rfl hn, handedOver_accepting, List.length_take_of_le hn.le]
    exact congrArg (fun k => Push.waits _ (accepting (.count k) _)) (Nat.sub_self n)
  · rw [handedOver_dout, List.length_append, List.length_take_of_le hn.le]
  · intro r
    have hacc : accepts (bytes.take n).length (accepting (r.plus n) s) := by
      rw [List.length_take_of_le hn.le]
      exact accepts_plus r n s
    conv_rhs => rw [← List.take_append_drop n bytes]
    rw [pushAll_append _ hacc, handedOver_accepting, List.length_take_of_le hn.le, Ready.after_plus]

/-- More turns of the loop of `BpWrite` than complete bytes make no difference (42_bitstream.md R76). -/
theorem bpEmit_turns {n m : Nat} {s : State} (hn : s.bp.cnt.toNat < 8 * (n + 1)) (hm : s.bp.cnt.toNat < 8 * (m + 1)) :
    bpEmit n s = bpEmit m s := by
  have hnone : ∀ (m : Nat) (s : State), ¬ 8 ≤ s.bp.cnt.toNat → bpEmit m s = .sent s := by
    intro m s h
    cases m with
    | zero => rfl
    | succ m => rw [bpEmit, if_neg h]
  induction n generalizing m s with
  | zero => rw [hnone 0 s (by omega), hnone m s (by omega)]
  | succ n ih =>
    cases m with
    | zero => rw [hnone 0 s (by omega), hnone _ s (by omega)]
    | succ m =>
      by_cases h8 : 8 ≤ s.bp.cnt.toNat
      · rw [bpEmit, bpEmit, if_pos h8, if_pos h8]
        cases hpush : doutPush (bpLowByte s) s with
        | none => rfl
        | some t =>
          obtain rfl := doutPush_ready hpush
          have hcnt : (bpShift (handedOver [bpLowByte s] s)).bp.cnt.toNat = s.bp.cnt.toNat - 8 := by
            show (s.bp.cnt - 8#6).toNat = _
            bv_omega
          exact ih (by omega) (by omega)
      · rw [hnone _ s h8, hnone _ s h8]

/-- The loop of `BpWrite` goes on after accepted bytes as it would have from the start. -/
theorem bpDrain_bpGone {n : Nat} {s : State} (hn : 8 * n ≤ s.bp.cnt.toNat) (h : accepts n s) : bpDrain (bpGone n s) = bpDrain s := by
  induction n generalizing s with
  | zero => rw [bpGone_zero]
  | succ n ih =>
    have hlt := s.bp.cnt.isLt
    have hne : s.env.ready ≠ .count 0 := fun hready => by
      rw [accepts_iff_of_count hready] at h
      exact absurd h (Nat.not_succ_le_zero _)
    obtain ⟨t, ht⟩ := Option.ne_none_iff_exists'.mp (mt doutPush_none.mp hne)
    obtain rfl := doutPush_ready ht
    have hcnt : (bpShift (handedOver [bpLowByte s] s)).bp.cnt.toNat = s.bp.cnt.toNat - 8 := by
      show (s.bp.cnt - 8#6).toNat = _
      bv_omega
    have hrest : accepts n (bpShift (handedOver [bpLowByte s] s)) := by
      unfold accepts at h ⊢
      show match s.env.ready.after 1 with | .always => True | .count k => n ≤ k
      cases hready : s.env.ready with
      | always => trivial
      | count k =>
        rw [hready] at h
        exact Nat.le_sub_of_add_le h
    rw [← bpGone_succ, ih (by omega) hrest]
    have hturn : bpEmit 8 s = bpDrain (bpShift (handedOver [bpLowByte s] s)) := by
      rw [bpEmit, if_pos (by omega), ht]
      rfl
    rw [← hturn, bpDrain]
    exact bpEmit_turns (by omega) (by omega)

theorem bpDrain_pushesLate (s : State) :
    PushesLate bpDrain (fun _ => bpDrain) s (s.bp.cnt.toNat / 8) (bpGone (s.bp.cnt.toNat / 8) s) := by
  have hdout : ∀ j, (bpGone j s).env.dout.length = s.env.dout.length + j := fun j => by
    show (s.env.dout ++ lowBytes j s.bp.acc).length = _
    rw [List.length_append, lowBytes_length]
  refine ⟨hdout _, fun r hr => ?_, fun n hn => ?_⟩
  · rcases bpDrain_eq (accepting r s) with ⟨-, hsent⟩ | ⟨j, rest, hready, hj, -⟩
    · exact hsent.trans (congrArg Push.sent (bpGone_accepting _ r s))
    · rw [accepts_iff_of_count hready] at hr
      exact absurd hr (Nat.not_le.mpr hj)
  · rcases bpDrain_eq (accepting (.count n) s) with ⟨hacc, -⟩ | ⟨j, rest, hready, hj, hwaits⟩
    · exact absurd hacc (Nat.not_le.mpr hn)
    · obtain rfl : n = j := Ready.count.inj hready
      refine ⟨rest, bpGone n s, ?_, hdout n, fun r => ?_⟩
      · rw [hwaits, bpGone_accepting]
        exact congrArg (fun k => Push.waits _ (accepting (.count k) _)) (Nat.sub_self n)
      · have hgone := bpDrain_bpGone (n := n) (s := accepting (r.plus n) s) (by show 8 * n ≤ s.bp.cnt.toNat; omega)
          (accepts_plus r n s)
        rwa [bpGone_accepting, Ready.after_plus] at hgone

theorem afterClose_accepting (r : Ready) (s : State) :
    afterClose (accepting r s) = accepting (r.after (closingBytes s).length) (afterClose s) := rfl

theorem bpCloseByte_pushesLate (s : State) :
    PushesLate bpCloseByte (fun _ => bpCloseByte) s (closingBytes s).length (afterClose s) := by
  refine ⟨?_, fun r hr => ?_, fun n hn => ?_⟩
  · show (s.env.dout ++ closingBytes s).length = _
    rw [List.length_append]
  · rw [bpCloseByte_of_accepts hr, afterClose_accepting]
  · have hcnt : s.bp.cnt ≠ 0#6 := fun h => by
      rw [closingBytes, h] at hn
      exact absurd hn (Nat.not_lt_zero _)
    have hzero : n = 0 := by
      rw [closingBytes_of_cnt_ne hcnt] at hn
      exact Nat.lt_one_iff.mp hn
    subst hzero
    refine ⟨[bpLowByte s], s, bpCloseByte_of_blocked hcnt rfl, rfl, fun r => ?_⟩
    cases r with
    | always => rfl
    | count m => rw [Ready.plus, Nat.zero_add]

/-! ## Commands -/

/-- `c` sends `total` bytes from `s` and comes to `t`. Where the host accepts more, the rest is still accepted; where it accepts fewer, `c`
holds after them, and goes on from there as it does where the host accepts these bytes too. -/
structure SendsLate (c : State → Result) (s t : State) (total : Nat) : Prop where
  ends : t.seq = .idle
  dout : t.env.dout.length = s.env.dout.length + total
  enough : ∀ r, accepts total (accepting r s) → c (accepting r s) = .next (accepting (r.after total) t)
  short : ∀ n < total, ∃ u h, c (accepting (.count n) s) = .next u ∧ u.seq = .holding h ∧ u.env.ready = .count 0 ∧
    u.env.dout.length = s.env.dout.length + n ∧ ∀ r, resume h (accepting r u) = c (accepting (r.plus n) s)

/-- If `c` comes to a state from `s` where every byte is accepted, late acceptance changes nothing. -/
def LateAt (c : State → Result) (s : State) : Prop :=
  ∀ t, c (accepting .always s) = .next t → ∃ total, SendsLate c s t total

section
variable {c : State → Result} {s : State}

/-- A command that does the same from another state, with the same bytes sent. -/
theorem LateAt.congr {c' : State → Result} {s' : State} (h : LateAt c' s') (hc : ∀ r, c (accepting r s) = c' (accepting r s'))
    (hdout : s'.env.dout = s.env.dout) : LateAt c s := by
  intro t ht
  obtain ⟨total, hover, hlen, henough, hshort⟩ := h t (hc .always ▸ ht)
  refine ⟨total, hover, hdout ▸ hlen, fun r hr => (hc _).trans (henough r hr), fun n hn => ?_⟩
  obtain ⟨u, hd, hu, hseq, hready, hsent, hresume⟩ := hshort n hn
  exact ⟨u, hd, (hc _).trans hu, hseq, hready, hdout ▸ hsent, fun r => (hresume r).trans (hc _).symm⟩

/-- A response, once the state is written. -/
theorem lateAt_respond {r : Response} {f : State → State} (hf : ∀ e, f (accepting e s) = accepting e (f s))
    (hdout : (f s).env.dout = s.env.dout) : LateAt (fun s => respond r (f s)) s := by
  intro t ht
  obtain rfl := respond_next.mp ht
  refine ⟨0, rfl, ?_, fun e _ => ?_, fun n hn => absurd hn (Nat.not_lt_zero n)⟩
  · rw [hf]
    exact congrArg List.length hdout
  · show respond r (f (accepting e s)) = _
    rw [hf, hf]
    cases e <;> rfl

theorem lateAt_ite {p : Prop} [Decidable p] {c' : State → Result} (h : LateAt c s) (h' : LateAt c' s) :
    LateAt (fun s => if p then c s else c' s) s := by
  by_cases hp : p
  · simpa only [hp, if_true] using h
  · simpa only [hp, if_false] using h'

/-- A command that pushes and goes on, from its start or from the hold in that push. -/
theorem lateAt_push {d : State → Push} {again : List Byte → State → Push} {h : List Byte → Hold} {k : State → Result}
    {total : Nat} {final : State} (hd : PushesLate d again s total final) (hh : ∀ rest g, resume (h rest) g = (again rest g).andThen h k)
    (hk : LateAt k final) : LateAt (fun s => (d s).andThen h k) s := by
  intro t ht
  have hsent : ∀ r, accepts total (accepting r s) → (d (accepting r s)).andThen h k = k (accepting (r.after total) final) :=
    fun r hr => by rw [hd.enough r hr, Push.andThen]
  obtain ⟨more, hover, hlen, henough, hshort⟩ := hk t ((hsent .always trivial).symm.trans ht)
  refine ⟨total + more, hover, by rw [hlen, hd.dout, Nat.add_assoc], fun r hr => ?_, fun n hn => ?_⟩
  · cases r with
    | always => exact (hsent .always trivial).trans (henough .always trivial)
    | count n =>
      have hn : total + more ≤ n := hr
      rw [hsent (.count n) (accepts_accepting_count.mpr (by omega)), Ready.after,
        henough _ (accepts_accepting_count.mpr (by omega)), Ready.after, Ready.after, Nat.sub_sub]
  · by_cases hpushed : n < total
    · obtain ⟨rest, g, hwaits, hg, hagain⟩ := hd.short n hpushed
      refine ⟨(accepting (.count 0) g).setSeq (.holding (h rest)), h rest, ?_, rfl, rfl, hg, fun r => ?_⟩
      · show (d (accepting (.count n) s)).andThen h k = _
        rw [hwaits]
        rfl
      · show resume (h rest) ((accepting r g).setSeq _) = _
        rw [resume_setSeq, hh, hagain]
    · obtain ⟨u, hold, hu, hseq, hready, hg, hresume⟩ := hshort (n - total) (by omega)
      refine ⟨u, hold, ?_, hseq, hready, by rw [hg, hd.dout]; omega, fun r => ?_⟩
      · rw [hsent (.count n) (accepts_accepting_count.mpr (by omega)), Ready.after, hu]
      · have hplus : (r.plus n).after total = r.plus (n - total) := by
          cases r with
          | always => rfl
          | count m => exact congrArg Ready.count (by omega)
        have hacc : accepts total (accepting (r.plus n) s) := by
          cases r with
          | always => trivial
          | count m => exact accepts_accepting_count.mpr (by omega)
        rw [hresume, hsent _ hacc, hplus]

end

/-! ## The commands that push -/

theorem lateAt_bpWriteRest (s : State) : LateAt bpWriteRest s :=
  lateAt_push (bpDrain_pushesLate s) (fun _ _ => rfl) (lateAt_respond (f := id) (fun _ => rfl) rfl)

theorem lateAt_bpCloseRest (s : State) : LateAt bpCloseRest s :=
  lateAt_push (bpCloseByte_pushesLate s) (fun _ _ => rfl) (lateAt_respond (f := id) (fun _ => rfl) rfl)

theorem lzeGrow_accepting (r : Ready) (s : State) : lzeGrow (accepting r s) = accepting r (lzeGrow s) :=
  lzeGrow_map (sparesUnits_accepting r).toSparesOutput s

theorem lzeGrow_env (s : State) : (lzeGrow s).env = s.env := by
  obtain ⟨w, hw⟩ := lzeGrow_eq s
  rw [hw]
  rfl

theorem lateAt_lzeWriteRest (b : Byte) (s : State) : LateAt (lzeWriteRest b) s :=
  lateAt_push (bpDrain_pushesLate s) (fun _ _ => rfl)
    (lateAt_respond (f := fun s => lzeInsert b (lzeGrow s)) (fun r => by rw [lzeGrow_accepting]; rfl)
      (congrArg HostSide.dout (lzeGrow_env _)))

theorem lateAt_lzeFinish (s : State) : LateAt lzeFinish s :=
  lateAt_respond (f := fun s => bpSetWidth wLzw0 (lzeInit s)) (fun _ => rfl) rfl

theorem lateAt_lzeClearCodeRest (s : State) : LateAt lzeClearCodeRest s :=
  lateAt_push (bpDrain_pushesLate s) (fun _ _ => rfl) (lateAt_lzeFinish _)

theorem lateAt_lzeClearWRest (s : State) : LateAt lzeClearWRest s :=
  lateAt_push (bpDrain_pushesLate s) (fun _ _ => rfl)
    ((lateAt_lzeClearCodeRest (bpPut clearCode (lzeGrow _))).congr (fun r => by rw [lzeGrow_accepting]; rfl)
      (congrArg HostSide.dout (lzeGrow_env _)))

theorem lateAt_lzeFlushCloseRest (s : State) : LateAt lzeFlushCloseRest s :=
  lateAt_push (bpCloseByte_pushesLate s) (fun _ _ => rfl) (lateAt_lzeFinish _)

theorem lateAt_lzeFlushWRest (s : State) : LateAt lzeFlushWRest s :=
  lateAt_push (bpDrain_pushesLate s) (fun _ _ => rfl) (lateAt_lzeFlushCloseRest _)

theorem lateAt_lzePutW {rest : State → Result} {s : State} (h : ∀ s, LateAt rest s) : LateAt (lzePutW rest) s := by
  cases hcode : lzeCode s.lze s.lze.wseq with
  | some c =>
    refine (h (bpPut c s)).congr (fun r => ?_) rfl
    show (match lzeCode s.lze s.lze.wseq with | some c => _ | none => _) = _
    rw [hcode]
    rfl
  | none =>
    intro t ht
    have hfault : lzePutW rest (accepting .always s) = .fault .noSuchString := by
      unfold lzePutW
      show (match lzeCode s.lze s.lze.wseq with | some c => _ | none => _) = _
      rw [hcode]
    rw [hfault] at ht
    cases ht

theorem lateAt_raiseUnitFault (u : FaultUnit) (c : FaultBits) (s : State) : LateAt (raiseUnitFault u c) s :=
  lateAt_respond (f := latchFault u c) (fun _ => by cases u <;> rfl) (by cases u <;> rfl)

theorem lateAt_lzeWr (b : Byte) (s : State) : LateAt (exec (.lzeWr b)) s := by
  have hchoice : LateAt (fun s' => if latched s.lze.flt then raiseUnitFault .lze s.lze.flt s'
      else if !s.lze.hasw then respondOk (lzeHold [b] s')
      else if (lzeCode s.lze (s.lze.wseq ++ [b])).isSome then respondOk (lzeHold (s.lze.wseq ++ [b]) s')
      else if s.lze.size.toNat = s.cfg.dictCap then raiseUnitFault .lze (faultBits .dictOverflow) s'
      else if !lzeGrowOk s then raiseUnitFault .lze (faultBits .widthOverflow) s'
      else lzePutW (lzeWriteRest b) s') s :=
    lateAt_ite (lateAt_raiseUnitFault _ _ s) (lateAt_ite (lateAt_respond (f := lzeHold [b]) (fun _ => rfl) rfl)
      (lateAt_ite (lateAt_respond (f := lzeHold _) (fun _ => rfl) rfl) (lateAt_ite (lateAt_raiseUnitFault _ _ s)
        (lateAt_ite (lateAt_raiseUnitFault _ _ s) (lateAt_lzePutW (lateAt_lzeWriteRest b))))))
  exact hchoice.congr (fun _ => rfl) rfl

theorem lateAt_lzeClr (s : State) : LateAt (exec .lzeClr) s := by
  have hchoice : LateAt (fun s' => if latched s.lze.flt then raiseUnitFault .lze s.lze.flt s'
      else if !s.lze.hasw then lzeClearCodeRest (bpPut clearCode s')
      else if !lzeGrowOk s then raiseUnitFault .lze (faultBits .widthOverflow) s'
      else lzePutW lzeClearWRest s') s :=
    lateAt_ite (lateAt_raiseUnitFault _ _ s)
      (lateAt_ite ((lateAt_lzeClearCodeRest (bpPut clearCode s)).congr (fun _ => rfl) rfl)
        (lateAt_ite (lateAt_raiseUnitFault _ _ s) (lateAt_lzePutW lateAt_lzeClearWRest)))
  exact hchoice.congr (fun _ => rfl) rfl

theorem lateAt_lzeFlush (s : State) : LateAt (exec .lzeFlush) s := by
  have hchoice : LateAt (fun s' => if latched s.lze.flt then raiseUnitFault .lze s.lze.flt s'
      else if !s.lze.hasw then lzeFlushCloseRest s'
      else if !lzeGrowOk s then raiseUnitFault .lze (faultBits .widthOverflow) s'
      else lzePutW lzeFlushWRest s') s :=
    lateAt_ite (lateAt_raiseUnitFault _ _ s) (lateAt_ite (lateAt_lzeFlushCloseRest s)
      (lateAt_ite (lateAt_raiseUnitFault _ _ s) (lateAt_lzePutW lateAt_lzeFlushWRest)))
  exact hchoice.congr (fun _ => rfl) rfl

theorem lateAt_rleFullRest (bytes : List Byte) (s : State) : LateAt (rleFullRest bytes) s :=
  lateAt_push (pushAll_pushesLate bytes s) (fun _ _ => rfl) (lateAt_respond (f := rleEndRun) (fun _ => rfl) rfl)

theorem lateAt_rleNewRest (b : Byte) (bytes : List Byte) (s : State) : LateAt (rleNewRest b bytes) s :=
  lateAt_push (pushAll_pushesLate bytes s) (fun _ _ => rfl)
    (lateAt_respond (f := fun s' => s'.setRle { s'.rle with rb := b, len := 1#9 }) (fun _ => rfl) rfl)

theorem lateAt_rleFlushRest (bytes : List Byte) (s : State) : LateAt (rleFlushRest bytes) s :=
  lateAt_push (pushAll_pushesLate bytes s) (fun _ _ => rfl) (lateAt_respond (f := rleEndRun) (fun _ => rfl) rfl)

theorem lateAt_rleSetEscRest (e : Byte) (bytes : List Byte) (s : State) : LateAt (rleSetEscRest e bytes) s :=
  lateAt_push (pushAll_pushesLate bytes s) (fun _ _ => rfl)
    (lateAt_respond (f := fun s' => s'.setRle { s'.rle with len := 0#9, esc := e }) (fun _ => rfl) rfl)

theorem lateAt_rleWr (b : Byte) (s : State) : LateAt (exec (.rleWr b)) s := by
  have hchoice : LateAt (fun s' => if s.rle.len ≠ 0#9 ∧ b = s.rle.rb then
      if (rleLengthen s).rle.len = 256#9 then rleFullRest (rleRunBytes (rleLengthen s).rle) (rleLengthen s')
      else respondOk (rleLengthen s') else rleNewRest b (rleRunBytes s.rle) s') s :=
    lateAt_ite (lateAt_ite ((lateAt_rleFullRest _ (rleLengthen s)).congr (fun _ => rfl) rfl)
      (lateAt_respond (f := rleLengthen) (fun _ => rfl) rfl)) (lateAt_rleNewRest b _ s)
  exact hchoice.congr (fun _ => rfl) rfl

/-! ## Every command -/

theorem lateAt_exec {i : Instr} (hi : pushes i = true) (s : State) : LateAt (exec i) s := by
  cases i with
  | bpWr v => exact (lateAt_bpWriteRest (bpPut v s)).congr (fun _ => rfl) rfl
  | bpClose => exact lateAt_bpCloseRest s
  | lzeWr b => exact lateAt_lzeWr b s
  | lzeClr => exact lateAt_lzeClr s
  | lzeFlush => exact lateAt_lzeFlush s
  | rleWr b => exact lateAt_rleWr b s
  | rleFlush => exact (lateAt_rleFlushRest (rleRunBytes s.rle) s).congr (fun _ => rfl) rfl
  | rleEsc e => exact (lateAt_rleSetEscRest e (rleRunBytes s.rle) s).congr (fun _ => rfl) rfl
  | _ => cases hi

/-- Every way on from a hold at a push. -/
theorem lateAt_resume {h : Hold} (hh : pushesAt h = true) (s : State) : LateAt (resume h) s := by
  cases h with
  | bpWrite => exact lateAt_bpWriteRest s
  | bpClose => exact lateAt_bpCloseRest s
  | lzeWrite b => exact lateAt_lzeWriteRest b s
  | lzeClearW => exact lateAt_lzeClearWRest s
  | lzeClearCode => exact lateAt_lzeClearCodeRest s
  | lzeFlushW => exact lateAt_lzeFlushWRest s
  | lzeFlushClose => exact lateAt_lzeFlushCloseRest s
  | rleFull rest => exact lateAt_rleFullRest rest s
  | rleNew b rest => exact lateAt_rleNewRest b rest s
  | rleFlush rest => exact lateAt_rleFlushRest rest s
  | rleSetEsc e rest => exact lateAt_rleSetEscRest e rest s
  | buRead | lzdRead | rldFirst | rldRepeat | rldCount _ => cases hh

/-- A command that pushes no byte sends none. -/
theorem exec_env_of_not_pushes {i : Instr} {s t : State} (hi : pushes i = false) (h : exec i s = .next t) : t.env = s.env := by
  cases htransfers : transfers i with
  | false => exact (exec_of_not_transfers htransfers h).2.1
  | true =>
    cases i with
    | buRd => rw [(execBuRd_lzdRead h).frame]; rfl
    | lzdRd => rw [(execLzdRd_read h).frame]; rfl
    | rldRd => exact (exec_rldRd_read h).1.elsewhere.env
    | bpWr _ | bpClose | lzeWr _ | lzeClr | lzeFlush | rleWr _ | rleFlush | rleEsc _ => cases hi
    | _ => cases htransfers

/-- Settles O12: `lateAt_exec` says how many bytes the command sends, and the host accepts that many or fewer. -/
theorem lateAcceptanceChangesNothing : Obligations.LateAcceptanceChangesNothing := by
  intro i s t n h
  cases hi : pushes i with
  | false =>
    have hcommand := exec_map_of_not_pushes (sparesUnits_accepting (.count n)) hi (accepting .always s)
    have hdout := congrArg (fun e => e.dout.length) (exec_env_of_not_pushes hi h)
    exact ⟨accepting (.count n) t, hcommand.trans (congrArg (mapNext _) h), .inl ⟨n, congrArg (n + ·) hdout, rfl⟩⟩
  | true =>
    obtain ⟨total, -, hdout, henough, hshort⟩ := lateAt_exec hi s t h
    by_cases hn : total ≤ n
    · exact ⟨_, henough (.count n) hn, .inl ⟨n - total, by omega, rfl⟩⟩
    · obtain ⟨u, hd, hu, hseq, hready, hsent, hresume⟩ := hshort n (Nat.lt_of_not_le hn)
      exact ⟨u, hu, .inr ⟨hd, hseq, hready, hsent, (hresume .always).trans h, fun m => hresume (.count m)⟩⟩

end Sys2Proof.Machine

/-! PROOFS. DIN bytes that come late (20_memory.md R31, R36): a read that finds only some of them ends as it does with the others behind
them, or holds with all of them used and goes on with the others as the whole read does. -/

namespace Sys2Proof.Machine

/-- `s` with the bytes `b` behind those in DIN, and the end of source signalled as `e` says. -/
def withMore (b : List Byte) (e : Bool) (s : State) : State := s.setDin { fifo := s.din.fifo ++ b, eof := e }

theorem withMore_nil (e : Bool) (s : State) : withMore [] e s = s.setDin { s.din with eof := e } := by
  rw [withMore, List.append_nil]

theorem withMore_of_empty {s : State} (h : s.din.fifo = []) (b : List Byte) (e : Bool) :
    withMore b e s = s.setDin { fifo := b, eof := e } := by
  rw [withMore, h, List.nil_append]

theorem unreadBits_withMore (b : List Byte) (e : Bool) (s : State) : unreadBits (withMore b e s) = unreadBits s + 8 * b.length := by
  show s.bu.cnt.toNat + 8 * (s.din.fifo ++ b).length = _
  rw [List.length_append, unreadBits]
  ring

/-! ## Operations that take input -/

/-- From `s`, where no end of source is signalled, `x` comes to what it comes to with more bytes behind; or it waits with every byte
used, and goes on with more bytes as from `s` with them. -/
def TakesLate {α : Type} (x : State → Supply α) (b : List Byte) (e : Bool) (s : State) : Prop :=
  (∃ a t, x s = .got a t ∧ x (withMore b e s) = .got a (withMore b e t)) ∨
  (∃ t, x s = .waits t ∧ t.din.fifo = [] ∧ x (withMore b e t) = x (withMore b e s)) ∨
  (∃ c t, x s = .faulted c t ∧ x (withMore b e s) = .faulted c (withMore b e t)) ∨
  ∃ f, x s = .broken f

section
variable (b : List Byte) (e : Bool)

theorem dinPull_takesLate {s : State} (heof : s.din.eof = false) : TakesLate dinPull b e s := by
  rcases dinPull_cases s with ⟨c, rest, hf, hp⟩ | ⟨-, he, -⟩ | ⟨hf, -, hp⟩
  · refine .inl ⟨c, _, hp, ?_⟩
    have hmore : (withMore b e s).din.fifo = c :: (rest ++ b) := by
      show s.din.fifo ++ b = _
      rw [hf, List.cons_append]
    rw [dinPull_cons hmore]
    rfl
  · rw [heof] at he
    cases he
  · exact .inr (.inl ⟨s, hp, hf, rfl⟩)

/-- The loop of `BuRead`, with any number of turns that is enough. -/
theorem buFill_takesLate (n : Nat) {s : State} (h24 : s.bu.width.toNat ≤ 24) (hn : s.bu.width.toNat ≤ s.bu.cnt.toNat + 8 * n)
    (heof : s.din.eof = false) :
    (∃ t, buFill n s = .got () t ∧ buFill n (withMore b e s) = .got () (withMore b e t)) ∨
    (∃ t, buFill n s = .waits t ∧ t.din.fifo = [] ∧ t.bu.width = s.bu.width ∧
      ∀ m, t.bu.width.toNat ≤ t.bu.cnt.toNat + 8 * m → buFill m (withMore b e t) = buFill n (withMore b e s)) := by
  induction n generalizing s with
  | zero => exact .inl ⟨s, rfl, rfl⟩
  | succ n ih =>
    have hbu : (withMore b e s).bu = s.bu := rfl
    by_cases hw : s.bu.cnt.toNat < s.bu.width.toNat
    · rcases dinPull_takesLate b e heof with ⟨c, t, hgot, hmore⟩ | ⟨t, hwaits, hempty, -⟩ | ⟨c, t, hfaulted, -⟩ | ⟨f, hbroken⟩
      · obtain ⟨rest, hfifo, rfl⟩ := dinPull_got.mp hgot
        have hcnt : (buAppend c (s.setDin { s.din with fifo := rest })).bu.cnt.toNat = s.bu.cnt.toNat + 8 := by
          show (s.bu.cnt + 8#6).toNat = _
          bv_omega
        have hnext := ih (s := buAppend c (s.setDin { s.din with fifo := rest })) h24
          (by rw [hcnt]; show s.bu.width.toNat ≤ _; omega) heof
        have hfill : buFill (n + 1) s = buFill n (buAppend c (s.setDin { s.din with fifo := rest })) := by
          rw [buFill, if_pos hw, hgot]
          rfl
        have hfill' : buFill (n + 1) (withMore b e s) = buFill n (withMore b e (buAppend c (s.setDin { s.din with fifo := rest }))) := by
          rw [buFill, hbu, if_pos hw, hmore]
          rfl
        rw [hfill, hfill']
        exact hnext
      · obtain rfl : t = s := by
          rcases dinPull_cases s with ⟨_, _, _, hp⟩ | ⟨_, _, hp⟩ | ⟨_, _, hp⟩ <;> rw [hp] at hwaits <;> cases hwaits
          rfl
        refine .inr ⟨t, by rw [buFill, if_pos hw, hwaits]; rfl, hempty, rfl, fun m hm => ?_⟩
        exact buFill_turns m (n + 1) (s := withMore b e t) h24 hm hn
      · rcases dinPull_cases s with ⟨_, _, _, hp⟩ | ⟨_, _, hp⟩ | ⟨_, _, hp⟩ <;> rw [hp] at hfaulted <;> cases hfaulted
      · rcases dinPull_cases s with ⟨_, _, _, hp⟩ | ⟨_, _, hp⟩ | ⟨_, _, hp⟩ <;> rw [hp] at hbroken <;> cases hbroken
    · exact .inl ⟨s, by rw [buFill, if_neg hw], by rw [buFill, hbu, if_neg hw]⟩

theorem buRead_takesLate {s : State} (hl : s.bu.legal) (heof : s.din.eof = false) :
    (∃ c t, buRead s = .got c t ∧ buRead (withMore b e s) = .got c (withMore b e t)) ∨
    (∃ t, buRead s = .waits t ∧ t.din.fifo = [] ∧ buRead (withMore b e t) = buRead (withMore b e s)) := by
  obtain ⟨-, hw24⟩ := hl.1
  simp only [wMax] at hw24
  rcases buFill_takesLate b e 4 hw24 (by omega) heof with ⟨t, hfill, hmore⟩ | ⟨t, hfill, hempty, hwidth, hmore⟩
  · exact .inl ⟨_, _, by rw [buRead, hfill]; rfl, by rw [buRead, hmore]; rfl⟩
  · refine .inr ⟨t, by rw [buRead, hfill]; rfl, hempty, ?_⟩
    rw [buRead, buRead, hmore 4 (by rw [hwidth]; omega)]

/-- With bits enough, the bytes behind are left behind. -/
theorem buRead_withMore {s : State} (hl : s.bu.legal) (heof : s.din.eof = false) (h : s.bu.width.toNat ≤ unreadBits s) :
    buRead (withMore b e s) = .got (nextCode s) (withMore b e (afterRead s)) := by
  obtain ⟨hread, -⟩ := buRead_got hl h
  rcases buRead_takesLate b e hl heof with ⟨c, t, hgot, hmore⟩ | ⟨t, hwaits, -⟩
  · rw [hread] at hgot
    obtain ⟨rfl, rfl⟩ := Supply.got.inj hgot
    exact hmore
  · rw [hread] at hwaits
    cases hwaits

/-! ## The LZW decoder -/

/-- What the decoder does with a code is the same whatever stands in DIN. -/
theorem lzdExtend_setDin (c : Code) (l : List Byte) (s : State) (d : Din) :
    lzdExtend c l (s.setDin d) = (lzdExtend c l s).mapState (·.setDin d) := by
  have hgrow : ∀ u : State, lzdGrow (u.setDin d) = (lzdGrow u).setDin d := fun u => by
    unfold lzdGrow
    rw [apply_ite fun x : State => x.setDin d]
    rfl
  have hlzd : (s.setDin d).lzd = s.lzd := State.setDin_lzd ..
  have hcfg : (s.setDin d).cfg = s.cfg := State.setDin_cfg ..
  have hbu : (s.setDin d).bu = s.bu := State.setDin_bu ..
  unfold lzdExtend
  simp only [hlzd, hcfg, hbu]
  split
  · rfl
  split
  · rfl
  split
  · rename_i wSeq x rest _
    show Supply.got () (lzdEmit c _ (lzdGrow ((lzdAssign (wSeq ++ [x]) s).setDin d))) = _
    rw [hgrow]
    rfl
  · rfl

theorem lzdCode_setDin (c : Code) (s : State) (d : Din) : lzdCode c (s.setDin d) = (lzdCode c s).mapState (·.setDin d) := by
  have hlzd : (s.setDin d).lzd = s.lzd := State.setDin_lzd ..
  unfold lzdCode lzdFirst lzdLookUp lzdKwk
  simp only [hlzd]
  split
  · split <;> rfl
  split
  · split
    · exact lzdExtend_setDin _ _ _ _
    · rfl
  split
  · split
    · exact lzdExtend_setDin _ _ _ _
    · rfl
  · rfl

theorem lzdPop_setDin (s : State) (d : Din) : lzdPop (s.setDin d) = (lzdPop s).mapState (·.setDin d) := by
  have hlzd : (s.setDin d).lzd = s.lzd := State.setDin_lzd ..
  unfold lzdPop
  simp only [hlzd]
  split <;> rfl

/-- The operation gives a value or raises a fault: it takes no input. -/
def takesNone {α : Type} (x : Supply α) : Prop := (∀ t, x ≠ .eod t) ∧ ∀ t, x ≠ .waits t

theorem lzdExtend_takesNone (c : Code) (l : List Byte) (s : State) : takesNone (lzdExtend c l s) := by
  unfold lzdExtend takesNone
  split
  · simp
  split
  · simp
  split <;> simp

theorem lzdCode_takesNone (c : Code) (s : State) : takesNone (lzdCode c s) := by
  unfold lzdCode lzdFirst lzdLookUp
  split
  · split <;> simp [takesNone]
  split
  · split
    · exact lzdExtend_takesNone _ _ _
    · simp [takesNone]
  split
  · split
    · exact lzdExtend_takesNone _ _ _
    · simp [takesNone]
  · simp [takesNone]

theorem lzdPop_takesNone (s : State) : takesNone (lzdPop s) := by
  unfold lzdPop
  split <;> simp [takesNone]

/-- An operation that takes no input and does not look at DIN. -/
theorem takesLate_of_takesNone {α : Type} {x : State → Supply α} (hmap : ∀ s d, x (s.setDin d) = (x s).mapState (·.setDin d))
    (hnone : ∀ s, takesNone (x s)) (s : State) : TakesLate x b e s := by
  have hmore := hmap s { fifo := s.din.fifo ++ b, eof := e }
  have hsame := hmap s s.din
  rw [show s.setDin s.din = s from rfl] at hsame
  cases hx : x s with
  | got a t =>
    rw [hx] at hmore hsame
    have hdin : t.din = s.din := by rw [(Supply.got.inj hsame).2]; rfl
    exact .inl ⟨a, t, hx, by rw [withMore, hmore, withMore, hdin]; rfl⟩
  | eod t => exact absurd hx ((hnone s).1 t)
  | waits t => exact absurd hx ((hnone s).2 t)
  | faulted c t =>
    rw [hx] at hmore hsame
    have hdin : t.din = s.din := by rw [(Supply.faulted.inj hsame).2]; rfl
    exact .inr (.inr (.inl ⟨c, t, hx, by rw [withMore, hmore, withMore, hdin]; rfl⟩))
  | broken f => exact .inr (.inr (.inr ⟨f, hx⟩))

/-- The decoder goes on with more bytes where the code it waits for is the same. -/
theorem lzdStep_of_buRead_eq {s t : State} (hread : buRead t = buRead s) (hbits : unreadBits t = unreadBits s) :
    lzdStep t = lzdStep s := by
  show lzdLoop (unreadBits t + 1) t = lzdLoop (unreadBits s + 1) s
  rw [hbits]
  unfold lzdLoop
  rw [hread]

theorem lzdStep_takesLate {s : State} (hl : s.bu.legal) (heof : s.din.eof = false) : TakesLate lzdStep b e s := by
  induction hn : unreadBits s using Nat.strongRecOn generalizing s with
  | _ n ih =>
    subst hn
    by_cases hbits : s.bu.width.toNat ≤ unreadBits s
    · have hmore := buRead_withMore b e hl heof hbits
      obtain ⟨-, htook⟩ := buRead_got hl hbits
      have hbits' : (withMore b e s).bu.width.toNat ≤ unreadBits (withMore b e s) := by
        rw [unreadBits_withMore]
        exact le_add_right hbits
      obtain ⟨hnext, hafter⟩ := Supply.got.inj ((buRead_got (s := withMore b e s) hl hbits').1.symm.trans hmore)
      by_cases hclear : nextCode s = clearCode
      · have hwide := BuTook.wide (hclear ▸ htook)
        have hless := htook.bits
        have hrest := ih (unreadBits (lzdInit (afterRead s)))
          (by show unreadBits (afterRead s) < _; omega) (lzdInit_bu_legal htook.legal) heof rfl
        have hstep := lzdStep_clear hl hbits hclear
        have hstep' : lzdStep (withMore b e s) = lzdStep (withMore b e (lzdInit (afterRead s))) := by
          rw [lzdStep_clear (s := withMore b e s) hl hbits' (hnext.trans hclear), hafter]
          rfl
        unfold TakesLate
        rw [hstep, hstep']
        exact hrest
      · have hcode := takesLate_of_takesNone b e (lzdCode_setDin (nextCode s)) (lzdCode_takesNone (nextCode s)) (afterRead s)
        have hstep := lzdStep_got hl hbits hclear
        have hstep' : lzdStep (withMore b e s) = lzdCode (nextCode s) (withMore b e (afterRead s)) := by
          rw [lzdStep_got (s := withMore b e s) hl hbits' (hnext ▸ hclear), hafter, hnext]
        unfold TakesLate
        rw [hstep, hstep']
        rcases hcode with hgot | ⟨t, hwaits, -⟩ | hfaulted | hbroken
        · exact .inl hgot
        · exact absurd hwaits ((lzdCode_takesNone _ _).2 t)
        · exact .inr (.inr (.inl hfaulted))
        · exact .inr (.inr (.inr hbroken))
    · have hstarved := lzdStep_starved hl (not_le.mp hbits)
      obtain ⟨hread, hfilled, -⟩ := buRead_starved hl (not_le.mp hbits)
      rw [heof] at hstarved hread
      rcases buRead_takesLate b e hl heof with ⟨c, t, hgot, -⟩ | ⟨t, hwaits, hempty, hmore⟩
      · rw [hread] at hgot
        cases hgot
      · obtain rfl := Supply.waits.inj (hread.symm.trans hwaits)
        refine .inr (.inl ⟨_, hstarved, hempty, lzdStep_of_buRead_eq hmore ?_⟩)
        rw [unreadBits_withMore, unreadBits_withMore, hfilled.bits]

theorem lzdNextByte_takesLate {s : State} (hs : UnitsLegal s) (heof : s.din.eof = false) : TakesLate lzdNextByte b e s := by
  have hpop := takesLate_of_takesNone b e lzdPop_setDin lzdPop_takesNone
  by_cases hlatched : latched s.lzd.flt = true
  · exact .inr (.inr (.inl ⟨s.lzd.flt, s, if_pos hlatched, if_pos hlatched⟩))
  by_cases hpend : s.lzd.pend = []
  · have hnext : ∀ u : State, u.lzd.flt = s.lzd.flt → u.lzd.pend = [] → lzdNextByte u = (lzdStep u).andThen fun _ t => lzdPop t :=
      fun u hf hp => by rw [lzdNextByte, if_neg (hf ▸ hlatched), if_pos hp]
    unfold TakesLate
    rw [hnext s rfl hpend, hnext (withMore b e s) rfl hpend]
    rcases lzdStep_takesLate b e hs.bu heof with ⟨_, t, hgot, hmore⟩ | ⟨t, hwaits, hempty, hmore⟩ | ⟨c, t, hfaulted, hmore⟩ | ⟨f, hbroken⟩
    · rw [hgot, hmore]
      rcases hpop t with hgot' | ⟨u, hwaits', -⟩ | hfaulted' | hbroken'
      · exact .inl hgot'
      · exact absurd hwaits' ((lzdPop_takesNone _).2 u)
      · exact .inr (.inr (.inl hfaulted'))
      · exact .inr (.inr (.inr hbroken'))
    · have hflt : s.lzd.flt = 0#6 := latched_eq_false.mp (by simpa using hlatched)
      rcases lzdStep_legal hs hflt hpend with ⟨a, u, hu, -⟩ | ⟨u, hu | hu, -, hflt', hpend'⟩ | ⟨c, u, hu, -⟩ <;>
        rw [hwaits] at hu <;> cases hu
      refine .inr (.inl ⟨t, by rw [hwaits]; rfl, hempty, ?_⟩)
      rw [hnext (withMore b e t) (hflt'.trans hflt.symm) hpend', hmore]
    · exact .inr (.inr (.inl ⟨c, t, by rw [hfaulted]; rfl, by rw [hmore]; rfl⟩))
    · exact .inr (.inr (.inr ⟨f, by rw [hbroken]; rfl⟩))
  · have hnext : ∀ u : State, u.lzd = s.lzd → lzdNextByte u = lzdPop u := fun u hu => by
      rw [lzdNextByte, if_neg (hu ▸ hlatched), if_neg (hu ▸ hpend)]
    unfold TakesLate
    rw [hnext s rfl, hnext (withMore b e s) rfl]
    rcases hpop s with hgot | ⟨t, hwaits, -⟩ | hfaulted | hbroken
    · exact .inl hgot
    · exact absurd hwaits ((lzdPop_takesNone _).2 t)
    · exact .inr (.inr (.inl hfaulted))
    · exact .inr (.inr (.inr hbroken))

theorem rldSrcByte_takesLate {s : State} (hs : UnitsLegal s) (heof : s.din.eof = false) : TakesLate rldSrcByte b e s := by
  cases hsrc : s.rld.src with
  | din =>
    unfold TakesLate
    rw [rldSrcByte_din hsrc, rldSrcByte_din (s := withMore b e s) hsrc]
    rcases dinPull_takesLate b e heof with hgot | ⟨t, hwaits, hempty, hmore⟩ | hfaulted | hbroken
    · exact .inl hgot
    · have hsame : t.rld = s.rld := by
        have hleaves := dinPull_leaves s
        rw [hwaits] at hleaves
        obtain ⟨d, rfl, -⟩ := hleaves
        rfl
      exact .inr (.inl ⟨t, hwaits, hempty, (rldSrcByte_din (s := withMore b e t) (hsame ▸ hsrc)).trans hmore⟩)
    · exact .inr (.inr (.inl hfaulted))
    · exact .inr (.inr (.inr hbroken))
  | lzd =>
    unfold TakesLate
    rw [rldSrcByte_lzd hsrc, rldSrcByte_lzd (s := withMore b e s) hsrc]
    rcases lzdNextByte_takesLate b e hs heof with hgot | ⟨t, hwaits, hempty, hmore⟩ | hfaulted | hbroken
    · exact .inl hgot
    · have hsame : t.rld = s.rld := by
        have hleaves := lzdNextByte_leaves s
        rw [hwaits] at hleaves
        rw [hleaves.frame]
        rfl
      exact .inr (.inl ⟨t, hwaits, hempty, (rldSrcByte_lzd (s := withMore b e t) (hsame ▸ hsrc)).trans hmore⟩)
    · exact .inr (.inr (.inl hfaulted))
    · exact .inr (.inr (.inr hbroken))

/-! ## Reads -/

/-- From `s`, where no end of source is signalled, the command (or what follows a hold) ends as it does with more bytes behind; or it
holds with every byte used, and goes on with more bytes as from `s` with them. -/
def ReadsLate (c : State → Result) (s : State) : Prop :=
  ∀ u, c s = .next u →
    (u.seq = .idle ∧ c (withMore b e s) = .next (withMore b e u)) ∨
    ∃ h, u.seq = .holding h ∧ u.din.fifo = [] ∧ resume h (withMore b e u) = c (withMore b e s)

variable {b e}

theorem ReadsLate.congr {c c' : State → Result} {s : State} (h : ReadsLate b e c' s) (hhere : c s = c' s)
    (hmore : c (withMore b e s) = c' (withMore b e s)) : ReadsLate b e c s := by
  unfold ReadsLate
  rw [hhere, hmore]
  exact h

theorem respond_readsLate (r : Response) (s : State) : ReadsLate b e (respond r) s := by
  intro u hu
  obtain rfl := respond_next.mp hu
  exact .inl ⟨rfl, rfl⟩

/-- A read that ends on what an operation took, and goes on from a hold by taking again. -/
theorem conclude_readsLate {α : Type} {x : State → Supply α} {hd : Hold} {atEnd : State → Result} {k : α → State → Result} {s : State}
    (hresume : ∀ g, resume hd g = (x g).conclude hd atEnd k) (hx : TakesLate x b e s)
    (hk : ∀ a t, x s = .got a t → ReadsLate b e (k a) t) : ReadsLate b e (resume hd) s := by
  intro u hu
  rw [hresume] at hu ⊢
  rcases hx with ⟨a, t, hgot, hmore⟩ | ⟨t, hwaits, hempty, hmore⟩ | ⟨c, t, hfaulted, hmore⟩ | ⟨f, hbroken⟩
  · rw [hgot] at hu
    rw [hmore]
    exact hk a t hgot u hu
  · rw [hwaits] at hu
    obtain rfl := holdAt_next.mp hu
    refine .inr ⟨hd, rfl, hempty, ?_⟩
    show resume hd ((withMore b e t).setSeq (.holding hd)) = _
    rw [resume_setSeq, hresume, hmore]
  · rw [hfaulted] at hu
    obtain rfl := respond_next.mp hu
    rw [hmore]
    exact .inl ⟨rfl, rfl⟩
  · rw [hbroken] at hu
    cases hu

theorem buRead_readsLate {s : State} (hs : UnitsLegal s) (heof : s.din.eof = false) : ReadsLate b e (resume .buRead) s := by
  refine conclude_readsLate (fun _ => rfl) ?_ fun _ t _ => respond_readsLate _ t
  rcases buRead_takesLate b e hs.bu heof with hgot | hwaits
  · exact .inl hgot
  · exact .inr (.inl hwaits)

theorem lzdRead_readsLate {s : State} (hs : UnitsLegal s) (heof : s.din.eof = false) : ReadsLate b e (resume .lzdRead) s :=
  conclude_readsLate (fun _ => rfl) (lzdNextByte_takesLate b e hs heof) fun _ t _ => respond_readsLate _ t

theorem rldCount_readsLate (r : Byte) {s : State} (hs : UnitsLegal s) (heof : s.din.eof = false) :
    ReadsLate b e (resume (.rldCount r)) s :=
  conclude_readsLate (fun _ => rfl) (rldSrcByte_takesLate b e hs heof) fun k t _ u hu => by
    obtain rfl := respond_next.mp hu
    exact .inl ⟨rfl, rfl⟩

theorem rldSrcByte_took {s t : State} {a : Byte} (hs : UnitsLegal s) (h : rldSrcByte s = .got a t) : Took s t := by
  rcases rldSrcByte_legal hs with ⟨_, u, hu, htook⟩ | ⟨u, hu | hu, -⟩ | ⟨c, u, hu, -⟩ <;> rw [h] at hu <;> cases hu
  exact htook

theorem rldRepeat_readsLate {s : State} (hs : UnitsLegal s) (heof : s.din.eof = false) : ReadsLate b e (resume .rldRepeat) s :=
  conclude_readsLate (fun _ => rfl) (rldSrcByte_takesLate b e hs heof) fun r _ hgot =>
    have htook := rldSrcByte_took hs hgot
    rldCount_readsLate r htook.core (htook.eof.trans heof)

theorem rldFirst_readsLate {s : State} (hs : UnitsLegal s) (heof : s.din.eof = false) : ReadsLate b e (resume .rldFirst) s := by
  refine conclude_readsLate (fun _ => rfl) (rldSrcByte_takesLate b e hs heof) fun c t hgot => ?_
  have htook := rldSrcByte_took hs hgot
  by_cases hesc : c = t.rld.esc
  · exact (rldRepeat_readsLate htook.core (htook.eof.trans heof)).congr (if_pos hesc) (if_pos hesc)
  · exact (respond_readsLate _ t).congr (if_neg hesc) (if_neg hesc)

/-- A pending repeat is returned whatever DIN holds. -/
theorem rldReplay_readsLate (s : State) :
    ReadsLate b e (fun u => rldRespond u.rld.rb (u.setRld { u.rld with rem := u.rld.rem - 1#9 })) s := by
  intro u hu
  obtain rfl := respond_next.mp hu
  exact .inl ⟨rfl, rfl⟩

theorem rldRd_readsLate {s : State} (hs : UnitsLegal s) (heof : s.din.eof = false) : ReadsLate b e (exec .rldRd) s := by
  by_cases hflt : s.rld.flt = 0#6
  · by_cases hrem : s.rld.rem = 0#9
    · exact (rldFirst_readsLate hs heof).congr (exec_rldRd_of_first hflt hrem) (exec_rldRd_of_first (s := withMore b e s) hflt hrem)
    · have hreplay : ∀ u : State, u.rld = s.rld →
          exec .rldRd u = rldRespond u.rld.rb (u.setRld { u.rld with rem := u.rld.rem - 1#9 }) := fun u hu =>
        (unlessLatched_of_clear (u := .rld) _ (by rw [← hu] at hflt; exact hflt)).trans (if_neg (by rwa [hu]))
      exact (rldReplay_readsLate s).congr (hreplay s rfl) (hreplay (withMore b e s) rfl)
  · exact (respond_readsLate (.failed s.rld.flt) s).congr (unlessLatched_of_ne (u := .rld) _ hflt)
      (unlessLatched_of_ne (u := .rld) (s := withMore b e s) _ hflt)

/-- The three reads, from a legal state between commands. -/
theorem exec_readsLate {i : Instr} (hi : i = .buRd ∨ i = .lzdRd ∨ i = .rldRd) {s : State} (hs : UnitsLegal s)
    (heof : s.din.eof = false) : ReadsLate b e (exec i) s := by
  rcases hi with rfl | rfl | rfl
  · exact buRead_readsLate hs heof
  · exact lzdRead_readsLate hs heof
  · exact rldRd_readsLate hs heof

end

/-- Settles O13: a read takes what is there, and a hold keeps all it has taken. -/
theorem lateInputChangesNothing : Obligations.LateInputChangesNothing := by
  intro i s u a b e hi hs hu
  rcases exec_readsLate (b := b) (e := e) hi hs.1 rfl u hu with ⟨hidle, hmore⟩ | ⟨h, hhold, hempty, hmore⟩
  · exact .inl ⟨hidle, hmore⟩
  · refine .inr ⟨h, hhold, hempty, ?_⟩
    rw [withMore_of_empty hempty] at hmore
    exact hmore

end Sys2Proof.Machine

/-! PROOFS. The steps of a command come to the command, and steps of a host that sends commands and takes responses come to the commands
one after another (20_memory.md R36, R39; 40_control.md R65; 60_exceptions.md R117). -/

namespace Sys2Proof.Machine

/-! ## A read holds only while no end of source is signalled -/

/-- The operation, from `s`, waits only where no end of source is signalled. -/
def waitsOpen {α : Type} (x : Supply α) : Prop := ∀ t, x = .waits t → t.din.eof = false

theorem dinPull_waitsOpen (s : State) : waitsOpen (dinPull s) := by
  intro t ht
  rcases dinPull_cases s with ⟨_, _, _, hp⟩ | ⟨_, _, hp⟩ | ⟨_, heof, hp⟩ <;> rw [hp] at ht <;> cases ht
  exact heof

theorem buRead_waitsOpen {s : State} (hl : s.bu.legal) : waitsOpen (buRead s) := by
  intro t ht
  rcases buRead_cases hl with ⟨-, _, _, hr, -⟩ | ⟨-, u, hfilled, -, -, -, ⟨-, hr⟩ | ⟨heof, hr⟩⟩ <;> rw [hr] at ht <;> cases ht
  exact hfilled.eof.trans heof

theorem lzdStep_waitsOpen {s : State} (hl : s.bu.legal) : waitsOpen (lzdStep s) := by
  intro t ht
  obtain ⟨-, -, -, ⟨c, u, -, -, -, hstep⟩ | ⟨u, -, -, -, -, ⟨-, hstep⟩ | ⟨heof, hstep⟩⟩⟩ := lzdStep_cases hl <;> rw [hstep] at ht
  · exact absurd ht ((lzdCode_takesNone c u).2 t)
  · cases ht
  · cases ht
    exact heof

theorem lzdNextByte_waitsOpen {s : State} (hl : s.bu.legal) : waitsOpen (lzdNextByte s) := by
  intro t ht
  unfold lzdNextByte at ht
  split at ht
  · cases ht
  split at ht
  · cases hstep : lzdStep s with
    | got a u => exact absurd (by rwa [hstep] at ht) ((lzdPop_takesNone u).2 t)
    | waits u =>
      rw [hstep] at ht
      cases ht
      exact lzdStep_waitsOpen hl _ hstep
    | _ => rw [hstep] at ht; cases ht
  · exact absurd ht ((lzdPop_takesNone s).2 t)

theorem rldSrcByte_waitsOpen {s : State} (hl : s.bu.legal) : waitsOpen (rldSrcByte s) := by
  cases hsrc : s.rld.src with
  | din => exact rldSrcByte_din hsrc ▸ dinPull_waitsOpen s
  | lzd => exact rldSrcByte_lzd hsrc ▸ lzdNextByte_waitsOpen hl

/-- A command, or what follows a hold, holds only where no end of source is signalled. -/
def holdsOpen (r : Result) : Prop := ∀ u h, r = .next u → u.seq = .holding h → u.din.eof = false

theorem respond_holdsOpen (r : Response) (s : State) : holdsOpen (respond r s) := by
  rintro u h hu hseq
  rw [respond_next.mp hu] at hseq
  cases hseq

theorem conclude_holdsOpen {α : Type} {x : Supply α} {hd : Hold} {atEnd : State → Result} {k : α → State → Result}
    (hx : waitsOpen x) (hend : ∀ t, holdsOpen (atEnd t)) (hk : ∀ a t, x = .got a t → holdsOpen (k a t)) :
    holdsOpen (x.conclude hd atEnd k) := by
  intro u h hu hseq
  rcases conclude_next hu with ⟨a, t, hgot, ht⟩ | ⟨t, -, ht⟩ | ⟨t, hwaits, rfl⟩ | ⟨c, t, -, rfl⟩
  · exact hk a t hgot u h ht hseq
  · exact hend t u h ht hseq
  · exact hx t hwaits
  · cases hseq

section
variable {s : State} (hs : UnitsLegal s)
include hs

theorem rldCount_holdsOpen (r : Byte) : holdsOpen (rldCountRest r s) :=
  conclude_holdsOpen (rldSrcByte_waitsOpen hs.bu) (fun _ => respond_holdsOpen _ _) fun _ _ _ => respond_holdsOpen _ _

theorem rldRepeat_holdsOpen : holdsOpen (rldRepeatRest s) :=
  conclude_holdsOpen (rldSrcByte_waitsOpen hs.bu) (fun _ => respond_holdsOpen _ _) fun r _ hgot =>
    rldCount_holdsOpen (rldSrcByte_took hs hgot).core r

theorem rldFirst_holdsOpen : holdsOpen (rldFirstRest s) := by
  refine conclude_holdsOpen (rldSrcByte_waitsOpen hs.bu) (fun _ => respond_holdsOpen _ _) fun c t hgot => ?_
  split
  · exact rldRepeat_holdsOpen (rldSrcByte_took hs hgot).core
  · exact respond_holdsOpen _ _

theorem resume_holdsOpen {h : Hold} (hh : pushesAt h = false) : holdsOpen (resume h s) := by
  cases h with
  | buRead => exact conclude_holdsOpen (buRead_waitsOpen hs.bu) (fun _ => respond_holdsOpen _ _) fun _ _ _ => respond_holdsOpen _ _
  | lzdRead =>
    exact conclude_holdsOpen (lzdNextByte_waitsOpen hs.bu) (fun _ => respond_holdsOpen _ _) fun _ _ _ => respond_holdsOpen _ _
  | rldFirst => exact rldFirst_holdsOpen hs
  | rldRepeat => exact rldRepeat_holdsOpen hs
  | rldCount r => exact rldCount_holdsOpen hs r
  | _ => cases hh

theorem exec_holdsOpen {i : Instr} (hi : pushes i = false) (htransfers : transfers i = true) : holdsOpen (exec i s) := by
  cases i with
  | buRd => exact resume_holdsOpen hs (h := .buRead) rfl
  | lzdRd => exact resume_holdsOpen hs (h := .lzdRead) rfl
  | rldRd =>
    show holdsOpen (unlessLatched .rld s _)
    unfold unlessLatched
    split
    · exact respond_holdsOpen _ _
    split
    · exact rldFirst_holdsOpen hs
    · exact respond_holdsOpen _ _
  | bpWr _ | bpClose | lzeWr _ | lzeClr | lzeFlush | rleWr _ | rleFlush | rleEsc _ => cases hi
  | _ => cases htransfers

theorem resume_readsLate {h : Hold} (hh : pushesAt h = false) {b : List Byte} {e : Bool} (heof : s.din.eof = false) :
    ReadsLate b e (resume h) s := by
  cases h with
  | buRead => exact buRead_readsLate hs heof
  | lzdRead => exact lzdRead_readsLate hs heof
  | rldFirst => exact rldFirst_readsLate hs heof
  | rldRepeat => exact rldRepeat_readsLate hs heof
  | rldCount r => exact rldCount_readsLate r hs heof
  | _ => cases hh

end

/-! ## Commands that read and commands that push -/

/-- A command (or what follows a hold) that pulls DIN bytes and pushes none. -/
structure Reads (c : State → Result) : Prop where
  late : ∀ s b e, UnitsLegal s → s.din.eof = false → ReadsLate b e c s
  opened : ∀ s, UnitsLegal s → holdsOpen (c s)
  ready : ∀ r s, c (accepting r s) = mapNext (accepting r) (c s)
  env : ∀ s t, c s = .next t → t.env = s.env
  eof : ∀ s t, c s = .next t → t.din.eof = s.din.eof

/-- A command (or what follows a hold) that pushes DOUT bytes and pulls none. -/
structure Pushes (c : State → Result) : Prop where
  late : ∀ s, LateAt c s
  din : ∀ d s, c (s.setDin d) = mapNext (fun t => t.setDin d) (c s)

theorem resume_env_of_not_pushes {h : Hold} (hh : pushesAt h = false) {s t : State} (hx : resume h s = .next t) : t.env = s.env := by
  cases h with
  | buRead => rw [(execBuRd_lzdRead hx).frame]; rfl
  | lzdRead => rw [(execLzdRd_read hx).frame]; rfl
  | rldFirst => exact (rldFirstRest_read hx).elsewhere.env
  | rldRepeat => exact (rldRepeatRest_read hx).elsewhere.env
  | rldCount r => exact (rldCountRest_read hx).elsewhere.env
  | _ => cases hh

theorem resume_reads {h : Hold} (hh : pushesAt h = false) : Reads (resume h) :=
  ⟨fun _ _ _ hs => resume_readsLate hs hh, fun _ hs => resume_holdsOpen hs hh,
    fun r => resume_map_of_not_pushes (sparesUnits_accepting r) hh, fun _ _ => resume_env_of_not_pushes hh,
    fun _ _ hx => (resume_portsUsed hx).eof⟩

theorem exec_reads {i : Instr} (hi : pushes i = false) (htransfers : transfers i = true) : Reads (exec i) := by
  have hread : i = .buRd ∨ i = .lzdRd ∨ i = .rldRd := by cases i <;> simp [pushes, transfers] at hi htransfers ⊢
  refine ⟨fun _ _ _ hs => exec_readsLate hread hs, fun _ hs => exec_holdsOpen hs hi htransfers,
    fun r => exec_map_of_not_pushes (sparesUnits_accepting r) hi, fun _ _ => exec_env_of_not_pushes hi, fun _ _ hx => ?_⟩
  exact (exec_portsUsed (by rintro rfl; cases htransfers) hx).eof

theorem sparesPush_setDin (d : Din) : SparesPush fun s => s.setDin d := ⟨fun _ => rfl, fun _ _ _ => rfl⟩

theorem resume_pushes {h : Hold} (hh : pushesAt h = true) : Pushes (resume h) :=
  ⟨lateAt_resume hh, fun d => resume_map_of_pushes (sparesOutput_setDin d) (sparesPush_setDin d) hh⟩

theorem exec_pushes {i : Instr} (hi : pushes i = true) : Pushes (exec i) :=
  ⟨lateAt_exec hi, fun d => exec_map_of_pushes (sparesOutput_setDin d) (sparesPush_setDin d) hi⟩

theorem resume_reads_or_pushes (h : Hold) : Reads (resume h) ∨ Pushes (resume h) := by
  cases hh : pushesAt h with
  | false => exact .inl (resume_reads hh)
  | true => exact .inr (resume_pushes hh)

theorem exec_reads_or_pushes {i : Instr} (htransfers : transfers i = true) : Reads (exec i) ∨ Pushes (exec i) := by
  cases hi : pushes i with
  | false => exact .inl (exec_reads hi htransfers)
  | true => exact .inr (exec_pushes hi)

/-! ## One transfer -/

/-- The command answers whatever the host has put on its ports. -/
def answersAt (c : State → Result) (s : State) : Prop :=
  ∀ d r, d.fifo.length ≤ s.din.fifo.length → ∃ t, c (accepting r (s.setDin d)) = .next t

/-- The command comes to `t` with one transfer at most; or one transfer leaves a hold, one byte nearer to `t`, and going on from there it
comes to `t`. -/
def oneByteNearer (c : State → Result) (s t : State) : Prop :=
  oneTransfer c s = .next t ∨
  ∃ u h, oneTransfer c s = .next u ∧ u.seq = .holding h ∧ resume h u = .next t ∧
    ((u.din.fifo.length + 1 = s.din.fifo.length ∧ u.env.dout = s.env.dout) ∨
     (u.din.fifo.length = s.din.fifo.length ∧ u.env.dout.length = s.env.dout.length + 1))

section
variable {c : State → Result} {s t : State}

/-- A command that pushes takes its step with one byte accepted, whatever stands in DIN. -/
theorem oneTransfer_of_pushes (hc : Pushes c) {u : State} (h : c (accepting s.env.ready.one s) = .next u) :
    oneTransfer c s = .next (accepting (s.env.ready.putBack u.env.ready) u) ∧ u.din = s.din := by
  have hdin : u = u.setDin s.din := by
    have hsame := hc.din s.din (accepting s.env.ready.one s)
    rw [h] at hsame
    exact Host.Outcome.next.inj (h.symm.trans hsame)
  refine ⟨oneTransfer_next.mpr ⟨_, (hc.din (onePort s).din (accepting s.env.ready.one s)).trans (congrArg (mapNext _) h), ?_⟩,
    by rw [hdin]; rfl⟩
  have hwhole : s.din.fifo.take 1 ++ s.din.fifo.drop 1 = s.din.fifo := List.take_append_drop 1 _
  show accepting _ u = (u.setDin { fifo := s.din.fifo.take 1 ++ s.din.fifo.drop 1, eof := s.din.eof }).setEnv _
  rw [hwhole]
  show accepting _ u = accepting _ (u.setDin s.din)
  rw [← hdin]
  rfl

theorem Ready.putBack_of_ne_zero {r : Ready} (h : r ≠ .count 0) :
    r.one = .count 1 ∧ (∀ k ≤ 1, r.putBack (.count (1 - k)) = r.after k) ∧ (r.putBack (.count 0)).plus 1 = r := by
  cases r with
  | always => exact ⟨rfl, fun _ _ => rfl, rfl⟩
  | count n =>
    have hn : n ≠ 0 := fun hn => h (hn ▸ rfl)
    refine ⟨congrArg Ready.count (by omega), fun k hk => congrArg Ready.count (by omega), congrArg Ready.count (by omega)⟩

theorem Pushes.oneByteNearer (hc : Pushes c) (hanswers : answersAt c s) (ht : c s = .next t) : oneByteNearer c s t := by
  obtain ⟨t0, ht0⟩ : ∃ t0, c (accepting .always s) = .next t0 := hanswers s.din .always le_rfl
  obtain ⟨total, -, -, henough, hshort⟩ := hc.late s t0 ht0
  by_cases hzero : s.env.ready = .count 0
  · have hone : accepting s.env.ready.one s = s := by rw [Ready.one_eq_zero.mpr hzero, ← hzero]; rfl
    have hready : t.env.ready = .count 0 := by
      by_cases htotal : total = 0
      · have hend := henough s.env.ready (by rw [htotal, hzero]; exact Nat.zero_le _)
        obtain rfl := Host.Outcome.next.inj (ht.symm.trans hend)
        show s.env.ready.after total = _
        rw [hzero, htotal]
        rfl
      · obtain ⟨u, -, hu, -, hready, -⟩ := hshort 0 (Nat.pos_of_ne_zero htotal)
        rw [← hzero] at hu
        obtain rfl := Host.Outcome.next.inj (ht.symm.trans hu)
        exact hready
    obtain ⟨hstep, -⟩ := oneTransfer_of_pushes hc (hone.symm ▸ ht)
    refine .inl (hstep.trans (congrArg Host.Outcome.next ?_))
    rw [hzero, hready]
    show accepting (.count 0) t = t
    rw [← hready]
    rfl
  · obtain ⟨hone, hback, hplus⟩ := Ready.putBack_of_ne_zero hzero
    by_cases htotal : total ≤ 1
    · have hstep := henough (.count 1) htotal
      rw [← hone] at hstep
      obtain ⟨hstep, -⟩ := oneTransfer_of_pushes hc hstep
      have hacc : accepts total (accepting s.env.ready s) := by
        cases hr : s.env.ready with
        | always => trivial
        | count n =>
          show total ≤ n
          have hn : n ≠ 0 := fun hn => hzero (hn ▸ hr)
          omega
      obtain rfl := Host.Outcome.next.inj (ht.symm.trans (henough s.env.ready hacc))
      refine .inl (hstep.trans ?_)
      show Host.Outcome.next (accepting (s.env.ready.putBack (s.env.ready.one.after total)) t0) = _
      rw [hone]
      exact congrArg (fun r => Host.Outcome.next (accepting r t0)) (hback total htotal)
    · obtain ⟨u, h, hu, hseq, hready, hdout, hresume⟩ := hshort 1 (by omega)
      rw [← hone] at hu
      obtain ⟨hstep, hdin⟩ := oneTransfer_of_pushes hc hu
      refine .inr ⟨_, h, hstep, hseq, ?_, .inr ⟨congrArg (fun d => d.fifo.length) hdin, hdout⟩⟩
      rw [hready, hresume, hplus]
      exact ht

/-- What a read leaves of the first byte, with the bytes behind put back. -/
theorem putBack_of_env {u : State} (henv : u.env = s.env) :
    putBack s (accepting s.env.ready.one u) = withMore (s.din.fifo.drop 1) s.din.eof u := by
  have hready : s.env.ready.putBack s.env.ready.one = s.env.ready := Ready.putBack_one _
  show (withMore (s.din.fifo.drop 1) s.din.eof u).setEnv { u.env with ready := s.env.ready.putBack s.env.ready.one } = _
  rw [hready, ← henv]
  rfl

/-- With one byte in DIN at most, a read takes its step with all there is. -/
theorem Reads.oneTransfer_of_short (hc : Reads c) (hshort : s.din.fifo.length ≤ 1) (ht : c s = .next t) :
    oneTransfer c s = .next t := by
  have hport : onePort s = accepting s.env.ready.one s := by
    show (s.setDin { fifo := s.din.fifo.take 1, eof := s.din.eof && s.din.fifo.length ≤ 1 }).setEnv _ = _
    rw [List.take_of_length_le hshort, decide_eq_true hshort, Bool.and_true]
    rfl
  refine oneTransfer_next.mpr ⟨accepting s.env.ready.one t, by rw [hport, hc.ready, ht]; rfl, ?_⟩
  rw [putBack_of_env (hc.env s t ht), List.drop_of_length_le hshort, withMore_nil, ← hc.eof s t ht]
  rfl

theorem Reads.oneByteNearer (hc : Reads c) (hs : UnitsLegal s) (hanswers : answersAt c s) (ht : c s = .next t) :
    oneByteNearer c s t := by
  match hfifo : s.din.fifo with
  | [] | [_] => exact .inl (hc.oneTransfer_of_short (by rw [hfifo]; simp) ht)
  | x :: y :: rest =>
    set s' := s.setDin { fifo := [x], eof := false } with hs'
    have hmore : withMore (y :: rest) s.din.eof s' = s := by
      show s.setDin { fifo := x :: y :: rest, eof := s.din.eof } = s
      rw [← hfifo]
      rfl
    have hport : onePort s = accepting s.env.ready.one s' := by
      show (s.setDin { fifo := s.din.fifo.take 1, eof := s.din.eof && s.din.fifo.length ≤ 1 }).setEnv _ = _
      rw [hfifo, decide_eq_false (by simp), Bool.and_false]
      rfl
    obtain ⟨u, hu⟩ : ∃ u, c s' = .next u := hanswers { fifo := [x], eof := false } s.env.ready (by rw [hfifo]; simp)
    have henv : u.env = s.env := hc.env s' u hu
    have hlegal : UnitsLegal s' := ⟨hs.cfg, hs.bu, hs.lzd, hs.lze, hs.rld, by
      have hdepth := hs.din
      rw [hfifo] at hdepth
      exact le_trans (by rw [List.length_cons]; exact Nat.le_add_left 1 _) hdepth⟩
    have hstep : oneTransfer c s = .next (withMore (y :: rest) s.din.eof u) := by
      refine oneTransfer_next.mpr ⟨accepting s.env.ready.one u, by rw [hport, hc.ready, hu]; rfl, ?_⟩
      rw [putBack_of_env henv, hfifo]
      rfl
    rcases hc.late s' (y :: rest) s.din.eof hlegal rfl u hu with ⟨-, hwhole⟩ | ⟨h, hseq, hempty, hresume⟩
    · rw [hmore, ht] at hwhole
      exact .inl (hstep.trans hwhole.symm)
    · rw [hmore, ht] at hresume
      refine .inr ⟨_, h, hstep, hseq, hresume, .inl ⟨?_, congrArg HostSide.dout henv⟩⟩
      show (u.din.fifo ++ y :: rest).length + 1 = _
      rw [hempty, hfifo]
      rfl

/-- A command that answers with a hold comes to the same hold again. -/
theorem resume_of_hold (hc : Reads c ∨ Pushes c) (hs : UnitsLegal s) (hanswers : answersAt c s) (ht : c s = .next t) {h : Hold}
    (hseq : t.seq = .holding h) : resume h t = .next t := by
  rcases hc with hc | hc
  · have heof : t.din.eof = false := hc.opened s hs t h ht hseq
    have hself : ∀ u : State, u.din.eof = false → withMore [] false u = u := fun u hu => by
      rw [withMore_nil, ← hu]
      rfl
    have heof' : s.din.eof = false := (hc.eof s t ht).symm.trans heof
    rcases hc.late s [] false hs heof' t ht with ⟨hidle, -⟩ | ⟨h', hseq', -, hresume⟩
    · rw [hseq] at hidle
      cases hidle
    · obtain rfl := Sequencer.holding.inj (hseq.symm.trans hseq')
      rwa [hself t heof, hself s heof', ht] at hresume
  · obtain ⟨t0, ht0⟩ : ∃ t0, c (accepting .always s) = .next t0 := hanswers s.din .always le_rfl
    obtain ⟨total, hends, -, henough, hshort⟩ := hc.late s t0 ht0
    have hnot : ¬ accepts total (accepting s.env.ready s) := fun hacc => by
      obtain rfl := Host.Outcome.next.inj (ht.symm.trans (henough s.env.ready hacc))
      rw [show (accepting (s.env.ready.after total) t0).seq = .idle from hends] at hseq
      cases hseq
    cases hr : s.env.ready with
    | always => exact absurd (by rw [hr]; trivial) hnot
    | count n =>
      rw [hr] at hnot
      obtain ⟨u, h', hu, hseq', hready, -, hresume⟩ := hshort n (Nat.lt_of_not_le hnot)
      rw [← hr] at hu
      obtain rfl := Host.Outcome.next.inj (ht.symm.trans hu)
      obtain rfl := Sequencer.holding.inj (hseq.symm.trans hseq')
      have hzero := hresume (.count 0)
      rw [show accepting (.count 0) t = t by rw [← hready]; rfl] at hzero
      refine hzero.trans ?_
      show c (accepting (.count (n + 0)) s) = _
      rw [Nat.add_zero, ← hr]
      exact ht

theorem oneByteNearer_of_answers (hc : Reads c ∨ Pushes c) (hs : UnitsLegal s) (hanswers : answersAt c s) (ht : c s = .next t) :
    oneByteNearer c s t := by
  rcases hc with hc | hc
  · exact hc.oneByteNearer hs hanswers ht
  · exact hc.oneByteNearer hanswers ht

end

/-! ## The steps of a command -/

theorem core_run_succ (M : Host.Core) {n : Nat} {s t : M.State} (h : M.step s = .next t) : M.run (n + 1) s = M.run n t := by
  rw [Host.Core.run, h]

/-- Steps after steps. -/
theorem core_run_add (M : Host.Core) {n m : Nat} {s t : M.State} (h : M.run n s = .next t) : M.run (n + m) s = M.run m t := by
  induction n generalizing s with
  | zero =>
    obtain rfl := Host.Outcome.next.inj h
    rw [Nat.zero_add]
  | succ n ih =>
    rw [Nat.succ_add]
    cases hstep : M.step s with
    | next u =>
      rw [core_run_succ M hstep] at h ⊢
      exact ih h
    | _ =>
      rw [Host.Core.run, hstep] at h
      cases h

theorem run_succ {n : Nat} {s t : State} (h : step s = .next t) :
    Host.Core.run Sys2Proof.core (n + 1) s = Host.Core.run Sys2Proof.core n t := core_run_succ Sys2Proof.core h

theorem run_add {n m : Nat} {s t : State} (h : Host.Core.run Sys2Proof.core n s = .next t) :
    Host.Core.run Sys2Proof.core (n + m) s = Host.Core.run Sys2Proof.core m t := core_run_add Sys2Proof.core h

theorem run_stays {s : State} (h : step s = .next s) (n : Nat) : Host.Core.run Sys2Proof.core n s = .next s := by
  induction n with
  | zero => rfl
  | succ n ih => rw [run_succ h, ih]

/-- The host lets the block move: it plans nothing, or to take a response. -/
def hostWaits (s : State) : Prop := s.env.agenda = [] ∨ ∃ rest, s.env.agenda = .take :: rest

theorem step_of_hostWaits {s : State} (h : hostWaits s) (hr : s.rsp = none) : step s = blockTurn s := by
  refine step_of_no_turn (h.imp id ?_)
  rintro ⟨rest, ha⟩
  exact ⟨.take, rest, ha, by rw [hostEnabled, hr]; rfl⟩

theorem PortsUsed.agenda {s t : State} (h : PortsUsed s t) : t.env.agenda = s.env.agenda := by
  rcases h.ports with ⟨-, bytes, -, henv⟩ | ⟨henv, -⟩
  · rw [henv]
    rfl
  · rw [henv]

theorem PortsUsed.dout_length_le {s t : State} (h : PortsUsed s t) : s.env.dout.length ≤ t.env.dout.length := by
  rcases h.ports with ⟨-, bytes, -, henv⟩ | ⟨henv, -⟩
  · rw [henv, handedOver_dout, List.length_append]
    omega
  · rw [henv]

/-- Where a hold stands, the command answers whatever the host puts on its ports. -/
theorem answersAt_resume {h : Hold} {s : State} (hu : UnitsLegal s) (hh : heldLegal h s) (hr : s.rsp = none) :
    answersAt (resume h) s := by
  intro d r hd
  have hh' : heldLegal h (accepting r (s.setDin d)) := by cases h <;> exact hh
  obtain ⟨t, ht, -⟩ := resume_legal (s := accepting r (s.setDin d))
    ⟨hu.cfg, hu.bu, hu.lzd, hu.lze, hu.rld, le_trans hd hu.din⟩ hh' hr
  exact ⟨t, ht⟩

theorem answersAt_exec {s : State} (hs : s.settled) (hr : s.rsp = none) (i : Instr) : answersAt (exec i) s := by
  intro d r hd
  obtain ⟨hu, hq⟩ := hs
  have hlegal : (accepting r (s.setDin d)).settled := ⟨⟨hu.cfg, hu.bu, hu.lzd, hu.lze, hu.rld, le_trans hd hu.din⟩, hq⟩
  obtain ⟨t, ht, -⟩ := exec_legal hlegal hr i
  exact ⟨t, ht⟩

/-- From a hold, the steps come to what going on comes to, one for each byte and one more at most. -/
theorem run_of_holding {s t : State} {h : Hold} (hl : s.legal) (hseq : s.seq = .holding h) (hw : hostWaits s)
    (ht : resume h s = .next t) :
    ∃ k, k ≤ 1 + (s.din.fifo.length - t.din.fifo.length) + (t.env.dout.length - s.env.dout.length) ∧
      Host.Core.run Sys2Proof.core k s = .next t := by
  induction hn : s.din.fifo.length + (t.env.dout.length - s.env.dout.length) using Nat.strongRecOn generalizing s h with
  | _ n ih =>
    obtain ⟨hheld, hr⟩ : heldLegal h s ∧ s.rsp = none := by
      have hlegal := hl.seq
      unfold seqLegal at hlegal
      rwa [hseq] at hlegal
    have hstep : step s = oneTransfer (resume h) s := (step_of_hostWaits hw hr).trans (blockTurn_of_holding hseq)
    rcases oneByteNearer_of_answers (resume_reads_or_pushes h) hl.units (answersAt_resume hl.units hheld hr) ht with
      hdone | ⟨u, h', hu, hseq', hresume, hbyte⟩
    · exact ⟨1, by omega, run_succ (hstep.trans hdone)⟩
    · have hstepu := hstep.trans hu
      have hused := resume_portsUsed hresume
      have hagenda : u.env.agenda = s.env.agenda := by
        obtain ⟨v, hv, rfl⟩ := oneTransfer_next.mp hu
        exact (resume_portsUsed hv).agenda
      have hfifo := hused.fifo_length_le
      have hdout := hused.dout_length_le
      have hbytes : u.din.fifo.length + (t.env.dout.length - u.env.dout.length) < n := by
        rcases hbyte with ⟨hin, hout⟩ | ⟨hin, hout⟩
        · rw [hout]; omega
        · omega
      obtain ⟨k, hk, hrun⟩ := ih _ hbytes (stepKeepsTheStateLegal s u hl hstepu) hseq' (by rwa [hostWaits, hagenda]) hresume rfl
      refine ⟨k + 1, ?_, (run_succ hstepu).trans hrun⟩
      rcases hbyte with ⟨hin, hout⟩ | ⟨hin, hout⟩
      · rw [hout] at hk; omega
      · omega

/-- From its word's arrival, the steps of a command come to the command. -/
theorem run_of_arrived {i : Instr} {s t : State} (hs : s.settled) (hr : s.rsp = none) (hw : hostWaits s) (ht : exec i s = .next t) :
    ∃ k, k ≤ 1 + (s.din.fifo.length - t.din.fifo.length) + (t.env.dout.length - s.env.dout.length) ∧
      Host.Core.run Sys2Proof.core k (s.setSeq (.arrived (encode i))) = .next t := by
  have hdecode := encodeThenDecodeGivesTheCommand i
  have hstep : step (s.setSeq (.arrived (encode i))) = if transfers i then oneTransfer (exec i) s else exec i s := by
    rw [step_of_hostWaits (s := s.setSeq (.arrived (encode i))) hw hr, blockTurn_of_command rfl hdecode, exec_setSeq]
    have hone : oneTransfer (exec i) (s.setSeq (.arrived (encode i))) = oneTransfer (exec i) s := by
      unfold oneTransfer
      rw [show onePort (s.setSeq (.arrived (encode i))) = (onePort s).setSeq (.arrived (encode i)) from rfl, exec_setSeq]
      rfl
    rw [hone]
  cases htransfers : transfers i with
  | false =>
    rw [htransfers, if_neg Bool.false_ne_true] at hstep
    exact ⟨1, by omega, run_succ (hstep.trans ht)⟩
  | true =>
    rw [htransfers, if_pos rfl] at hstep
    rcases oneByteNearer_of_answers (exec_reads_or_pushes htransfers) hs.1 (answersAt_exec hs hr i) ht with
      hdone | ⟨u, h, hu, hseq, hresume, hbyte⟩
    · exact ⟨1, by omega, run_succ (hstep.trans hdone)⟩
    · have hne : i ≠ .reset := by
        rintro rfl
        cases htransfers
      have hlegal : u.legal := by
        obtain ⟨v, hv, hlegal⟩ := oneTransfer_legal hs.1 (exec_legal (onePort_settled hs) hr i) fun _ => exec_portsUsed hne
        rw [hu] at hv
        cases hv
        exact hlegal
      have hagenda : u.env.agenda = s.env.agenda := by
        obtain ⟨v, hv, rfl⟩ := oneTransfer_next.mp hu
        exact (exec_portsUsed hne hv).agenda
      have hused := resume_portsUsed hresume
      have hfifo := hused.fifo_length_le
      have hdout := hused.dout_length_le
      obtain ⟨k, hk, hrun⟩ := run_of_holding hlegal hseq (by rwa [hostWaits, hagenda]) hresume
      refine ⟨k + 1, ?_, (run_succ (hstep.trans hu)).trans hrun⟩
      rcases hbyte with ⟨hin, hout⟩ | ⟨hin, hout⟩
      · rw [hout] at hk; omega
      · omega

/-- Where a command has come to, the block stays while the host plans nothing. -/
theorem step_of_exec {i : Instr} {s t : State} (hs : s.settled) (hr : s.rsp = none) (ha : t.env.agenda = [])
    (ht : exec i s = .next t) : step t = .next t := by
  rw [step_of_no_turn (.inl ha)]
  rcases commandsHaveFiveOutcomes i s t hs ht with ⟨h, hseq, hrsp⟩ | ⟨hidle, -⟩
  · have htransfers : transfers i = true := by
      by_contra hnot
      rw [(exec_of_not_transfers (Bool.eq_false_iff.mpr hnot) ht).1] at hseq
      cases hseq
    have hlegal : t.legal := by
      obtain ⟨v, hv, hlegal⟩ := exec_legal hs hr i
      rw [ht] at hv
      cases hv
      exact hlegal
    have hheld : heldLegal h t := by
      have hl := hlegal.seq
      unfold seqLegal at hl
      rw [hseq] at hl
      exact hl.1
    have hresume := resume_of_hold (exec_reads_or_pushes htransfers) hs.1 (answersAt_exec hs hr i) ht hseq
    rw [blockTurn_of_holding hseq]
    rcases oneByteNearer_of_answers (resume_reads_or_pushes h) hlegal.units
      (answersAt_resume hlegal.units hheld (hrsp.trans hr)) hresume with hdone | ⟨u, h', hu, -, hback, hbyte⟩
    · exact hdone
    · have hfifo := (resume_portsUsed hback).fifo_length_le
      have hdout := (resume_portsUsed hback).dout_length_le
      rcases hbyte with ⟨hin, -⟩ | ⟨-, hout⟩ <;> omega
  · exact blockTurn_of_idle hidle

/-! ## A host that sends commands and takes their responses -/

theorem runCommands_next {i : Instr} {rest : List Instr} {s u : State} {rs : List Word}
    (h : runCommands (i :: rest) s = some (rs, u)) :
    ∃ t r rs', exec i s = .next t ∧ t.seq = .idle ∧ t.rsp = some r ∧ runCommands rest (t.setRsp none) = some (rs', u) ∧
      rs = r :: rs' := by
  rw [runCommands] at h
  split at h
  · rename_i t ht
    split at h
    · rename_i r hseq hrsp
      obtain ⟨⟨rs', v⟩, hrest, heq⟩ := Option.map_eq_some_iff.mp h
      cases heq
      exact ⟨t, r, rs', ht, hseq, hrsp, hrest, rfl⟩
    · cases h
  · cases h

/-- The host's plan: each command sent, and its response taken. -/
def plan (is : List Instr) : List HostTurn := is.flatMap fun i => [.send (encode i), .take]

theorem plan_cons (i : Instr) (is : List Instr) : plan (i :: is) = .send (encode i) :: .take :: plan is := rfl

/-- From a legal idle state, a host that carries out its plan comes to where the commands one after another come to. -/
theorem run_of_plan {is : List Instr} {s t : State} {rs : List Word} (l : List Word) (hl : s.legal) (hidle : s.seq = .idle)
    (hr : s.rsp = none) (h : runCommands is s = some (rs, t)) :
    t.seq = .idle ∧ s.env.dout.length ≤ t.env.dout.length ∧
    ∃ k, k ≤ 3 * is.length + s.din.fifo.length + (t.env.dout.length - s.env.dout.length) ∧
      Host.Core.run Sys2Proof.core k (withPlan (plan is) l s) = .next (withPlan [] (l ++ rs) t) := by
  induction is generalizing s rs l with
  | nil =>
    cases h
    exact ⟨hidle, le_rfl, 0, Nat.zero_le _, by rw [List.append_nil]; rfl⟩
  | cons i is ih =>
    obtain ⟨u, r, rs', hu, hidle', hrsp, hrest, rfl⟩ := runCommands_next h
    have hsettled : s.settled := by
      have hq := hl.seq
      unfold seqLegal at hq
      rw [hidle] at hq
      exact ⟨hl.units, hq⟩
    have hulegal : (u.setRsp none).legal := by
      obtain ⟨v, hv, hlegal⟩ := exec_legal hsettled hr i
      rw [hu] at hv
      cases hv
      have hq := hlegal.seq
      have hunits := hlegal.units
      refine ⟨⟨hunits.cfg, hunits.bu, hunits.lzd, hunits.lze, hunits.rld, hunits.din⟩, fun _ => nofun, ?_⟩
      unfold seqLegal at hq ⊢
      rw [State.setRsp_seq, hidle']
      rw [hidle'] at hq
      exact hq
    obtain ⟨hend, hdout', k', hk', hrun'⟩ := ih (l ++ [r]) hulegal hidle' rfl hrest
    have hcommand : exec i (withPlan (.take :: plan is) l s) = .next (withPlan (.take :: plan is) l u) := by
      rw [exec_map (sparesUnits_withPlan _ _) (sparesPush_withPlan _ _), hu]
      rfl
    obtain ⟨k, hk, hrun⟩ := run_of_arrived (s := withPlan (.take :: plan is) l s)
      ⟨⟨hsettled.1.cfg, hsettled.1.bu, hsettled.1.lzd, hsettled.1.lze, hsettled.1.rld, hsettled.1.din⟩, hsettled.2⟩ hr
      (.inr ⟨plan is, rfl⟩) hcommand
    have hsend : step (withPlan (plan (i :: is)) l s) = .next ((withPlan (.take :: plan is) l s).setSeq (.arrived (encode i))) := by
      have henabled : hostEnabled (.send (encode i)) (withPlan (plan (i :: is)) l s) = true := by
        show (s.seq == .idle && s.rsp == none) = true
        rw [hidle, hr]
        rfl
      rw [step_of_turn (plan_cons i is) (by simp), if_pos henabled]
      rfl
    have htake : step (withPlan (.take :: plan is) l u) = .next (withPlan (plan is) (l ++ [r]) (u.setRsp none)) := by
      have henabled : hostEnabled .take (withPlan (.take :: plan is) l u) = true := by
        show u.rsp.isSome = true
        rw [hrsp]
        rfl
      rw [step_of_turn rfl (by simp), if_pos henabled]
      show Host.Outcome.next ((withPlan (plan is) (l ++ u.rsp.toList) u).setRsp none) = _
      rw [hrsp]
      rfl
    have hbytes : u.din.fifo.length ≤ s.din.fifo.length ∧ s.env.dout.length ≤ u.env.dout.length := by
      by_cases hreset : i = .reset
      · subst hreset
        obtain rfl := respond_next.mp hu
        rw [applyReset_eq]
        exact ⟨Nat.zero_le _, le_rfl⟩
      · exact ⟨(exec_portsUsed hreset hu).fifo_length_le, (exec_portsUsed hreset hu).dout_length_le⟩
    obtain ⟨hfifo, hdout⟩ := hbytes
    replace hk : k ≤ 1 + (s.din.fifo.length - u.din.fifo.length) + (u.env.dout.length - s.env.dout.length) := hk
    replace hk' : k' ≤ 3 * is.length + u.din.fifo.length + (t.env.dout.length - u.env.dout.length) := hk'
    replace hdout' : u.env.dout.length ≤ t.env.dout.length := hdout'
    refine ⟨hend, hdout.trans hdout', 1 + (k + (1 + k')), ?_, ?_⟩
    · rw [List.length_cons]
      omega
    · rw [Nat.add_comm 1, run_succ hsend, run_add hrun, Nat.add_comm 1, run_succ htake, hrun', List.append_assoc,
        List.singleton_append]

/-- Settles O7: `run_of_arrived` for one command, `run_of_plan` for commands one after another; further steps change nothing. -/
theorem runsOfStepsAreRunsOfCommands : Obligations.RunsOfStepsAreRunsOfCommands := by
  constructor
  · intro i s t n hs hr ha ht hn
    obtain ⟨k, hk, hrun⟩ := run_of_arrived hs hr (.inl ha) ht
    obtain ⟨m, rfl⟩ := Nat.exists_eq_add_of_le (show k ≤ n by omega)
    have hagenda : t.env.agenda = [] := by
      rw [(elementsChangeOnlyUnderTheirCommands i s t ht).2.1, ha]
    exact (run_add hrun).trans (run_stays (step_of_exec hs hr hagenda ht) m)
  · intro is s t rs n hl hidle hr h hn
    obtain ⟨hend, -, k, hk, hrun⟩ := run_of_plan s.env.taken hl hidle hr h
    obtain ⟨m, rfl⟩ := Nat.exists_eq_add_of_le (hk.trans hn)
    refine (run_add hrun).trans (run_stays ?_ m)
    rw [step_of_no_turn (.inl rfl)]
    exact blockTurn_of_idle hend

end Sys2Proof.Machine

/-! PROOFS. The CRC over a sequence (41_crc.md), and the commands that read and write bits (42_bitstream.md sections 1 and 2). -/

namespace Sys2Proof.Machine

/-! ## The CRC -/

/-- Updates with every byte of `x`, then the value. -/
theorem runCommands_crcUpd_crcVal (x : List Byte) (s : State) :
    runCommands (x.map .crcUpd ++ [.crcVal]) s =
      some (x.map (fun _ => 0#32) ++ [0#16 ++ x.foldl crcStep s.crc],
        { s with crc := x.foldl crcStep s.crc, seq := .idle, rsp := none }) := by
  induction x generalizing s with
  | nil =>
    show runCommands [.crcVal] s = _
    rw [runCommands_cons (exec_crcVal s) rfl rfl]
    rfl
  | cons b x ih =>
    show runCommands (.crcUpd b :: (x.map .crcUpd ++ [.crcVal])) s = _
    rw [runCommands_cons (exec_crcUpd b s) rfl rfl, ih]
    rfl

/-- Settles O24: commands one after another are one list of commands, and each update is one step of the fold. -/
theorem crcOfASequenceInPieces : Obligations.CrcOfASequenceInPieces := by
  refine ⟨fun x y s t h => ?_, fun x s => ⟨_, runCommands_crcUpd_crcVal x s, rfl⟩, by decide⟩
  rw [List.map_append, runCommands_append, h]
  rfl

/-! ## Reading bits -/

theorem pulledBytes_le {s : State} (h : s.bu.legal) : pulledBytes s ≤ 3 := by
  have hw := h.1.2
  simp only [wMax] at hw
  unfold pulledBytes
  omega

/-- Settles O28: `buRead_got`, and what `BuTook` says of the bits. -/
theorem buReadReturnsTheNextBits : Obligations.BuReadReturnsTheNextBits := by
  refine ⟨rowMeans_of_decodeFields fun _ => rfl, fun s hl hbits => ?_⟩
  obtain ⟨hread, htook⟩ := buRead_got hl hbits
  refine ⟨?_, pulledBytes_le hl, htook.legal, htook.bits, ?_⟩
  · show (buRead s).conclude .buRead respondEnd respondData = _
    rw [hread]
    rfl
  · rw [htook.value, htook.code, Nat.mul_comm]
    exact Nat.div_add_mod _ _

/-- Settles O29: `buRead_starved`, with no bit lost by `BuFilled`. -/
theorem buReadEndsOrHolds : Obligations.BuReadEndsOrHolds := by
  intro s hl hbits
  obtain ⟨hread, hfilled, hlegal⟩ := buRead_starved hl hbits
  have hexec : exec .buRd s = (buRead s).conclude .buRead respondEnd respondData := rfl
  refine ⟨fun heof => ?_, fun heof => ?_, hlegal, hfilled.bits, hfilled.value⟩ <;> rw [hexec, hread, heof] <;> rfl

/-! ## Writing bits -/

theorem exec_bpWr_of_accepts (v : Code) {s : State} (hl : s.bp.legal 7) (h : accepts (packedBytes s) s) :
    exec (.bpWr v) s = .next { afterWrite v s with seq := .idle, rsp := some 0x00000000#32 } := by
  show (bpDrain (bpPut v s)).andThen (fun _ => .bpWrite) respondOk = _
  rcases bpDrain_bpPut (v := v) hl with ⟨-, hsent⟩ | ⟨j, rest, hready, hj, -⟩
  · rw [hsent]
    exact respondOk_eq _
  · exact absurd ((accepts_iff_of_count hready).mp h) (Nat.not_le.mpr hj)

/-- Settles O30: `exec_bpWr_of_accepts` and `afterWrite_legal`. -/
theorem bpWriteSendsCompleteBytes : Obligations.BpWriteSendsCompleteBytes :=
  ⟨rowMeans_of_decodeFields fun _ => rfl, fun v _ hl h => ⟨exec_bpWr_of_accepts v hl h, afterWrite_legal hl⟩⟩

/-- Settles O31: the other case of `bpDrain_bpPut`. -/
theorem bpWriteHoldsAtAnUnacceptedByte : Obligations.BpWriteHoldsAtAnUnacceptedByte := by
  intro v s n hl hready hn
  show (bpDrain (bpPut v s)).andThen (fun _ => .bpWrite) respondOk = _
  rcases bpDrain_bpPut (v := v) hl with ⟨hacc, -⟩ | ⟨j, rest, hready', -, hwaits⟩
  · exact absurd ((accepts_iff_of_count hready).mp hacc) (Nat.not_le.mpr hn)
  · obtain rfl := Ready.count.inj (hready.symm.trans hready')
    rw [hwaits]
    rfl

end Sys2Proof.Machine

/-! PROOFS. A bit stream as the list of the codes in it (30_encoding.md R49; 42_bitstream.md R82): what the packer has written, what the
unpacker has still to read, and that values packed at any widths are read back. -/

namespace Sys2Proof.Machine

/-! ## Codes as one number -/

/-- The bits of a list of codes, each with its width. -/
def streamBits : List (Nat × Nat) → Nat
  | [] => 0
  | p :: l => p.1 + streamBits l

/-- A list of codes as one number, the first code the least significant. -/
def streamValue : List (Nat × Nat) → Nat
  | [] => 0
  | p :: l => p.2 + 2 ^ p.1 * streamValue l

theorem streamBits_append (l m : List (Nat × Nat)) : streamBits (l ++ m) = streamBits l + streamBits m := by
  induction l with
  | nil => exact (Nat.zero_add _).symm
  | cons p l ih => rw [List.cons_append, streamBits, ih, streamBits, Nat.add_assoc]

theorem streamValue_append (l m : List (Nat × Nat)) : streamValue (l ++ m) = streamValue l + 2 ^ streamBits l * streamValue m := by
  induction l with
  | nil => rw [List.nil_append, streamValue, streamBits, pow_zero, one_mul, zero_add]
  | cons p l ih =>
    rw [List.cons_append, streamValue, ih, streamValue, streamBits, pow_add]
    ring

/-! ## The packer's side -/

/-- The codes `l` have been written: they are in the bytes the host has and in the packer's bits above them. -/
structure Written (l : List (Nat × Nat)) (s : State) : Prop where
  value : bytesValue s.env.dout + 2 ^ (8 * s.env.dout.length) * s.bp.acc.toNat = streamValue l
  bits : 8 * s.env.dout.length + s.bp.cnt.toNat = streamBits l

theorem written_reset (c : Config) : Written [] (freshBlock c) := ⟨rfl, rfl⟩

section
variable {l : List (Nat × Nat)} {s : State}

theorem Written.bpPut (h : Written l s) (hl : s.bp.legal 7) (v : Code) :
    Written (l ++ [(s.bp.width.toNat, v.toNat % 2 ^ s.bp.width.toNat)]) (bpPut v s) := by
  obtain ⟨hcnt, hacc⟩ := bpPut_toNat (v := v) hl
  obtain ⟨hvalue, hbits⟩ := h
  refine ⟨?_, ?_⟩
  · show bytesValue s.env.dout + 2 ^ (8 * s.env.dout.length) * (Machine.bpPut v s).bp.acc.toNat = _
    rw [streamValue_append, ← hvalue, ← hbits, hacc, streamValue, streamValue, pow_add]
    ring
  · show 8 * s.env.dout.length + (Machine.bpPut v s).bp.cnt.toNat = _
    rw [streamBits_append, ← hbits, hcnt, streamBits, streamBits]
    ring

/-- Bytes that leave the packer stay in the stream. -/
theorem Written.bpGone (h : Written l s) {j : Nat} (hj : 8 * j ≤ s.bp.cnt.toNat) : Written l (bpGone j s) := by
  obtain ⟨hvalue, hbits⟩ := h
  have hlen : (s.env.dout ++ lowBytes j s.bp.acc).length = s.env.dout.length + j := by rw [List.length_append, lowBytes_length]
  refine ⟨?_, ?_⟩
  · show bytesValue (s.env.dout ++ lowBytes j s.bp.acc) + 2 ^ (8 * (s.env.dout ++ lowBytes j s.bp.acc).length) *
      (s.bp.acc >>> (8 * j)).toNat = _
    rw [hlen, bytesValue_append, lowBytes_value, BitVec.toNat_ushiftRight, Nat.shiftRight_eq_div_pow, ← hvalue, mul_add, pow_add,
      mul_assoc, add_assoc, ← mul_add, Nat.mod_add_div]
  · rw [bpGone_cnt hj]
    show 8 * (s.env.dout ++ lowBytes j s.bp.acc).length + _ = _
    rw [hlen, ← hbits]
    omega

/-- A value written: its code is the next of the stream. -/
theorem Written.afterWrite (h : Written l s) (hl : s.bp.legal 7) {v : Code} (hv : v.toNat < 2 ^ s.bp.width.toNat) :
    Written (l ++ [(s.bp.width.toNat, v.toNat)]) (afterWrite v s) := by
  have hput := h.bpPut hl v
  rw [Nat.mod_eq_of_lt hv] at hput
  rw [Machine.afterWrite, ← bpGone_bpPut hl le_rfl]
  refine hput.bpGone ?_
  rw [(bpPut_toNat (v := v) hl).1]
  unfold packedBytes
  omega

theorem accepts_of_always (h : s.env.ready = .always) (n : Nat) : accepts n s := by
  unfold accepts
  rw [h]
  trivial

/-- What `BpClose` leaves with the host: the codes, and zero bits up to a whole byte. -/
theorem Written.closed (h : Written l s) (hl : s.bp.legal 7) :
    bytesValue (afterClose s).env.dout = streamValue l ∧ streamBits l ≤ 8 * (afterClose s).env.dout.length ∧
      8 * (afterClose s).env.dout.length < streamBits l + 8 := by
  obtain ⟨hvalue, hbits⟩ := h
  obtain ⟨-, hcnt, hacc⟩ := hl
  show bytesValue (s.env.dout ++ closingBytes s) = _ ∧ _ ≤ 8 * (s.env.dout ++ closingBytes s).length ∧
    8 * (s.env.dout ++ closingBytes s).length < _
  unfold closingBytes
  split
  · rename_i hzero
    rw [hzero, pow_zero, Nat.lt_one_iff] at hacc
    rw [hacc, Nat.mul_zero, Nat.add_zero] at hvalue
    rw [List.append_nil]
    exact ⟨hvalue, by omega, by omega⟩
  · have hbyte : (s.bp.acc.setWidth 8).toNat = s.bp.acc.toNat := by
      rw [BitVec.toNat_setWidth]
      exact Nat.mod_eq_of_lt (lt_of_lt_of_le hacc (Nat.pow_le_pow_right (by decide) (by omega)))
    rw [bytesValue_append, bytesValue, bytesValue, hbyte, List.length_append, List.length_singleton, ← hvalue]
    exact ⟨by ring, by omega, by omega⟩

end

/-! ## The unpacker's side -/

/-- The codes `l` are still to be read, with less than a byte of zero bits behind them. -/
structure Unread (l : List (Nat × Nat)) (s : State) : Prop where
  value : unreadValue s = streamValue l
  low : streamBits l ≤ unreadBits s
  high : unreadBits s < streamBits l + 8

/-- The bytes a packer has closed its stream with, read from reset. -/
theorem Written.unread {l : List (Nat × Nat)} {s : State} (h : Written l s) (hl : s.bp.legal 7) (c : Config) :
    Unread l (freshBlockReading c (afterClose s).env.dout) := by
  obtain ⟨hvalue, hlow, hhigh⟩ := h.closed hl
  have hbits : unreadBits (freshBlockReading c (afterClose s).env.dout) = 8 * (afterClose s).env.dout.length := Nat.zero_add _
  refine ⟨?_, hbits ▸ hlow, hbits ▸ hhigh⟩
  show 0 + 2 ^ 0 * bytesValue (afterClose s).env.dout = _
  rw [hvalue]
  ring

/-- The next code is read, and the others are still to be read. -/
theorem Unread.next {l : List (Nat × Nat)} {s : State} {v : Code} (h : Unread ((s.bu.width.toNat, v.toNat) :: l) s)
    (hl : s.bu.legal) (hv : v.toNat < 2 ^ s.bu.width.toNat) :
    buRead s = .got v (afterRead s) ∧ BuTook s v (afterRead s) ∧ Unread l (afterRead s) := by
  obtain ⟨hvalue, hlow, hhigh⟩ := h
  rw [streamBits] at hlow hhigh
  rw [streamValue] at hvalue
  obtain ⟨hread, htook⟩ := buRead_got hl (le_trans (Nat.le_add_right _ _) hlow)
  have hcode : nextCode s = v := BitVec.eq_of_toNat_eq (by
    rw [htook.code, hvalue, Nat.add_mul_mod_self_left, Nat.mod_eq_of_lt hv])
  rw [hcode] at hread htook
  have hbits := htook.bits
  refine ⟨hread, htook, ?_, by omega, by omega⟩
  rw [htook.value, hvalue, Nat.add_mul_div_left _ _ (Nat.two_pow_pos _), Nat.div_eq_of_lt hv, Nat.zero_add]

/-- A command that responds, then the others. -/
theorem runCommands_of_next {i : Instr} {rest : List Instr} {s t u : State} {w : Word} {rs : List Word} (h : exec i s = .next t)
    (hs : t.seq = .idle) (hr : t.rsp = some w) (hrest : runCommands rest (t.setRsp none) = some (rs, u)) :
    runCommands (i :: rest) s = some (w :: rs, u) := by
  rw [runCommands_cons h hs hr, hrest]
  rfl

/-! ## Values at any widths -/

/-- Widths and values as codes of a stream. -/
def codesOf (l : List (BitVec 5 × Code)) : List (Nat × Nat) := l.map fun p => (p.1.toNat, p.2.toNat)

/-- A value that fits the width it is written with. -/
def fits (p : BitVec 5 × Code) : Prop := widthOperandOk p.1 ∧ p.2.toNat < 2 ^ p.1.toNat

/-- Each width set and each value written, where the host accepts every byte. -/
theorem runCommands_writes {l : List (BitVec 5 × Code)} (hfits : ∀ p ∈ l, fits p) {m : List (Nat × Nat)} {s : State}
    (hw : Written m s) (hl : s.bp.legal 7) (hr : s.env.ready = .always) :
    ∃ rs t, runCommands (l.flatMap fun p => [.bpSetw p.1, .bpWr p.2]) s = some (rs, t) ∧ Written (m ++ codesOf l) t ∧
      t.bp.legal 7 ∧ t.env.ready = .always := by
  induction l generalizing m s with
  | nil => exact ⟨[], s, rfl, by rwa [codesOf, List.map_nil, List.append_nil], hl, hr⟩
  | cons p l ih =>
    obtain ⟨hwidth, hvalue⟩ := hfits p List.mem_cons_self
    set u : State := { s with bp := { s.bp with width := p.1 }, seq := .idle, rsp := none } with hu
    have hul : u.bp.legal 7 := ⟨hwidth, hl.2⟩
    have hacc : accepts (packedBytes u) u := accepts_of_always hr _
    have hwu : Written m u := ⟨hw.value, hw.bits⟩
    have hwrote : Written (m ++ [(p.1.toNat, p.2.toNat)]) (afterWrite p.2 u) := hwu.afterWrite hul hvalue
    have hready : (afterWrite p.2 u).env.ready = .always := by
      show u.env.ready.after _ = _
      rw [show u.env.ready = .always from hr]
      rfl
    obtain ⟨rs, t, hrun, hwt, hlt, hrt⟩ := ih (fun q hq => hfits q (List.mem_cons_of_mem _ hq))
      (s := { afterWrite p.2 u with seq := .idle, rsp := none }) ⟨hwrote.value, hwrote.bits⟩ (afterWrite_legal hul) hready
    refine ⟨0#32 :: 0#32 :: rs, t, ?_, ?_, hlt, hrt⟩
    · exact runCommands_of_next (exec_bpSetw_of_widthOperandOk hwidth s) rfl rfl
        (runCommands_of_next (exec_bpWr_of_accepts p.2 (s := u) hul hacc) rfl rfl hrun)
    · rw [List.append_assoc] at hwt
      exact hwt

/-- Each width set and each value read back. -/
theorem runCommands_reads {l : List (BitVec 5 × Code)} (hfits : ∀ p ∈ l, fits p) {s : State} (h : Unread (codesOf l) s)
    (hl : s.bu.legal) :
    ∃ u, runCommands (l.flatMap fun p => [.buSetw p.1, .buRd]) s =
        some (l.flatMap (fun p => [0#32, responseWord (.done p.2)]), u) ∧ Unread [] u ∧ u.bu.legal ∧ u.din.eof = s.din.eof ∧
      u.bu.width = (l.getLast?.map Prod.fst).getD s.bu.width := by
  induction l generalizing s with
  | nil => exact ⟨s, rfl, h, hl, rfl, rfl⟩
  | cons p l ih =>
    obtain ⟨hwidth, hvalue⟩ := hfits p List.mem_cons_self
    set v : State := { s with bu := { s.bu with width := p.1 }, seq := .idle, rsp := none } with hv
    have hvl : v.bu.legal := ⟨hwidth, hl.2⟩
    have hvu : Unread ((p.1.toNat, p.2.toNat) :: codesOf l) v := ⟨h.value, h.low, h.high⟩
    obtain ⟨hread, htook, hunread⟩ := Unread.next (s := v) hvu hvl hvalue
    have hexec : exec .buRd v = .next { afterRead v with seq := .idle, rsp := some (responseWord (.done p.2)) } := by
      show (buRead v).conclude .buRead respondEnd respondData = _
      rw [hread]
      rfl
    obtain ⟨u, hrun, hu, hul, heof, hlast⟩ := ih (fun q hq => hfits q (List.mem_cons_of_mem _ hq))
      (s := { afterRead v with seq := .idle, rsp := none }) ⟨hunread.value, hunread.low, hunread.high⟩ htook.legal
    refine ⟨u, ?_, hu, hul, heof, ?_⟩
    · exact runCommands_of_next (exec_buSetw_of_widthOperandOk hwidth s) rfl rfl (runCommands_of_next (s := v) hexec rfl rfl hrun)
    · rw [hlast]
      cases l with
      | nil => rfl
      | cons q l => rw [List.getLast?_cons_cons, List.getLast?_eq_getLast_of_ne_nil (List.cons_ne_nil q l)]; rfl

theorem freshBlock_bp_legal (c : Config) : (freshBlock c).bp.legal 7 := ⟨by show legalWidth wLzw0; decide, Nat.zero_le _, by show (0#32).toNat < 2 ^ (0#6).toNat; decide⟩

theorem freshBlockReading_bu_legal (c : Config) (bytes : List Byte) : (freshBlockReading c bytes).bu.legal :=
  ⟨by show legalWidth wLzw0; decide, by show (0#6).toNat ≤ 23; decide, by show (0#32).toNat < 2 ^ (0#6).toNat; decide⟩

/-- Settles O33: what the packer has written is what the unpacker has to read, code by code. -/
theorem packedValuesAreReadBack : Obligations.PackedValuesAreReadBack := by
  intro c l hfits
  obtain ⟨rs, t, hrun, hwritten, hl, hr⟩ := runCommands_writes hfits (written_reset c) (freshBlock_bp_legal c) rfl
  have hclose := exec_bpClose_of_accepts (accepts_of_always hr _)
  obtain ⟨u, hread, hunread, hul, heof, hwidth⟩ := runCommands_reads hfits (hwritten.unread hl c) (freshBlockReading_bu_legal c _)
  refine ⟨rs ++ [0#32], { afterClose t with seq := .idle, rsp := none }, u, ?_, hread, fun hlast => ?_⟩
  · rw [runCommands_append, hrun]
    show (runCommands [.bpClose] t).map _ = _
    rw [runCommands_cons hclose rfl rfl]
    rfl
  · have hstarved : unreadBits u < u.bu.width.toNat := by
      have hhigh := hunread.high
      have hwide : 7 < u.bu.width.toNat := by
        rw [hwidth]
        cases hg : l.getLast? with
        | none => show 7 < wLzw0.toNat; decide
        | some p => exact hlast p hg
      rw [streamBits] at hhigh
      omega
    exact ⟨_, (buReadEndsOrHolds u hul hstarved).1 heof, rfl⟩

end Sys2Proof.Machine

/-! PROOFS. LZD_READ (43_lzw_decoder.md R85-R91): what it returns for each code, what it refuses, and when it ends or holds. -/

namespace Sys2Proof.Machine

/-- A byte as DATA, below sixteen zeros, makes a response that is the byte below twenty-four (30_encoding.md R44). -/
theorem responseWord_done_byte (b : Byte) : responseWord (.done (b.setWidth 24)) = 0#24 ++ b := by
  have hdata : b.setWidth 24 = 0#16 ++ b := by rw [BitVec.setWidth_eq_append (by decide), BitVec.cast_eq]
  have hword (d : Code) : responseWord (.done d) = 0#8 ++ d := rfl
  rw [hword, hdata, BitVec.append_assoc']
  rfl

/-! ## The command -/

section
variable {s : State}

/-- How LZD_READ ends on what `LzdStep` comes to. -/
def lzdConclude (x : Supply Unit) : Result :=
  (x.andThen fun _ t => lzdPop t).conclude .lzdRead respondEnd fun b t => respondData (b.setWidth 24) t

theorem exec_lzdRd_of_pend {b : Byte} {rest : List Byte} (hflt : s.lzd.flt = 0#6) (hpend : s.lzd.pend = b :: rest) :
    exec .lzdRd s = .next { s with lzd := { s.lzd with pend := rest }, seq := .idle, rsp := some (0#24 ++ b) } := by
  show (lzdNextByte s).conclude .lzdRead respondEnd (fun b t => respondData (b.setWidth 24) t) = _
  rw [lzdNextByte, if_neg (by rw [hflt]; decide), if_neg (by rw [hpend]; exact List.cons_ne_nil b rest), lzdPop, hpend,
    ← responseWord_done_byte]
  rfl

theorem exec_lzdRd_of_empty (hflt : s.lzd.flt = 0#6) (hpend : s.lzd.pend = []) : exec .lzdRd s = lzdConclude (lzdStep s) := by
  show (lzdNextByte s).conclude .lzdRead respondEnd (fun b t => respondData (b.setWidth 24) t) = _
  rw [lzdNextByte, if_neg (by rw [hflt]; decide), if_pos hpend]
  rfl

/-- `LzdStep` has put a sequence in `LZD.PEND`: its first byte is returned. -/
theorem lzdConclude_got {t : State} {b : Byte} {rest : List Byte} (h : t.lzd.pend = b :: rest) :
    lzdConclude (.got () t) = .next { t with lzd := { t.lzd with pend := rest }, seq := .idle, rsp := some (0#24 ++ b) } := by
  show (lzdPop t).conclude .lzdRead respondEnd (fun b t => respondData (b.setWidth 24) t) = _
  rw [lzdPop, h, ← responseWord_done_byte]
  rfl

theorem lzdConclude_faulted (c : FaultBits) (t : State) :
    lzdConclude (.faulted c t) = .next { t with lzd := { t.lzd with flt := c }, seq := .idle, rsp := some (responseWord (.failed c)) } :=
  rfl

/-- Settles O34: the decoder's arm for 0x30, and `exec_lzdRd_of_pend`. -/
theorem lzdReadDrainsPendingOutput : Obligations.LzdReadDrainsPendingOutput :=
  ⟨rowMeans_of_decodeFields fun _ => rfl, fun _ _ _ hflt hpend => exec_lzdRd_of_pend hflt hpend⟩

/-- With nothing pending and a code other than the clear code next, LZD_READ handles that code. -/
theorem exec_lzdRd_of_code (hl : s.bu.legal) (hflt : s.lzd.flt = 0#6) (hpend : s.lzd.pend = []) (hbits : s.bu.width.toNat ≤ unreadBits s)
    (hcode : nextCode s ≠ clearCode) : exec .lzdRd s = lzdConclude (lzdCode (nextCode s) (afterRead s)) := by
  rw [exec_lzdRd_of_empty hflt hpend, lzdStep_got hl hbits hcode]

/-! ## The first code -/

/-- A literal is its byte. -/
theorem setWidth_byte {c : Code} (h : c.toNat < 0x100) : (c.setWidth 8).setWidth 24 = c :=
  BitVec.eq_of_toNat_eq (by
    rw [BitVec.toNat_setWidth, BitVec.toNat_setWidth, Nat.mod_eq_of_lt (a := c.toNat) h, Nat.mod_eq_of_lt c.isLt])

theorem lzdCode_first_literal {c : Code} (hfresh : s.lzd.fresh = true) (h : c.toNat < 0x100) :
    lzdCode c s = .got () (s.setLzd { s.lzd with pend := [c.setWidth 8], w := c, fresh := false }) := by
  rw [lzdCode, if_pos hfresh, lzdFirst, if_pos h]

theorem lzdCode_first_corrupt {c : Code} (hfresh : s.lzd.fresh = true) (h : ¬ c.toNat < 0x100) :
    lzdCode c s = .faulted (faultBits .corruptStream) s := by
  rw [lzdCode, if_pos hfresh, lzdFirst, if_neg h]

/-- Settles O35: a literal is pending alone, and its byte is the code. -/
theorem lzdReadTakesTheFirstCode : Obligations.LzdReadTakesTheFirstCode := by
  intro s hl hflt hpend hfresh hbits
  have hfresh' : (afterRead s).lzd.fresh = true := hfresh
  have hclear : clearCode.toNat = 0x100 := rfl
  refine ⟨fun hlit => ?_, fun hbig => ?_⟩
  · have hbyte : (0#24 ++ (nextCode s).setWidth 8 : Word) = responseWord (.done (nextCode s)) := by
      rw [← responseWord_done_byte, setWidth_byte hlit]
    have hne : nextCode s ≠ clearCode := fun h => by rw [h, hclear] at hlit; omega
    rw [exec_lzdRd_of_code hl hflt hpend hbits hne, lzdCode_first_literal hfresh' hlit, lzdConclude_got rfl, hbyte]
    rw [show ({ s.lzd with w := nextCode s, fresh := false } : Lzd) = { s.lzd with w := nextCode s, fresh := false, pend := [] } by
      rw [← hpend]]
    rfl
  · have hne : nextCode s ≠ clearCode := fun h => by rw [h, hclear] at hbig; omega
    rw [exec_lzdRd_of_code hl hflt hpend hbits hne, lzdCode_first_corrupt hfresh' (by omega), lzdConclude_faulted]
    rfl

/-! ## The codes after it -/

/-- The string an entry or the KwK code stands for (R85, R88). -/
def lzdString (d : Lzd) (c : Code) (wSeq l : List Byte) : Prop :=
  (c.toNat < d.size.toNat ∧ lzdEntry d c = some l) ∨ (c = d.size ∧ l = wSeq ++ wSeq.take 1)

theorem lzdCode_of_string {c : Code} {wSeq l : List Byte} (hfresh : s.lzd.fresh = false) (hw : lzdEntry s.lzd s.lzd.w = some wSeq)
    (hne : wSeq ≠ []) (h : lzdString s.lzd c wSeq l) : lzdCode c s = lzdExtend c l s := by
  rw [lzdCode, if_neg (by rw [hfresh]; decide), lzdLookUp]
  rcases h with ⟨hlt, hentry⟩ | ⟨rfl, rfl⟩
  · rw [if_pos hlt, hentry]
  · have hkwk : lzdKwk s = some (wSeq ++ wSeq.take 1) := by
      unfold lzdKwk
      rw [hw]
      cases wSeq with
      | nil => exact absurd rfl hne
      | cons x rest => rfl
    rw [if_neg (Nat.lt_irrefl _), if_pos rfl, hkwk]

/-- Both limits kept, the entry is made and the width grows by the test of R87. -/
theorem lzdExtend_of_room {c : Code} {wSeq rest : List Byte} {x : Byte} (hw : lzdEntry s.lzd s.lzd.w = some wSeq)
    (hcap : s.lzd.size.toNat ≠ s.cfg.dictCap) (hcap24 : s.lzd.size.toNat + 1 < 2 ^ 24)
    (hwide : ¬ (s.lzd.size.toNat + 1 = 2 ^ s.bu.width.toNat - 1 ∧ s.bu.width = 24#5)) :
    lzdExtend c (x :: rest) s = .got () { s with
      bu := { s.bu with width := if s.lzd.size.toNat + 1 = 2 ^ s.bu.width.toNat - 1 then s.bu.width + 1#5 else s.bu.width }
      lzd := { s.lzd with built := s.lzd.built ++ [wSeq ++ [x]], size := s.lzd.size + 1#24, w := c, pend := x :: rest } } := by
  have hsize : (s.lzd.size + 1#24).toNat = s.lzd.size.toNat + 1 := by
    rw [BitVec.toNat_add]
    exact Nat.mod_eq_of_lt hcap24
  have hgrow : lzdGrow (lzdAssign (wSeq ++ [x]) s) =
      (lzdAssign (wSeq ++ [x]) s).setBu { s.bu with
        width := if s.lzd.size.toNat + 1 = 2 ^ s.bu.width.toNat - 1 then s.bu.width + 1#5 else s.bu.width } := by
    unfold lzdGrow
    show (if fillsWidth (s.lzd.size + 1#24).toNat s.bu.width then _ else _) = _
    rw [hsize]
    by_cases hfills : s.lzd.size.toNat + 1 = 2 ^ s.bu.width.toNat - 1
    · rw [if_pos (fillsWidth_iff.mpr hfills), if_pos hfills]
      rfl
    · rw [if_neg (mt fillsWidth_iff.mp hfills), if_neg hfills]
      rfl
  unfold lzdExtend
  rw [if_neg hcap, if_neg (by rwa [fillsWidth_iff]), hw]
  show Supply.got () (lzdEmit c (x :: rest) (lzdGrow (lzdAssign (wSeq ++ [x]) s))) = _
  rw [hgrow]
  rfl

theorem lzdExtend_of_full {c : Code} {l : List Byte} (hcap : s.lzd.size.toNat = s.cfg.dictCap) :
    lzdExtend c l s = .faulted (faultBits .dictOverflow) s := by
  unfold lzdExtend
  rw [if_pos hcap]

theorem lzdExtend_of_wide {c : Code} {l : List Byte} (hcap : s.lzd.size.toNat ≠ s.cfg.dictCap)
    (hfills : s.lzd.size.toNat + 1 = 2 ^ s.bu.width.toNat - 1) (hwide : s.bu.width = 24#5) :
    lzdExtend c l s = .faulted (faultBits .widthOverflow) s := by
  unfold lzdExtend
  rw [if_neg hcap, if_pos ⟨fillsWidth_iff.mpr hfills, hwide⟩]

theorem size_succ_lt {s : State} (hs : UnitsLegal s) (hcap : s.lzd.size.toNat ≠ s.cfg.dictCap) : s.lzd.size.toNat + 1 < 2 ^ 24 := by
  have hle := hs.lzd.size_le
  have hcap24 := hs.cfg.2.1
  omega

/-- Settles O36: `lzdCode_of_string`, then `lzdExtend_of_room`. -/
theorem lzdReadDecodesAnEntry : Obligations.LzdReadDecodesAnEntry := by
  intro s wSeq x rest hs hflt hpend hfresh hbits hne hw hstring hcap hwide
  have hwne : wSeq ≠ [] := by
    obtain ⟨y, ys, hw', -⟩ := lzdEntry_w hs.1.lzd
    rw [hw] at hw'
    cases hw'
    exact List.cons_ne_nil y ys
  have hroom := size_succ_lt hs.1 hcap
  rw [exec_lzdRd_of_code hs.1.bu hflt hpend hbits hne, lzdCode_of_string (s := afterRead s) hfresh hw hwne hstring,
    lzdExtend_of_room (s := afterRead s) hw hcap hroom hwide, lzdConclude_got rfl]
  rfl

/-- Settles O37: the tests of R85 and R90 in their order. -/
theorem lzdReadRefusesACode : Obligations.LzdReadRefusesACode := by
  intro s hs hflt hpend hfresh hbits hne
  rw [exec_lzdRd_of_code hs.1.bu hflt hpend hbits hne]
  have hlimits : ∀ hle : (nextCode s).toNat ≤ s.lzd.size.toNat, ∃ l, lzdCode (nextCode s) (afterRead s) = lzdExtend (nextCode s) l (afterRead s) := by
    intro hle
    obtain ⟨y, ys, hw, -⟩ := lzdEntry_w hs.1.lzd
    rcases Nat.lt_or_eq_of_le hle with hlt | heq
    · obtain ⟨x, rest, hentry, -⟩ := lzdEntry_of_lt hs.1.lzd hlt hne
      exact ⟨_, lzdCode_of_string (s := afterRead s) hfresh hw (List.cons_ne_nil y ys) (.inl ⟨hlt, hentry⟩)⟩
    · exact ⟨_, lzdCode_of_string (s := afterRead s) hfresh hw (List.cons_ne_nil y ys) (.inr ⟨BitVec.eq_of_toNat_eq heq, rfl⟩)⟩
  refine ⟨fun hbig => ?_, fun hle hcap => ?_, fun hle hcap hfills hwide => ?_⟩
  · have hcorrupt : lzdCode (nextCode s) (afterRead s) = .faulted (faultBits .corruptStream) (afterRead s) := by
      rw [lzdCode, if_neg (by show ¬ s.lzd.fresh = true; rw [hfresh]; decide), lzdLookUp, if_neg (by show ¬ _ < s.lzd.size.toNat; omega),
        if_neg (fun h => by rw [h] at hbig; exact absurd hbig (Nat.lt_irrefl _))]
    rw [hcorrupt, lzdConclude_faulted]
    rfl
  · obtain ⟨l, hl⟩ := hlimits hle
    rw [hl, lzdExtend_of_full (s := afterRead s) hcap, lzdConclude_faulted]
    rfl
  · obtain ⟨l, hl⟩ := hlimits hle
    rw [hl, lzdExtend_of_wide (s := afterRead s) hcap hfills hwide, lzdConclude_faulted]
    rfl

/-! ## Clear codes, and too few bits -/

/-- Settles O38: after the clear code `LzdStep` goes on from the initialised decoder. -/
theorem lzdReadGoesOnAfterAClearCode : Obligations.LzdReadGoesOnAfterAClearCode := by
  intro s hl hflt hpend hbits hclear
  have hinit : lzdInit (afterRead s) = { afterRead s with
      bu := { (afterRead s).bu with width := 9#5 }
      lzd := { built := [], size := 257#24, w := 0#24, fresh := true, pend := [], flt := 0#6 } } := by
    have hflt' : (afterRead s).lzd.flt = 0#6 := hflt
    have hpend' : (afterRead s).lzd.pend = [] := hpend
    simp only [lzdInit_eq, hflt', hpend']
  rw [exec_lzdRd_of_empty hflt hpend, lzdStep_clear hl hbits hclear, hinit, exec_lzdRd_of_empty rfl rfl]

/-- Settles O39: `lzdStep_starved`. -/
theorem lzdReadEndsOrHolds : Obligations.LzdReadEndsOrHolds := by
  intro s hl hflt hpend hbits
  rw [exec_lzdRd_of_empty hflt hpend, lzdStep_starved hl hbits]
  refine ⟨fun heof => ?_, fun heof => ?_⟩ <;> rw [heof] <;> rfl

end

end Sys2Proof.Machine

/-! PROOFS. The LZW encoder's commands (44_lzw_encoder.md R94-R98): what LZE_WRITE, LZE_CLEAR and LZE_FLUSH write and leave, and what they
refuse. -/

namespace Sys2Proof.Machine

/-! ## Bytes accepted -/

theorem accepts_of_add {n m : Nat} {s : State} (h : accepts (n + m) s) : accepts n s := by
  cases hr : s.env.ready with
  | always => exact accepts_of_always hr n
  | count k =>
    rw [accepts_iff_of_count hr] at h ⊢
    omega

/-- What the host accepts after `n` bytes. -/
theorem accepts_after {n m : Nat} {s u : State} (h : accepts (n + m) s) (hu : u.env.ready = s.env.ready.after n) : accepts m u := by
  cases hr : s.env.ready with
  | always => exact accepts_of_always (by rw [hu, hr]; rfl) m
  | count k =>
    rw [accepts_iff_of_count hr] at h
    rw [accepts_iff_of_count (hu.trans (congrArg (Ready.after · n) hr))]
    omega

theorem bpDrain_bpPut_of_accepts {v : Code} {s : State} (hl : s.bp.legal 7) (h : accepts (packedBytes s) s) :
    bpDrain (bpPut v s) = .sent (afterWrite v s) := by
  rcases bpDrain_bpPut (v := v) hl with ⟨-, hsent⟩ | ⟨j, rest, hready, hj, -⟩
  · exact hsent
  · exact absurd ((accepts_iff_of_count hready).mp h) (Nat.not_le.mpr hj)

theorem afterWrite_ready {v : Code} {s : State} : (afterWrite v s).env.ready = s.env.ready.after (packedBytes s) := by
  show s.env.ready.after (littleBytes (packedBytes s) (packedValue v s)).length = _
  rw [littleBytes_length]

/-! ## The three commands, where no fault is latched -/

section
variable {s : State} (hflt : s.lze.flt = 0#6)
include hflt

theorem exec_lzeWr_of_no_prefix (b : Byte) (hhas : s.lze.hasw = false) : exec (.lzeWr b) s = respondOk (lzeHold [b] s) :=
  (unlessLatched_of_clear (u := .lze) _ hflt).trans (if_pos (by rw [hhas]; rfl))

theorem exec_lzeWr_of_known {b : Byte} (hhas : s.lze.hasw = true) (h : (lzeCode s.lze (s.lze.wseq ++ [b])).isSome = true) :
    exec (.lzeWr b) s = respondOk (lzeHold (s.lze.wseq ++ [b]) s) :=
  ((unlessLatched_of_clear (u := .lze) _ hflt).trans (if_neg (by rw [hhas]; decide))).trans (if_pos h)

/-- A new string: the limits are checked, then the code of w is put (R96). -/
theorem exec_lzeWr_of_new {b : Byte} (hhas : s.lze.hasw = true) (h : lzeCode s.lze (s.lze.wseq ++ [b]) = none) :
    exec (.lzeWr b) s =
      if s.lze.size.toNat = s.cfg.dictCap then raiseUnitFault .lze (faultBits .dictOverflow) s
      else if !lzeGrowOk s then raiseUnitFault .lze (faultBits .widthOverflow) s
      else lzePutW (lzeWriteRest b) s :=
  ((unlessLatched_of_clear (u := .lze) _ hflt).trans (if_neg (by rw [hhas]; decide))).trans (if_neg (by rw [h]; decide))

theorem exec_lzeClr_of_no_prefix (hhas : s.lze.hasw = false) : exec .lzeClr s = lzeClearCodeRest (bpPut clearCode s) :=
  (unlessLatched_of_clear (u := .lze) _ hflt).trans (if_pos (by rw [hhas]; rfl))

theorem exec_lzeClr_of_prefix (hhas : s.lze.hasw = true) :
    exec .lzeClr s = if !lzeGrowOk s then raiseUnitFault .lze (faultBits .widthOverflow) s else lzePutW lzeClearWRest s :=
  (unlessLatched_of_clear (u := .lze) _ hflt).trans (if_neg (by rw [hhas]; decide))

theorem exec_lzeFlush_of_no_prefix (hhas : s.lze.hasw = false) : exec .lzeFlush s = lzeFlushCloseRest s :=
  (unlessLatched_of_clear (u := .lze) _ hflt).trans (if_pos (by rw [hhas]; rfl))

theorem exec_lzeFlush_of_prefix (hhas : s.lze.hasw = true) :
    exec .lzeFlush s = if !lzeGrowOk s then raiseUnitFault .lze (faultBits .widthOverflow) s else lzePutW lzeFlushWRest s :=
  (unlessLatched_of_clear (u := .lze) _ hflt).trans (if_neg (by rw [hhas]; decide))

omit hflt

theorem lzePutW_of_code {rest : State → Result} {c : Code} (h : lzeCode s.lze s.lze.wseq = some c) : lzePutW rest s = rest (bpPut c s) := by
  unfold lzePutW
  rw [h]

theorem lzeGrowOk_of_not (h : ¬ (s.lze.size.toNat = 2 ^ s.bp.width.toNat - 1 ∧ s.bp.width = 24#5)) : (!lzeGrowOk s) = false := by
  rw [lzeGrowOk_iff s |>.mpr h]
  rfl

theorem lzeGrowOk_of_wide (hfills : s.lze.size.toNat = 2 ^ s.bp.width.toNat - 1) (hwide : s.bp.width = 24#5) :
    (!lzeGrowOk s) = true := by
  rw [Bool.not_eq_true', ← Bool.not_eq_true, lzeGrowOk_iff s]
  exact not_not.mpr ⟨hfills, hwide⟩

end

/-- Settles O41: the two silent cases of R96. -/
theorem lzeWriteExtendsThePrefix : Obligations.LzeWriteExtendsThePrefix := by
  refine ⟨rowMeans_of_decodeFields fun _ => rfl, fun b s hflt => ⟨fun hhas => ?_, fun hhas hknown => ?_⟩⟩
  · rw [exec_lzeWr_of_no_prefix hflt b hhas]
    rfl
  · have hhold : lzeHold (s.lze.wseq ++ [b]) s = s.setLze { s.lze with wseq := s.lze.wseq ++ [b] } := by rw [lzeHold, ← hhas]
    rw [exec_lzeWr_of_known hflt hhas hknown, hhold]
    rfl

/-- Settles O42: the code is put, the bytes leave, the width grows and the string gets its code. -/
theorem lzeWriteEmitsACode : Obligations.LzeWriteEmitsACode := by
  intro b s c hs hflt hhas hcode hnew hcap hgrow hacc
  rw [exec_lzeWr_of_new hflt hhas hnew, if_neg hcap, if_neg (by rw [lzeGrowOk_of_not hgrow]; decide), lzePutW_of_code hcode,
    lzeWriteRest, bpDrain_bpPut_of_accepts hs.2.1 hacc]
  show respondOk (lzeInsert b (lzeGrow (afterWrite c s))) = _
  rw [lzeGrow_state]
  rfl

/-- Settles O43: the limits are checked before the code is put. -/
theorem lzeRefusesPastItsLimits : Obligations.LzeRefusesPastItsLimits := by
  refine fun b s hflt hhas => ⟨fun hnew hcap => ?_, fun hfills hwide => ⟨fun hnew hcap => ?_, ?_, ?_⟩⟩
  · rw [exec_lzeWr_of_new hflt hhas hnew, if_pos hcap]
    rfl
  · rw [exec_lzeWr_of_new hflt hhas hnew, if_neg hcap, if_pos (lzeGrowOk_of_wide hfills hwide)]
    rfl
  · rw [exec_lzeClr_of_prefix hflt hhas, if_pos (lzeGrowOk_of_wide hfills hwide)]
    rfl
  · rw [exec_lzeFlush_of_prefix hflt hhas, if_pos (lzeGrowOk_of_wide hfills hwide)]
    rfl

/-! ## The end of a stream -/

/-- The fresh encoder that LZE_CLEAR and LZE_FLUSH leave (R94). -/
theorem lzeFinish_eq {s : State} (hflt : s.lze.flt = 0#6) :
    lzeFinish s = .next { s with
      bp := { s.bp with width := 9#5 }
      lze := { built := [], size := 257#24, hasw := false, wseq := [], flt := 0#6 }
      seq := .idle, rsp := some 0x00000000#32 } := by
  rw [← hflt]
  rfl

theorem lzeClearCodeRest_of_accepts {s : State} (hl : s.bp.legal 7) (h : accepts (packedBytes s) s) :
    lzeClearCodeRest (bpPut clearCode s) = lzeFinish (afterWrite clearCode s) := by
  rw [lzeClearCodeRest, bpDrain_bpPut_of_accepts hl h]
  rfl

/-- Growth keeps the packer legal where it is not refused. -/
theorem lzeGrow_bp_legal {s : State} (hl : s.bp.legal 7)
    (h : ¬ (s.lze.size.toNat = 2 ^ s.bp.width.toNat - 1 ∧ s.bp.width = 24#5)) : (lzeGrow s).bp.legal 7 := by
  rw [lzeGrow_state]
  refine ⟨?_, hl.2⟩
  show legalWidth (if _ then _ else _)
  split
  · rename_i hfills
    exact legalWidth_succ hl.1 fun hwide => h ⟨hfills, hwide⟩
  · exact hl.1

/-- Settles O44: one code or two, then the fresh encoder. -/
theorem lzeClearWritesTheClearCode : Obligations.LzeClearWritesTheClearCode := by
  refine ⟨rowMeans_of_decodeFields fun _ => rfl, fun s hs hflt => ⟨fun hhas hacc => ?_, ?_⟩⟩
  · rw [exec_lzeClr_of_no_prefix hflt hhas, lzeClearCodeRest_of_accepts hs.2.1 hacc]
    exact lzeFinish_eq (s := afterWrite clearCode s) hflt
  · intro c u hhas hcode hgrow hu hacc
    have hgrown : u = lzeGrow (afterWrite c s) := by
      rw [lzeGrow_state, hu]
      rfl
    have hul : u.bp.legal 7 := hgrown ▸ lzeGrow_bp_legal (afterWrite_legal hs.2.1) hgrow
    have huflt : u.lze.flt = 0#6 := by rw [hu]; exact hflt
    have hready : u.env.ready = s.env.ready.after (packedBytes s) := by rw [hu]; exact afterWrite_ready
    rw [exec_lzeClr_of_prefix hflt hhas, if_neg (by rw [lzeGrowOk_of_not hgrow]; decide), lzePutW_of_code hcode, lzeClearWRest,
      bpDrain_bpPut_of_accepts hs.2.1 (accepts_of_add hacc)]
    show lzeClearCodeRest (bpPut clearCode (lzeGrow (afterWrite c s))) = _
    rw [← hgrown, lzeClearCodeRest_of_accepts hul (accepts_after hacc hready)]
    exact lzeFinish_eq (s := afterWrite clearCode u) huflt

theorem lzeFlushCloseRest_of_accepts {s : State} (h : accepts (closingBytes s).length s) :
    lzeFlushCloseRest s = lzeFinish (afterClose s) := by
  rw [lzeFlushCloseRest, bpCloseByte_of_accepts h]
  rfl

/-- Settles O45: the code, if w is held, and the padding, then the fresh encoder. -/
theorem lzeFlushEndsTheStream : Obligations.LzeFlushEndsTheStream := by
  refine ⟨rowMeans_of_decodeFields fun _ => rfl, fun s hs hflt => ⟨fun hhas hacc => ?_, ?_⟩⟩
  · rw [exec_lzeFlush_of_no_prefix hflt hhas, lzeFlushCloseRest_of_accepts hacc]
    exact lzeFinish_eq (s := afterClose s) hflt
  · rintro c u hhas hcode hgrow rfl hacc
    rw [exec_lzeFlush_of_prefix hflt hhas, if_neg (by rw [lzeGrowOk_of_not hgrow]; decide), lzePutW_of_code hcode, lzeFlushWRest,
      bpDrain_bpPut_of_accepts hs.2.1 (accepts_of_add hacc)]
    show lzeFlushCloseRest (afterWrite c s) = _
    rw [lzeFlushCloseRest_of_accepts (accepts_after hacc afterWrite_ready)]
    exact lzeFinish_eq (s := afterClose (afterWrite c s)) hflt

end Sys2Proof.Machine

/-! PROOFS. RLD_READ (45_rle.md R101, R102): a pending repeat, the bytes of DIN, and the bytes of the LZW decoder. -/

namespace Sys2Proof.Machine

/-! ## Response words apart (30_encoding.md R44) -/

theorem byteWord_toNat (b : Byte) : (0#24 ++ b : Word).toNat = b.toNat := by
  rw [BitVec.toNat_append]
  simp

theorem byteWord_inj {a b : Byte} (h : (0#24 ++ a : Word) = 0#24 ++ b) : a = b :=
  BitVec.eq_of_toNat_eq (by rw [← byteWord_toNat, h, byteWord_toNat])

/-- A response that is no byte with nothing above it. -/
theorem ne_byteWord {w : Word} (h : 256 ≤ w.toNat) (b : Byte) : w ≠ 0#24 ++ b := by
  rintro rfl
  rw [byteWord_toNat] at h
  exact absurd b.isLt (Nat.not_lt.mpr h)

theorem failedWord_inj {c d : FaultBits} (h : responseWord (.failed c) = responseWord (.failed d)) : c = d := by
  have hcode := congrArg (fun w : Word => w.extractLsb' 24 6) h
  have hfield : ∀ c : FaultBits, (responseWord (.failed c)).extractLsb' 24 6 = c := by decide
  rwa [hfield, hfield] at hcode

theorem failedWord_ne_byteWord (c : FaultBits) (b : Byte) : responseWord (.failed c) ≠ 0#24 ++ b := by
  have hlarge : ∀ c : FaultBits, 256 ≤ (responseWord (.failed c)).toNat := by decide
  exact ne_byteWord (hlarge c) b

theorem endedWord_ne_byteWord (b : Byte) : responseWord .ended ≠ 0#24 ++ b := ne_byteWord (by decide) b

theorem failedWord_ne_endedWord : ∀ c : FaultBits, responseWord (.failed c) ≠ responseWord .ended := by decide

/-! ## A pending repeat, and DIN -/

section
variable {s : State}

/-- Settles O48: `RLD.REM` is not 0, so no byte is taken. -/
theorem rldReadReplaysTheRun : Obligations.RldReadReplaysTheRun := by
  refine ⟨rowMeans_of_decodeFields fun _ => rfl, fun s hflt hrem => ?_⟩
  have hreplay : exec .rldRd s = rldRespond s.rld.rb (s.setRld { s.rld with rem := s.rld.rem - 1#9 }) :=
    (unlessLatched_of_clear (u := .rld) _ hflt).trans (if_neg hrem)
  rw [hreplay, ← responseWord_done_byte]
  rfl

theorem rldSrcByte_of_cons {b : Byte} {rest : List Byte} (hsrc : s.rld.src = .din) (h : s.din.fifo = b :: rest) :
    rldSrcByte s = .got b (s.setDin { s.din with fifo := rest }) := by
  rw [rldSrcByte_din hsrc, dinPull_cons h]

theorem rldSrcByte_of_end (hsrc : s.rld.src = .din) (h : s.din.fifo = []) (heof : s.din.eof = true) : rldSrcByte s = .eod s := by
  rw [rldSrcByte_din hsrc, dinPull_eod h heof]

theorem rldSrcByte_of_open (hsrc : s.rld.src = .din) (h : s.din.fifo = []) (heof : s.din.eof = false) : rldSrcByte s = .waits s := by
  rw [rldSrcByte_din hsrc, dinPull_waits h heof]

/-- The escape byte is taken and an escape sequence begins. -/
theorem rldFirstRest_of_escape {rest : List Byte} (hsrc : s.rld.src = .din) (h : s.din.fifo = s.rld.esc :: rest) :
    rldFirstRest s = rldRepeatRest (s.setDin { s.din with fifo := rest }) := by
  rw [rldFirstRest, rldSrcByte_of_cons hsrc h]
  exact if_pos rfl

theorem rldFirstRest_of_verbatim {b : Byte} {rest : List Byte} (hsrc : s.rld.src = .din) (h : s.din.fifo = b :: rest)
    (hb : b ≠ s.rld.esc) : rldFirstRest s = rldRespond b (s.setDin { s.din with fifo := rest }) := by
  rw [rldFirstRest, rldSrcByte_of_cons hsrc h]
  exact if_neg hb

theorem rldRepeatRest_of_cons {r : Byte} {rest : List Byte} (hsrc : s.rld.src = .din) (h : s.din.fifo = r :: rest) :
    rldRepeatRest s = rldCountRest r (s.setDin { s.din with fifo := rest }) := by
  rw [rldRepeatRest, rldSrcByte_of_cons hsrc h]
  rfl

theorem rldCountRest_of_cons {r k : Byte} {rest : List Byte} (hsrc : s.rld.src = .din) (h : s.din.fifo = k :: rest) :
    rldCountRest r s =
      rldRespond r ((s.setDin { s.din with fifo := rest }).setRld { s.rld with rb := r, rem := k.setWidth 9 }) := by
  rw [rldCountRest, rldSrcByte_of_cons hsrc h]
  rfl

/-- Settles O49: one lemma for each byte taken, and the end or the hold at the byte that is missing. -/
theorem rldReadDecodesFromDin : Obligations.RldReadDecodesFromDin := by
  intro s b r k rest hflt hrem hsrc
  have hfirst : exec .rldRd s = rldFirstRest s := exec_rldRd_of_first hflt hrem
  have hbegun : ∀ l, s.din.fifo = s.rld.esc :: l → rldFirstRest s = rldRepeatRest (s.setDin { s.din with fifo := l }) :=
    fun l => rldFirstRest_of_escape hsrc
  have hrepeat : ∀ l, rldRepeatRest (s.setDin { s.din with fifo := r :: l }) = rldCountRest r (s.setDin { s.din with fifo := l }) :=
    fun l => rldRepeatRest_of_cons (s := s.setDin { s.din with fifo := r :: l }) hsrc rfl
  rw [hfirst]
  refine ⟨fun hfifo hb => ?verbatim, fun hfifo => ?escape, fun ⟨hfifo, heof⟩ => ?ends, fun ⟨hfifo, heof⟩ => ?truncated,
    fun ⟨hfifo, heof⟩ => ?holdsFirst, fun ⟨hfifo, heof⟩ => ?holdsRepeat, fun ⟨hfifo, heof⟩ => ?holdsCount⟩
  case verbatim =>
    rw [rldFirstRest_of_verbatim hsrc hfifo hb, ← responseWord_done_byte]
    rfl
  case escape =>
    rw [hbegun _ hfifo, hrepeat, rldCountRest_of_cons (s := s.setDin { s.din with fifo := k :: rest }) hsrc rfl,
      ← responseWord_done_byte]
    rfl
  case ends =>
    rw [rldFirstRest, rldSrcByte_of_end hsrc hfifo heof]
    rfl
  case truncated =>
    have hend : rldSrcByte (s.setDin { s.din with fifo := [] }) = .eod (s.setDin { s.din with fifo := [] }) :=
      rldSrcByte_of_end hsrc rfl heof
    rcases hfifo with hfifo | hfifo
    · rw [hbegun _ hfifo, rldRepeatRest, hend]
      rfl
    · rw [hbegun _ hfifo, hrepeat, rldCountRest, hend]
      rfl
  case holdsFirst =>
    rw [rldFirstRest, rldSrcByte_of_open hsrc hfifo heof]
    rfl
  case holdsRepeat =>
    rw [hbegun _ hfifo, rldRepeatRest, rldSrcByte_of_open (s := s.setDin { s.din with fifo := [] }) hsrc rfl heof]
    rfl
  case holdsCount =>
    rw [hbegun _ hfifo, hrepeat, rldCountRest, rldSrcByte_of_open (s := s.setDin { s.din with fifo := [] }) hsrc rfl heof]
    rfl

end

/-! ## The LZW decoder's bytes -/

theorem lzdNextByte_keeps {s u : State} (h : (lzdNextByte s).Leaves (BytesTaken s)) :
    (∀ b, lzdNextByte s = .got b u → u.rld = s.rld ∧ u.rsp = s.rsp) ∧ (lzdNextByte s = .eod u → u.rld = s.rld ∧ u.rsp = s.rsp) ∧
    (lzdNextByte s = .waits u → u.rld = s.rld ∧ u.rsp = s.rsp) ∧
    (∀ c, lzdNextByte s = .faulted c u → u.rld = s.rld ∧ u.rsp = s.rsp) := by
  have hkeeps : BytesTaken s u → u.rld = s.rld ∧ u.rsp = s.rsp := fun hu => by
    rw [hu.frame]
    exact ⟨rfl, rfl⟩
  refine ⟨fun b hx => ?_, fun hx => ?_, fun hx => ?_, fun c hx => ?_⟩ <;> rw [hx] at h <;> exact hkeeps h

/-- RLD_READ at a later byte of an escape sequence, and the LZD_READ at the same place, which finds the response
`r` waiting. -/
theorem rldLater {s u : State} {r : Response} {d : Rld} {w : Option Word} (hd : Hold) (k : Byte → State → Result) (hrld : s.rld = d)
    (hrsp : s.rsp = w) (hsrc : d.src = .lzd) (h : exec .lzdRd (answered r s) = .next u) :
    (∀ h', u.seq = .holding h' →
      (rldSrcByte s).conclude hd rldTruncated k = .next { u with seq := .holding hd, rsp := w }) ∧
    (u.seq = .idle → u.rsp = some 0x80000000#32 →
      (rldSrcByte s).conclude hd rldTruncated k = .next { u with rld := { d with flt := 4#6 }, rsp := some 0x44000000#32 }) ∧
    (∀ c, u.seq = .idle → u.rsp = some (responseWord (.failed c)) →
      (rldSrcByte s).conclude hd rldTruncated k = .next u ∧ u.lzd.flt = c ∧ u.rld = d) ∧
    (∀ b, u.seq = .idle → u.rsp = some (0#24 ++ b) → ∃ v, u = answered (.done (b.setWidth 24)) v ∧
      (rldSrcByte s).conclude hd rldTruncated k = k b v ∧ v.rld = d ∧ v.rsp = w) := by
  subst hrld hrsp
  have hleaves := lzdNextByte_leaves s
  have hread : ((lzdNextByte s).mapState (answered r)).conclude .lzdRead respondEnd (fun b t => respondData (b.setWidth 24) t) = .next u :=
    lzdNextByte_map (sparesInput_answered r) s ▸ h
  rw [rldSrcByte_lzd hsrc]
  cases hx : lzdNextByte s with
  | got b v =>
    obtain ⟨hrld, hrsp⟩ := (lzdNextByte_keeps hleaves).1 b hx
    rw [hx] at hread
    obtain rfl := respond_next.mp hread
    have hword : some (0#24 ++ b) = some (responseWord (.done (b.setWidth 24))) := congrArg some (responseWord_done_byte b).symm
    refine ⟨fun _ => nofun, fun _ he => ?_, fun c _ hc => ?_, fun b' _ hb => ?_⟩
    · exact absurd (Option.some.inj (hword.trans he)).symm (endedWord_ne_byteWord b)
    · exact absurd (Option.some.inj (hword.trans hc)).symm (failedWord_ne_byteWord c b)
    · obtain rfl := byteWord_inj (Option.some.inj (hword.trans hb))
      exact ⟨v, rfl, rfl, hrld, hrsp⟩
  | eod v =>
    obtain ⟨hrld, hrsp⟩ := (lzdNextByte_keeps hleaves).2.1 hx
    rw [hx] at hread
    obtain rfl := respond_next.mp hread
    refine ⟨fun _ => nofun, fun _ _ => ?_, fun c _ hc => ?_, fun b' _ hb => ?_⟩
    · rw [← hrld]
      rfl
    · exact absurd (Option.some.inj hc).symm (failedWord_ne_endedWord c)
    · exact absurd (Option.some.inj hb) (endedWord_ne_byteWord b')
  | waits v =>
    obtain ⟨hrld, hrsp⟩ := (lzdNextByte_keeps hleaves).2.2.1 hx
    rw [hx] at hread
    obtain rfl := holdAt_next.mp hread
    refine ⟨fun h' _ => ?_, nofun, fun _ => nofun, fun _ => nofun⟩
    rw [← hrsp]
    rfl
  | faulted c v =>
    obtain ⟨hrld, hrsp⟩ := (lzdNextByte_keeps hleaves).2.2.2 c hx
    rw [hx] at hread
    obtain rfl := respond_next.mp hread
    refine ⟨fun _ => nofun, fun _ he => ?_, fun c' _ hc => ?_, fun b' _ hb => ?_⟩
    · exact absurd (Option.some.inj he) (failedWord_ne_endedWord c)
    · obtain rfl := failedWord_inj (Option.some.inj hc)
      exact ⟨rfl, rfl, hrld⟩
    · exact absurd (Option.some.inj hb) (failedWord_ne_byteWord c b')
  | broken f =>
    rw [hx] at hread
    cases hread

/-- RLD_READ at a sequence boundary, and the LZD_READ at the same place. -/
theorem rldFirst_lzd {s t : State} (hsrc : s.rld.src = .lzd) (h : exec .lzdRd s = .next t) :
    (∀ h', t.seq = .holding h' → rldFirstRest s = .next { t with seq := .holding .rldFirst }) ∧
    (t.seq = .idle → t.rsp ≠ some (0#24 ++ s.rld.esc) → rldFirstRest s = .next t ∧ t.rld = s.rld) ∧
    (t.seq = .idle → t.rsp = some (0#24 ++ s.rld.esc) → ∃ v, t = answered (.done (s.rld.esc.setWidth 24)) v ∧
      rldFirstRest s = rldRepeatRest v ∧ v.rld = s.rld ∧ v.rsp = s.rsp) := by
  have hleaves := lzdNextByte_leaves s
  have hread : (lzdNextByte s).conclude .lzdRead respondEnd (fun b t => respondData (b.setWidth 24) t) = .next t := h
  rw [rldFirstRest, rldSrcByte_lzd hsrc]
  cases hx : lzdNextByte s with
  | got b v =>
    obtain ⟨hrld, hrsp⟩ := (lzdNextByte_keeps hleaves).1 b hx
    rw [hx] at hread
    obtain rfl := respond_next.mp hread
    have hword : some (0#24 ++ b) = some (responseWord (.done (b.setWidth 24))) := congrArg some (responseWord_done_byte b).symm
    refine ⟨fun _ => nofun, fun _ hne => ?_, fun _ he => ?_⟩
    · have hb : b ≠ v.rld.esc := fun hb => hne (by rw [← hrld, ← hb]; exact hword.symm)
      exact ⟨if_neg hb, hrld⟩
    · obtain rfl := byteWord_inj (Option.some.inj (hword.trans he))
      exact ⟨v, rfl, if_pos (congrArg Rld.esc hrld.symm), hrld, hrsp⟩
  | eod v =>
    obtain ⟨hrld, hrsp⟩ := (lzdNextByte_keeps hleaves).2.1 hx
    rw [hx] at hread
    obtain rfl := respond_next.mp hread
    exact ⟨fun _ => nofun, fun _ _ => ⟨rfl, hrld⟩, fun _ he => absurd (Option.some.inj he) (endedWord_ne_byteWord _)⟩
  | waits v =>
    rw [hx] at hread
    obtain rfl := holdAt_next.mp hread
    exact ⟨fun _ _ => rfl, nofun, nofun⟩
  | faulted c v =>
    obtain ⟨hrld, hrsp⟩ := (lzdNextByte_keeps hleaves).2.2.2 c hx
    rw [hx] at hread
    obtain rfl := respond_next.mp hread
    exact ⟨fun _ => nofun, fun _ _ => ⟨rfl, hrld⟩, fun _ he => absurd (Option.some.inj he) (failedWord_ne_byteWord c _)⟩
  | broken f =>
    rw [hx] at hread
    cases hread

/-- Settles O50: `rldFirst_lzd` for the first byte, `rldLater` for the two bytes after the escape byte. -/
theorem rldReadDecodesFromTheLzwDecoder : Obligations.RldReadDecodesFromTheLzwDecoder := by
  intro s t _ hflt hrem hsrc ht
  rw [exec_rldRd_of_first hflt hrem]
  obtain ⟨hholds, hother, hescape⟩ := rldFirst_lzd hsrc ht
  refine ⟨hholds, hother, fun u hseq hrsp hu => ?_⟩
  obtain ⟨v, rfl, hfirst, hrld, hvrsp⟩ := hescape hseq hrsp
  rw [hfirst]
  obtain ⟨hholds, hends, hfails, hbyte⟩ := rldLater .rldRepeat (fun r s' => rldCountRest r s') hrld hvrsp hsrc hu
  refine ⟨hholds, hends, hfails, fun r w hseq' hrsp' hw => ?_⟩
  obtain ⟨x, rfl, hsecond, hrld', hxrsp⟩ := hbyte r hseq' hrsp'
  rw [show rldRepeatRest v = rldCountRest r x from hsecond]
  obtain ⟨hholds, hends, hfails, hbyte⟩ := rldLater (.rldCount r)
    (fun k s' => rldRespond r (s'.setRld { s'.rld with rb := r, rem := k.setWidth 9 })) hrld' hxrsp hsrc hw
  refine ⟨hholds, hends, hfails, fun k hseq'' hrsp'' => ?_⟩
  obtain ⟨y, rfl, hthird, hrld'', -⟩ := hbyte k hseq'' hrsp''
  rw [show rldCountRest r x = rldRespond r (y.setRld { y.rld with rb := r, rem := k.setWidth 9 }) from hthird, hrld'',
    ← responseWord_done_byte]
  rfl

end Sys2Proof.Machine

/-! PROOFS. Both LZW widths follow the dictionary sizes (30_encoding.md R51, 43_lzw_decoder.md R87, 44_lzw_encoder.md R95). -/

namespace Sys2Proof.Machine

/-! ## The schedule -/

/-- The width `w` is the length of `n` in bits. -/
def isLength (w : BitVec 5) (n : Nat) : Prop := w.toNat = Nat.log2 n + 1

/-- One more, where the width grows exactly when the number fills it. -/
theorem isLength_succ {w : BitVec 5} {n : Nat} (hn : n ≠ 0) (hw : w.toNat ≤ 24) (h : isLength w n) :
    isLength (if n = 2 ^ w.toNat - 1 then w + 1#5 else w) (n + 1) := by
  obtain ⟨hpos, hlow, hhigh⟩ := (width_eq_log2 hn).mp h
  have hgrown : (w + 1#5).toNat = w.toNat + 1 := by
    rw [BitVec.toNat_add]
    exact Nat.mod_eq_of_lt (show w.toNat + 1 < 32 by omega)
  refine (width_eq_log2 n.succ_ne_zero).mpr ?_
  split
  · rename_i hfills
    rw [hgrown, Nat.add_sub_cancel, pow_succ]
    omega
  · exact ⟨hpos, by omega, by omega⟩

theorem isLength_initial : isLength wLzw0 257 ∧ isLength wLzw0 258 := by
  have hlog : Nat.log2 257 = 8 ∧ Nat.log2 258 = 8 := by decide
  unfold isLength
  rw [hlog.1, hlog.2]
  decide

def decoderFollows (s : State) : Prop := isLength s.bu.width (s.lzd.size.toNat + 1)

def encoderFollows (s : State) : Prop := isLength s.bp.width s.lze.size.toNat

theorem widthsFollow_iff {s : State} : widthsFollow s ↔ decoderFollows s ∧ encoderFollows s := Iff.rfl

/-! ## The decoder -/

theorem lzdInit_follows (s : State) : decoderFollows (lzdInit s) := isLength_initial.2

theorem Cleared.follows {s u : State} (h : Cleared s u) (hs : decoderFollows s) : decoderFollows u := by
  induction h with
  | refl => exact hs
  | clear _ _ ih => exact ih (lzdInit_follows _)

theorem lzdExtend_follows {c : Code} {l : List Byte} {s : State} (hu : UnitsLegal s) (hs : decoderFollows s) :
    (lzdExtend c l s).Leaves decoderFollows := by
  by_cases hcap : s.lzd.size.toNat = s.cfg.dictCap
  · rw [lzdExtend_of_full hcap]
    exact hs
  by_cases hwide : s.lzd.size.toNat + 1 = 2 ^ s.bu.width.toNat - 1 ∧ s.bu.width = 24#5
  · rw [lzdExtend_of_wide hcap hwide.1 hwide.2]
    exact hs
  cases l with
  | nil =>
    unfold lzdExtend
    rw [if_neg hcap, if_neg (by rwa [fillsWidth_iff])]
    split <;> trivial
  | cons x rest =>
    obtain ⟨y, ys, hw, -⟩ := lzdEntry_w hu.lzd
    have hroom := size_succ_lt hu hcap
    have hsize : (s.lzd.size + 1#24).toNat = s.lzd.size.toNat + 1 := by
      rw [BitVec.toNat_add]
      exact Nat.mod_eq_of_lt hroom
    rw [lzdExtend_of_room hw hcap hroom hwide]
    show isLength (if s.lzd.size.toNat + 1 = 2 ^ s.bu.width.toNat - 1 then s.bu.width + 1#5 else s.bu.width)
      ((s.lzd.size + 1#24).toNat + 1)
    rw [hsize]
    exact isLength_succ (Nat.succ_ne_zero _) hu.bu.1.2 hs

theorem lzdCode_follows {c : Code} {s : State} (hu : UnitsLegal s) (hs : decoderFollows s) : (lzdCode c s).Leaves decoderFollows := by
  unfold lzdCode lzdFirst lzdLookUp
  split
  · split <;> exact hs
  split
  · split
    · exact lzdExtend_follows hu hs
    · trivial
  split
  · split
    · exact lzdExtend_follows hu hs
    · trivial
  · exact hs

theorem lzdStep_follows {s : State} (hu : UnitsLegal s) (hs : decoderFollows s) : (lzdStep s).Leaves decoderFollows := by
  obtain ⟨u, hcleared, -, hcases⟩ := lzdStep_cases hu.bu
  have hfollows := hcleared.follows hs
  have hlegal := (hcleared.took hu).core
  rcases hcases with ⟨c, t, -, -, htook, hstep⟩ | ⟨t, hfilled, -, -, -, ⟨-, hstep⟩ | ⟨-, hstep⟩⟩ <;> rw [hstep]
  · refine lzdCode_follows (htook.took hlegal).core ?_
    rw [decoderFollows, htook.width, htook.frame]
    exact hfollows
  all_goals
    show decoderFollows t
    rw [decoderFollows, hfilled.width, hfilled.frame]
    exact hfollows

theorem lzdPop_follows {s : State} (hs : decoderFollows s) : (lzdPop s).Leaves decoderFollows := by
  unfold lzdPop
  split
  · exact hs
  · trivial

theorem lzdNextByte_follows {s : State} (hu : UnitsLegal s) (hs : decoderFollows s) : (lzdNextByte s).Leaves decoderFollows := by
  unfold lzdNextByte
  split
  · exact hs
  split
  · exact (lzdStep_follows hu hs).andThen (fun _ h => h) fun _ _ => lzdPop_follows
  · exact lzdPop_follows hs

theorem rldSrcByte_follows {s : State} (hu : UnitsLegal s) (hs : decoderFollows s) : (rldSrcByte s).Leaves decoderFollows := by
  cases hsrc : s.rld.src with
  | din =>
    rw [rldSrcByte_din hsrc]
    refine (dinPull_leaves s).mono ?_
    rintro _ ⟨d, rfl, -⟩
    exact hs
  | lzd =>
    rw [rldSrcByte_lzd hsrc]
    exact lzdNextByte_follows hu hs

/-- A read that ends on what an operation took. -/
theorem conclude_follows {α : Type} {x : Supply α} {hd : Hold} {atEnd : State → Result} {k : α → State → Result} {t : State}
    (hx : x.Leaves decoderFollows) (hend : ∀ u, decoderFollows u → atEnd u = .next t → decoderFollows t)
    (hk : ∀ a u, x = .got a u → decoderFollows u → k a u = .next t → decoderFollows t) (h : x.conclude hd atEnd k = .next t) :
    decoderFollows t := by
  rcases conclude_next h with ⟨a, u, rfl, hu⟩ | ⟨u, rfl, hu⟩ | ⟨u, rfl, rfl⟩ | ⟨c, u, rfl, rfl⟩
  · exact hk a u rfl hx hu
  · exact hend u hx hu
  · exact hx
  · exact hx

theorem respond_follows {r : Response} {s t : State} (hs : decoderFollows s) (h : respond r s = .next t) : decoderFollows t := by
  obtain rfl := respond_next.mp h
  exact hs

theorem rldTruncated_follows {t : State} (u : State) (hu : decoderFollows u) (h : rldTruncated u = .next t) : decoderFollows t :=
  respond_follows (s := latchFault .rld (faultBits .endOfData) u) hu h

section
variable {s t : State} (hu : UnitsLegal s) (hs : decoderFollows s)
include hu hs

theorem rldCountRest_follows {r : Byte} (h : rldCountRest r s = .next t) : decoderFollows t :=
  conclude_follows (rldSrcByte_follows hu hs) rldTruncated_follows
    (fun k u _ hu' => respond_follows (s := u.setRld { u.rld with rb := r, rem := k.setWidth 9 }) hu') h

theorem rldRepeatRest_follows (h : rldRepeatRest s = .next t) : decoderFollows t :=
  conclude_follows (rldSrcByte_follows hu hs) rldTruncated_follows
    (fun _ _ hgot hu' => rldCountRest_follows (rldSrcByte_took hu hgot).core hu') h

theorem exec_rldRd_follows (h : exec .rldRd s = .next t) : decoderFollows t := by
  rcases unlessLatched_next h with ⟨-, rfl⟩ | ⟨-, h⟩
  · exact hs
  rcases ite_next h with h | h
  · refine conclude_follows (rldSrcByte_follows hu hs) (fun u hu' => respond_follows hu') (fun b u hgot hu' hk => ?_) h
    rcases ite_next hk with hk | hk
    · exact rldRepeatRest_follows (rldSrcByte_took hu hgot).core hu' hk
    · exact respond_follows hu' hk
  · exact respond_follows (s := s.setRld { s.rld with rem := s.rld.rem - 1#9 }) hs h

theorem exec_decoderFollows {i : Instr} (hi : (∀ n, i ≠ .buSetw n) ∧ i ≠ .buIncw) (h : exec i s = .next t) : decoderFollows t := by
  obtain ⟨-, -, -, -, hwidth, -, -, -, hlzd, -⟩ := elementsChangeOnlyUnderTheirCommands i s t h
  cases i with
  | lzdRd =>
    exact conclude_follows (lzdNextByte_follows hu hs) (fun _ => respond_follows) (fun _ _ _ => respond_follows) h
  | lzdClr =>
    rcases exec_lzdClr_next h with ⟨-, rfl⟩ | ⟨-, rfl⟩
    · exact hs
    · exact lzdInit_follows s
  | reset =>
    obtain rfl := respond_next.mp h
    rw [applyReset_eq]
    exact isLength_initial.2
  | rldRd => exact exec_rldRd_follows hu hs h
  | buSetw n => exact absurd rfl (hi.1 n)
  | buIncw => exact absurd rfl hi.2
  | _ =>
    rw [decoderFollows, hwidth, hlzd]
    exact hs

end

/-! ## The encoder -/

/-- A push that does not hold. -/
theorem bpDrain_andThen_idle {s t : State} {hd : List Byte → Hold} {k : State → Result} (h : (bpDrain s).andThen hd k = .next t)
    (hidle : t.seq = .idle) : k (bpGone (s.bp.cnt.toNat / 8) s) = .next t := by
  rcases bpDrain_eq s with ⟨-, hsent⟩ | ⟨j, rest, -, -, hwaits⟩
  · rwa [hsent] at h
  · rw [hwaits] at h
    obtain rfl := holdAt_next.mp h
    cases hidle

theorem lzeWriteRest_idle {b : Byte} {s t : State} (h : lzeWriteRest b s = .next t) (hidle : t.seq = .idle) :
    t = answered (.done 0#24) (lzeInsert b (lzeGrow (bpGone (s.bp.cnt.toNat / 8) s))) :=
  respond_next.mp (bpDrain_andThen_idle (k := fun u => respondOk (lzeInsert b (lzeGrow u))) h hidle)

theorem lzeClearWRest_idle {s t : State} (h : lzeClearWRest s = .next t) (hidle : t.seq = .idle) :
    lzeClearCodeRest (bpPut clearCode (lzeGrow (bpGone (s.bp.cnt.toNat / 8) s))) = .next t :=
  bpDrain_andThen_idle (k := fun u => lzeClearCodeRest (bpPut clearCode (lzeGrow u))) h hidle

theorem lzeFlushWRest_idle {s t : State} (h : lzeFlushWRest s = .next t) (hidle : t.seq = .idle) :
    lzeFlushCloseRest (bpGone (s.bp.cnt.toNat / 8) s) = .next t :=
  bpDrain_andThen_idle (k := lzeFlushCloseRest) h hidle

theorem bpCloseByte_andThen_idle {s t : State} {hd : List Byte → Hold} {k : State → Result}
    (h : (bpCloseByte s).andThen hd k = .next t) (hidle : t.seq = .idle) : k (afterClose s) = .next t := by
  rcases bpCloseByte_eq s with ⟨-, hsent⟩ | ⟨-, -, hwaits⟩
  · rwa [hsent] at h
  · rw [hwaits] at h
    obtain rfl := holdAt_next.mp h
    cases hidle

theorem lzePutW_next {rest : State → Result} {s t : State} (h : lzePutW rest s = .next t) :
    ∃ c, lzeCode s.lze s.lze.wseq = some c ∧ rest (bpPut c s) = .next t := by
  unfold lzePutW at h
  split at h
  · rename_i c hc
    exact ⟨c, hc, h⟩
  · cases h

theorem lzeFinish_follows {s t : State} (h : lzeFinish s = .next t) : encoderFollows t := by
  obtain rfl := respond_next.mp h
  exact isLength_initial.1

theorem exec_lzeWr_follows {b : Byte} {s t : State} (hu : UnitsLegal s) (hq : quiet s) (hs : encoderFollows s)
    (h : exec (.lzeWr b) s = .next t) (hidle : t.seq = .idle) : encoderFollows t := by
  rcases unlessLatched_next h with ⟨-, rfl⟩ | ⟨-, h⟩
  · exact hs
  split at h
  · obtain rfl := respond_next.mp h
    exact hs
  split at h
  · obtain rfl := respond_next.mp h
    exact hs
  split at h
  · obtain rfl := respond_next.mp h
    exact hs
  rename_i hcap
  split at h
  · obtain rfl := respond_next.mp h
    exact hs
  obtain ⟨c, -, hput⟩ := lzePutW_next h
  obtain rfl := lzeWriteRest_idle hput hidle
  rw [lzeGrow_state]
  have hpos : s.lze.size.toNat ≠ 0 := by
    have hsize := hu.lze.size_eq
    simp only [dictInit] at hsize
    omega
  have hsize : (s.lze.size + 1#24).toNat = s.lze.size.toNat + 1 := by
    have hle := hu.lze.size_le
    have hcap24 := hu.cfg.2.1
    rw [BitVec.toNat_add]
    exact Nat.mod_eq_of_lt (show s.lze.size.toNat + 1 < 2 ^ 24 by omega)
  show isLength (if s.lze.size.toNat = 2 ^ s.bp.width.toNat - 1 then s.bp.width + 1#5 else s.bp.width) (s.lze.size + 1#24).toNat
  rw [hsize]
  exact isLength_succ hpos hq.1.1.2 hs

theorem lzeClearCodeRest_follows {s t : State} (h : lzeClearCodeRest s = .next t) (hidle : t.seq = .idle) : encoderFollows t :=
  lzeFinish_follows (bpDrain_andThen_idle h hidle)

theorem lzeFlushCloseRest_follows {s t : State} (h : lzeFlushCloseRest s = .next t) (hidle : t.seq = .idle) : encoderFollows t :=
  lzeFinish_follows (bpCloseByte_andThen_idle h hidle)

theorem exec_lzeClr_follows {s t : State} (hs : encoderFollows s) (h : exec .lzeClr s = .next t) (hidle : t.seq = .idle) :
    encoderFollows t := by
  rcases unlessLatched_next h with ⟨-, rfl⟩ | ⟨-, h⟩
  · exact hs
  rcases ite_next h with h | h
  · exact lzeClearCodeRest_follows h hidle
  rcases ite_next h with h | h
  · obtain rfl := respond_next.mp h
    exact hs
  obtain ⟨c, -, hput⟩ := lzePutW_next h
  exact lzeClearCodeRest_follows (lzeClearWRest_idle hput hidle) hidle

theorem exec_lzeFlush_follows {s t : State} (hs : encoderFollows s) (h : exec .lzeFlush s = .next t) (hidle : t.seq = .idle) :
    encoderFollows t := by
  rcases unlessLatched_next h with ⟨-, rfl⟩ | ⟨-, h⟩
  · exact hs
  rcases ite_next h with h | h
  · exact lzeFlushCloseRest_follows h hidle
  rcases ite_next h with h | h
  · obtain rfl := respond_next.mp h
    exact hs
  obtain ⟨c, -, hput⟩ := lzePutW_next h
  exact lzeFlushCloseRest_follows (lzeFlushWRest_idle hput hidle) hidle

theorem exec_encoderFollows {i : Instr} {s t : State} (hu : UnitsLegal s) (hq : quiet s) (hs : encoderFollows s)
    (hi : (∀ n, i ≠ .bpSetw n) ∧ i ≠ .bpIncw) (h : exec i s = .next t) (hidle : t.seq = .idle) : encoderFollows t := by
  obtain ⟨-, -, -, -, -, -, hwidth, -, -, hlze, -⟩ := elementsChangeOnlyUnderTheirCommands i s t h
  cases i with
  | lzeWr b => exact exec_lzeWr_follows hu hq hs h hidle
  | lzeClr => exact exec_lzeClr_follows hs h hidle
  | lzeFlush => exact exec_lzeFlush_follows hs h hidle
  | reset =>
    obtain rfl := respond_next.mp h
    rw [applyReset_eq]
    exact isLength_initial.1
  | bpSetw n => exact absurd rfl (hi.1 n)
  | bpIncw => exact absurd rfl hi.2
  | _ =>
    rw [encoderFollows, hwidth, hlze]
    exact hs

/-- Settles O46: the decoder's schedule and the encoder's, each over every command. -/
theorem widthsFollowTheDictionarySizes : Obligations.WidthsFollowTheDictionarySizes := by
  intro i s t hi hs hfollows h hidle
  have hne : ((∀ n, i ≠ .buSetw n) ∧ i ≠ .buIncw) ∧ (∀ n, i ≠ .bpSetw n) ∧ i ≠ .bpIncw := by
    refine ⟨⟨fun n => ?_, ?_⟩, fun n => ?_, ?_⟩ <;> rintro rfl <;> exact hi
  exact ⟨exec_decoderFollows hs.1 hfollows.1 hne.1 h, exec_encoderFollows hs.1 hs.2 hfollows.2 hne.2 h hidle⟩

end Sys2Proof.Machine

/-! PROOFS. The RLE round trip (45_rle.md R110): what the encoder writes is a list of verbatim bytes and escape sequences that stands for
the bytes written, and the decoder returns what such a list stands for. -/

namespace Sys2Proof.Machine

/-! ## What a stream stands for (30_encoding.md R52) -/

/-- Under the escape byte `e` the first list is an RLE stream that stands for the second. -/
inductive Encodes (e : Byte) : List Byte → List Byte → Prop where
  /-- The empty stream. -/
  | nil : Encodes e [] []
  /-- A verbatim byte. -/
  | verbatim {b : Byte} {bytes y : List Byte} (hb : b ≠ e) (rest : Encodes e bytes y) : Encodes e (b :: bytes) (b :: y)
  /-- An escape sequence: `k + 1` copies of `r`. -/
  | escape (r k : Byte) {bytes y : List Byte} (rest : Encodes e bytes y) :
      Encodes e (e :: r :: k :: bytes) (List.replicate (k.toNat + 1) r ++ y)

theorem Encodes.append {e : Byte} {bytes bytes' y y' : List Byte} (h : Encodes e bytes y) (h' : Encodes e bytes' y') :
    Encodes e (bytes ++ bytes') (y ++ y') := by
  induction h with
  | nil => exact h'
  | verbatim hb _ ih => exact .verbatim hb ih
  | escape r k _ ih =>
    rw [List.append_assoc]
    exact .escape r k ih

/-- The bytes of a run stand for the run. -/
theorem rleRunBytes_encodes {r : Rle} (hlen : r.len.toNat ≤ 256) :
    Encodes r.esc (rleRunBytes r) (List.replicate r.len.toNat r.rb) := by
  by_cases hzero : r.len = 0#9
  · rw [rleRunBytes_of_empty hzero, hzero]
    exact .nil
  by_cases hlone : r.len = 1#9 ∧ r.rb ≠ r.esc
  · rw [rleRunBytes_of_lone hlone.1 hlone.2, hlone.1]
    exact .verbatim hlone.2 .nil
  · rw [rleRunBytes_of_escaped hzero fun hone => not_not.mp fun hne => hlone ⟨hone, hne⟩]
    have hpos : r.len.toNat ≠ 0 := fun h => hzero (BitVec.eq_of_toNat_eq h)
    have hcount : (BitVec.ofNat 8 (r.len.toNat - 1)).toNat + 1 = r.len.toNat := by
      rw [BitVec.toNat_ofNat, Nat.mod_eq_of_lt (show r.len.toNat - 1 < 2 ^ 8 by omega)]
      omega
    have hrun := Encodes.escape (e := r.esc) r.rb (BitVec.ofNat 8 (r.len.toNat - 1)) .nil
    rwa [hcount, List.append_nil] at hrun

/-! ## The encoder -/

/-- The encoder has been given the bytes `y`: those that have left it, then the run it buffers. -/
structure EncoderHas (e : Byte) (y : List Byte) (s : State) : Prop where
  esc : s.rle.esc = e
  len : s.rle.len.toNat ≤ 255
  ready : s.env.ready = .always
  given : ∃ y', Encodes e s.env.dout y' ∧ y = y' ++ List.replicate s.rle.len.toNat s.rle.rb

section
variable {e : Byte} {y : List Byte} {s : State}

/-- What has left once the run has. -/
theorem EncoderHas.encodes (h : EncoderHas e y s) : Encodes e (s.env.dout ++ rleRunBytes s.rle) y := by
  obtain ⟨y', hsent, rfl⟩ := h.given
  have hrun := rleRunBytes_encodes (r := s.rle) (le_trans h.len (by decide))
  rw [h.esc] at hrun
  exact hsent.append hrun

theorem handedOver_ready_of_always (h : s.env.ready = .always) (bytes : List Byte) : (handedOver bytes s).env.ready = .always := by
  show s.env.ready.after bytes.length = _
  rw [h]
  rfl

/-- Bytes pushed to a host that accepts them all, then the response. -/
theorem pushAll_respondOk (h : s.env.ready = .always) (bytes : List Byte) (hd : List Byte → Hold) (f : State → State) :
    (pushAll bytes s).andThen hd (fun t => respondOk (f t)) = .next (answered (.done 0#24) (f (handedOver bytes s))) :=
  pushAll_andThen_of_accepts _ _ (accepts_of_always h _)

/-- RLE_WRITE of `b`, where the host accepts every byte. -/
theorem EncoderHas.write (h : EncoderHas e y s) (b : Byte) :
    ∃ t, exec (.rleWr b) s = .next t ∧ t.seq = .idle ∧ t.rsp = some 0#32 ∧ EncoderHas e (y ++ [b]) (t.setRsp none) := by
  by_cases hequal : s.rle.len ≠ 0#9 ∧ b = s.rle.rb
  · obtain ⟨hrun, rfl⟩ := hequal
    obtain ⟨y', hsent, rfl⟩ := h.given
    have hnext : y' ++ List.replicate s.rle.len.toNat s.rle.rb ++ [s.rle.rb] = y' ++ List.replicate (s.rle.len.toNat + 1) s.rle.rb := by
      rw [List.append_assoc, ← List.replicate_succ']
    rcases Nat.lt_or_eq_of_le h.len with hbelow | hfull
    · have hlen : (s.rle.len + 1#9).toNat = s.rle.len.toNat + 1 := by bv_omega
      refine ⟨_, (exec_rleWr_of_equal hrun rfl hbelow).trans (respondOk_eq _), rfl, rfl, h.esc, ?_, h.ready, y', hsent, ?_⟩
      · show (s.rle.len + 1#9).toNat ≤ 255
        omega
      · show _ = y' ++ List.replicate (s.rle.len + 1#9).toNat s.rle.rb
        rw [hlen, hnext]
    · have hlen : s.rle.len = 255#9 := BitVec.eq_of_toNat_eq hfull
      have hbytes : Encodes s.rle.esc [s.rle.esc, s.rle.rb, 0xFF#8] (List.replicate 256 s.rle.rb) := by
        have hseq := Encodes.escape (e := s.rle.esc) s.rle.rb 0xFF#8 .nil
        rwa [List.append_nil] at hseq
      have hexec := (exec_rleWr_of_full rfl hlen).trans (pushAll_respondOk (s := s.setRle { s.rle with len := 256#9 }) h.ready _ _ _)
      refine ⟨_, hexec, rfl, rfl, h.esc, Nat.zero_le _,
        handedOver_ready_of_always (s := s.setRle { s.rle with len := 256#9 }) h.ready _, _, ?_, (List.append_nil _).symm⟩
      rw [hnext, hfull, ← h.esc]
      exact (h.esc.symm ▸ hsent).append hbytes
  · have hnew : s.rle.len = 0#9 ∨ b ≠ s.rle.rb := by
      by_cases hzero : s.rle.len = 0#9
      · exact .inl hzero
      · exact .inr fun hb => hequal ⟨hzero, hb⟩
    exact ⟨_, (exec_rleWr_of_new hnew).trans (pushAll_respondOk h.ready _ _ fun t => t.setRle { t.rle with rb := b, len := 1#9 }),
      rfl, rfl, h.esc, show (1#9).toNat ≤ 255 by decide, handedOver_ready_of_always h.ready _, y, h.encodes, rfl⟩

/-- RLE_WRITEs and a flush. -/
theorem EncoderHas.writes (x : List Byte) {y : List Byte} {s : State} (h : EncoderHas e y s) :
    ∃ t, runCommands (x.map .rleWr ++ [.rleFlush]) s = some (List.replicate (x.length + 1) 0#32, t) ∧ Encodes e t.env.dout (y ++ x) := by
  induction x generalizing y s with
  | nil =>
    refine ⟨_, runCommands_of_next ((exec_rleFlush s).trans (pushAll_respondOk h.ready _ _ rleEndRun)) rfl rfl rfl, ?_⟩
    rw [List.append_nil]
    exact h.encodes
  | cons b x ih =>
    obtain ⟨u, hu, hseq, hrsp, hnext⟩ := h.write b
    obtain ⟨t, ht, hsent⟩ := ih hnext
    refine ⟨t, runCommands_of_next hu hseq hrsp ht, ?_⟩
    rwa [List.append_assoc] at hsent

/-! ## The decoder -/

/-- The read `i`, given again and again, returns the bytes `y` and then one END. -/
def readsBack (i : Instr) (y : List Byte) (s : State) : Prop :=
  ∃ u, runCommands (List.replicate (y.length + 1) i) s = some (y.map (fun b => 0#24 ++ b) ++ [0x80000000#32], u)

theorem readsBack_cons {i : Instr} {b : Byte} {t : State} (h : exec i s = .next t) (hseq : t.seq = .idle) (hrsp : t.rsp = some (0#24 ++ b))
    (hrest : readsBack i y (t.setRsp none)) :
    readsBack i (b :: y) s := by
  obtain ⟨u, hu⟩ := hrest
  exact ⟨u, runCommands_of_next h hseq hrsp hu⟩

/-- `s` with its pending repeat run out. -/
def repeatOver (s : State) : State := { s with rld := { s.rld with rem := 0#9 }, seq := .idle, rsp := none }

/-- A pending repeat is returned first. -/
theorem readsBack_replay (n : Nat) {s : State} (hn : s.rld.rem.toNat = n) (hflt : s.rld.flt = 0#6) (hidle : s.seq = .idle)
    (hr : s.rsp = none) (h : readsBack .rldRd y (repeatOver s)) : readsBack .rldRd (List.replicate n s.rld.rb ++ y) s := by
  induction n generalizing s with
  | zero =>
    have hsame : repeatOver s = s := by
      have hrem : s.rld.rem = 0#9 := BitVec.eq_of_toNat_eq hn
      rw [repeatOver, ← hrem, ← hidle, ← hr]
    rwa [hsame] at h
  | succ n ih =>
    have hrem : s.rld.rem ≠ 0#9 := fun hrem => by
      rw [hrem] at hn
      cases hn
    have hless : (s.rld.rem - 1#9).toNat = n := by bv_omega
    exact readsBack_cons (rldReadReplaysTheRun.2 s hflt hrem) rfl rfl
      (ih (s := { s with rld := { s.rld with rem := s.rld.rem - 1#9 }, seq := .idle, rsp := none }) hless hflt rfl rfl h)

/-- The decoder returns what the stream in DIN stands for. -/
theorem readsBack_of_encodes {bytes : List Byte} (h : Encodes e bytes y) {s : State} (hesc : s.rld.esc = e) (hflt : s.rld.flt = 0#6)
    (hrem : s.rld.rem = 0#9) (hsrc : s.rld.src = .din) (heof : s.din.eof = true) (hfifo : s.din.fifo = bytes) :
    readsBack .rldRd y s := by
  induction h generalizing s with
  | nil =>
    obtain ⟨-, -, hends, -⟩ := rldReadDecodesFromDin s 0#8 0#8 0#8 [] hflt hrem hsrc
    exact ⟨_, runCommands_of_next (hends ⟨hfifo, heof⟩) rfl rfl rfl⟩
  | @verbatim b bytes y hb _ ih =>
    obtain ⟨hverbatim, -⟩ := rldReadDecodesFromDin s b 0#8 0#8 bytes hflt hrem hsrc
    exact readsBack_cons (hverbatim hfifo (hesc ▸ hb)) rfl rfl
      (ih (s := { s with din := { s.din with fifo := bytes }, seq := .idle, rsp := none }) hesc hflt hrem hsrc heof rfl)
  | @escape r k bytes y _ ih =>
    obtain ⟨-, hescape, -⟩ := rldReadDecodesFromDin s 0#8 r k bytes hflt hrem hsrc
    have hcount : (k.setWidth 9).toNat = k.toNat := by
      rw [BitVec.toNat_setWidth]
      exact Nat.mod_eq_of_lt (lt_trans k.isLt (by decide))
    refine readsBack_cons (hescape (hesc.symm ▸ hfifo)) rfl rfl ?_
    exact readsBack_replay k.toNat
      (s := { s with din := { s.din with fifo := bytes }, rld := { s.rld with rb := r, rem := k.setWidth 9 }, seq := .idle, rsp := none })
      hcount hflt rfl rfl
      (ih (s := { s with din := { s.din with fifo := bytes }, rld := { s.rld with rb := r, rem := 0#9 }, seq := .idle, rsp := none })
        hesc hflt rfl hsrc heof rfl)

end

/-- Settles O54: the bytes written encode the sequence, and are read back. -/
theorem rleRoundTrip : Obligations.RleRoundTrip := by
  intro c e x
  have hempty : rleRunBytes (freshBlock c).rle = [] := rleRunBytes_of_empty rfl
  have hesc : exec (.rleEsc e) (freshBlock c) =
      .next { freshBlock c with rle := { Rle.reset with esc := e }, seq := .idle, rsp := some 0#32 } := by
    rw [exec_rleEsc, hempty]
    rfl
  obtain ⟨t, hrun, hsent⟩ := EncoderHas.writes (e := e) x (y := [])
    (s := { freshBlock c with rle := { Rle.reset with esc := e }, seq := .idle, rsp := none })
    ⟨rfl, Nat.zero_le _, rfl, [], .nil, rfl⟩
  have hset : exec (.rldEsc e) (freshBlockReading c t.env.dout) =
      .next { freshBlockReading c t.env.dout with rld := { Rld.reset with esc := e }, seq := .idle, rsp := some 0#32 } := by
    rw [exec_rldEsc, unlessLatched_of_clear (u := .rld) _ rfl]
    rfl
  obtain ⟨u, hread⟩ := readsBack_of_encodes hsent
    (s := { freshBlockReading c t.env.dout with rld := { Rld.reset with esc := e }, seq := .idle, rsp := none })
    rfl rfl rfl rfl rfl rfl
  exact ⟨t, u, runCommands_of_next hesc rfl rfl hrun, runCommands_of_next hset rfl rfl hread⟩

end Sys2Proof.Machine

/-! PROOFS. The LZW decoder behind the encoder (43_lzw_decoder.md, 44_lzw_encoder.md R99): the decoder that has read every code the encoder
has written lacks only the encoder's newest string, and reads the code of the encoder's w as that string. -/

namespace Sys2Proof.Machine

/-! ## The decoder between two reads -/

/-- `s` at the end of its source. -/
def sourceOver (s : State) : State := s.setDin { fifo := [], eof := true }

/-- A decoder between two commands, with nothing pending and no fault, that has still to read the codes `l`, the last it will get. Its units
are legal; DIN may hold more bytes than fit a FIFO. -/
structure DecoderAt (l : List (Nat × Nat)) (d : State) : Prop where
  legal : UnitsLegal (sourceOver d)
  flt : d.lzd.flt = 0#6
  pend : d.lzd.pend = []
  eof : d.din.eof = true
  unread : Unread l d

/-- `t` with its pending bytes returned and its response taken. -/
def drained (t : State) : State := { t with lzd := { t.lzd with pend := [] }, seq := .idle, rsp := none }

theorem drained_legal {t : State} (h : UnitsLegal (sourceOver t)) : UnitsLegal (sourceOver (drained t)) :=
  ⟨h.cfg, h.bu, { h.lzd with pend_le := le_trans (Nat.add_le_add_right (Nat.zero_le _) _) h.lzd.pend_le }, h.lze, h.rld, h.din⟩

/-- Pending bytes are returned first. -/
theorem readsBack_pend {rest y : List Byte} {t : State} (hflt : t.lzd.flt = 0#6) (hpend : t.lzd.pend = rest) (hidle : t.seq = .idle)
    (hr : t.rsp = none) (h : readsBack .lzdRd y (drained t)) : readsBack .lzdRd (rest ++ y) t := by
  induction rest generalizing t with
  | nil =>
    have hsame : drained t = t := by rw [drained, ← hpend, ← hidle, ← hr]
    rwa [hsame] at h
  | cons b rest ih =>
    exact readsBack_cons (exec_lzdRd_of_pend hflt hpend) rfl rfl
      (ih (t := { t with lzd := { t.lzd with pend := rest }, seq := .idle, rsp := none }) hflt rfl rfl rfl h)

/-- The decoder reads the bytes `y` and stands at `d'`, whatever follows. -/
def readsTo (y : List Byte) (d d' : State) : Prop := ∀ z, readsBack .lzdRd z d' → readsBack .lzdRd (y ++ z) d

section
variable {l : List (Nat × Nat)} {d : State} {c : Code}

/-- The next code, where it fits the decoder's width. -/
theorem DecoderAt.nextCode_eq (h : DecoderAt ((d.bu.width.toNat, c.toNat) :: l) d) (hc : c.toNat < 2 ^ d.bu.width.toNat) :
    d.bu.width.toNat ≤ unreadBits d ∧ nextCode d = c ∧ Unread l (afterRead d) ∧ UnitsLegal (sourceOver (afterRead d)) := by
  have hu := h.legal
  obtain ⟨-, htook, hunread⟩ := h.unread.next hu.bu hc
  exact ⟨le_trans (Nat.le_add_right _ _) h.unread.low, htook.eq_afterRead.1.symm, hunread,
    hu.cfg, htook.legal, hu.lzd, hu.lze, hu.rld, Nat.zero_le _⟩

/-- A code other than the clear code, for which the decoder puts `x :: rest` in `LZD.PEND`. -/
theorem DecoderAt.read {t : State} {x : Byte} {rest : List Byte} (h : DecoderAt ((d.bu.width.toNat, c.toNat) :: l) d)
    (hc : c.toNat < 2 ^ d.bu.width.toNat) (hne : c ≠ clearCode) (hcode : lzdCode c (afterRead d) = .got () t)
    (hpend : t.lzd.pend = x :: rest) (hflt : t.lzd.flt = 0#6) (heof : t.din.eof = true)
    (hunread : Unread l (afterRead d) → Unread l (drained t)) :
    readsTo (x :: rest) d (drained t) ∧ DecoderAt l (drained t) := by
  obtain ⟨hbits, rfl, hrest, hlegal⟩ := h.nextCode_eq hc
  have hexec : exec .lzdRd d = .next { t with lzd := { t.lzd with pend := rest }, seq := .idle, rsp := some (0#24 ++ x) } := by
    rw [exec_lzdRd_of_code (s := d) h.legal.bu h.flt h.pend hbits hne, hcode, lzdConclude_got hpend]
  have hafter : UnitsLegal (sourceOver t) := by
    have hover : lzdCode (nextCode d) (sourceOver (afterRead d)) = .got () (sourceOver t) := by
      rw [sourceOver, lzdCode_setDin, hcode]
      rfl
    rcases lzdCode_legal hlegal hne with ⟨_, _, hgot, htook, -⟩ | ⟨_, hgot | hgot, -⟩ | ⟨_, _, hgot, -⟩
    · cases hover.symm.trans hgot
      exact htook.core
    all_goals cases hover.symm.trans hgot
  exact ⟨fun _ hz => readsBack_cons hexec rfl rfl (readsBack_pend hflt rfl rfl rfl hz),
    drained_legal hafter, hflt, rfl, heof, hunread hrest⟩

/-- The first code after an initialisation, a literal. -/
theorem DecoderAt.read_first (h : DecoderAt ((d.bu.width.toNat, c.toNat) :: l) d) (hc : c.toNat < 2 ^ d.bu.width.toNat)
    (hfresh : d.lzd.fresh = true) (hlit : c.toNat < 0x100) :
    ∃ d', readsTo [c.setWidth 8] d d' ∧ DecoderAt l d' ∧ d'.cfg = d.cfg ∧ d'.bu.width = d.bu.width ∧
      d'.lzd.fresh = false ∧ d'.lzd.built = d.lzd.built ∧ d'.lzd.w = c := by
  have hne : c ≠ clearCode := by
    rintro rfl
    exact absurd hlit (by decide)
  obtain ⟨hreads, hd'⟩ := h.read hc hne (lzdCode_first_literal (s := afterRead d) hfresh hlit) rfl h.flt h.eof
    fun hu => ⟨hu.value, hu.low, hu.high⟩
  exact ⟨_, hreads, hd', rfl, rfl, rfl, rfl, rfl⟩

/-- A later code: an entry, or the KwK code. -/
theorem DecoderAt.read_next {p rest : List Byte} {x : Byte} (h : DecoderAt ((d.bu.width.toNat, c.toNat) :: l) d)
    (hc : c.toNat < 2 ^ d.bu.width.toNat) (hfresh : d.lzd.fresh = false) (hne : c ≠ clearCode)
    (hw : lzdEntry d.lzd d.lzd.w = some p) (hstring : lzdString d.lzd c p (x :: rest)) (hcap : d.lzd.size.toNat ≠ d.cfg.dictCap)
    (hwide : ¬ (d.lzd.size.toNat + 1 = 2 ^ d.bu.width.toNat - 1 ∧ d.bu.width = 24#5)) :
    ∃ d', readsTo (x :: rest) d d' ∧ DecoderAt l d' ∧ d'.cfg = d.cfg ∧
      d'.bu.width = (if d.lzd.size.toNat + 1 = 2 ^ d.bu.width.toNat - 1 then d.bu.width + 1#5 else d.bu.width) ∧
      d'.lzd.fresh = false ∧ d'.lzd.built = d.lzd.built ++ [p ++ [x]] ∧ d'.lzd.w = c := by
  have hpne : p ≠ [] := by
    obtain ⟨y, ys, hp, -⟩ := lzdEntry_w h.legal.lzd
    cases hw.symm.trans hp
    exact List.cons_ne_nil y ys
  have hcode := (lzdCode_of_string (s := afterRead d) hfresh hw hpne hstring).trans
    (lzdExtend_of_room (s := afterRead d) hw hcap (size_succ_lt (s := sourceOver d) h.legal hcap) hwide)
  obtain ⟨hreads, hd'⟩ := h.read hc hne hcode rfl h.flt h.eof fun hu => ⟨hu.value, hu.low, hu.high⟩
  exact ⟨_, hreads, hd', rfl, rfl, hfresh, rfl, rfl⟩

/-- A clear code: the read goes on from the initialised decoder. -/
theorem DecoderAt.read_clear (h : DecoderAt ((d.bu.width.toNat, clearCode.toNat) :: l) d)
    (hc : clearCode.toNat < 2 ^ d.bu.width.toNat) :
    ∃ d', readsTo [] d d' ∧ DecoderAt l d' ∧ d'.cfg = d.cfg ∧ d'.bu.width = 9#5 ∧ d'.lzd.fresh = true ∧ d'.lzd.built = [] := by
  obtain ⟨hbits, hnext, hunread, hlegal⟩ := h.nextCode_eq hc
  have hexec := lzdReadGoesOnAfterAClearCode d h.legal.bu h.flt h.pend hbits hnext
  refine ⟨{ afterRead d with
      bu := { (afterRead d).bu with width := 9#5 }
      lzd := { built := [], size := 257#24, w := 0#24, fresh := true, pend := [], flt := 0#6 } }, fun z hz => ?_,
    ⟨⟨hlegal.cfg, lzdInit_bu_legal hlegal.bu, Lzd.reset_legal hlegal.cfg.1, hlegal.lze, hlegal.rld, Nat.zero_le _⟩, rfl, rfl, h.eof,
      hunread.value, hunread.low, hunread.high⟩, rfl, rfl, rfl, rfl⟩
  obtain ⟨u, hrun⟩ := hz
  refine ⟨u, ?_⟩
  rw [List.nil_append, List.replicate_succ, runCommands, hexec]
  rw [List.replicate_succ, runCommands] at hrun
  exact hrun

/-- No code is left: one END. -/
theorem DecoderAt.ends (h : DecoderAt [] d) (hw : 8 ≤ d.bu.width.toNat) : readsBack .lzdRd [] d := by
  have hstarved : unreadBits d < d.bu.width.toNat := by
    have hhigh := h.unread.high
    rw [streamBits] at hhigh
    omega
  exact ⟨_, runCommands_of_next ((lzdReadEndsOrHolds d h.legal.bu h.flt h.pend hstarved).1 h.eof) rfl rfl rfl⟩

end

/-! ## The decoder behind the encoder -/

/-- The decoder `d` has read every code the encoder `s` has written since the last initialisation: it is fresh and so is the encoder's
map; or it lacks only the encoder's newest string, that of its own w and the first byte of the encoder's w. -/
structure Synced (s d : State) : Prop where
  cfg : d.cfg = s.cfg
  width : d.bu.width = s.bp.width
  built : (d.lzd.fresh = true ∧ d.lzd.built = [] ∧ s.lze.built = []) ∨
    (d.lzd.fresh = false ∧ s.lze.hasw = true ∧ ∃ p b rest, lzdEntry d.lzd d.lzd.w = some p ∧ s.lze.wseq = b :: rest ∧
      s.lze.built.map Prod.fst = d.lzd.built ++ [p ++ [b]])

/-- The width the encoder goes on at (R95). -/
def grownWidth (s : State) : BitVec 5 := if s.lze.size.toNat = 2 ^ s.bp.width.toNat - 1 then s.bp.width + 1#5 else s.bp.width

/-- The decoder `d` has read the code of the encoder's w too: it has all its strings. -/
structure CaughtUp (s d : State) : Prop where
  cfg : d.cfg = s.cfg
  width : d.bu.width = grownWidth s
  fresh : d.lzd.fresh = false
  built : d.lzd.built = s.lze.built.map Prod.fst
  entry : lzdEntry d.lzd d.lzd.w = some s.lze.wseq

/-- In a decoder with the encoder's strings, a code stands for the string the encoder has it for. -/
theorem lzdEntry_of_lzeCode {n : Nat} {e : Lze} {d : Lzd} (he : e.legal n) (hbuilt : d.built = e.built.map Prod.fst) {str : List Byte}
    {c : Code} (h : lzeCode e str = some c) : lzdEntry d c = some str := by
  have hlong : ((e.built.find? fun entry => entry.1 == str).map Prod.snd) = some c → lzdEntry d c = some str := by
    intro hfind
    obtain ⟨entry, hentry, rfl⟩ := Option.map_eq_some_iff.mp hfind
    have hkey : entry.1 = str := by simpa using List.find?_some hentry
    obtain ⟨k, hk, rfl⟩ := List.getElem_of_mem (List.mem_of_find?_eq_some hentry)
    have hcode := he.codes k hk
    simp only [dictInit] at hcode
    rw [lzdEntry_built (by omega), hbuilt, show (e.built[k]).2.toNat - 257 = k by omega, List.getElem?_map,
      List.getElem?_eq_getElem hk, Option.map_some, hkey]
  match str, h, hlong with
  | [b], h, _ =>
    obtain rfl := Option.some.inj ((lzeCode_single e b).symm.trans h)
    have hb : (b.setWidth 24).toNat = b.toNat := by
      rw [BitVec.toNat_setWidth]
      exact Nat.mod_eq_of_lt (lt_trans b.isLt (by decide))
    rw [lzdEntry_literal (by rw [hb]; exact b.isLt)]
    exact congrArg (fun x => some [x]) (BitVec.eq_of_toNat_eq (by
      rw [BitVec.toNat_setWidth, hb]
      exact Nat.mod_eq_of_lt b.isLt))
  | [], h, hlong => exact hlong h
  | _ :: _ :: _, h, hlong => exact hlong h

/-- A newer entry changes none of the older ones. -/
theorem lzdEntry_append {d d' : Lzd} {q : List Byte} (hbuilt : d'.built = d.built ++ [q]) {c : Code}
    (hc : c.toNat < 257 + d.built.length) : lzdEntry d' c = lzdEntry d c := by
  unfold lzdEntry
  split
  · rfl
  split
  · rfl
  · rw [hbuilt, List.getElem?_append_left (by simp only [dictInit]; omega)]

theorem encoder_size {s : State} (hu : UnitsLegal s) : s.lze.size.toNat = 257 + s.lze.built.length := hu.lze.size_eq

theorem decoder_size {n : Nat} {e : Lzd} (h : e.legal n) : e.size.toNat = 257 + e.built.length := h.size_eq

/-- An encoder's width is 9 or more, and its codes fit it. -/
theorem width_of_isLength {w : BitVec 5} {n : Nat} (hn : 257 ≤ n) (h : isLength w n) : 9 ≤ w.toNat ∧ n < 2 ^ w.toNat := by
  obtain ⟨-, -, hhigh⟩ := (width_eq_log2 (by omega)).mp h
  refine ⟨?_, hhigh⟩
  by_contra hlt
  have hpow : 2 ^ w.toNat ≤ 2 ^ 8 := Nat.pow_le_pow_right (by decide) (by omega)
  omega

theorem grownWidth_isLength {s : State} (hs : s.settled) (h : encoderFollows s) : isLength (grownWidth s) (s.lze.size.toNat + 1) := by
  have hsize := encoder_size hs.1
  exact isLength_succ (by omega) hs.2.1.1.2 h

/-- An encoder with no string inserted does not grow. -/
theorem grownWidth_of_fresh {s : State} (hu : UnitsLegal s) (hbuilt : s.lze.built = []) : grownWidth s = s.bp.width := by
  have hsize := encoder_size hu
  rw [hbuilt, List.length_nil, Nat.add_zero] at hsize
  refine if_neg fun hfills => ?_
  rw [hsize] at hfills
  rcases Nat.lt_or_ge s.bp.width.toNat 9 with hlt | hge
  · have hpow : 2 ^ s.bp.width.toNat ≤ 2 ^ 8 := Nat.pow_le_pow_right (by decide) (by omega)
    omega
  · have hpow : 2 ^ 9 ≤ 2 ^ s.bp.width.toNat := Nat.pow_le_pow_right (by decide) hge
    omega

section
variable {l : List (Nat × Nat)} {s d : State} {c : Code}

/-- What the decoder finds for the code of the encoder's w. -/
theorem lzdString_of_lzeCode {p : List Byte} {b : Byte} {rest : List Byte} {n : Nat} (hs : UnitsLegal s) (hd : d.lzd.legal n)
    (hcode : lzeCode s.lze s.lze.wseq = some c) (hw : lzdEntry d.lzd d.lzd.w = some p) (hseq : s.lze.wseq = b :: rest)
    (hbuilt : s.lze.built.map Prod.fst = d.lzd.built ++ [p ++ [b]]) : lzdString d.lzd c p (b :: rest) := by
  have hentry := lzdEntry_of_lzeCode (d := { d.lzd with built := s.lze.built.map Prod.fst }) hs.lze rfl hcode
  have hlt := (lzeCode_lt hs.lze hcode).1
  have hsize := encoder_size hs
  have hdsize := decoder_size hd
  have hlen := congrArg List.length hbuilt
  rw [List.length_map, List.length_append, List.length_singleton] at hlen
  rw [hseq] at hentry
  by_cases hbelow : c.toNat < d.lzd.size.toNat
  · rw [lzdEntry_append (d := d.lzd) hbuilt (by omega)] at hentry
    exact .inl ⟨hbelow, hentry⟩
  · have heq : c.toNat = 257 + d.lzd.built.length := by omega
    refine .inr ⟨BitVec.eq_of_toNat_eq (by omega), ?_⟩
    rw [lzdEntry_built (by omega), heq, hbuilt, Nat.add_sub_cancel_left, List.getElem?_concat_length] at hentry
    obtain ⟨y, ys, hp, -⟩ := lzdEntry_w hd
    obtain rfl := Option.some.inj (hw.symm.trans hp)
    obtain ⟨rfl, -⟩ := List.cons.inj (Option.some.inj hentry)
    exact (Option.some.inj hentry).symm

/-- The decoder reads the code of the encoder's w, and has caught up. -/
theorem Synced.caughtUp (h : Synced s d) (hs : s.settled) (hfollows : encoderFollows s)
    (hcode : lzeCode s.lze s.lze.wseq = some c) (hgrow : ¬ (s.lze.size.toNat = 2 ^ s.bp.width.toNat - 1 ∧ s.bp.width = 24#5))
    (hd : DecoderAt ((s.bp.width.toNat, c.toNat) :: l) d) :
    ∃ d', readsTo s.lze.wseq d d' ∧ DecoderAt l d' ∧ CaughtUp s d' := by
  obtain ⟨hlt, hne⟩ := lzeCode_lt hs.1.lze hcode
  have hsize := encoder_size hs.1
  have hfits := (width_of_isLength (by omega) hfollows).2
  rw [← h.width] at hd hfits
  have hc : c.toNat < 2 ^ d.bu.width.toNat := lt_trans hlt hfits
  rcases h.built with ⟨hfresh, hdbuilt, hbuilt⟩ | ⟨hfresh, -, p, b, rest, hw, hseq, hbuilt⟩
  · obtain ⟨b, hseq⟩ : ∃ b, s.lze.wseq = [b] := by
      rcases lzeCode_isSome (Option.isSome_of_eq_some hcode) with hone | hmem
      · exact List.length_eq_one_iff.mp hone
      · rw [hbuilt] at hmem
        cases hmem
    have hentry := fun e he => lzdEntry_of_lzeCode (d := e) hs.1.lze he hcode
    have hlit : c.toNat < 0x100 := by
      rw [hseq] at hcode
      obtain rfl := Option.some.inj hcode
      rw [BitVec.toNat_setWidth, Nat.mod_eq_of_lt (lt_trans b.isLt (by decide))]
      exact b.isLt
    obtain ⟨d', hreads, hd', hcfg, hwidth, hfresh', hbuilt', hw'⟩ := hd.read_first hc hfresh hlit
    have hbuilt'' : d'.lzd.built = s.lze.built.map Prod.fst := by rw [hbuilt', hdbuilt, hbuilt, List.map_nil]
    have hentry' := hentry d'.lzd hbuilt''
    have hliteral := (lzdEntry_literal (d := d'.lzd) hlit).symm.trans hentry'
    rw [Option.some.inj hliteral] at hreads
    exact ⟨d', hreads, hd', hcfg.trans h.cfg, by rw [hwidth, h.width, grownWidth_of_fresh hs.1 hbuilt], hfresh', hbuilt'',
      hw'.symm ▸ hentry'⟩
  · have hlen := congrArg List.length hbuilt
    rw [List.length_map, List.length_append, List.length_singleton] at hlen
    have hdsize : d.lzd.size.toNat = 257 + d.lzd.built.length := decoder_size hd.legal.lzd
    have hnext : d.lzd.size.toNat + 1 = s.lze.size.toNat := by omega
    have hstring := lzdString_of_lzeCode hs.1 hd.legal.lzd hcode hw hseq hbuilt
    have hcap : d.lzd.size.toNat ≠ d.cfg.dictCap := by
      have hle := hs.1.lze.size_le
      rw [h.cfg]
      omega
    obtain ⟨d', hreads, hd', hcfg, hwidth, hfresh', hbuilt', hw'⟩ :=
      hd.read_next hc hfresh hne hw hstring hcap (by rwa [hnext, h.width])
    have hbuilt'' : d'.lzd.built = s.lze.built.map Prod.fst := hbuilt'.trans hbuilt.symm
    refine ⟨d', hseq ▸ hreads, hd', hcfg.trans h.cfg, ?_, hfresh', hbuilt'', hw'.symm ▸ lzdEntry_of_lzeCode hs.1.lze hbuilt'' hcode⟩
    rw [hwidth, hnext, h.width]
    rfl

end

end Sys2Proof.Machine

/-! PROOFS. The LZW round trip (44_lzw_encoder.md R99, R100): each command of the encoder adds codes to the stream that its decoder reads
as the bytes given. -/

namespace Sys2Proof.Machine

/-! ## The encoder between two commands -/

/-- An encoder between two commands, that has written the codes `m` and met no fault, with a host that accepts every byte. -/
structure EncoderAt (m : List (Nat × Nat)) (s : State) : Prop where
  settled : s.settled
  rsp : s.rsp = none
  flt : s.lze.flt = 0#6
  ready : s.env.ready = .always
  follows : encoderFollows s
  written : Written m s

/-- Every decoder behind the encoder `s` reads the bytes `y` and then one END from the codes `l`. -/
def decodes (l : List (Nat × Nat)) (y : List Byte) (s : State) : Prop :=
  ∀ d, Synced s d → DecoderAt l d → readsBack .lzdRd y d

/-- The command takes the encoder from `s` to `t`; the codes it adds stand for what it adds to the bytes given. -/
def adds (m : List (Nat × Nat)) (given : List Byte) (s t : State) : Prop :=
  ∃ k, EncoderAt (m ++ k) t ∧ ∀ l y, decodes l (t.lze.wseq ++ y) t → decodes (k ++ l) (s.lze.wseq ++ (given ++ y)) s

section
variable {m m' : List (Nat × Nat)} {s t : State} {c : Code}

/-- What an LZE_WRITE (of a byte) or an LZE_CLEAR leaves is an encoder between two commands again. -/
theorem EncoderAt.next (o : Option Byte) (h : EncoderAt m s) (ht : exec (o.elim .lzeClr .lzeWr) s = .next t)
    (hidle : t.seq = .idle) (hflt : t.lze.flt = 0#6) (hready : t.env.ready = .always) (hw : Written m' t) :
    EncoderAt m' (t.setRsp none) := by
  obtain ⟨v, hv, hlegal⟩ := exec_legal h.settled h.rsp (o.elim .lzeClr .lzeWr)
  cases ht.symm.trans hv
  have hq := hlegal.seq
  unfold seqLegal at hq
  rw [hidle] at hq
  have hu := hlegal.units
  have hkeeps : encoderFollows t :=
    exec_encoderFollows h.settled.1 h.settled.2 h.follows (by cases o <;> exact ⟨fun _ => by simp, by simp⟩) ht hidle
  exact ⟨⟨⟨hu.cfg, hu.bu, hu.lzd, hu.lze, hu.rld, hu.din⟩, hq⟩, rfl, hflt, hready, hkeeps, hw.value, hw.bits⟩

theorem EncoderAt.accepts (h : EncoderAt m s) (n : Nat) : accepts n s := accepts_of_always h.ready n

/-- A w that is held has a code. -/
theorem EncoderAt.code (h : EncoderAt m s) (hhas : s.lze.hasw = true) : ∃ c, lzeCode s.lze s.lze.wseq = some c :=
  Option.isSome_iff_exists.mp (h.settled.1.lze.w_key hhas)

theorem EncoderAt.size_lt (h : EncoderAt m s) : 9 ≤ s.bp.width.toNat ∧ s.lze.size.toNat < 2 ^ s.bp.width.toNat := by
  have hsize := encoder_size h.settled.1
  exact width_of_isLength (by omega) h.follows

theorem clearCode_lt {w : Nat} (h : 9 ≤ w) : clearCode.toNat < 2 ^ w :=
  lt_of_lt_of_le (by decide) (Nat.pow_le_pow_right (by decide) h)

theorem afterWrite_always (h : s.env.ready = .always) (v : Code) : (afterWrite v s).env.ready = .always := by
  rw [afterWrite_ready, h]
  rfl

/-- The code of w, put. -/
theorem EncoderAt.put (h : EncoderAt m s) (hcode : lzeCode s.lze s.lze.wseq = some c) :
    Written (m ++ [(s.bp.width.toNat, c.toNat)]) (afterWrite c s) :=
  h.written.afterWrite h.settled.2.1 (lt_trans (lzeCode_lt h.settled.1.lze hcode).1 h.size_lt.2)

/-! ## What the decoder makes of it -/

/-- A w that grows or begins writes nothing. -/
theorem Synced.silent {d : State} {b : Byte} (h : Synced s d) (hcfg : t.cfg = s.cfg) (hwidth : t.bp.width = s.bp.width)
    (hbuilt : t.lze.built = s.lze.built) (hhas : t.lze.hasw = true) (hseq : t.lze.wseq = s.lze.wseq ++ [b]) : Synced t d := by
  refine ⟨h.cfg.trans hcfg.symm, h.width.trans hwidth.symm, ?_⟩
  rw [hbuilt, hseq]
  rcases h.built with hfresh | ⟨hfresh, -, p, x, rest, hw, hold, hstrings⟩
  · exact .inl hfresh
  · exact .inr ⟨hfresh, hhas, p, x, rest ++ [b], hw, by rw [hold, List.cons_append], hstrings⟩

/-- A new string in the encoder's map: the decoder lacks it alone. -/
theorem CaughtUp.extend {d : State} {b : Byte} {n : Code} (h : CaughtUp s d) (hcfg : t.cfg = s.cfg)
    (hwidth : t.bp.width = grownWidth s) (hbuilt : t.lze.built = s.lze.built ++ [(s.lze.wseq ++ [b], n)])
    (hhas : t.lze.hasw = true) (hseq : t.lze.wseq = [b]) : Synced t d := by
  refine ⟨h.cfg.trans hcfg.symm, h.width.trans hwidth.symm, .inr ⟨h.fresh, hhas, _, b, [], h.entry, hseq, ?_⟩⟩
  rw [hbuilt, h.built, List.map_append, List.map_cons, List.map_nil]

/-- An initialised decoder is behind an initialised encoder. -/
theorem synced_fresh {d : State} (hcfg : d.cfg = t.cfg) (hwidth : d.bu.width = t.bp.width) (hfresh : d.lzd.fresh = true)
    (hdbuilt : d.lzd.built = []) (hbuilt : t.lze.built = []) : Synced t d := ⟨hcfg, hwidth, .inl ⟨hfresh, hdbuilt, hbuilt⟩⟩

/-- The code of w, then others: a decoder that has caught up reads on. -/
theorem EncoderAt.decodes_prefix {l : List (Nat × Nat)} {y : List Byte} (h : EncoderAt m s)
    (hcode : lzeCode s.lze s.lze.wseq = some c) (hgrow : ¬ (s.lze.size.toNat = 2 ^ s.bp.width.toNat - 1 ∧ s.bp.width = 24#5))
    (hrest : ∀ d, CaughtUp s d → DecoderAt l d → readsBack .lzdRd y d) :
    decodes ((s.bp.width.toNat, c.toNat) :: l) (s.lze.wseq ++ y) s := by
  intro d hd hat
  obtain ⟨d', hreads, hat', hup⟩ := hd.caughtUp h.settled h.follows hcode hgrow hat
  exact hreads y (hrest d' hup hat')

/-- A clear code, then others: an initialised decoder reads on. -/
theorem decodes_clear {l : List (Nat × Nat)} {y : List Byte} {w : BitVec 5} (hw : 9 ≤ w.toNat) (hrest : decodes l y t)
    (hwidth : t.bp.width = 9#5) (hbuilt : t.lze.built = []) {d : State} (hdw : d.bu.width = w) (hcfg : d.cfg = t.cfg)
    (h : DecoderAt ((w.toNat, clearCode.toNat) :: l) d) : readsBack .lzdRd y d := by
  subst hdw
  obtain ⟨d', hreads, hat, hcfg', hwidth', hfresh, hdbuilt⟩ := h.read_clear (clearCode_lt hw)
  exact hreads y (hrest d' (synced_fresh (hcfg'.trans hcfg) (hwidth'.trans hwidth.symm) hfresh hdbuilt hbuilt) hat)

/-! ## LZE_WRITE -/

/-- The limits an LZE_WRITE of a new string that is done has not met. -/
theorem EncoderAt.room {b : Byte} (h : EncoderAt m s) (ht : exec (.lzeWr b) s = .next t) (hrsp : t.rsp = some 0#32)
    (hhas : s.lze.hasw = true) (hnew : lzeCode s.lze (s.lze.wseq ++ [b]) = none) :
    s.lze.size.toNat ≠ s.cfg.dictCap ∧ ¬ (s.lze.size.toNat = 2 ^ s.bp.width.toNat - 1 ∧ s.bp.width = 24#5) := by
  obtain ⟨hfull, hwide⟩ := lzeRefusesPastItsLimits b s h.flt hhas
  have hcap : s.lze.size.toNat ≠ s.cfg.dictCap := fun hcap => by
    cases ht.symm.trans (hfull hnew hcap)
    cases hrsp
  refine ⟨hcap, fun ⟨hfills, h24⟩ => ?_⟩
  cases ht.symm.trans ((hwide hfills h24).1 hnew hcap)
  cases hrsp

theorem EncoderAt.write_silent {b : Byte} (h : EncoderAt m s) (ht : exec (.lzeWr b) s = .next t) (hidle : t.seq = .idle)
    (hlze : t.lze = { s.lze with wseq := s.lze.wseq ++ [b], hasw := true }) (hcfg : t.cfg = s.cfg) (hbp : t.bp = s.bp)
    (henv : t.env = s.env) : adds m [b] s (t.setRsp none) := by
  have hw : Written m t := by
    obtain ⟨hvalue, hbits⟩ := h.written
    rw [← hbp, ← henv] at hvalue hbits
    exact ⟨hvalue, hbits⟩
  refine ⟨[], ?_, fun l y hl d hd hat => ?_⟩
  · rw [List.append_nil]
    exact h.next (some b) ht hidle (by rw [hlze]; exact h.flt) (by rw [henv]; exact h.ready) hw
  · have hseq : (t.setRsp none).lze.wseq = s.lze.wseq ++ [b] := congrArg Lze.wseq hlze
    have hread := hl d (hd.silent (t := t.setRsp none) hcfg (congrArg Bp.width hbp) (congrArg Lze.built hlze :) (congrArg Lze.hasw hlze :) hseq) hat
    rwa [hseq, List.append_assoc] at hread

/-- An LZE_WRITE that is done. -/
theorem EncoderAt.write {b : Byte} (h : EncoderAt m s) (ht : exec (.lzeWr b) s = .next t) (hrsp : t.rsp = some 0#32) :
    adds m [b] s (t.setRsp none) := by
  cases hhas : s.lze.hasw with
  | false =>
    cases ht.symm.trans (((lzeWriteExtendsThePrefix.2 b s h.flt).1) hhas)
    exact h.write_silent ht rfl (by rw [h.settled.1.lze.no_w hhas]; rfl) rfl rfl rfl
  | true =>
    cases hnew : lzeCode s.lze (s.lze.wseq ++ [b]) with
    | some e =>
      cases ht.symm.trans ((lzeWriteExtendsThePrefix.2 b s h.flt).2 hhas (Option.isSome_of_eq_some hnew))
      exact h.write_silent ht rfl (by rw [← hhas]) rfl rfl rfl
    | none =>
      obtain ⟨c, hcode⟩ := h.code hhas
      obtain ⟨hcap, hgrow⟩ := h.room ht hrsp hhas hnew
      cases ht.symm.trans (lzeWriteEmitsACode b s c h.settled h.flt hhas hcode hnew hcap hgrow (h.accepts _))
      refine ⟨[(s.bp.width.toNat, c.toNat)], ?_, fun l y hl => ?_⟩
      · have hput := h.put hcode
        exact h.next (some b) ht rfl h.flt (afterWrite_always h.ready c) ⟨hput.value, hput.bits⟩
      · exact h.decodes_prefix hcode hgrow fun d hup hat => hl d (hup.extend rfl rfl rfl hhas rfl) hat

/-! ## LZE_CLEAR -/

/-- An LZE_CLEAR or LZE_FLUSH that is done while w is held has not met the width limit. -/
theorem EncoderAt.not_wide {i : Instr} (hi : i = .lzeClr ∨ i = .lzeFlush) (h : EncoderAt m s) (ht : exec i s = .next t)
    (hrsp : t.rsp = some 0#32) (hhas : s.lze.hasw = true) :
    ¬ (s.lze.size.toNat = 2 ^ s.bp.width.toNat - 1 ∧ s.bp.width = 24#5) := by
  rintro ⟨hfills, h24⟩
  obtain ⟨-, hwide⟩ := lzeRefusesPastItsLimits 0#8 s h.flt hhas
  obtain ⟨-, hclear, hflush⟩ := hwide hfills h24
  rcases hi with rfl | rfl
  · cases ht.symm.trans hclear
    cases hrsp
  · cases ht.symm.trans hflush
    cases hrsp

/-- `s` with the code of w written and the width grown (R95). -/
def afterEmit (c : Code) (s : State) : State :=
  { afterWrite c s with bp := { (afterWrite c s).bp with width := grownWidth s } }

theorem afterEmit_legal (hs : s.settled) (h : ¬ (s.lze.size.toNat = 2 ^ s.bp.width.toNat - 1 ∧ s.bp.width = 24#5)) :
    (afterEmit c s).bp.legal 7 := by
  have hgrown := lzeGrow_bp_legal (afterWrite_legal (v := c) hs.2.1) h
  rwa [lzeGrow_state] at hgrown

/-- An LZE_CLEAR that is done. -/
theorem EncoderAt.clear (h : EncoderAt m s) (ht : exec .lzeClr s = .next t) (hrsp : t.rsp = some 0#32) :
    adds m [] s (t.setRsp none) := by
  obtain ⟨hnone, hprefix⟩ := lzeClearWritesTheClearCode.2 s h.settled h.flt
  have hsize := encoder_size h.settled.1
  cases hhas : s.lze.hasw with
  | false =>
    cases ht.symm.trans (hnone hhas (h.accepts _))
    have hput : Written (m ++ [(s.bp.width.toNat, clearCode.toNat)]) (afterWrite clearCode s) :=
      h.written.afterWrite h.settled.2.1 (clearCode_lt h.size_lt.1)
    refine ⟨_, h.next none ht rfl rfl (afterWrite_always h.ready _) ⟨hput.value, hput.bits⟩,
      fun l y hl d hd hat => ?_⟩
    rw [h.settled.1.lze.no_w hhas]
    exact decodes_clear h.size_lt.1 hl rfl rfl hd.width hd.cfg hat
  | true =>
    obtain ⟨c, hcode⟩ := h.code hhas
    have hgrow := h.not_wide (.inl rfl) ht hrsp hhas
    cases ht.symm.trans (hprefix c (afterEmit c s) hhas hcode hgrow rfl (h.accepts _))
    have hwide : 9 ≤ (grownWidth s).toNat := (width_of_isLength (by omega) (grownWidth_isLength h.settled h.follows)).1
    have hemit : Written (m ++ [(s.bp.width.toNat, c.toNat)]) (afterEmit c s) := ⟨(h.put hcode).value, (h.put hcode).bits⟩
    have hput : Written (m ++ [(s.bp.width.toNat, c.toNat)] ++ [((grownWidth s).toNat, clearCode.toNat)])
        (afterWrite clearCode (afterEmit c s)) := hemit.afterWrite (afterEmit_legal h.settled hgrow) (clearCode_lt hwide)
    rw [List.append_assoc] at hput
    refine ⟨_, h.next none ht rfl rfl (afterWrite_always (s := afterEmit c s) (afterWrite_always h.ready c) _) ⟨hput.value, hput.bits⟩,
      fun l y hl => ?_⟩
    exact h.decodes_prefix hcode hgrow fun d hup hat => decodes_clear hwide hl rfl rfl hup.width hup.cfg hat

/-! ## LZE_FLUSH, and the whole stream -/

/-- The stream is closed: the bytes that have left are those of the codes, which stand for the bytes given. -/
def closes (m : List (Nat × Nat)) (given : List Byte) (s t : State) : Prop :=
  ∃ k u, Written (m ++ k) u ∧ u.bp.legal 7 ∧ t.env.dout = (afterClose u).env.dout ∧ decodes k (s.lze.wseq ++ given) s

/-- An LZE_FLUSH that is done. -/
theorem EncoderAt.flush (h : EncoderAt m s) (ht : exec .lzeFlush s = .next t) (hrsp : t.rsp = some 0#32) :
    closes m [] s (t.setRsp none) := by
  obtain ⟨hnone, hprefix⟩ := lzeFlushEndsTheStream.2 s h.settled h.flt
  have hsize := encoder_size h.settled.1
  cases hhas : s.lze.hasw with
  | false =>
    cases ht.symm.trans (hnone hhas (h.accepts _))
    refine ⟨[], s, by rw [List.append_nil]; exact h.written, h.settled.2.1, rfl, fun d hd hat => ?_⟩
    rw [h.settled.1.lze.no_w hhas]
    exact hat.ends (by rw [hd.width]; exact le_trans (by decide) h.size_lt.1)
  | true =>
    obtain ⟨c, hcode⟩ := h.code hhas
    have hgrow := h.not_wide (.inr rfl) ht hrsp hhas
    cases ht.symm.trans (hprefix c _ hhas hcode hgrow rfl (h.accepts _))
    have hwide := (width_of_isLength (by omega) (grownWidth_isLength h.settled h.follows)).1
    refine ⟨_, _, h.put hcode, afterWrite_legal h.settled.2.1, rfl, h.decodes_prefix hcode hgrow fun d hup hat => ?_⟩
    exact hat.ends (by rw [hup.width]; exact le_trans (by decide) hwide)

/-- Bytes and clears, then the flush, all done. -/
theorem EncoderAt.stream {x : List (Option Byte)} {rs : List Word} (h : EncoderAt m s)
    (hrun : runCommands (x.map (fun o => o.elim .lzeClr .lzeWr) ++ [.lzeFlush]) s = some (rs, t)) (hdone : ∀ r ∈ rs, r = 0#32) :
    closes m x.reduceOption s t := by
  induction x generalizing m s rs with
  | nil =>
    obtain ⟨u, r, rs', hu, -, hr, hrest, rfl⟩ := runCommands_next hrun
    obtain rfl := hdone r List.mem_cons_self
    cases hrest
    exact h.flush hu hr
  | cons o x ih =>
    obtain ⟨u, r, rs', hu, -, hr, hrest, rfl⟩ := runCommands_next hrun
    obtain rfl := hdone r List.mem_cons_self
    obtain ⟨k, hnext, hadds⟩ : adds m o.toList s (u.setRsp none) := by
      cases o with
      | none => exact h.clear hu hr
      | some b => exact h.write hu hr
    obtain ⟨k', v, hwritten, hlegal, hdout, hdecodes⟩ := ih hnext hrest fun r hmem => hdone r (List.mem_cons_of_mem _ hmem)
    have hgiven : (o :: x).reduceOption = o.toList ++ x.reduceOption := by cases o <;> rfl
    refine ⟨k ++ k', v, by rwa [← List.append_assoc], hlegal, hdout, ?_⟩
    rw [hgiven]
    exact hadds k' _ hdecodes

end

/-! ## From reset -/

theorem freshBlock_units {c : Config} (h : c.legal) : UnitsLegal (freshBlock c) :=
  applyReset_core (s := freshBlock c) h

theorem encoderAt_freshBlock {c : Config} (h : c.legal) : EncoderAt [] (freshBlock c) :=
  ⟨⟨freshBlock_units h, applyReset_quiet (freshBlock c)⟩, rfl, rfl, rfl,
    show wLzw0.toNat = Nat.log2 dictInit + 1 by decide, written_reset c⟩

/-- Settles O47: the encoder's codes are read back by a decoder that starts behind it. -/
theorem lzwRoundTrip : Obligations.LzwRoundTrip := by
  intro c x rs t hc hrun hdone
  obtain ⟨k, u, hwritten, hlegal, hdout, hdecodes⟩ := (encoderAt_freshBlock hc).stream hrun hdone
  have hunits := freshBlock_units hc
  have hat : DecoderAt k (freshBlockReading c t.env.dout) :=
    ⟨⟨hunits.cfg, hunits.bu, hunits.lzd, hunits.lze, hunits.rld, Nat.zero_le _⟩, rfl, rfl, rfl, hdout ▸ hwritten.unread hlegal c⟩
  exact hdecodes _ (synced_fresh rfl rfl rfl rfl rfl) hat

end Sys2Proof.Machine
